-- ==== Sys2Proof/Word.lean ====
section
/-! DEFINITION. The plainest value types of the block: bytes, times, satellite indices and the key types of the caches. -/

namespace Sys2Proof

/-- A byte of a buffer (R10). -/
abbrev Byte := BitVec 8

/-- The names of the host's times (R36): State is plain data, so a time is a rational number that stands for it. What the host's
`add_seconds` and `diff_seconds` answer, and so the order of times, is the configuration's (DESIGN CHOICE, log 7). -/
abbrev Time := Rat

/-- The dense satellite index (R33). -/
abbrev SatIndex := Nat

/-- The key type of the correction state. The spec leaves it open (D31); DESIGN CHOICE: the raw integer of the
header field (log 12), safe. -/
abbrev NetworkId := Int

/-- The key type of the integrity state; as `NetworkId` (log 12). -/
abbrev ProviderId := Int

end Sys2Proof
end

