-- ==== Sys2Proof/Config.lean ====
section
/-! DEFINITION. The configuration record CFG (R7, R29) with the enumerations, field descriptors and layouts it is made of,
its defaults, and the values the spec leaves open as constants without a body. -/

namespace Sys2Proof

/-- The closed constellation enumeration (R7, R8). -/
inductive Constellation where
  | gps | glonass | galileo | beidou | qzss | navic | sbas
deriving DecidableEq, Repr

/-- One entry per constellation: a table indexed by the closed enumeration (R8). -/
structure PerCons (α : Type) where
  gps : α
  glonass : α
  galileo : α
  beidou : α
  qzss : α
  navic : α
  sbas : α
deriving DecidableEq, Repr

/-- The entry of constellation `c`. -/
def PerCons.get {α : Type} (t : PerCons α) : Constellation → α
  | .gps => t.gps
  | .glonass => t.glonass
  | .galileo => t.galileo
  | .beidou => t.beidou
  | .qzss => t.qzss
  | .navic => t.navic
  | .sbas => t.sbas

/-- The same entry for every constellation. -/
def PerCons.all {α : Type} (a : α) : PerCons α := ⟨a, a, a, a, a, a, a⟩

/-- Every constellation, in the order of R7. -/
def allConstellations : List Constellation := [.gps, .glonass, .galileo, .beidou, .qzss, .navic, .sbas]

/-- The message families with an SVID offset of their own (R165). -/
inductive Family where
  | eph | msm | ssr | igs | grid | integ
deriving DecidableEq, Repr

/-- A tracking-channel code: frequency band and attribute letter (R34). -/
structure SignalCode where
  band : Nat
  attr : Char
deriving DecidableEq, Repr

/-- Bit order of a mask field (R175, R176). -/
inductive MaskOrder where
  | msb | lsb
deriving DecidableEq, Repr

/-- What a field does with a value that overflows it on write (R132). -/
inductive Ovf where
  | truncate | fail
deriving DecidableEq, Repr

/-- `CFG.IOD_POLICY` (R30). -/
inductive IodPolicy where
  | strict | lenient
deriving DecidableEq, Repr

/-- `CFG.OLD_EPOCH_POLICY` (R307). -/
inductive OldEpochPolicy where
  | drop | replace
deriving DecidableEq, Repr

/-- The seven MSM variants (R95). -/
inductive MsmVariant where
  | v1 | v2 | v3 | v4 | v5 | v6 | v7
deriving DecidableEq, Repr

/-- The type offset of a variant (R96): variant `v` has offset `v - 1`. -/
def MsmVariant.offset : MsmVariant → Nat
  | .v1 => 0 | .v2 => 1 | .v3 => 2 | .v4 => 3 | .v5 => 4 | .v6 => 5 | .v7 => 6

/-- The variants, in order. -/
def allVariants : List MsmVariant := [.v1, .v2, .v3, .v4, .v5, .v6, .v7]

/-- The blocks of the MSM presence matrix (R239). -/
inductive MsmBlock where
  | roughRange | extInfo | fineRange | phase | lockTime | halfCycle | cnr | doppler
deriving DecidableEq, Repr

/-- The seven SSR kinds reachable by a type offset (R95, R97). -/
inductive SsrKind where
  | orbit | clock | combined | hrclock | codebias | phasebias | ura
deriving DecidableEq, Repr

/-- The SSR kinds, in the order of R97's default. -/
def allSsrKinds : List SsrKind := [.orbit, .clock, .combined, .hrclock, .codebias, .phasebias, .ura]

/-- The eight kinds the correction state stores (R44). -/
inductive CacheKind where
  | orbit | clock | hrclock | ura | codebias | phasebias | tropo | iono
deriving DecidableEq, Repr

/-- The station-metadata messages (R206 to R208). -/
inductive StaKind where
  | ant | pos | globias
deriving DecidableEq, Repr

/-- The correction handlers of R265. -/
inductive CorrHandler where
  | ssr (c : Constellation) (k : SsrKind)
  | igs (c : Constellation) (k : SsrKind)
  | gridTropo
  | gridIono
deriving DecidableEq, Repr

/-- The identifiers `CFG.TYPE_TABLE` maps a type to (R95, R194); RAW is the absence of an entry. -/
inductive Handler where
  | msm (c : Constellation) (v : MsmVariant)
  | ssr (c : Constellation) (k : SsrKind)
  | gridTropo
  | gridIono
  | eph (c : Constellation)
  | sta (k : StaKind)
  | igs
  | integ
deriving DecidableEq, Repr

/-- Names of fields: those the rules mention, and numbered others for the rest of a layout (R104). -/
inductive FieldName where
  | stationId | epoch | mm | udi | iod | provider | solution | nsat | networkId | gridId | yawFlag
  | svid | iode | weekRaw | health | uraClass | uraValue | stdev | nsig | slot | bias | intInd | disc | yaw | yawRate
  | npts | version | subtype | residPresent | residWidthCode | residScaleCode | validity | updateRate
  | other (n : Nat)
deriving DecidableEq, Repr

/-- A field descriptor `(name, width, signed, scale, na, ovf)` (R104). -/
structure FieldDesc where
  name : FieldName
  width : Nat
  signed : Bool := false
  scale : Rat := 1
  na : Option Int := none
  ovf : Ovf := .fail
deriving DecidableEq, Repr

/-- Width and index offset of a mask field (R106). -/
structure MaskDesc where
  width : Nat
  offset : Nat
deriving DecidableEq, Repr

/-- The mask fields of the layouts (R106, R179, R333). -/
inductive MaskName where
  | sat | sig | cell | cons | integSat (c : Constellation) | integFreq (c : Constellation) | other (n : Nat)
deriving DecidableEq, Repr

/-- A message of the integrity family (R330): its type, and its subtype where the family's messages of that type have subtypes. -/
structure IntegKey where
  type : Nat
  sub : Option Int
deriving DecidableEq, Repr

/-- What `CFG.IGS_SUBTYPE_TABLE` maps a subtype to: an SSR kind of a constellation (R198), or a grid message that is chosen by a
subtype. R200 does not say whose subtype that is: that it is the one of IGS is the model's (DESIGN CHOICE, log 58). -/
inductive SubTarget where
  | ssr (c : Constellation) (k : SsrKind)
  | gridTropo
  | gridIono
deriving DecidableEq, Repr

/-- A mask field `f` of a layout, the key of `CFG.MASK_ORDER` (R176): the layout's owner and the mask's name. -/
inductive MaskId where
  | msm (c : Constellation) (v : MsmVariant) (m : MaskName)
  | integ (t : IntegKey) (m : MaskName)
  | other (n : Nat)
deriving DecidableEq, Repr

/-- Which of the two signal tables (R32, R169). -/
inductive SigTable where
  | msmSig | ssrSig
deriving DecidableEq, Repr

/-- `CFG.LAYOUT[EPH(c)]` (R220, R223): the fields, and the modulus of the week field (for GPS the spec fixes 1024, R224). -/
structure EphLayout where
  header : List FieldDesc
  weekModulus : Option Nat
deriving DecidableEq, Repr

/-- `CFG.LAYOUT[MSM(c, v)]` (R101, R236 to R241, R245): header fields up to the masks, the two masks, the satellite-level and
signal-level fields with the block each belongs to, and the map from the extended-information raw value to a frequency
channel. -/
structure MsmLayout where
  header : List FieldDesc
  satMask : MaskDesc
  sigMask : MaskDesc
  satFields : List (MsmBlock × FieldDesc)
  sigFields : List (MsmBlock × FieldDesc)
  channelOf : List (Int × Int)
deriving DecidableEq, Repr

/-- `CFG.LAYOUT[SSR(c, k)]` and `CFG.LAYOUT[IGS(c, k)]` (R102, R103, R265 to R278): `record` holds the value fields after the
satellite id (for COMBINED the orbit fields), `clockRecord` the clock fields of COMBINED, `yaw` the yaw pair, `nsig` and
`subrecord` the signal count and the per-signal fields of the bias kinds. -/
structure SsrLayout where
  header : List FieldDesc
  svid : FieldDesc
  record : List FieldDesc
  clockRecord : List FieldDesc
  yaw : Option (FieldDesc × FieldDesc)
  nsig : Option FieldDesc
  subrecord : List FieldDesc
deriving DecidableEq, Repr

/-- The sentinel of the message-supplied residual width (R281, "sentinel per layout"). -/
inductive ResidNa where
  | none | mostNegative | mostPositive | allOnes | value (v : Int)
deriving DecidableEq, Repr

/-- The residual block of a grid layout (R281): the three fields and the two layout functions. -/
structure ResidLayout where
  present : FieldDesc
  widthCode : FieldDesc
  scaleCode : FieldDesc
  width : List (Int × Nat)
  scale : List (Int × Rat)
  na : ResidNa
deriving DecidableEq, Repr

/-- The per-satellite form of a grid layout (R280): the satellite id field and the constellation its ids belong to
(the rule leaves `c` to the layout, log 28). -/
structure GridSat where
  svid : FieldDesc
  cons : Constellation
deriving DecidableEq, Repr

/-- `CFG.LAYOUT[GRID_TROPO]` and `CFG.LAYOUT[GRID_IONO]` (R279 to R281): `npointsField` names the header field that holds the
number of points, or the size is configured per grid. -/
structure GridLayout where
  header : List FieldDesc
  perSat : Option GridSat
  record : List FieldDesc
  resid : Option ResidLayout
  npointsField : Option FieldName
  npointsOfGrid : List (NetworkId × Nat)
deriving DecidableEq, Repr

/-- One item of a station layout (R206): a field, or a counted string (count field, then that many bytes). -/
inductive StaItem where
  | field (d : FieldDesc)
  | str (name : FieldName) (count : FieldDesc)
deriving DecidableEq, Repr

/-- The name of an item. -/
def StaItem.name : StaItem → FieldName
  | .field d => d.name
  | .str n _ => n

/-- `CFG.LAYOUT[IGS].prefix` and the subtype field (R285); the same for an integrity type whose messages have subtypes (R330). -/
structure IgsPrefix where
  pre : List FieldDesc
  subtype : FieldDesc
deriving DecidableEq, Repr

/-- A frequency or signal mask of an integrity layout (R330): with a table its indices are slots converted by `SIG_OF`. -/
structure FreqMask where
  mask : MaskDesc
  table : Option SigTable
deriving DecidableEq, Repr

/-- What an integrity layout reads for one satellite of a constellation, or for one frequency or signal of it: the record of that
element, or the records of its pairs with every frequency or satellite. -/
inductive IntegInner where
  | record (ds : List FieldDesc)
  | each (ds : List FieldDesc)
deriving DecidableEq, Repr

/-- What an integrity layout reads for one constellation (R330): its masks, its own record, and what it iterates. -/
inductive IntegConsStep where
  | satMask
  | freqMask
  | record (ds : List FieldDesc)
  | eachSat (steps : List IntegInner)
  | eachFreq (steps : List IntegInner)
deriving DecidableEq, Repr

/-- What an integrity layout reads after its header (R330): "the order of masks and records is the layout's". -/
inductive IntegStep where
  | consMask
  | record (ds : List FieldDesc)
  | eachCons (steps : List IntegConsStep)
deriving DecidableEq, Repr

/-- `CFG.LAYOUT[INTEG(t)]` (R330, R333, R334, R338): the header, the masks, and the order of masks and records. -/
structure IntegLayout where
  header : List FieldDesc
  consMask : MaskDesc
  consOf : List (Nat × Constellation)
  satMask : PerCons (Option MaskDesc)
  freqMask : PerCons (Option FreqMask)
  body : List IntegStep
  nearest : Bool
deriving DecidableEq, Repr

/-- The record fields of the steps inside an element. -/
def IntegInner.descs : IntegInner → List FieldDesc
  | .record ds => ds
  | .each ds => ds

/-- The record fields of the steps of a constellation. -/
def IntegConsStep.descs : IntegConsStep → List FieldDesc
  | .satMask => []
  | .freqMask => []
  | .record ds => ds
  | .eachSat steps => steps.flatMap IntegInner.descs
  | .eachFreq steps => steps.flatMap IntegInner.descs

/-- The record fields of a layout's steps. -/
def IntegStep.descs : IntegStep → List FieldDesc
  | .consMask => []
  | .record ds => ds
  | .eachCons steps => steps.flatMap IntegConsStep.descs

/-- Every record field of an integrity layout. -/
def IntegLayout.records (l : IntegLayout) : List FieldDesc := l.body.flatMap IntegStep.descs

/-- `CFG.CRC` (R145). -/
structure CrcParams where
  poly : BitVec 24
  init : BitVec 24
  refin : Bool
  refout : Bool
  xorout : BitVec 24
deriving DecidableEq, Repr

/-- A configuration R145 gives no rule for. -/
def CrcParams.reflected (p : CrcParams) : Bool := p.refin || p.refout

/-- `CFG.PRN_MIN[c]`, `CFG.PRN_MAX[c]`, `CFG.IDX_BASE[c]` (R160, R163). -/
structure PrnRange where
  min : Nat
  max : Nat
  base : Nat
deriving DecidableEq, Repr

/-- The handlers that convert a wire epoch (R36, R236, R265, R330). -/
inductive EpochKey where
  | msm (c : Constellation) (v : MsmVariant)
  | corr (h : CorrHandler)
  | integ
deriving DecidableEq, Repr

/-- The configuration record of R7. Tables are lists of rows looked up by their first component; a missing row is a missing
entry (R8). The host's functions of R36 are parameters here: `addRows` and `diffRows` list points of its `add_seconds` and `diff_seconds`
(log 7), `epochRows` of its `epoch_of` (log 8), and `weekZero`, `weekLength` and `weekRows` are its week starts (log 9); `splitBias` is the
model's own (log 31). -/
structure Cfg where
  preamble : Byte
  crc : CrcParams
  prn : PerCons (Option PrnRange)
  svidOffset : List ((Family × Constellation) × Nat)
  msmSig : List ((Constellation × Nat) × SignalCode)
  ssrSig : List ((Constellation × Nat) × SignalCode)
  freq : List ((Constellation × SignalCode × Option Int) × Rat)
  c : Rat
  typeTable : List (Nat × Handler)
  msmBase : PerCons (Option Nat)
  ssrBase : PerCons (Option Nat)
  ssrKindOfOffset : List SsrKind
  testBase : PerCons (Option Nat)
  testKindOfOffset : List (Nat × SsrKind)
  ephType : PerCons (Option Nat)
  antType : Option Nat
  posType : Option Nat
  globiasType : Option Nat
  igsType : Option Nat
  igsSubtypeTable : List (Int × SubTarget)
  msmLayout : List ((Constellation × MsmVariant) × MsmLayout)
  ssrLayout : List ((Constellation × SsrKind) × SsrLayout)
  igsPrefix : Option IgsPrefix
  igsLayout : List ((Constellation × SsrKind) × SsrLayout)
  ephLayout : PerCons (Option EphLayout)
  staLayout : List (StaKind × List StaItem)
  tropoLayout : Option GridLayout
  ionoLayout : Option GridLayout
  integPrefix : List (Nat × IgsPrefix)
  integLayout : List (IntegKey × IntegLayout)
  msmPresent : List (MsmVariant × List MsmBlock)
  uraTable : List ((Int × Int) × Rat)
  integTable : List (FieldName × List (Option Rat))
  maskOrder : List (MaskId × MaskOrder)
  iodPolicy : IodPolicy
  lockEqRaises : Bool
  oldEpochPolicy : OldEpochPolicy
  addRows : List ((Time × Rat) × Time)
  diffRows : List ((Time × Time) × Rat)
  epochRows : List ((EpochKey × Int × Time) × Time)
  weekZero : PerCons Time
  weekLength : PerCons Rat
  weekRows : List ((Constellation × Int) × Time)
  splitBias : Rat
deriving DecidableEq, Repr

/-- The configuration fields right after reset: the three policy defaults of R55, the defaults of D2, D4 and G13 for the
preamble, the CRC and C, the kind order of D18, and empty tables. DESIGN CHOICE (log 4), unsafe: the spec calls every other
field unspecified until HOST_CONFIG; no operation reads one before it (R382). The week length is PRESUMED (log 9). -/
def Cfg.default : Cfg where
  preamble := 0xD3
  crc := ⟨0x864CFB, 0, false, false, 0⟩
  prn := PerCons.all none
  svidOffset := []
  msmSig := []
  ssrSig := []
  freq := []
  c := 299792458
  typeTable := []
  msmBase := PerCons.all none
  ssrBase := PerCons.all none
  ssrKindOfOffset := allSsrKinds
  testBase := PerCons.all none
  testKindOfOffset := []
  ephType := PerCons.all none
  antType := none
  posType := none
  globiasType := none
  igsType := none
  igsSubtypeTable := []
  msmLayout := []
  ssrLayout := []
  igsPrefix := none
  igsLayout := []
  ephLayout := PerCons.all none
  staLayout := []
  tropoLayout := none
  ionoLayout := none
  integPrefix := []
  integLayout := []
  msmPresent := []
  uraTable := []
  integTable := []
  maskOrder := []
  iodPolicy := .lenient
  lockEqRaises := true
  oldEpochPolicy := .drop
  addRows := []
  diffRows := []
  epochRows := []
  weekZero := PerCons.all 0
  weekLength := PerCons.all 604800
  weekRows := []
  splitBias := 0

/-! ## Values the spec leaves open: constants without a body -/

/-- The information word of the `n`-th UsageError whose offending argument R346 does not name (log 10). -/
opaque Config.freeInfo : Nat → Int

/-- Which of the nearest weeks, if there are several, ADJUST_WEEK takes (U6, log 9): a place in the list of them. -/
opaque Config.weekTie : Int → Nat → Time → Nat

/-- The byte a cursor reads at a position of its span where the buffer has none (log 19); the first argument is the model's free
counter. -/
opaque Config.absentByte : Nat → Nat → Byte

/-- The payload RAW answers while `F.valid = 0` (U1, log 20); the argument is the model's free counter. -/
opaque Config.freePayload : Nat → List Byte

/-- The type RAW answers for an IGS message with an unknown subtype while `F.valid = 0` (U1, log 20). -/
opaque Config.freeType : Nat → BitVec 12

/-- Which neighbour a value exactly between two raw integers is rounded to on the reverse path (R134, log 32): true for the
greater one. -/
opaque Config.roundTieUp : Rat → Bool

/-- The raw value of a field that an encoded message does not determine (log 31): by the model's free counter, and the field's place in
the message. -/
opaque Config.freeField : Nat → List Nat → Nat

/-- What SYNC_SCAN answers for a start beyond the stream (log 18); the first argument is the model's free counter. -/
opaque Config.freeScan : Nat → Nat → Option Nat

/-- The phase in cycles of a range and a frequency under `CFG.C = 0`, where R244's quotient has no value (log 24). -/
opaque Config.cyclesAtZeroC : Rat → Rat → Option Rat

/-- The host's `epoch_of` (R36) at the points the configuration does not list (log 8). -/
opaque Config.epochOf : EpochKey → Int → Time → Time

end Sys2Proof
end

