-- ==== Sys2Proof/Syntax.lean ====
section
/-! DEFINITION. The typed values and messages of the block (R15, R33 to R35, R45, R268) and the one inductive of instructions:
one constructor per row of spec/opcode_table.json. -/

namespace Sys2Proof

/-- A field's value (R15, R105): `NA`, or the pair `(raw, scale)` standing for the exact rational `raw * scale`; `exact q` is a
value that is not read from the wire but looked up (the standard deviation of R282). -/
inductive Value where
  | na
  | scaled (raw : Int) (scale : Rat)
  | exact (q : Rat)
deriving DecidableEq, Repr

/-- A record of named values, in layout order. -/
abbrev Fields := List (FieldName × Value)

/-- A phase-bias record (R277): the value, the integer indicator and the discontinuity counter. -/
structure PhaseBias where
  value : Value
  intInd : Value
  disc : Value
deriving DecidableEq, Repr

/-- The key of a record inside a cache entry (R45, R279, R280). -/
inductive EntryKey where
  | sat (s : SatIndex)
  | model
  | point (p : Nat)
deriving DecidableEq, Repr

/-- A record of the correction state, by cache kind (R45, R271 to R280); `combined` is the record of a combined message before it is
split into its orbit and clock parts (R273). -/
inductive Record where
  | vals (fs : Fields)
  | combined (orbit clock : Fields)
  | code (m : List (SignalCode × Value))
  | phase (yaw yawRate : Value) (m : List (SignalCode × PhaseBias))
  | resid (v : Value)
  | gridSat (fs : Fields) (resid : List Value)
deriving DecidableEq, Repr

/-- A header code as read (R266): `NA` stays apart from every integer (R397). -/
inductive HdrCode where
  | na
  | code (raw : Int)
deriving DecidableEq, Repr

/-- The header values CACHE_UPDATE uses (R304, R308): each is absent when the layout has no such field. -/
structure CorrHdr where
  iod : Option HdrCode
  udi : Option HdrCode
  provider : Option HdrCode
  solution : Option HdrCode
  mm : Bool
deriving DecidableEq, Repr

/-- The states of a cache entry (R43, R303). -/
inductive KindState where
  | empty | partialSet | complete
deriving DecidableEq, Repr

/-- What one CACHE_UPDATE reports (R268, R304): the kind, the entry's state afterwards, and whether the message was stale. -/
structure KindReport where
  kind : CacheKind
  st : KindState
  stale : Bool
deriving DecidableEq, Repr

/-- `Ephemeris` (R35 (a), R220). -/
structure EphRecord where
  cons : Constellation
  fields : Fields
  sat : SatIndex
  week : Option Int
deriving DecidableEq, Repr

/-- `ObservationBlock` (R35 (b), R249): arrays indexed by satellite, then signal. -/
structure ObsBlock where
  cons : Constellation
  variant : MsmVariant
  hdr : Fields
  epoch : Option Time
  sats : List SatIndex
  sigs : List SignalCode
  prange : List (List (Option Rat))
  phase : List (List (Option Rat))
  cnr : List (List (Option Rat))
  doppler : List (List (Option Rat))
  half : List (List Nat)
  lli : List (List Bool)
deriving DecidableEq, Repr

/-- `CorrectionUpdate` (R35 (c), R268); `pre` holds the fields before the subtype of an IGS message (R285), and is `none` for a
message selected by its type alone. -/
structure CorrUpdate where
  handler : CorrHandler
  pre : Option Fields
  network : NetworkId
  hdr : Fields
  recs : List (EntryKey × Record)
  reports : List KindReport
  iodMismatch : Bool
deriving DecidableEq, Repr

/-- The result of LOOKUP (R331, R332): `NotProvided` differs from every `Provided x`. -/
inductive IntegVal where
  | provided (q : Rat)
  | notProvided
deriving DecidableEq, Repr

/-- A header value of an integrity message: read plainly, or looked up (R331). -/
inductive IntegHdrVal where
  | plain (v : Value)
  | looked (v : IntegVal)
deriving DecidableEq, Repr

/-- One index of a frequency or signal mask (R330). -/
inductive FreqItem where
  | index (k : Nat)
  | signal (g : SignalCode)
deriving DecidableEq, Repr

/-- The element a record of an integrity message belongs to (R330). -/
inductive IntegElem where
  | message
  | cons (c : Constellation)
  | sat (c : Constellation) (s : SatIndex)
  | freq (c : Constellation) (f : FreqItem)
  | signal (c : Constellation) (s : SatIndex) (f : FreqItem)
deriving DecidableEq, Repr

/-- The part of a provider's state one message type writes (R335, R336): header values, masks and looked-up values. -/
structure IntegPart where
  hdr : List (FieldName × IntegHdrVal)
  cons : List Constellation
  sats : List (Constellation × List SatIndex)
  freqs : List (Constellation × List FreqItem)
  vals : List (IntegElem × List (FieldName × IntegVal))
deriving DecidableEq, Repr

/-- `IntegrityUpdate` (R35 (d), R330); `pre` holds the fields before the subtype of a message that has one. -/
structure IntegUpdate where
  key : IntegKey
  pre : Fields
  provider : ProviderId
  part : IntegPart
deriving DecidableEq, Repr

/-- One value of a station record (R206): a number or a byte string. -/
inductive StaVal where
  | num (v : Value)
  | bytes (b : List Byte)
deriving DecidableEq, Repr

/-- The decoded message, the tagged union of R27 and R35. -/
inductive Message where
  | ephemeris (r : EphRecord)
  | observation (b : ObsBlock)
  | correction (u : CorrUpdate)
  | integrity (u : IntegUpdate)
  | station (k : StaKind) (fs : List (FieldName × StaVal))
  | rawUnhandled (t : BitVec 12) (payload : List Byte)
deriving DecidableEq, Repr

/-- The buffer a cursor spans (R25): `STREAM`, or `OBUF` on the reverse path. -/
inductive Space where
  | stream | obuf
deriving DecidableEq, Repr

/-- The instructions: the 42 operations of R100 with their operands, the FRAME format (R90), and the 120 message rows selected by
the message type (R94 to R99). -/
inductive Instr where
  /-- `RESET` (R380, 70_reset_and_hazards.md). -/
  | reset
  /-- `HOST_CONFIG` (R215, 44_dispatch.md). -/
  | hostConfig (cfg : Cfg)
  /-- `HOST_LOAD` (R214, 44_dispatch.md). -/
  | hostLoad (bytes : List Byte) (scan : Nat)
  /-- `HOST_SET_REFTIME` (R216, 44_dispatch.md). -/
  | hostSetRefTime (t : Time)
  /-- `HOST_EVICT` (R318, 48_state_cache.md). -/
  | hostEvict (n : NetworkId)
  /-- `HOST_EVICT_PROVIDER` (R318, 48_state_cache.md). -/
  | hostEvictProvider (p : ProviderId)
  /-- `HOST_READ` (R317, 48_state_cache.md). -/
  | hostRead (n : NetworkId) (k : CacheKind)
  /-- `DECODE_ONE` (R190, 44_dispatch.md). -/
  | decodeOne
  /-- `ENCODE_ONE` (R210, 44_dispatch.md). -/
  | encodeOne (msg : Message)
  /-- `FIND_FRAME` (R146, 41_framesync.md). -/
  | findFrame (start : Nat)
  /-- `SYNC_SCAN` (R141, 41_framesync.md). -/
  | syncScan (start : Nat)
  /-- `LEN_READ` (R142, 41_framesync.md). -/
  | lenRead (p : Nat)
  /-- `BOUND_CHECK` (R144, 41_framesync.md). -/
  | boundCheck (p len : Nat)
  /-- `CRC24` (R145, 41_framesync.md). -/
  | crc24 (data : List Byte)
  /-- `FRAME_EMIT` (R152, 41_framesync.md). -/
  | frameEmit (payload : List Byte)
  /-- `CUR_INIT` (R120, 40_bitfield.md). -/
  | curInit (space : Space) (base n : Nat)
  /-- `READ_U` (R121, 40_bitfield.md). -/
  | readU (w : Nat)
  /-- `READ_S` (R122, 40_bitfield.md). -/
  | readS (w : Nat)
  /-- `READ_BYTES` (R127, 40_bitfield.md). -/
  | readBytes (n : Nat)
  /-- `WRITE_U` (R129, 40_bitfield.md). -/
  | writeU (w : Nat) (v : Int) (ovf : Ovf)
  /-- `WRITE_S` (R130, 40_bitfield.md). -/
  | writeS (w : Nat) (v : Int) (ovf : Ovf)
  /-- `WRITE_BYTES` (R131, 40_bitfield.md). -/
  | writeBytes (b : List Byte)
  /-- `READ_FIELD` (R113, 30_encoding.md). -/
  | readField (d : FieldDesc)
  /-- `READ_MASK` (R113, 30_encoding.md). -/
  | readMask (f : MaskId) (width offset : Nat)
  /-- `TO_INDEX` (R160, 42_satid.md). -/
  | toIndex (c : Constellation) (prn : Nat)
  /-- `FROM_INDEX` (R161, 42_satid.md). -/
  | fromIndex (idx : Nat)
  /-- `SVID_OFFSET` (R165, 42_satid.md). -/
  | svidOffset (fam : Family) (c : Constellation)
  /-- `SVID_TO_SAT` (R166, 42_satid.md). -/
  | svidToSat (fam : Family) (c : Constellation) (svid : Nat)
  /-- `SAT_TO_SVID` (R167, 42_satid.md). -/
  | satToSvid (fam : Family) (idx : SatIndex)
  /-- `SIG_OF` (R169, 42_satid.md). -/
  | sigOf (table : SigTable) (c : Constellation) (slot : Nat)
  /-- `DECODE_MASK` (R175, 43_mask.md). -/
  | decodeMask (bits width offset : Nat) (order : MaskOrder)
  /-- `ENCODE_MASK` (R177, 43_mask.md). -/
  | encodeMask (indices : List Nat) (width offset : Nat) (order : MaskOrder)
  /-- `DISPATCH` (R193, 44_dispatch.md). -/
  | dispatch
  /-- `ADJUST_WEEK` (R223, 45_ephemeris.md). -/
  | adjustWeek (c : Constellation) (rawWeek : Int) (ref : Time)
  /-- `LOCK_CHECK` (R251, 46_observation_msm.md). -/
  | lockCheck (sat : SatIndex) (g : SignalCode) (n : Nat)
  /-- `READ_HEADER` (R266, 47_correction_ssr.md). -/
  | readHeader (h : CorrHandler)
  /-- `DECODE_URA` (R282, 47_correction_ssr.md). -/
  | decodeUra (cls value : Int)
  /-- `QUANTIZE` (R284, 47_correction_ssr.md). -/
  | quantize (stdev : Rat)
  /-- `IOD_CHECK` (R283, 47_correction_ssr.md). -/
  | iodCheck (n : NetworkId) (kinds : List CacheKind) (t : Time) (iod : Option HdrCode)
  /-- `CACHE_UPDATE` (R304, 48_state_cache.md). -/
  | cacheUpdate (n : NetworkId) (k : CacheKind) (t : Time) (hdr : CorrHdr) (recs : List (EntryKey × Record))
  /-- `LOOKUP` (R331, 49_integrity.md). -/
  | lookup (d : FieldDesc) (idx : Nat)
  /-- `IS_UPDATE` (R336, 49_integrity.md). -/
  | isUpdate (p : ProviderId) (t : Time) (key : IntegKey) (part : IntegPart)
  /-- `FRAME` (R90, 30_encoding.md). -/
  | frame (pad : BitVec 6) (payload : List Byte) (crc : BitVec 24)
  /-- `MSM1.GPS` (R253, 46_observation_msm.md). -/
  | msm1Gps
  /-- `MSM2.GPS` (R254, 46_observation_msm.md). -/
  | msm2Gps
  /-- `MSM3.GPS` (R255, 46_observation_msm.md). -/
  | msm3Gps
  /-- `MSM4.GPS` (R256, 46_observation_msm.md). -/
  | msm4Gps
  /-- `MSM5.GPS` (R257, 46_observation_msm.md). -/
  | msm5Gps
  /-- `MSM6.GPS` (R258, 46_observation_msm.md). -/
  | msm6Gps
  /-- `MSM7.GPS` (R259, 46_observation_msm.md). -/
  | msm7Gps
  /-- `MSM1.GLONASS` (R253, 46_observation_msm.md). -/
  | msm1Glonass
  /-- `MSM2.GLONASS` (R254, 46_observation_msm.md). -/
  | msm2Glonass
  /-- `MSM3.GLONASS` (R255, 46_observation_msm.md). -/
  | msm3Glonass
  /-- `MSM4.GLONASS` (R256, 46_observation_msm.md). -/
  | msm4Glonass
  /-- `MSM5.GLONASS` (R257, 46_observation_msm.md). -/
  | msm5Glonass
  /-- `MSM6.GLONASS` (R258, 46_observation_msm.md). -/
  | msm6Glonass
  /-- `MSM7.GLONASS` (R259, 46_observation_msm.md). -/
  | msm7Glonass
  /-- `MSM1.Galileo` (R253, 46_observation_msm.md). -/
  | msm1Galileo
  /-- `MSM2.Galileo` (R254, 46_observation_msm.md). -/
  | msm2Galileo
  /-- `MSM3.Galileo` (R255, 46_observation_msm.md). -/
  | msm3Galileo
  /-- `MSM4.Galileo` (R256, 46_observation_msm.md). -/
  | msm4Galileo
  /-- `MSM5.Galileo` (R257, 46_observation_msm.md). -/
  | msm5Galileo
  /-- `MSM6.Galileo` (R258, 46_observation_msm.md). -/
  | msm6Galileo
  /-- `MSM7.Galileo` (R259, 46_observation_msm.md). -/
  | msm7Galileo
  /-- `MSM1.BeiDou` (R253, 46_observation_msm.md). -/
  | msm1Beidou
  /-- `MSM2.BeiDou` (R254, 46_observation_msm.md). -/
  | msm2Beidou
  /-- `MSM3.BeiDou` (R255, 46_observation_msm.md). -/
  | msm3Beidou
  /-- `MSM4.BeiDou` (R256, 46_observation_msm.md). -/
  | msm4Beidou
  /-- `MSM5.BeiDou` (R257, 46_observation_msm.md). -/
  | msm5Beidou
  /-- `MSM6.BeiDou` (R258, 46_observation_msm.md). -/
  | msm6Beidou
  /-- `MSM7.BeiDou` (R259, 46_observation_msm.md). -/
  | msm7Beidou
  /-- `MSM1.QZSS` (R253, 46_observation_msm.md). -/
  | msm1Qzss
  /-- `MSM2.QZSS` (R254, 46_observation_msm.md). -/
  | msm2Qzss
  /-- `MSM3.QZSS` (R255, 46_observation_msm.md). -/
  | msm3Qzss
  /-- `MSM4.QZSS` (R256, 46_observation_msm.md). -/
  | msm4Qzss
  /-- `MSM5.QZSS` (R257, 46_observation_msm.md). -/
  | msm5Qzss
  /-- `MSM6.QZSS` (R258, 46_observation_msm.md). -/
  | msm6Qzss
  /-- `MSM7.QZSS` (R259, 46_observation_msm.md). -/
  | msm7Qzss
  /-- `MSM1.NavIC` (R253, 46_observation_msm.md). -/
  | msm1Navic
  /-- `MSM2.NavIC` (R254, 46_observation_msm.md). -/
  | msm2Navic
  /-- `MSM3.NavIC` (R255, 46_observation_msm.md). -/
  | msm3Navic
  /-- `MSM4.NavIC` (R256, 46_observation_msm.md). -/
  | msm4Navic
  /-- `MSM5.NavIC` (R257, 46_observation_msm.md). -/
  | msm5Navic
  /-- `MSM6.NavIC` (R258, 46_observation_msm.md). -/
  | msm6Navic
  /-- `MSM7.NavIC` (R259, 46_observation_msm.md). -/
  | msm7Navic
  /-- `MSM1.SBAS` (R253, 46_observation_msm.md). -/
  | msm1Sbas
  /-- `MSM2.SBAS` (R254, 46_observation_msm.md). -/
  | msm2Sbas
  /-- `MSM3.SBAS` (R255, 46_observation_msm.md). -/
  | msm3Sbas
  /-- `MSM4.SBAS` (R256, 46_observation_msm.md). -/
  | msm4Sbas
  /-- `MSM5.SBAS` (R257, 46_observation_msm.md). -/
  | msm5Sbas
  /-- `MSM6.SBAS` (R258, 46_observation_msm.md). -/
  | msm6Sbas
  /-- `MSM7.SBAS` (R259, 46_observation_msm.md). -/
  | msm7Sbas
  /-- `SSR.ORBIT.GPS` (R271, 47_correction_ssr.md). -/
  | ssrOrbitGps
  /-- `SSR.CLOCK.GPS` (R272, 47_correction_ssr.md). -/
  | ssrClockGps
  /-- `SSR.COMBINED.GPS` (R273, 47_correction_ssr.md). -/
  | ssrCombinedGps
  /-- `SSR.HRCLOCK.GPS` (R274, 47_correction_ssr.md). -/
  | ssrHrclockGps
  /-- `SSR.CODEBIAS.GPS` (R276, 47_correction_ssr.md). -/
  | ssrCodebiasGps
  /-- `SSR.PHASEBIAS.GPS` (R277, 47_correction_ssr.md). -/
  | ssrPhasebiasGps
  /-- `SSR.URA.GPS` (R275, 47_correction_ssr.md). -/
  | ssrUraGps
  /-- `SSR.ORBIT.GLONASS` (R271, 47_correction_ssr.md). -/
  | ssrOrbitGlonass
  /-- `SSR.CLOCK.GLONASS` (R272, 47_correction_ssr.md). -/
  | ssrClockGlonass
  /-- `SSR.COMBINED.GLONASS` (R273, 47_correction_ssr.md). -/
  | ssrCombinedGlonass
  /-- `SSR.HRCLOCK.GLONASS` (R274, 47_correction_ssr.md). -/
  | ssrHrclockGlonass
  /-- `SSR.CODEBIAS.GLONASS` (R276, 47_correction_ssr.md). -/
  | ssrCodebiasGlonass
  /-- `SSR.PHASEBIAS.GLONASS` (R277, 47_correction_ssr.md). -/
  | ssrPhasebiasGlonass
  /-- `SSR.URA.GLONASS` (R275, 47_correction_ssr.md). -/
  | ssrUraGlonass
  /-- `SSR.ORBIT.Galileo` (R271, 47_correction_ssr.md). -/
  | ssrOrbitGalileo
  /-- `SSR.CLOCK.Galileo` (R272, 47_correction_ssr.md). -/
  | ssrClockGalileo
  /-- `SSR.COMBINED.Galileo` (R273, 47_correction_ssr.md). -/
  | ssrCombinedGalileo
  /-- `SSR.HRCLOCK.Galileo` (R274, 47_correction_ssr.md). -/
  | ssrHrclockGalileo
  /-- `SSR.CODEBIAS.Galileo` (R276, 47_correction_ssr.md). -/
  | ssrCodebiasGalileo
  /-- `SSR.PHASEBIAS.Galileo` (R277, 47_correction_ssr.md). -/
  | ssrPhasebiasGalileo
  /-- `SSR.URA.Galileo` (R275, 47_correction_ssr.md). -/
  | ssrUraGalileo
  /-- `SSR.ORBIT.BeiDou` (R271, 47_correction_ssr.md). -/
  | ssrOrbitBeidou
  /-- `SSR.CLOCK.BeiDou` (R272, 47_correction_ssr.md). -/
  | ssrClockBeidou
  /-- `SSR.COMBINED.BeiDou` (R273, 47_correction_ssr.md). -/
  | ssrCombinedBeidou
  /-- `SSR.HRCLOCK.BeiDou` (R274, 47_correction_ssr.md). -/
  | ssrHrclockBeidou
  /-- `SSR.CODEBIAS.BeiDou` (R276, 47_correction_ssr.md). -/
  | ssrCodebiasBeidou
  /-- `SSR.PHASEBIAS.BeiDou` (R277, 47_correction_ssr.md). -/
  | ssrPhasebiasBeidou
  /-- `SSR.URA.BeiDou` (R275, 47_correction_ssr.md). -/
  | ssrUraBeidou
  /-- `SSR.ORBIT.QZSS` (R271, 47_correction_ssr.md). -/
  | ssrOrbitQzss
  /-- `SSR.CLOCK.QZSS` (R272, 47_correction_ssr.md). -/
  | ssrClockQzss
  /-- `SSR.COMBINED.QZSS` (R273, 47_correction_ssr.md). -/
  | ssrCombinedQzss
  /-- `SSR.HRCLOCK.QZSS` (R274, 47_correction_ssr.md). -/
  | ssrHrclockQzss
  /-- `SSR.CODEBIAS.QZSS` (R276, 47_correction_ssr.md). -/
  | ssrCodebiasQzss
  /-- `SSR.PHASEBIAS.QZSS` (R277, 47_correction_ssr.md). -/
  | ssrPhasebiasQzss
  /-- `SSR.URA.QZSS` (R275, 47_correction_ssr.md). -/
  | ssrUraQzss
  /-- `SSR.ORBIT.NavIC` (R271, 47_correction_ssr.md). -/
  | ssrOrbitNavic
  /-- `SSR.CLOCK.NavIC` (R272, 47_correction_ssr.md). -/
  | ssrClockNavic
  /-- `SSR.COMBINED.NavIC` (R273, 47_correction_ssr.md). -/
  | ssrCombinedNavic
  /-- `SSR.HRCLOCK.NavIC` (R274, 47_correction_ssr.md). -/
  | ssrHrclockNavic
  /-- `SSR.CODEBIAS.NavIC` (R276, 47_correction_ssr.md). -/
  | ssrCodebiasNavic
  /-- `SSR.PHASEBIAS.NavIC` (R277, 47_correction_ssr.md). -/
  | ssrPhasebiasNavic
  /-- `SSR.URA.NavIC` (R275, 47_correction_ssr.md). -/
  | ssrUraNavic
  /-- `SSR.ORBIT.SBAS` (R271, 47_correction_ssr.md). -/
  | ssrOrbitSbas
  /-- `SSR.CLOCK.SBAS` (R272, 47_correction_ssr.md). -/
  | ssrClockSbas
  /-- `SSR.COMBINED.SBAS` (R273, 47_correction_ssr.md). -/
  | ssrCombinedSbas
  /-- `SSR.HRCLOCK.SBAS` (R274, 47_correction_ssr.md). -/
  | ssrHrclockSbas
  /-- `SSR.CODEBIAS.SBAS` (R276, 47_correction_ssr.md). -/
  | ssrCodebiasSbas
  /-- `SSR.PHASEBIAS.SBAS` (R277, 47_correction_ssr.md). -/
  | ssrPhasebiasSbas
  /-- `SSR.URA.SBAS` (R275, 47_correction_ssr.md). -/
  | ssrUraSbas
  /-- `SSR.TEST.GPS` (R286, 47_correction_ssr.md). -/
  | ssrTestGps (o : Nat)
  /-- `SSR.TEST.GLONASS` (R286, 47_correction_ssr.md). -/
  | ssrTestGlonass (o : Nat)
  /-- `SSR.TEST.Galileo` (R286, 47_correction_ssr.md). -/
  | ssrTestGalileo (o : Nat)
  /-- `SSR.TEST.BeiDou` (R286, 47_correction_ssr.md). -/
  | ssrTestBeidou (o : Nat)
  /-- `SSR.TEST.QZSS` (R286, 47_correction_ssr.md). -/
  | ssrTestQzss (o : Nat)
  /-- `SSR.TEST.NavIC` (R286, 47_correction_ssr.md). -/
  | ssrTestNavic (o : Nat)
  /-- `SSR.TEST.SBAS` (R286, 47_correction_ssr.md). -/
  | ssrTestSbas (o : Nat)
  /-- `EPH.GPS` (R224, 45_ephemeris.md). -/
  | ephGps
  /-- `EPH.GLONASS` (R225, 45_ephemeris.md). -/
  | ephGlonass
  /-- `EPH.Galileo` (R226, 45_ephemeris.md). -/
  | ephGalileo
  /-- `EPH.BeiDou` (R227, 45_ephemeris.md). -/
  | ephBeidou
  /-- `EPH.QZSS` (R228, 45_ephemeris.md). -/
  | ephQzss
  /-- `EPH.NavIC` (R229, 45_ephemeris.md). -/
  | ephNavic
  /-- `EPH.SBAS` (R230, 45_ephemeris.md). -/
  | ephSbas
  /-- `STA_ANT` (R206, 44_dispatch.md). -/
  | staAnt
  /-- `STA_POS` (R207, 44_dispatch.md). -/
  | staPos
  /-- `STA_GLOBIAS` (R208, 44_dispatch.md). -/
  | staGlobias
  /-- `IGS` (R285, 47_correction_ssr.md). -/
  | igs
  /-- `GRID_TROPO` (R279, 47_correction_ssr.md). -/
  | gridTropo
  /-- `GRID_IONO` (R280, 47_correction_ssr.md). -/
  | gridIono
  /-- `INTEG` (R330, 49_integrity.md). -/
  | integ (t : BitVec 12)
  /-- `RAW` (R201, 44_dispatch.md). -/
  | raw (t : BitVec 12)
deriving DecidableEq, Repr

end Sys2Proof
end

