-- ==== Sys2Proof/WellFormed.lean ====
section
/-! DEFINITION. Well-formed instructions: the operand ranges of the table's rows and of R100's rules. An operand outside its range
is not a stop of its own: the operation's rule says what happens, and where it does not, the model's choice is in the log (a
FRAME payload above 1023 bytes, log 15; a start beyond the stream, log 18; a DECODE_MASK outside R175's ranges, log 46). -/

namespace Sys2Proof

/-- The widths of one field access (R7, R124): 1 to 64. -/
def widthOk (w : Nat) : Bool := decide (1 ≤ w) && decide (w ≤ 64)

/-- The raw values a field of width `w` holds (R13, R133). -/
def inFieldRange (w : Nat) (signed : Bool) (v : Int) : Bool :=
  if signed then decide (-(2 ^ (w - 1) : Int) ≤ v) && decide (v < 2 ^ (w - 1)) else decide (0 ≤ v) && decide (v < 2 ^ w)

/-- A field descriptor whose width, scale and sentinel lie in the ranges of R104 and R133. -/
def FieldDesc.ok (d : FieldDesc) : Bool :=
  widthOk d.width && decide (0 < d.scale) && (match d.na with | none => true | some v => inFieldRange d.width d.signed v)

/-- The operand ranges of spec/opcode_table.json. The message rows take no operand but a type number or an offset. -/
def Instr.wellFormed : Instr → Bool
  | .reset => true
  | .hostConfig _ => true
  | .hostLoad bytes scan => decide (scan ≤ bytes.length)
  | .hostSetRefTime _ => true
  | .hostEvict _ => true
  | .hostEvictProvider _ => true
  | .hostRead _ _ => true
  | .decodeOne => true
  | .encodeOne _ => true
  | .findFrame _ => true
  | .syncScan _ => true
  | .lenRead _ => true
  | .boundCheck _ len => decide (len ≤ 1023)
  | .crc24 _ => true
  | .frameEmit payload => decide (payload.length ≤ 1023)
  | .curInit _ _ _ => true
  | .readU w => widthOk w
  | .readS w => widthOk w
  | .readBytes _ => true
  | .writeU w _ _ => widthOk w
  | .writeS w _ _ => widthOk w
  | .writeBytes _ => true
  | .readField d => d.ok
  | .readMask _ width _ => decide (1 ≤ width)
  | .toIndex _ _ => true
  | .fromIndex _ => true
  | .svidOffset _ _ => true
  | .svidToSat _ _ _ => true
  | .satToSvid _ _ => true
  | .sigOf _ _ _ => true
  | .decodeMask bits width _ _ => decide (1 ≤ width) && decide (bits < 2 ^ width)
  | .encodeMask indices width offset _ => decide (1 ≤ width) && decide (indices.Pairwise (· < ·)) && indices.all (fun k => decide (offset ≤ k) && decide (k < offset + width))
  | .dispatch => true
  | .adjustWeek _ _ _ => true
  | .lockCheck _ _ _ => true
  | .readHeader _ => true
  | .decodeUra _ _ => true
  | .quantize stdev => decide (0 ≤ stdev)
  | .iodCheck _ _ _ _ => true
  | .cacheUpdate _ _ _ _ _ => true
  | .lookup d idx => d.ok && decide (idx < 2 ^ d.width)
  | .isUpdate _ _ _ _ => true
  | .frame _ payload _ => decide (payload.length ≤ 1023)
  | .msm1Gps => true
  | .msm2Gps => true
  | .msm3Gps => true
  | .msm4Gps => true
  | .msm5Gps => true
  | .msm6Gps => true
  | .msm7Gps => true
  | .msm1Glonass => true
  | .msm2Glonass => true
  | .msm3Glonass => true
  | .msm4Glonass => true
  | .msm5Glonass => true
  | .msm6Glonass => true
  | .msm7Glonass => true
  | .msm1Galileo => true
  | .msm2Galileo => true
  | .msm3Galileo => true
  | .msm4Galileo => true
  | .msm5Galileo => true
  | .msm6Galileo => true
  | .msm7Galileo => true
  | .msm1Beidou => true
  | .msm2Beidou => true
  | .msm3Beidou => true
  | .msm4Beidou => true
  | .msm5Beidou => true
  | .msm6Beidou => true
  | .msm7Beidou => true
  | .msm1Qzss => true
  | .msm2Qzss => true
  | .msm3Qzss => true
  | .msm4Qzss => true
  | .msm5Qzss => true
  | .msm6Qzss => true
  | .msm7Qzss => true
  | .msm1Navic => true
  | .msm2Navic => true
  | .msm3Navic => true
  | .msm4Navic => true
  | .msm5Navic => true
  | .msm6Navic => true
  | .msm7Navic => true
  | .msm1Sbas => true
  | .msm2Sbas => true
  | .msm3Sbas => true
  | .msm4Sbas => true
  | .msm5Sbas => true
  | .msm6Sbas => true
  | .msm7Sbas => true
  | .ssrOrbitGps => true
  | .ssrClockGps => true
  | .ssrCombinedGps => true
  | .ssrHrclockGps => true
  | .ssrCodebiasGps => true
  | .ssrPhasebiasGps => true
  | .ssrUraGps => true
  | .ssrOrbitGlonass => true
  | .ssrClockGlonass => true
  | .ssrCombinedGlonass => true
  | .ssrHrclockGlonass => true
  | .ssrCodebiasGlonass => true
  | .ssrPhasebiasGlonass => true
  | .ssrUraGlonass => true
  | .ssrOrbitGalileo => true
  | .ssrClockGalileo => true
  | .ssrCombinedGalileo => true
  | .ssrHrclockGalileo => true
  | .ssrCodebiasGalileo => true
  | .ssrPhasebiasGalileo => true
  | .ssrUraGalileo => true
  | .ssrOrbitBeidou => true
  | .ssrClockBeidou => true
  | .ssrCombinedBeidou => true
  | .ssrHrclockBeidou => true
  | .ssrCodebiasBeidou => true
  | .ssrPhasebiasBeidou => true
  | .ssrUraBeidou => true
  | .ssrOrbitQzss => true
  | .ssrClockQzss => true
  | .ssrCombinedQzss => true
  | .ssrHrclockQzss => true
  | .ssrCodebiasQzss => true
  | .ssrPhasebiasQzss => true
  | .ssrUraQzss => true
  | .ssrOrbitNavic => true
  | .ssrClockNavic => true
  | .ssrCombinedNavic => true
  | .ssrHrclockNavic => true
  | .ssrCodebiasNavic => true
  | .ssrPhasebiasNavic => true
  | .ssrUraNavic => true
  | .ssrOrbitSbas => true
  | .ssrClockSbas => true
  | .ssrCombinedSbas => true
  | .ssrHrclockSbas => true
  | .ssrCodebiasSbas => true
  | .ssrPhasebiasSbas => true
  | .ssrUraSbas => true
  | .ssrTestGps _ => true
  | .ssrTestGlonass _ => true
  | .ssrTestGalileo _ => true
  | .ssrTestBeidou _ => true
  | .ssrTestQzss _ => true
  | .ssrTestNavic _ => true
  | .ssrTestSbas _ => true
  | .ephGps => true
  | .ephGlonass => true
  | .ephGalileo => true
  | .ephBeidou => true
  | .ephQzss => true
  | .ephNavic => true
  | .ephSbas => true
  | .staAnt => true
  | .staPos => true
  | .staGlobias => true
  | .igs => true
  | .gridTropo => true
  | .gridIono => true
  | .integ _ => true
  | .raw _ => true

end Sys2Proof
end

