-- ==== Sys2Proof/Decode.lean ====
section
/-! DEFINITION. The two nested encodings of the wire (R90 to R99): the bits of a buffer, the decoder of a message type and of a
frame, and after them the encoder. The 42 operations have no wire encoding (R112). -/

namespace Sys2Proof

/-! ## Bits of a buffer (R11 to R13) -/

/-- Bit `k` of the buffer whose byte `i` is `rd i`: bit 0 is the most significant bit of byte 0 (R11). -/
def bitAt (rd : Nat → Byte) (k : Nat) : Bool := (rd (k / 8)).getMsbD (k % 8)

/-- `ubits(B, off, w)` (R13): the unsigned value of `w` bits from bit `off`, first bit most significant. -/
def ubits (rd : Nat → Byte) (off : Nat) : Nat → Nat
  | 0 => 0
  | w + 1 => 2 * ubits rd off w + (bitAt rd (off + w)).toNat

/-- `sext_w(v)` (R13): two's complement. -/
def sext (w v : Nat) : Int := if v < 2 ^ (w - 1) then (v : Int) else (v : Int) - 2 ^ w

/-- The bytes of a list, zero beyond its end. -/
def listByte (b : List Byte) (i : Nat) : Byte := b.getD i 0

/-- The `n` bytes of `v`, most significant first (R14). -/
def beBytes : Nat → Nat → List Byte
  | 0, _ => []
  | n + 1, v => beBytes n (v / 256) ++ [BitVec.ofNat 8 v]

/-! ## Which instruction a handler is -/

/-- The MSM row of a constellation and variant (R96). -/
def Instr.ofMsm : Constellation → MsmVariant → Instr
  | .gps, .v1 => .msm1Gps
  | .gps, .v2 => .msm2Gps
  | .gps, .v3 => .msm3Gps
  | .gps, .v4 => .msm4Gps
  | .gps, .v5 => .msm5Gps
  | .gps, .v6 => .msm6Gps
  | .gps, .v7 => .msm7Gps
  | .glonass, .v1 => .msm1Glonass
  | .glonass, .v2 => .msm2Glonass
  | .glonass, .v3 => .msm3Glonass
  | .glonass, .v4 => .msm4Glonass
  | .glonass, .v5 => .msm5Glonass
  | .glonass, .v6 => .msm6Glonass
  | .glonass, .v7 => .msm7Glonass
  | .galileo, .v1 => .msm1Galileo
  | .galileo, .v2 => .msm2Galileo
  | .galileo, .v3 => .msm3Galileo
  | .galileo, .v4 => .msm4Galileo
  | .galileo, .v5 => .msm5Galileo
  | .galileo, .v6 => .msm6Galileo
  | .galileo, .v7 => .msm7Galileo
  | .beidou, .v1 => .msm1Beidou
  | .beidou, .v2 => .msm2Beidou
  | .beidou, .v3 => .msm3Beidou
  | .beidou, .v4 => .msm4Beidou
  | .beidou, .v5 => .msm5Beidou
  | .beidou, .v6 => .msm6Beidou
  | .beidou, .v7 => .msm7Beidou
  | .qzss, .v1 => .msm1Qzss
  | .qzss, .v2 => .msm2Qzss
  | .qzss, .v3 => .msm3Qzss
  | .qzss, .v4 => .msm4Qzss
  | .qzss, .v5 => .msm5Qzss
  | .qzss, .v6 => .msm6Qzss
  | .qzss, .v7 => .msm7Qzss
  | .navic, .v1 => .msm1Navic
  | .navic, .v2 => .msm2Navic
  | .navic, .v3 => .msm3Navic
  | .navic, .v4 => .msm4Navic
  | .navic, .v5 => .msm5Navic
  | .navic, .v6 => .msm6Navic
  | .navic, .v7 => .msm7Navic
  | .sbas, .v1 => .msm1Sbas
  | .sbas, .v2 => .msm2Sbas
  | .sbas, .v3 => .msm3Sbas
  | .sbas, .v4 => .msm4Sbas
  | .sbas, .v5 => .msm5Sbas
  | .sbas, .v6 => .msm6Sbas
  | .sbas, .v7 => .msm7Sbas

/-- The SSR row of a constellation and kind (R97). -/
def Instr.ofSsr : Constellation → SsrKind → Instr
  | .gps, .orbit => .ssrOrbitGps
  | .gps, .clock => .ssrClockGps
  | .gps, .combined => .ssrCombinedGps
  | .gps, .hrclock => .ssrHrclockGps
  | .gps, .codebias => .ssrCodebiasGps
  | .gps, .phasebias => .ssrPhasebiasGps
  | .gps, .ura => .ssrUraGps
  | .glonass, .orbit => .ssrOrbitGlonass
  | .glonass, .clock => .ssrClockGlonass
  | .glonass, .combined => .ssrCombinedGlonass
  | .glonass, .hrclock => .ssrHrclockGlonass
  | .glonass, .codebias => .ssrCodebiasGlonass
  | .glonass, .phasebias => .ssrPhasebiasGlonass
  | .glonass, .ura => .ssrUraGlonass
  | .galileo, .orbit => .ssrOrbitGalileo
  | .galileo, .clock => .ssrClockGalileo
  | .galileo, .combined => .ssrCombinedGalileo
  | .galileo, .hrclock => .ssrHrclockGalileo
  | .galileo, .codebias => .ssrCodebiasGalileo
  | .galileo, .phasebias => .ssrPhasebiasGalileo
  | .galileo, .ura => .ssrUraGalileo
  | .beidou, .orbit => .ssrOrbitBeidou
  | .beidou, .clock => .ssrClockBeidou
  | .beidou, .combined => .ssrCombinedBeidou
  | .beidou, .hrclock => .ssrHrclockBeidou
  | .beidou, .codebias => .ssrCodebiasBeidou
  | .beidou, .phasebias => .ssrPhasebiasBeidou
  | .beidou, .ura => .ssrUraBeidou
  | .qzss, .orbit => .ssrOrbitQzss
  | .qzss, .clock => .ssrClockQzss
  | .qzss, .combined => .ssrCombinedQzss
  | .qzss, .hrclock => .ssrHrclockQzss
  | .qzss, .codebias => .ssrCodebiasQzss
  | .qzss, .phasebias => .ssrPhasebiasQzss
  | .qzss, .ura => .ssrUraQzss
  | .navic, .orbit => .ssrOrbitNavic
  | .navic, .clock => .ssrClockNavic
  | .navic, .combined => .ssrCombinedNavic
  | .navic, .hrclock => .ssrHrclockNavic
  | .navic, .codebias => .ssrCodebiasNavic
  | .navic, .phasebias => .ssrPhasebiasNavic
  | .navic, .ura => .ssrUraNavic
  | .sbas, .orbit => .ssrOrbitSbas
  | .sbas, .clock => .ssrClockSbas
  | .sbas, .combined => .ssrCombinedSbas
  | .sbas, .hrclock => .ssrHrclockSbas
  | .sbas, .codebias => .ssrCodebiasSbas
  | .sbas, .phasebias => .ssrPhasebiasSbas
  | .sbas, .ura => .ssrUraSbas

/-- The test-range row of a constellation, at offset `o` of its range (R199). -/
def Instr.ofSsrTest (o : Nat) : Constellation → Instr
  | .gps => .ssrTestGps o
  | .glonass => .ssrTestGlonass o
  | .galileo => .ssrTestGalileo o
  | .beidou => .ssrTestBeidou o
  | .qzss => .ssrTestQzss o
  | .navic => .ssrTestNavic o
  | .sbas => .ssrTestSbas o

/-- The ephemeris row of a constellation (R98). -/
def Instr.ofEph : Constellation → Instr
  | .gps => .ephGps
  | .glonass => .ephGlonass
  | .galileo => .ephGalileo
  | .beidou => .ephBeidou
  | .qzss => .ephQzss
  | .navic => .ephNavic
  | .sbas => .ephSbas

/-- The station row of a kind (R98). -/
def Instr.ofSta : StaKind → Instr
  | .ant => .staAnt
  | .pos => .staPos
  | .globias => .staGlobias

/-- The row of the handler a type `t` selects (R95). -/
def Instr.ofHandler (t : BitVec 12) : Handler → Instr
  | .msm c v => Instr.ofMsm c v
  | .ssr c k => Instr.ofSsr c k
  | .gridTropo => .gridTropo
  | .gridIono => .gridIono
  | .eph c => Instr.ofEph c
  | .sta k => Instr.ofSta k
  | .igs => .igs
  | .integ => .integ t

/-- What an instruction is on the wire: nothing (an operation, R112), a frame, or a message. -/
inductive WireClass where
  | operation
  | frame
  | handler (h : Handler)
  | test (c : Constellation) (o : Nat)
  | integ (t : BitVec 12)
  | raw (t : BitVec 12)
deriving DecidableEq, Repr

/-- The wire class of each row of the table. -/
def Instr.wireClass : Instr → WireClass
  | .reset => .operation
  | .hostConfig _ => .operation
  | .hostLoad _ _ => .operation
  | .hostSetRefTime _ => .operation
  | .hostEvict _ => .operation
  | .hostEvictProvider _ => .operation
  | .hostRead _ _ => .operation
  | .decodeOne => .operation
  | .encodeOne _ => .operation
  | .findFrame _ => .operation
  | .syncScan _ => .operation
  | .lenRead _ => .operation
  | .boundCheck _ _ => .operation
  | .crc24 _ => .operation
  | .frameEmit _ => .operation
  | .curInit _ _ _ => .operation
  | .readU _ => .operation
  | .readS _ => .operation
  | .readBytes _ => .operation
  | .writeU _ _ _ => .operation
  | .writeS _ _ _ => .operation
  | .writeBytes _ => .operation
  | .readField _ => .operation
  | .readMask _ _ _ => .operation
  | .toIndex _ _ => .operation
  | .fromIndex _ => .operation
  | .svidOffset _ _ => .operation
  | .svidToSat _ _ _ => .operation
  | .satToSvid _ _ => .operation
  | .sigOf _ _ _ => .operation
  | .decodeMask _ _ _ _ => .operation
  | .encodeMask _ _ _ _ => .operation
  | .dispatch => .operation
  | .adjustWeek _ _ _ => .operation
  | .lockCheck _ _ _ => .operation
  | .readHeader _ => .operation
  | .decodeUra _ _ => .operation
  | .quantize _ => .operation
  | .iodCheck _ _ _ _ => .operation
  | .cacheUpdate _ _ _ _ _ => .operation
  | .lookup _ _ => .operation
  | .isUpdate _ _ _ _ => .operation
  | .frame _ _ _ => .frame
  | .msm1Gps => .handler (.msm .gps .v1)
  | .msm2Gps => .handler (.msm .gps .v2)
  | .msm3Gps => .handler (.msm .gps .v3)
  | .msm4Gps => .handler (.msm .gps .v4)
  | .msm5Gps => .handler (.msm .gps .v5)
  | .msm6Gps => .handler (.msm .gps .v6)
  | .msm7Gps => .handler (.msm .gps .v7)
  | .msm1Glonass => .handler (.msm .glonass .v1)
  | .msm2Glonass => .handler (.msm .glonass .v2)
  | .msm3Glonass => .handler (.msm .glonass .v3)
  | .msm4Glonass => .handler (.msm .glonass .v4)
  | .msm5Glonass => .handler (.msm .glonass .v5)
  | .msm6Glonass => .handler (.msm .glonass .v6)
  | .msm7Glonass => .handler (.msm .glonass .v7)
  | .msm1Galileo => .handler (.msm .galileo .v1)
  | .msm2Galileo => .handler (.msm .galileo .v2)
  | .msm3Galileo => .handler (.msm .galileo .v3)
  | .msm4Galileo => .handler (.msm .galileo .v4)
  | .msm5Galileo => .handler (.msm .galileo .v5)
  | .msm6Galileo => .handler (.msm .galileo .v6)
  | .msm7Galileo => .handler (.msm .galileo .v7)
  | .msm1Beidou => .handler (.msm .beidou .v1)
  | .msm2Beidou => .handler (.msm .beidou .v2)
  | .msm3Beidou => .handler (.msm .beidou .v3)
  | .msm4Beidou => .handler (.msm .beidou .v4)
  | .msm5Beidou => .handler (.msm .beidou .v5)
  | .msm6Beidou => .handler (.msm .beidou .v6)
  | .msm7Beidou => .handler (.msm .beidou .v7)
  | .msm1Qzss => .handler (.msm .qzss .v1)
  | .msm2Qzss => .handler (.msm .qzss .v2)
  | .msm3Qzss => .handler (.msm .qzss .v3)
  | .msm4Qzss => .handler (.msm .qzss .v4)
  | .msm5Qzss => .handler (.msm .qzss .v5)
  | .msm6Qzss => .handler (.msm .qzss .v6)
  | .msm7Qzss => .handler (.msm .qzss .v7)
  | .msm1Navic => .handler (.msm .navic .v1)
  | .msm2Navic => .handler (.msm .navic .v2)
  | .msm3Navic => .handler (.msm .navic .v3)
  | .msm4Navic => .handler (.msm .navic .v4)
  | .msm5Navic => .handler (.msm .navic .v5)
  | .msm6Navic => .handler (.msm .navic .v6)
  | .msm7Navic => .handler (.msm .navic .v7)
  | .msm1Sbas => .handler (.msm .sbas .v1)
  | .msm2Sbas => .handler (.msm .sbas .v2)
  | .msm3Sbas => .handler (.msm .sbas .v3)
  | .msm4Sbas => .handler (.msm .sbas .v4)
  | .msm5Sbas => .handler (.msm .sbas .v5)
  | .msm6Sbas => .handler (.msm .sbas .v6)
  | .msm7Sbas => .handler (.msm .sbas .v7)
  | .ssrOrbitGps => .handler (.ssr .gps .orbit)
  | .ssrClockGps => .handler (.ssr .gps .clock)
  | .ssrCombinedGps => .handler (.ssr .gps .combined)
  | .ssrHrclockGps => .handler (.ssr .gps .hrclock)
  | .ssrCodebiasGps => .handler (.ssr .gps .codebias)
  | .ssrPhasebiasGps => .handler (.ssr .gps .phasebias)
  | .ssrUraGps => .handler (.ssr .gps .ura)
  | .ssrOrbitGlonass => .handler (.ssr .glonass .orbit)
  | .ssrClockGlonass => .handler (.ssr .glonass .clock)
  | .ssrCombinedGlonass => .handler (.ssr .glonass .combined)
  | .ssrHrclockGlonass => .handler (.ssr .glonass .hrclock)
  | .ssrCodebiasGlonass => .handler (.ssr .glonass .codebias)
  | .ssrPhasebiasGlonass => .handler (.ssr .glonass .phasebias)
  | .ssrUraGlonass => .handler (.ssr .glonass .ura)
  | .ssrOrbitGalileo => .handler (.ssr .galileo .orbit)
  | .ssrClockGalileo => .handler (.ssr .galileo .clock)
  | .ssrCombinedGalileo => .handler (.ssr .galileo .combined)
  | .ssrHrclockGalileo => .handler (.ssr .galileo .hrclock)
  | .ssrCodebiasGalileo => .handler (.ssr .galileo .codebias)
  | .ssrPhasebiasGalileo => .handler (.ssr .galileo .phasebias)
  | .ssrUraGalileo => .handler (.ssr .galileo .ura)
  | .ssrOrbitBeidou => .handler (.ssr .beidou .orbit)
  | .ssrClockBeidou => .handler (.ssr .beidou .clock)
  | .ssrCombinedBeidou => .handler (.ssr .beidou .combined)
  | .ssrHrclockBeidou => .handler (.ssr .beidou .hrclock)
  | .ssrCodebiasBeidou => .handler (.ssr .beidou .codebias)
  | .ssrPhasebiasBeidou => .handler (.ssr .beidou .phasebias)
  | .ssrUraBeidou => .handler (.ssr .beidou .ura)
  | .ssrOrbitQzss => .handler (.ssr .qzss .orbit)
  | .ssrClockQzss => .handler (.ssr .qzss .clock)
  | .ssrCombinedQzss => .handler (.ssr .qzss .combined)
  | .ssrHrclockQzss => .handler (.ssr .qzss .hrclock)
  | .ssrCodebiasQzss => .handler (.ssr .qzss .codebias)
  | .ssrPhasebiasQzss => .handler (.ssr .qzss .phasebias)
  | .ssrUraQzss => .handler (.ssr .qzss .ura)
  | .ssrOrbitNavic => .handler (.ssr .navic .orbit)
  | .ssrClockNavic => .handler (.ssr .navic .clock)
  | .ssrCombinedNavic => .handler (.ssr .navic .combined)
  | .ssrHrclockNavic => .handler (.ssr .navic .hrclock)
  | .ssrCodebiasNavic => .handler (.ssr .navic .codebias)
  | .ssrPhasebiasNavic => .handler (.ssr .navic .phasebias)
  | .ssrUraNavic => .handler (.ssr .navic .ura)
  | .ssrOrbitSbas => .handler (.ssr .sbas .orbit)
  | .ssrClockSbas => .handler (.ssr .sbas .clock)
  | .ssrCombinedSbas => .handler (.ssr .sbas .combined)
  | .ssrHrclockSbas => .handler (.ssr .sbas .hrclock)
  | .ssrCodebiasSbas => .handler (.ssr .sbas .codebias)
  | .ssrPhasebiasSbas => .handler (.ssr .sbas .phasebias)
  | .ssrUraSbas => .handler (.ssr .sbas .ura)
  | .ssrTestGps o => .test .gps o
  | .ssrTestGlonass o => .test .glonass o
  | .ssrTestGalileo o => .test .galileo o
  | .ssrTestBeidou o => .test .beidou o
  | .ssrTestQzss o => .test .qzss o
  | .ssrTestNavic o => .test .navic o
  | .ssrTestSbas o => .test .sbas o
  | .ephGps => .handler (.eph .gps)
  | .ephGlonass => .handler (.eph .glonass)
  | .ephGalileo => .handler (.eph .galileo)
  | .ephBeidou => .handler (.eph .beidou)
  | .ephQzss => .handler (.eph .qzss)
  | .ephNavic => .handler (.eph .navic)
  | .ephSbas => .handler (.eph .sbas)
  | .staAnt => .handler (.sta .ant)
  | .staPos => .handler (.sta .pos)
  | .staGlobias => .handler (.sta .globias)
  | .igs => .handler .igs
  | .gridTropo => .handler .gridTropo
  | .gridIono => .handler .gridIono
  | .integ t => .integ t
  | .raw t => .raw t

/-! ## The rows R195 to R199 require of `CFG.TYPE_TABLE` -/

/-- The rows `base + o` of a list of handlers given by offset. -/
def rowsFrom (base : Nat) : Nat → List Handler → List (Nat × Handler)
  | _, [] => []
  | o, h :: hs => (base + o, h) :: rowsFrom base (o + 1) hs

/-- The rows of one constellation: MSM (R195), SSR (R196), ephemeris (R197), test range (R199). -/
def requiredRowsOf (cfg : Cfg) (c : Constellation) : List (Nat × Handler) :=
  (match cfg.msmBase.get c with
    | none => []
    | some b => rowsFrom b 0 (allVariants.map (Handler.msm c))) ++
  (match cfg.ssrBase.get c with
    | none => []
    | some b => rowsFrom b 0 ((cfg.ssrKindOfOffset.take 7).map (Handler.ssr c))) ++
  (match cfg.ephType.get c with
    | none => []
    | some t => [(t, .eph c)]) ++
  (match cfg.testBase.get c with
    | none => []
    | some b =>
      (cfg.testKindOfOffset.filter (fun x => decide (cfg.testKindOfOffset.lookup x.1 = some x.2))).map
        (fun x => (b + x.1, .ssr c x.2)))

/-- Every row R195 to R199 require. -/
def requiredRows (cfg : Cfg) : List (Nat × Handler) :=
  (allConstellations.flatMap (requiredRowsOf cfg)) ++
  (match cfg.antType with | none => [] | some t => [(t, .sta .ant)]) ++
  (match cfg.posType with | none => [] | some t => [(t, .sta .pos)]) ++
  (match cfg.globiasType with | none => [] | some t => [(t, .sta .globias)]) ++
  (match cfg.igsType with | none => [] | some t => [(t, .igs)])

/-- A default configuration's numbers, for `decodeTableWord` and tests only: the type numbers of G5 and the RTCM kind order of G7.
PRESUMED (log 33): none is in the source. -/
def rtcmNumbers : Cfg :=
  { Cfg.default with
    msmBase := ⟨some 1071, some 1081, some 1091, some 1121, some 1111, some 1131, some 1101⟩
    ssrBase := ⟨some 1057, some 1063, some 1240, some 1258, some 1246, none, some 1252⟩
    ssrKindOfOffset := [.orbit, .clock, .codebias, .combined, .ura, .hrclock]
    ephType := ⟨some 1019, some 1020, some 1045, some 1042, some 1044, some 1041, some 1043⟩
    antType := some 1007
    posType := some 1005
    globiasType := some 1230
    igsType := some 4076 }

/-- The same with its type table: the required rows, the phase-bias types and the second numbers G5 lists. -/
def rtcmCfg : Cfg :=
  { rtcmNumbers with
    typeTable := requiredRows rtcmNumbers ++
      [(1265, .ssr .gps .phasebias), (1266, .ssr .glonass .phasebias), (1267, .ssr .galileo .phasebias),
       (1268, .ssr .qzss .phasebias), (1269, .ssr .sbas .phasebias), (1270, .ssr .beidou .phasebias),
       (1046, .eph .galileo), (1006, .sta .pos), (1008, .sta .ant), (1033, .sta .ant)] }

/-! ## The decoder -/

/-- Why bytes are no frame or no message. -/
inductive DecodeError where
  /-- The first byte is not `CFG.PREAMBLE` (R141). -/
  | noPreamble
  /-- Fewer than the three header bytes (R143). -/
  | truncatedHeader
  /-- Fewer than `L + 6` bytes (R144). -/
  | truncatedFrame
  /-- Fewer than the 12 bits of a message type (R93). -/
  | noType
deriving DecidableEq, Repr

/-- The offset of type `t` in the test range of constellation `c`, if the table defines that offset (R199): the offsets need not
be consecutive. -/
def testOffset (cfg : Cfg) (c : Constellation) (t : Nat) : Option Nat :=
  match cfg.testBase.get c with
  | none => none
  | some b => if b ≤ t ∧ (cfg.testKindOfOffset.lookup (t - b)).isSome = true then some (t - b) else none

/-- Whether type `t` lies in the standard SSR range of constellation `c` (R196). -/
def inSsrRange (cfg : Cfg) (c : Constellation) (t : Nat) : Bool :=
  match cfg.ssrBase.get c with
  | none => false
  | some b => decide (b ≤ t) && decide (t < b + (cfg.ssrKindOfOffset.take 7).length)

/-- The instruction a message type selects (R94, R193, R194): total, a type with no row is RAW (R108). A type of the test range is
the test row that runs the same handler (R199). -/
def decodeType (cfg : Cfg) (t : BitVec 12) : Instr :=
  match cfg.typeTable.lookup t.toNat with
  | none => .raw t
  | some (.ssr c k) =>
    match testOffset cfg c t.toNat with
    | none => Instr.ofSsr c k
    | some o => if inSsrRange cfg c t.toNat then Instr.ofSsr c k else Instr.ofSsrTest o c
  | some h => Instr.ofHandler t h

/-- The message instruction at the head of a payload: its first 12 bits are the type (R94). -/
def decodeMessage (cfg : Cfg) (payload : List Byte) : Except DecodeError Instr :=
  if payload.length < 2 then .error .noType
  else .ok (decodeType cfg (BitVec.ofNat 12 (ubits (listByte payload) 0 12)))

/-- The frame at the head of some bytes and the bytes after it (R90, R91). The CRC is a field here: acceptance is the block's
(R147). -/
def decodeFrame (cfg : Cfg) (bytes : List Byte) : Except DecodeError (Instr × List Byte) :=
  match bytes with
  | [] => .error .noPreamble
  | p :: rest =>
    if p ≠ cfg.preamble then .error .noPreamble
    else
      match rest with
      | h1 :: h0 :: body =>
        let hdr : BitVec 16 := h1 ++ h0
        let len := (hdr.extractLsb' 0 10).toNat
        let payload := body.take len
        match body.drop len with
        | c2 :: c1 :: c0 :: after => .ok (.frame (hdr.extractLsb' 10 6) payload (c2 ++ c1 ++ c0), after)
        | _ => .error .truncatedFrame
      | _ => .error .truncatedHeader

/-! ## The encoder -/

/-- The bytes of a frame (R73, R90). -/
def encodeFrame (cfg : Cfg) (pad : BitVec 6) (payload : List Byte) (crc : BitVec 24) : List Byte :=
  let hdr : BitVec 16 := pad ++ BitVec.ofNat 10 payload.length
  cfg.preamble :: hdr.extractLsb' 8 8 :: hdr.extractLsb' 0 8 :: payload ++
    [crc.extractLsb' 16 8, crc.extractLsb' 8 8, crc.extractLsb' 0 8]

/-- The least offset at which a list holds `k`. -/
def offsetOf (k : SsrKind) : List SsrKind → Option Nat
  | [] => none
  | k' :: ks => if k' = k then some 0 else (offsetOf k ks).map (· + 1)

/-- The least of some rows' types that the table maps to a handler. -/
def leastTypeIn (table : List (Nat × Handler)) (h : Handler) : List (Nat × Handler) → Option Nat
  | [] => none
  | (t, h') :: rows =>
    match leastTypeIn table h rows with
    | none => if h' = h ∧ table.lookup t = some h then some t else none
    | some t' => if h' = h ∧ table.lookup t = some h ∧ t < t' then some t else some t'

/-- The least type `CFG.TYPE_TABLE` maps to a handler (R210). -/
def leastType (cfg : Cfg) (h : Handler) : Option Nat := leastTypeIn cfg.typeTable h cfg.typeTable

/-- The message type of an instruction by the rules that build the table's rows: R96, R97, R98, R99, R199; for the families
without a rule for their numbers (R200) the least row of the table. -/
def encodeType (cfg : Cfg) (i : Instr) : Option Nat :=
  match i.wireClass with
  | .operation => none
  | .frame => none
  | .handler (.msm c v) => (cfg.msmBase.get c).map (· + v.offset)
  | .handler (.ssr c k) =>
    match cfg.ssrBase.get c, offsetOf k (cfg.ssrKindOfOffset.take 7) with
    | some b, some o => some (b + o)
    | _, _ => none
  | .handler (.eph c) => cfg.ephType.get c
  | .handler (.sta .ant) => cfg.antType
  | .handler (.sta .pos) => cfg.posType
  | .handler (.sta .globias) => cfg.globiasType
  | .handler .igs => cfg.igsType
  | .handler .gridTropo => leastType cfg .gridTropo
  | .handler .gridIono => leastType cfg .gridIono
  | .handler .integ => leastType cfg .integ
  | .test c o =>
    match cfg.testBase.get c with
    | none => none
    | some b =>
      if (cfg.testKindOfOffset.lookup o).isSome = true ∧ inSsrRange cfg c (b + o) = false then some (b + o) else none
  | .integ t => if cfg.typeTable.lookup t.toNat = some .integ then some t.toNat else none
  | .raw t => if cfg.typeTable.lookup t.toNat = none then some t.toNat else none

/-- The first two bytes of a payload whose message type is `t` (R94). -/
def typeBytes (t : Nat) : List Byte := [BitVec.ofNat 8 (t / 16), BitVec.ofNat 8 (t % 16 * 16)]

/-- The wire form of an instruction: a frame's bytes, or the two payload bytes that hold a message's type; an operation has none
(R112), and a message has none where the configuration gives it no type. -/
def encode (cfg : Cfg) (i : Instr) : Option (List Byte) :=
  match i with
  | .frame pad payload crc => if payload.length ≤ 1023 then some (encodeFrame cfg pad payload crc) else none
  | i =>
    match encodeType cfg i with
    | some t => if t < 4096 then some (typeBytes t) else none
    | none => none

/-! ## The table's words -/

/-- The instruction the decoder reads from a table row's bits (log 33): up to 8 bits are a frame's first byte followed by zeros,
up to 16 bits the 12-bit type of a message, more bits a frame's bytes, the first in bits 7..0; under the numbers of G5. The rows of
the 42 operations have no bits. -/
def decodeTableWord (nbits w : Nat) : Option Instr :=
  if nbits = 0 then none
  else if nbits ≤ 8 then
    match decodeFrame rtcmCfg [BitVec.ofNat 8 w, 0, 0, 0, 0, 0] with
    | .ok (i, _) => some i
    | .error _ => none
  else if nbits ≤ 16 then
    match decodeMessage rtcmCfg (typeBytes w) with
    | .ok i => if w < 4096 then some i else none
    | .error _ => none
  else
    match decodeFrame rtcmCfg ((List.range (max 6 (nbits / 8))).map (fun k => BitVec.ofNat 8 (w / 256 ^ k))) with
    | .ok (i, _) => some i
    | .error _ => none

end Sys2Proof
end

