-- ==== Sys2Proof/Machine/State.lean ====
section
/-! DEFINITION. The state of one decoding context (R20 to R55) as plain data, the conditions and their information words (R345,
R346), the model's stops, and the state right after reset (R55, R380). -/

namespace Sys2Proof.Machine

/-! ## Stops -/

/-- The faults: host-duty breaches to which the spec gives no meaning (R18, R395). None is a condition of R345. -/
inductive Fault where
  /-- A WRITE operation while the cursor spans STREAM, which the block never writes (R14, R25, log 17). Safe. -/
  | writeOnStreamCursor
deriving DecidableEq, Repr

/-- The refusals. -/
inductive Refusal where
  /-- An instruction without a meaning in this model; raised by no arm of `exec`. Safe. -/
  | notModelled (mnemonic : String)
  /-- An operation that computes a CRC under a reflected configuration, for which R145 has no rule and which HOST_CONFIG never
  installs (U15, log 21). Safe. -/
  | reflectedCrc
deriving DecidableEq, Repr

/-! ## Conditions -/

/-- `RESULT.code` (R26, R345). -/
inductive Code where
  | ok | truncatedMessage | checksumMismatch | unknownMessageType | invalidPrn | invalidSignalCode
  | inconsistentIssueOfData | usageError
deriving DecidableEq, Repr

/-- The numeric codes of R345. -/
def Code.toNat : Code → Nat
  | .ok => 0
  | .truncatedMessage => 1
  | .checksumMismatch => 2
  | .unknownMessageType => 3
  | .invalidPrn => 4
  | .invalidSignalCode => 5
  | .inconsistentIssueOfData => 6
  | .usageError => 7

/-- The offending argument of a UsageError (R346). -/
inductive UsageArg where
  | int (x : Int)
  | config (cfg : Cfg)
  | message (m : Message)
  | offsetOf (fam : Family) (c : Constellation)
  | handler (h : CorrHandler)
  | constellation (c : Constellation)
  | span (base n : Nat)
  | metres (q : Rat)
deriving DecidableEq, Repr

/-- `RESULT.info` (R26, R346): `zero` after a result. -/
inductive Info where
  | zero
  | pos (p : Nat)
  | bits (off w : Nat)
  | prn (c : Option Constellation) (n : Int)
  | slot (c : Constellation) (slot : Int)
  | entry (n : NetworkId) (k : CacheKind)
  | arg (x : UsageArg)
deriving DecidableEq, Repr

/-- The conditions with their information (R345, R346). `usage none` is a UsageError without an argument of an operation to name
(log 10). -/
inductive Cond where
  | truncatedAt (p : Nat)
  | truncatedRead (off w : Nat)
  | checksum (p : Nat)
  | invalidPrn (c : Option Constellation) (n : Int)
  | invalidSignal (c : Constellation) (slot : Int)
  | inconsistentIod (n : NetworkId) (k : CacheKind)
  | usage (x : Option UsageArg)
deriving DecidableEq, Repr

/-! ## Registers -/

/-- A byte memory: cells with rising addresses, no listed byte equal to what an unlisted address reads as. -/
abbrev Memory := List Host.Cell

/-- The frame group `F` (R23). -/
structure FrameGroup where
  valid : Bool
  pos : Nat
  length : BitVec 10
  type : BitVec 12
  crc : BitVec 24
deriving DecidableEq, Repr

/-- The cursor group `CUR` (R25): the span, and the bit offset of the next field. -/
structure Cursor where
  space : Space
  base : Nat
  len : Nat
  off : Nat
deriving DecidableEq, Repr

/-- `CUR.bitlen` (R25). -/
def Cursor.bitlen (c : Cursor) : Nat := 8 * c.len

/-- `RESULT` (R26). -/
structure Result where
  code : Code
  info : Info
deriving DecidableEq, Repr

/-- An entry `CS[n][k]` (R43). -/
structure Entry where
  st : KindState
  epoch : Option Time
  iod : Option HdrCode
  udi : Option HdrCode
  provider : Option HdrCode
  solution : Option HdrCode
  ent : List (EntryKey × Record)
deriving DecidableEq, Repr

/-- The entry on creation (R55, R301). -/
def Entry.fresh : Entry := ⟨.empty, none, none, none, none, none, []⟩

/-- `CS[n]`: one entry per cache kind (R42, R44). -/
structure NetState where
  orbit : Entry
  clock : Entry
  hrclock : Entry
  ura : Entry
  codebias : Entry
  phasebias : Entry
  tropo : Entry
  iono : Entry
deriving DecidableEq, Repr

/-- `CS[n]` on creation (R301). -/
def NetState.fresh : NetState :=
  ⟨.fresh, .fresh, .fresh, .fresh, .fresh, .fresh, .fresh, .fresh⟩

/-- `CS[n][k]`. -/
def NetState.get (m : NetState) : CacheKind → Entry
  | .orbit => m.orbit
  | .clock => m.clock
  | .hrclock => m.hrclock
  | .ura => m.ura
  | .codebias => m.codebias
  | .phasebias => m.phasebias
  | .tropo => m.tropo
  | .iono => m.iono

/-- `CS[n][k] <- e`. -/
def NetState.set (m : NetState) (e : Entry) : CacheKind → NetState
  | .orbit => { m with orbit := e }
  | .clock => { m with clock := e }
  | .hrclock => { m with hrclock := e }
  | .ura => { m with ura := e }
  | .codebias => { m with codebias := e }
  | .phasebias => { m with phasebias := e }
  | .tropo => { m with tropo := e }
  | .iono => { m with iono := e }

/-- An entry `IS[p]` (R48, R335): the epoch and the parts of that epoch by message type (and subtype, R330). -/
structure IEntry where
  epoch : Option Time
  parts : List (IntegKey × IntegPart)
deriving DecidableEq, Repr

/-- The lock-time cache (R40). -/
abbrev LockCache := List ((SatIndex × SignalCode) × Nat)

/-- The correction state (R42). -/
abbrev CorrState := List (NetworkId × NetState)

/-- The integrity state (R48). -/
abbrev IntegState := List (ProviderId × IEntry)

/-- The value an operation returned to the host (R16). -/
inductive RetVal where
  /-- No value: the operation ended in a condition, or none was issued yet. -/
  | none
  /-- A result that carries no value. -/
  | done
  | nat (n : Nat)
  | int (z : Int)
  | bytes (b : List Byte)
  | value (v : Value)
  | frame (p len : Nat)
  | noFrame
  | position (p : Option Nat)
  | crc (c : BitVec 24)
  | consPrn (c : Constellation) (n : Nat)
  | signal (g : SignalCode)
  | indices (l : List Nat) (count : Nat)
  | message (m : Message)
  /-- `(bytes_consumed, message)`; no message stands for NoFrame (R190). -/
  | decoded (consumed : Nat) (m : Option Message)
  | fields (fs : Fields)
  | metres (q : Option Rat)
  | quality (cls value : Int)
  | flag (b : Bool)
  | report (r : KindReport)
  | lookup (v : IntegVal)
  | caches (e : Option Entry) (lk : LockCache) (integ : IntegState)
deriving DecidableEq, Repr

/-- The state of one decoding context, the host-owned input buffer it reads, and the model's own fields `port`, `ret` and `free`
(INVENTORY.md, State). -/
structure State where
  stream : Memory
  slen : Nat
  scan : Nat
  f : FrameGroup
  cur : Cursor
  result : Result
  out : Option Message
  obuf : Memory
  olen : Nat
  cfg : Cfg
  configured : Bool
  window : Bool
  refTime : Option Time
  lk : LockCache
  cs : CorrState
  is : IntegState
  port : List Instr
  ret : RetVal
  free : Nat
deriving DecidableEq, Repr

/-- The state right after reset (R55, R380). DESIGN CHOICE: the empty input buffer (log 6), the zeros of F's unspecified fields
(log 5), the configuration's fields other than the three policies (log 4) and the model's own fields (logs 1, 2 and 11). -/
def State.reset : State where
  stream := []
  slen := 0
  scan := 0
  f := ⟨false, 0, 0, 0, 0⟩
  cur := ⟨.stream, 0, 0, 0⟩
  result := ⟨.ok, .zero⟩
  out := none
  obuf := []
  olen := 0
  cfg := Cfg.default
  configured := false
  window := true
  refTime := none
  lk := []
  cs := []
  is := []
  port := []
  ret := .none
  free := 0

end Sys2Proof.Machine
end

