-- ==== Sys2Proof/Machine/Ops.lean ====
section
/-! DEFINITION. The named operations over memory, maps and registers that every meaning uses: byte memories, keyed register files,
the end of an operation in a result or in a condition (R16, R26, R355), the cursor's reads and writes (R120 to R132), the CRC
(R145). -/

namespace Sys2Proof.Machine

/-- The outcome of one operation. -/
abbrev Out := Host.Outcome State Fault Refusal

/-! ## Byte memories (log 6) -/

/-- The byte at an address; an unlisted address reads as zero. -/
def Memory.get : Memory → Nat → Byte
  | [], _ => 0
  | (k, v) :: m, a => if k = a then v else Memory.get m a

/-- Store one byte, keeping the addresses rising and listing no zero. -/
def Memory.set : Memory → Nat → Byte → Memory
  | [], a, b => if b = 0 then [] else [(a, b)]
  | (k, v) :: m, a, b =>
    if a < k then (if b = 0 then (k, v) :: m else (a, b) :: (k, v) :: m)
    else if a = k then (if b = 0 then m else (k, b) :: m)
    else (k, v) :: Memory.set m a b

/-- Store a byte sequence from an address on. -/
def Memory.write (m : Memory) (a : Nat) : List Byte → Memory
  | [] => m
  | b :: bs => Memory.write (Memory.set m a b) (a + 1) bs

/-- The byte sequence `[a, a + n)`. -/
def Memory.slice (m : Memory) (a n : Nat) : List Byte := (List.range n).map (fun i => Memory.get m (a + i))

/-- The canonical form: addresses strictly rising, no listed zero. -/
def Memory.wf (m : Memory) : Bool :=
  decide ((m.map Prod.fst).Pairwise (· < ·)) && m.all (fun c => decide (c.2 ≠ 0))

/-- `MemRead(a, 2)` on STREAM (R14), big-endian. -/
def Memory.read16 (m : Memory) (a : Nat) : BitVec 16 := Memory.get m a ++ Memory.get m (a + 1)

/-- `MemRead(a, 3)` on STREAM (R14), big-endian. -/
def Memory.read24 (m : Memory) (a : Nat) : BitVec 24 :=
  Memory.get m a ++ Memory.get m (a + 1) ++ Memory.get m (a + 2)

/-! ## Keyed register files: lists in the order of their keys, no key twice (log 35) -/

/-- `M[k] <- v`. -/
def insertKey {κ ν : Type} [DecidableEq κ] (lt : κ → κ → Bool) (k : κ) (v : ν) : List (κ × ν) → List (κ × ν)
  | [] => [(k, v)]
  | (k', v') :: m =>
    if k = k' then (k, v) :: m
    else if lt k k' then (k, v) :: (k', v') :: m
    else (k', v') :: insertKey lt k v m

/-- `M[k] <- absent`. -/
def eraseKey {κ ν : Type} [DecidableEq κ] (k : κ) (m : List (κ × ν)) : List (κ × ν) :=
  m.filter (fun x => decide (x.1 ≠ k))

/-- Order of signal codes. -/
def sigLt (a b : SignalCode) : Bool :=
  decide (a.band < b.band) || (decide (a.band = b.band) && decide (a.attr.toNat < b.attr.toNat))

/-- Order of the keys of LK. -/
def lockLt (a b : SatIndex × SignalCode) : Bool :=
  decide (a.1 < b.1) || (decide (a.1 = b.1) && sigLt a.2 b.2)

/-- Order of network and provider ids. -/
def intLt (a b : Int) : Bool := decide (a < b)

/-- Order of the messages of the integrity family: by type, then without a subtype before the subtypes in order. -/
def integLt (a b : IntegKey) : Bool :=
  decide (a.type < b.type) ||
    (decide (a.type = b.type) &&
      match a.sub, b.sub with
      | none, some _ => true
      | some x, some y => decide (x < y)
      | _, none => false)

/-- Order of the keys of an entry: satellites, then the model, then points. -/
def entryLt : EntryKey → EntryKey → Bool
  | .sat a, .sat b => decide (a < b)
  | .sat _, _ => true
  | .model, .point _ => true
  | .point a, .point b => decide (a < b)
  | _, _ => false

/-! ## The end of an operation -/

/-- `RESULT.code` of a condition (R345). -/
def Cond.code : Cond → Code
  | .truncatedAt _ => .truncatedMessage
  | .truncatedRead _ _ => .truncatedMessage
  | .checksum _ => .checksumMismatch
  | .invalidPrn _ _ => .invalidPrn
  | .invalidSignal _ _ => .invalidSignalCode
  | .inconsistentIod _ _ => .inconsistentIssueOfData
  | .usage _ => .usageError

/-- `RESULT.info` of a condition (R346); `n` is the model's free counter (log 10). -/
def Cond.info (n : Nat) : Cond → Info
  | .truncatedAt p => .pos p
  | .truncatedRead off w => .bits off w
  | .checksum p => .pos p
  | .invalidPrn c prn => .prn c prn
  | .invalidSignal c slot => .slot c slot
  | .inconsistentIod net k => .entry net k
  | .usage (some x) => .arg x
  | .usage none => .arg (.int (Config.freeInfo n))

/-- `raise C(info)` (R355): the operation ends with no result, RESULT holds the condition, and staged cache updates are
discarded, which here means that none has been written. DECODE_ONE's own part of R355, on OUT and SCAN, is in its meaning. -/
def State.raise (s : State) (c : Cond) : State := { s with result := ⟨c.code, c.info s.free⟩, ret := .none }

/-- The end in a result (R16, R26): RESULT is OK and the value goes back to the host. -/
def State.done (s : State) (r : RetVal) : State := { s with result := ⟨.ok, .zero⟩, ret := r }

/-- The model's free counter moves on with an operation of a unit (log 11): the free values of one operation are its own. -/
def tick : Out → Out
  | .next t => .next { t with free := t.free + 1 }
  | o => o

/-- An operation that reads CFG or belongs to a unit: it closes the configuration window (R388) and raises UsageError before
HOST_CONFIG (R382). -/
def unitOp (s : State) (body : State → Out) : Out :=
  tick
    (if s.configured then body { s with window := false }
     else .next (State.raise { s with window := false } (.usage none)))

/-- The end of an operation that is a pure function: its value, or its condition. -/
def finishPure {α : Type} (s : State) (r : Except Cond α) (ret : α → RetVal) : Out :=
  match r with
  | .ok a => .next (s.done (ret a))
  | .error c => .next (s.raise c)

/-! ## Reading operations: the cursor offset goes through, a stop keeps the offset it was reached at (R123, R356) -/

/-- The end of a reading operation: a value, or a condition; with `CUR.off` afterwards. -/
inductive RdRes (α : Type) where
  | ok (a : α) (off : Nat)
  | stop (c : Cond) (off : Nat)
deriving DecidableEq, Repr

/-- A reading operation: from `CUR.off` to its end. -/
def Rd (α : Type) : Type := Nat → RdRes α

/-- Answer without reading. -/
def Rd.pure {α : Type} (a : α) : Rd α := fun off => .ok a off

/-- Read, then go on with the value. -/
def Rd.bind {α β : Type} (m : Rd α) (k : α → Rd β) : Rd β := fun off =>
  match m off with
  | .ok a off' => k a off'
  | .stop c off' => .stop c off'

/-- Read, then apply a function. -/
def Rd.map {α β : Type} (f : α → β) (m : Rd α) : Rd β := m.bind (fun a => Rd.pure (f a))

/-- Raise a condition. -/
def Rd.raise {α : Type} (c : Cond) : Rd α := fun off => .stop c off

/-- A pure function inside a reading operation. -/
def Rd.lift {α : Type} : Except Cond α → Rd α
  | .ok a => Rd.pure a
  | .error c => Rd.raise c

/-- A table entry, or UsageError where the table has none (R8). -/
def Rd.entry {α : Type} : Option α → Rd α
  | some a => Rd.pure a
  | none => Rd.raise (.usage none)

/-- A table entry, or UsageError with the argument it is missing for (R8, R346). -/
def Rd.entryFor {α : Type} (x : UsageArg) : Option α → Rd α
  | some a => Rd.pure a
  | none => Rd.raise (.usage (some x))

/-- The operation for each item, in order. -/
def Rd.forEach {α β : Type} (f : α → Rd β) : List α → Rd (List β)
  | [] => Rd.pure []
  | a :: as => (f a).bind fun b => (Rd.forEach f as).bind fun bs => Rd.pure (b :: bs)

/-- The operation `n` times. -/
def Rd.times {β : Type} (f : Rd β) : Nat → Rd (List β)
  | 0 => Rd.pure []
  | n + 1 => f.bind fun b => (Rd.times f n).bind fun bs => Rd.pure (b :: bs)

/-- The operation for each item in order, each going on from what the one before left. -/
def Rd.foldSteps {σ β : Type} (f : σ → β → Rd σ) : List β → σ → Rd σ
  | [], x => Rd.pure x
  | b :: bs, x => (f x b).bind fun x' => Rd.foldSteps f bs x'

/-- The end of an operation that reads: `CUR.off` is where the reading ended, then the result or the condition. -/
def finishRd {α : Type} (s : State) (m : Rd α) (k : α → State → State) : Out :=
  match m s.cur.off with
  | .ok a off => .next (k a { s with cur := { s.cur with off := off } })
  | .stop c off => .next (State.raise { s with cur := { s.cur with off := off } } c)

/-! ## The buffers under the cursor (R25) -/

/-- The buffer of a space. -/
def State.buffer (s : State) : Space → Memory
  | .stream => s.stream
  | .obuf => s.obuf

/-- Its length in bytes. -/
def State.bufLen (s : State) : Space → Nat
  | .stream => s.slen
  | .obuf => s.olen

/-- Byte `i` of `CUR.buf`. Where the host has replaced the buffer by a shorter one (R81) the span reaches beyond it, and the byte is
open (log 19). -/
def State.curByte (s : State) (i : Nat) : Byte :=
  if s.cur.base + i < s.bufLen s.cur.space then Memory.get (s.buffer s.cur.space) (s.cur.base + i)
  else Config.absentByte s.free (s.cur.base + i)

/-! ## Reads (R121 to R128) -/

/-- `READ_U(w)` (R121): the width check, the bound check, then the bits. -/
def readBitsU (s : State) (w : Nat) : Rd Nat := fun off =>
  if w < 1 ∨ 64 < w then .stop (.usage (some (.int w))) off
  else if s.cur.bitlen < off + w then .stop (.truncatedRead off w) off
  else .ok (ubits s.curByte off w) (off + w)

/-- `READ_S(w)` (R122). -/
def readBitsS (s : State) (w : Nat) : Rd Int := (readBitsU s w).map (sext w)

/-- `READ_BYTES(n)` (R127, R128). -/
def readByteBlock (s : State) (n : Nat) : Rd (List Byte) := fun off =>
  if off % 8 ≠ 0 then .stop (.usage (some (.int off))) off
  else if s.cur.bitlen < off + 8 * n then .stop (.truncatedRead off (8 * n)) off
  else .ok ((List.range n).map (fun i => s.curByte (off / 8 + i))) (off + 8 * n)

/-! ## Writes (R129 to R132), on a memory and a cursor over it -/

/-- Set bit `k` of the buffer that begins at `base` (R11). -/
def setBit (m : Memory) (base k : Nat) (b : Bool) : Memory :=
  let a := base + k / 8
  let mask : Byte := 0x80#8 >>> (k % 8)
  Memory.set m a (if b then Memory.get m a ||| mask else Memory.get m a &&& ~~~mask)

/-- Write the `w` low bits of `v` from bit `off`, most significant first. -/
def writeBits (m : Memory) (base off : Nat) : Nat → Nat → Memory
  | 0, _ => m
  | w + 1, v => writeBits (setBit m base off (v.testBit w)) base (off + 1) w v

/-- The buffer and `CUR.off` after a write, or the condition it raised. -/
abbrev WrRes := Except Cond (Memory × Nat)

/-- `WRITE_U(w, v)` (R129, R132). -/
def putU (m : Memory) (cur : Cursor) (w : Nat) (v : Int) (ovf : Ovf) : WrRes :=
  if w < 1 ∨ 64 < w then .error (.usage (some (.int w)))
  else if (v < 0 ∨ 2 ^ w ≤ v) ∧ ovf = .fail then .error (.usage (some (.int v)))
  else if cur.bitlen < cur.off + w then .error (.truncatedRead cur.off w)
  else .ok (writeBits m cur.base cur.off w (v % 2 ^ w).toNat, cur.off + w)

/-- Whether `v` overflows a signed field of `w` bits (R130); for `w = 0` the bounds are one half either side of zero. -/
def signedOverflow (w : Nat) (v : Int) : Bool :=
  if w = 0 then decide (v ≠ 0) else decide (v < -(2 ^ (w - 1))) || decide (2 ^ (w - 1) ≤ v)

/-- `WRITE_S(w, v)` (R130, R132). -/
def putS (m : Memory) (cur : Cursor) (w : Nat) (v : Int) (ovf : Ovf) : WrRes :=
  if signedOverflow w v = true ∧ ovf = .fail then .error (.usage (some (.int v)))
  else putU m cur w (v % 2 ^ w) .truncate

/-- `WRITE_BYTES(b)` (R131, R128). -/
def putBytes (m : Memory) (cur : Cursor) (b : List Byte) : WrRes :=
  if cur.off % 8 ≠ 0 then .error (.usage (some (.int cur.off)))
  else if cur.bitlen < cur.off + 8 * b.length then .error (.truncatedRead cur.off (8 * b.length))
  else .ok (Memory.write m (cur.base + cur.off / 8) b, cur.off + 8 * b.length)

/-- A write operation on the state. Its conditions come first; bits move only under a cursor over OBUF (R14, R25, log 17), which
grows to hold them where it is shorter than the span (R63, log 16). -/
def writeOp (s : State) (w : Memory → Cursor → WrRes) : Out :=
  match w (s.buffer s.cur.space) s.cur with
  | .error c => .next (s.raise c)
  | .ok (m, off) =>
    if off = s.cur.off then .next (s.done .done)
    else
      match s.cur.space with
      | .stream => .fault .writeOnStreamCursor
      | .obuf =>
        .next (State.done
          { s with obuf := m, olen := max s.olen (s.cur.base + (off + 7) / 8), cur := { s.cur with off := off } } .done)

/-! ## The CRC (R145) -/

/-- One of the eight shifts of a byte. -/
def crcShift (poly c : BitVec 24) : BitVec 24 := if c.getMsbD 0 then (c <<< 1) ^^^ poly else c <<< 1

/-- One byte. -/
def crcByte (poly c : BitVec 24) (b : Byte) : BitVec 24 :=
  let c0 := c ^^^ (b.setWidth 24 <<< 16)
  crcShift poly (crcShift poly (crcShift poly (crcShift poly (crcShift poly (crcShift poly (crcShift poly (crcShift poly c0)))))))

/-- `CRC24(data)` for a configuration that is not reflected. -/
def crc24 (p : CrcParams) (data : List Byte) : BitVec 24 := data.foldl (crcByte p.poly) p.init ^^^ p.xorout

/-- An operation that computes a CRC: a reflected configuration is refused (R145, U15, log 21). -/
def withCrc (s : State) (body : State → Out) : Out :=
  if s.cfg.crc.reflected then .refused .reflectedCrc else body s

end Sys2Proof.Machine
end

