-- ==== Sys2Proof/Machine/Operands.lean ====
section
/-! DEFINITION. Operand assembly: fields with their sentinel and scale (R105, R113), masks (R175 to R180), satellite identity
(R160 to R169), week disambiguation (R223), quality values (R282, R284), lookups (R331), epochs (R36). -/

namespace Sys2Proof.Machine

/-! ## Fields (R104, R105) -/

/-- A field as read: its name, its bits as an unsigned integer, its raw integer and its value. -/
structure RawField where
  name : FieldName
  bits : Nat
  raw : Int
  val : Value
deriving DecidableEq, Repr

/-- The value of a raw integer (R105): `NA` for the sentinel, else the scaled value. -/
def assemble (d : FieldDesc) (raw : Int) : Value :=
  match d.na with
  | none => .scaled raw d.scale
  | some v => if raw = v then .na else .scaled raw d.scale

/-- The raw integer of a field from its bits (R105): extended if the field is signed. -/
def rawInt (d : FieldDesc) (bits : Nat) : Int := if d.signed then sext d.width bits else bits

/-- `READ_FIELD(d)` (R113): READ_S or READ_U, then the sentinel test and the scale. -/
def readRawField (s : State) (d : FieldDesc) : Rd RawField :=
  (readBitsU s d.width).map fun bits => ⟨d.name, bits, rawInt d bits, assemble d (rawInt d bits)⟩

/-- The fields of a list, in order (R104). -/
def readFields (s : State) (ds : List FieldDesc) : Rd (List RawField) := Rd.forEach (readRawField s) ds

/-- What is left of assignments to names in order, `rec[name] <- v` (R220): the last one for each name (log 44). -/
def lastOf {α : Type} : List (FieldName × α) → List (FieldName × α)
  | [] => []
  | x :: xs => if xs.any (fun y => decide (y.1 = x.1)) then lastOf xs else x :: lastOf xs

/-- The raw integer of a named field: a value, and likewise an identifier, a slot, a count or a flag (R104: by READ_S where the field
is signed). Its sentinel makes it no other integer (log 45). Of two fields with one name the last counts (log 44). -/
def rawOf (n : FieldName) : List RawField → Option Int
  | [] => none
  | f :: fs => (rawOf n fs).or (if f.name = n then some f.raw else none)

/-- A header code as it is kept (R266, R304): `NA` where the field is its sentinel (R397), none where there is no such field. -/
def codeOf (n : FieldName) : List RawField → Option HdrCode
  | [] => none
  | f :: fs => (codeOf n fs).or (if f.name = n then some (if f.val = .na then .na else .code f.raw) else none)

/-- The same as a number of repetitions: a count below zero repeats nothing. -/
def countOf (n : FieldName) (fs : List RawField) : Option Nat := (rawOf n fs).map Int.toNat

/-- The named values of a list of fields. -/
def fieldsOf (fs : List RawField) : Fields := lastOf (fs.map (fun f => (f.name, f.val)))

/-- The value of a named field; a field the layout does not have is not available (as R278, log 26). -/
def valueOf (n : FieldName) (fs : Fields) : Value := (fs.lookup n).getD .na

/-- The exact rational of a value (R15). -/
def numOf : Value → Option Rat
  | .na => none
  | .scaled raw scale => some (raw * scale)
  | .exact q => some q

/-- The descriptor of a named field, the last of that name (log 44). -/
def descOf (n : FieldName) (ds : List FieldDesc) : Option FieldDesc := ds.reverse.find? (fun d => decide (d.name = n))

/-! ## Masks (R175 to R180) -/

/-- Bit `k` of a mask of `width` bits, in the field's order (R175). -/
def maskBit (bits width : Nat) (order : MaskOrder) (k : Nat) : Bool :=
  match order with
  | .msb => bits.testBit (width - 1 - k)
  | .lsb => bits.testBit k

/-- `DECODE_MASK(bits, width, offset, order)` (R175), the list; its count is its length. Operands outside R175's ranges have no
condition: no index for a width of 0, and bits above the width do not count (DESIGN CHOICE, log 46). -/
def maskIndices (bits width offset : Nat) (order : MaskOrder) : List Nat :=
  ((List.range width).filter (maskBit bits width order)).map (· + offset)

/-- The loop of `ENCODE_MASK` (R177, R178): the indices still to do, the last one done, the bits so far. -/
def encodeMaskFrom (width offset : Nat) (order : MaskOrder) : List Nat → Option Nat → Nat → Except Cond Nat
  | [], _, bits => .ok bits
  | i :: is, prev, bits =>
    if i < offset ∨ offset + width ≤ i then .error (.usage (some (.int i)))
    else
      match prev with
      | some p =>
        if i ≤ p then .error (.usage (some (.int i)))
        else encodeMaskFrom width offset order is (some i)
          (bits ||| 2 ^ (match order with | .msb => width - 1 - (i - offset) | .lsb => i - offset))
      | none => encodeMaskFrom width offset order is (some i)
          (bits ||| 2 ^ (match order with | .msb => width - 1 - (i - offset) | .lsb => i - offset))

/-- `ENCODE_MASK(indices, width, offset, order)` (R177). -/
def maskBits (indices : List Nat) (width offset : Nat) (order : MaskOrder) : Except Cond Nat :=
  encodeMaskFrom width offset order indices none 0

/-- The chunk widths of a mask of `W` bits (R180). -/
def maskChunks (w : Nat) : List Nat :=
  if w ≤ 64 then [w]
  else (if w % 64 = 0 then [] else [w % 64]) ++ List.replicate (w / 64) 64

/-- Successive chunks, the first most significant (R180). -/
def readChunks (s : State) : List Nat → Nat → Rd Nat
  | [], acc => Rd.pure acc
  | w :: ws, acc => (readBitsU s w).bind fun v => readChunks s ws (acc * 2 ^ w + v)

/-- The bits of a mask field of any width (R180). -/
def readMaskBits (s : State) (w : Nat) : Rd Nat := readChunks s (maskChunks w) 0

/-- `CFG.MASK_ORDER[f]`, by default `msb` (R176). -/
def maskOrderOf (cfg : Cfg) (f : MaskId) : MaskOrder := (cfg.maskOrder.lookup f).getD .msb

/-- `READ_MASK(f, W, offset)` (R113). -/
def readMaskField (s : State) (f : MaskId) (m : MaskDesc) : Rd (List Nat) :=
  (readMaskBits s m.width).map fun bits => maskIndices bits m.width m.offset (maskOrderOf s.cfg f)

/-! ## Satellite identity (R160 to R169) -/

/-- `TO_INDEX(c, prn)` (R160); a constellation without a range has no valid PRN (R8). -/
def satIndex (cfg : Cfg) (c : Constellation) (prn : Int) : Except Cond SatIndex :=
  match cfg.prn.get c with
  | none => .error (.invalidPrn (some c) prn)
  | some r => if prn < r.min ∨ r.max < prn then .error (.invalidPrn (some c) prn) else .ok (r.base + (prn - r.min).toNat)

/-- The loop of `FROM_INDEX` (R161). -/
def indexIn (cfg : Cfg) (i : Nat) : List Constellation → Except Cond (Constellation × Nat)
  | [] => .error (.invalidPrn none i)
  | c :: cs =>
    match cfg.prn.get c with
    | none => indexIn cfg i cs
    | some r =>
      if r.base ≤ i ∧ i < r.base + (r.max + 1 - r.min) then .ok (c, r.min + (i - r.base)) else indexIn cfg i cs

/-- `FROM_INDEX(i)` (R161). -/
def satOfIndex (cfg : Cfg) (i : Nat) : Except Cond (Constellation × Nat) := indexIn cfg i allConstellations

/-- `SVID_OFFSET(fam, c)` (R165). -/
def svidOffsetOf (cfg : Cfg) (fam : Family) (c : Constellation) : Except Cond Nat :=
  match cfg.svidOffset.lookup (fam, c) with
  | none => .error (.usage (some (.offsetOf fam c)))
  | some o => .ok o

/-- `SVID_TO_SAT(fam, c, svid)` (R166). -/
def satOfSvid (cfg : Cfg) (fam : Family) (c : Constellation) (svid : Int) : Except Cond SatIndex :=
  match svidOffsetOf cfg fam c with
  | .error e => .error e
  | .ok o => satIndex cfg c (svid + o)

/-- `SAT_TO_SVID(fam, i)` (R167). -/
def svidOfSat (cfg : Cfg) (fam : Family) (i : SatIndex) : Except Cond (Constellation × Nat) :=
  match satOfIndex cfg i with
  | .error e => .error e
  | .ok (c, prn) =>
    match svidOffsetOf cfg fam c with
    | .error e => .error e
    | .ok o => if prn < o then .error (.usage (some (.int i))) else .ok (c, prn - o)

/-- `CFG.MSM_SIG` or `CFG.SSR_SIG` (R32). -/
def sigTable (cfg : Cfg) : SigTable → List ((Constellation × Nat) × SignalCode)
  | .msmSig => cfg.msmSig
  | .ssrSig => cfg.ssrSig

/-- `SIG_OF(table, c, slot)` (R169). -/
def signalOf (cfg : Cfg) (t : SigTable) (c : Constellation) (slot : Int) : Except Cond SignalCode :=
  if slot < 0 then .error (.invalidSignal c slot)
  else
    match (sigTable cfg t).lookup (c, slot.toNat) with
    | none => .error (.invalidSignal c slot)
    | some g => .ok g

/-! ## Times (R36 (a)) -/

/-- `add_seconds(t, s)` (R36): the host's function at the points the configuration lists, the sum of the names elsewhere (log 7). -/
def addSeconds (cfg : Cfg) (t : Time) (s : Rat) : Time := (cfg.addRows.lookup (t, s)).getD (t + s)

/-- `diff_seconds(t1, t2)` (R36): the host's function at the points the configuration lists, the difference of the names elsewhere
(log 7). -/
def diffSeconds (cfg : Cfg) (t1 t2 : Time) : Rat := (cfg.diffRows.lookup (t1, t2)).getD (t1 - t2)

/-- The order of times (R36): `t1 < t2 ⇔ diff_seconds(t2, t1) > 0`. -/
def before (cfg : Cfg) (t1 t2 : Time) : Bool := decide (0 < diffSeconds cfg t2 t1)

/-! ## Weeks (R223) -/

/-- The distance of two rationals: of two quality values in metres (R284), of a number of seconds from none. -/
def distance (a b : Rat) : Rat := if a ≤ b then b - a else a - b

/-- The start of week `w` of a constellation's week count (R36, R223): the host's, evenly spaced but for the listed weeks (log 9). -/
def weekStart (cfg : Cfg) (c : Constellation) (w : Int) : Time :=
  (cfg.weekRows.lookup (c, w)).getD (addSeconds cfg (cfg.weekZero.get c) (cfg.weekLength.get c * w))

/-- How far the start of week `w` is from `ref`, in seconds (R223). -/
def weekDistance (cfg : Cfg) (c : Constellation) (w : Int) (ref : Time) : Rat := distance (diffSeconds cfg (weekStart cfg c w) ref) 0

/-- The modulus of a constellation's week field (R223): 1024 for GPS (R224), else its layout's. -/
def weekModulus (cfg : Cfg) (c : Constellation) : Option Nat :=
  match c with
  | .gps => some 1024
  | c => (cfg.ephLayout.get c).bind (·.weekModulus)

/-- The weeks to which a row of the host's functions may apply: a listed week, a listed sum from the start of week 0, a listed
difference to `ref`. -/
def listedWeeks (cfg : Cfg) (c : Constellation) (ref : Time) : List Int :=
  (cfg.weekRows.filter (fun r => decide (r.1.1 = c))).map (fun r => r.1.2) ++
    (cfg.addRows.filter (fun r => decide (r.1.1 = cfg.weekZero.get c))).map (fun r => (r.1.2 / cfg.weekLength.get c).floor) ++
    (cfg.diffRows.filter (fun r => decide (r.1.2 = ref))).map
      (fun r => ((r.1.1 - cfg.weekZero.get c) / cfg.weekLength.get c).floor)

/-- The weeks congruent to `raw` modulo `m` among which a nearest one to `ref` is: those a row applies to, and as many evenly spaced
ones either side of `ref` as there are rows, and one more. -/
def weekCandidates (cfg : Cfg) (c : Constellation) (m : Nat) (raw : Int) (ref : Time) : List Int :=
  let n := cfg.weekRows.length + cfg.addRows.length + cfg.diffRows.length
  let k := ((ref - (cfg.weekZero.get c + cfg.weekLength.get c * raw)) / (cfg.weekLength.get c * m)).floor
  ((List.range (2 * n + 2)).map (fun i => raw + (k - n + i) * m) ++
    (listedWeeks cfg c ref).filter (fun w => decide ((w - raw) % m = 0))).dedup

/-- The week congruent to `raw` modulo `m` whose start is nearest to `ref` (R223); of several equally near ones the spec does not
say which (U6, log 9). -/
def nearestWeek (cfg : Cfg) (c : Constellation) (m : Nat) (raw : Int) (ref : Time) : Int :=
  if m = 0 then raw
  else
    let ws := weekCandidates cfg c m raw ref
    match ws.filter (fun w => ws.all (fun w' => decide (weekDistance cfg c w ref ≤ weekDistance cfg c w' ref))) with
    | [] => raw
    | [w] => w
    | w :: w' :: more => ((w :: w' :: more)[Config.weekTie raw m ref % (more.length + 2)]?).getD w

/-- `ADJUST_WEEK(raw_week, ref)` for constellation `c`; no modulus in the layout is a missing table entry (R8). -/
def adjustWeekOf (cfg : Cfg) (c : Constellation) (raw : Int) (ref : Time) : Except Cond Int :=
  match weekModulus cfg c with
  | none => .error (.usage (some (.constellation c)))
  | some m => .ok (nearestWeek cfg c m raw ref)

/-! ## Epochs (R36) -/

/-- `epoch_of(handler, raw, ref)` (R36, log 8): the host's function at the points the configuration lists, an opaque constant
elsewhere. -/
def epochOf (cfg : Cfg) (h : EpochKey) (raw : Int) (ref : Time) : Time :=
  (cfg.epochRows.lookup (h, raw, ref)).getD (Config.epochOf h raw ref)

/-! ## Quality values (R282, R284) -/

/-- `DECODE_URA(class, value)` (R282): metres, or nothing for an entry the table leaves undefined (log 27). -/
def uraMetres (cfg : Cfg) (cls value : Int) : Option Rat := cfg.uraTable.lookup (cls, value)

/-- Whether entry `a` is preferred to entry `b` for `q` (R284): nearer; if equally near the larger class, then the larger value. -/
def uraBetter (q : Rat) (a b : (Int × Int) × Rat) : Bool :=
  let da := distance a.2 q
  let db := distance b.2 q
  decide (da < db) || (decide (da = db) && (decide (b.1.1 < a.1.1) || (decide (a.1.1 = b.1.1) && decide (b.1.2 < a.1.2))))

/-- The preferred entry of a list of rows. -/
def uraNearest (q : Rat) : List ((Int × Int) × Rat) → Option ((Int × Int) × Rat)
  | [] => none
  | r :: rs =>
    match uraNearest q rs with
    | none => some r
    | some b => if uraBetter q r b then some r else some b

/-- The rows of a table that its lookup can reach: no earlier row has the same key. -/
def effectiveRows (tbl : List ((Int × Int) × Rat)) : List ((Int × Int) × Rat) :=
  tbl.filter (fun r => decide (tbl.lookup r.1 = some r.2))

/-- `QUANTIZE(stdev)` (R284); a table with no defined entry is a missing entry (R8, log 40). -/
def quantizeUra (cfg : Cfg) (q : Rat) : Except Cond (Int × Int) :=
  match uraNearest q (effectiveRows cfg.uraTable) with
  | none => .error (.usage (some (.metres q)))
  | some r => .ok r.1

/-- The quality fields of a record with the standard deviation they stand for (R275, R282): added when the layout has both, and no
field of its own by that name (log 39). -/
def withQuality (cfg : Cfg) (fs : List RawField) : Fields :=
  match rawOf .uraClass fs, rawOf .uraValue fs, rawOf .stdev fs with
  | some cls, some v, none =>
    fieldsOf fs ++ [(.stdev, match uraMetres cfg cls v with | none => .na | some q => .exact q)]
  | _, _, _ => fieldsOf fs

/-! ## Integrity lookups (R331, R332) -/

/-- The names that are no numeric sub-fields of a header: identifiers, flags and the epoch (R331; which names these are is log 29). -/
def isPlainName : FieldName → Bool
  | .stationId | .epoch | .mm | .iod | .provider | .solution | .networkId | .gridId | .yawFlag | .svid | .iode | .health | .slot
  | .version | .subtype | .residPresent => true
  | _ => false

/-- The table a header field is looked up in: identifiers, flags and the epoch are read plainly whatever the tables say (R331), and so
is a field without a table (log 29). -/
def headerTable (cfg : Cfg) (n : FieldName) : Option (List (Option Rat)) :=
  if isPlainName n then none else cfg.integTable.lookup n

/-- The sentinel index of a field (R332): its descriptor's, by default all ones. An index is read unsigned (R330), so a sentinel of a
signed field counts by its bits (DEDUCED, log 27). LOOKUP issued with a sentinel outside the field's range, which no rule speaks
of, takes it modulo `2^width` too (DESIGN CHOICE, log 27). -/
def integSentinel (d : FieldDesc) : Int := d.na.getD (2 ^ d.width - 1) % 2 ^ d.width

/-- `LOOKUP(d, idx)` (R331, R332): an index the table lacks is a missing entry (R8). So is one beyond the field's range, which the
rule does not speak of, unless the table goes on that far (DESIGN CHOICE, log 46). -/
def lookupIndex (cfg : Cfg) (d : FieldDesc) (idx : Nat) : Except Cond IntegVal :=
  if (idx : Int) = integSentinel d then .ok .notProvided
  else
    match ((cfg.integTable.lookup d.name).bind (fun tbl => tbl[idx]?)).join with
    | some q => .ok (.provided q)
    | none => .error (.usage (some (.int idx)))

end Sys2Proof.Machine
end

