-- ==== Sys2Proof/Machine/HostOps.lean ====
section
/-! DEFINITION. The host operations: RESET (R380), HOST_CONFIG with its checks (R215), HOST_LOAD (R214), HOST_SET_REFTIME
(R216). -/

namespace Sys2Proof.Machine

/-! ## What HOST_CONFIG checks (R215) -/

/-- A mask field has at least one bit; wider than 64 is read in chunks (R180). -/
def maskOk (m : MaskDesc) : Bool := decide (1 ≤ m.width)

/-- An MSM layout's widths and sentinels. -/
def msmLayoutOk (l : MsmLayout) : Bool :=
  l.header.all FieldDesc.ok && maskOk l.satMask && maskOk l.sigMask && l.satFields.all (fun x => x.2.ok) &&
    l.sigFields.all (fun x => x.2.ok)

/-- An SSR or IGS layout's widths and sentinels. -/
def ssrLayoutOk (l : SsrLayout) : Bool :=
  l.header.all FieldDesc.ok && l.svid.ok && l.record.all FieldDesc.ok && l.clockRecord.all FieldDesc.ok &&
    l.yaw.all (fun y => y.1.ok && y.2.ok) && l.nsig.all FieldDesc.ok && l.subrecord.all FieldDesc.ok

/-- A residual's sentinel lies in the range of every width it can have (R133, R215). -/
def residNaOk (l : ResidLayout) : Bool :=
  match l.na with
  | .value v => l.width.all (fun w => decide (w.2 = 0) || inFieldRange w.2 true v)
  | _ => true

/-- A residual block's widths (R281): functions into `0 .. 64` and the positive rationals; and its sentinel. -/
def residLayoutOk (l : ResidLayout) : Bool :=
  l.present.ok && l.widthCode.ok && l.scaleCode.ok && l.width.all (fun w => decide (w.2 ≤ 64)) &&
    l.scale.all (fun f => decide (0 < f.2)) && residNaOk l

/-- A grid layout's widths and sentinels. -/
def gridLayoutOk (l : GridLayout) : Bool :=
  l.header.all FieldDesc.ok && l.perSat.all (fun g => g.svid.ok) && l.record.all FieldDesc.ok && l.resid.all residLayoutOk

/-- A station layout's widths and sentinels. -/
def staItemOk : StaItem → Bool
  | .field d => d.ok
  | .str _ c => c.ok

/-- Whether a lookup table has every index of a field's range but the sentinel (R215, R331). -/
def tableCovers (d : FieldDesc) (tbl : List (Option Rat)) : Bool :=
  decide (2 ^ d.width ≤ tbl.length + 1) &&
    (List.range (2 ^ d.width)).all (fun k => decide ((k : Int) = d.na.getD (2 ^ d.width - 1) % 2 ^ d.width) || (tbl[k]?).join.isSome)

/-- The table check of a field of a record: it must have a covering table. -/
def recordFieldOk (cfg : Cfg) (d : FieldDesc) : Bool := (cfg.integTable.lookup d.name).any (tableCovers d)

/-- The table check of a header field: its table, if it is looked up at all (log 29), must cover it. -/
def headerFieldOk (cfg : Cfg) (d : FieldDesc) : Bool := (headerTable cfg d.name).all (tableCovers d)

/-- An integrity layout's widths, sentinels and tables; R330 reads one constellation mask (log 29). -/
def integLayoutOk (cfg : Cfg) (l : IntegLayout) : Bool :=
  l.header.all FieldDesc.ok && maskOk l.consMask && l.records.all FieldDesc.ok &&
    allConstellations.all (fun c => (l.satMask.get c).all maskOk && (l.freqMask.get c).all (fun f => maskOk f.mask)) &&
    l.header.all (headerFieldOk cfg) && l.records.all (recordFieldOk cfg) &&
    decide ((l.body.filter (fun x => decide (x = .consMask))).length ≤ 1)

/-- The header of a GPS ephemeris takes 488 bits with the type (R224): a layout of another width describes another message, and is
refused (DEDUCED, log 48). -/
def ephGpsOk (cfg : Cfg) : Bool :=
  (cfg.ephLayout.get .gps).all (fun l => decide (12 + (l.header.map (·.width)).sum = 488))

/-- The prefix and the subtype of a message that is chosen by a subtype. -/
def prefixOk (p : IgsPrefix) : Bool := p.pre.all FieldDesc.ok && p.subtype.ok

/-- Every layout of the configuration. -/
def layoutsOk (cfg : Cfg) : Bool :=
  cfg.msmLayout.all (fun x => msmLayoutOk x.2) && cfg.ssrLayout.all (fun x => ssrLayoutOk x.2) &&
    cfg.igsLayout.all (fun x => ssrLayoutOk x.2) && cfg.igsPrefix.all prefixOk &&
    allConstellations.all (fun c => (cfg.ephLayout.get c).all (fun l => l.header.all FieldDesc.ok)) &&
    cfg.staLayout.all (fun x => x.2.all staItemOk) && cfg.tropoLayout.all gridLayoutOk && cfg.ionoLayout.all gridLayoutOk &&
    cfg.integPrefix.all (fun x => prefixOk x.2) && cfg.integLayout.all (fun x => integLayoutOk cfg x.2) && ephGpsOk cfg

/-- Whether two index sub-ranges have an index in common (R163). -/
def rangesMeet (a b : PrnRange) : Bool :=
  decide (a.min ≤ a.max) && decide (b.min ≤ b.max) && decide (a.base ≤ b.base + (b.max - b.min)) &&
    decide (b.base ≤ a.base + (a.max - a.min))

/-- Whether the sub-ranges of two constellations are disjoint. -/
def subrangesApart (cfg : Cfg) (c c' : Constellation) : Bool :=
  match cfg.prn.get c, cfg.prn.get c' with
  | some a, some b => !rangesMeet a b
  | _, _ => true

/-- The index layout (R163, R164). -/
def indexLayoutOk (cfg : Cfg) : Bool :=
  allConstellations.all (fun c => allConstellations.all (fun c' => decide (c = c') || subrangesApart cfg c c')) &&
    (cfg.prn.get .gps).all (fun r => decide (r.base = r.min))

/-- The type table (R194 to R200): 12-bit types, no type with two handlers, every required row. -/
def typeTableOk (cfg : Cfg) : Bool :=
  cfg.typeTable.all (fun r => decide (r.1 < 4096) && decide (cfg.typeTable.lookup r.1 = some r.2)) &&
    (requiredRows cfg).all (fun r => decide (cfg.typeTable.lookup r.1 = some r.2))

/-- What HOST_CONFIG accepts (R215). -/
def cfgAccepted (cfg : Cfg) : Bool := layoutsOk cfg && indexLayoutOk cfg && typeTableOk cfg && !cfg.crc.reflected

/-! ## The operations -/

/-- The state RESET leaves (R380, R381, R55): the reset state, but STREAM is the host's; the port and the free counter are the
model's (logs 1, 11). -/
def State.afterReset (s : State) : State :=
  { State.reset with stream := s.stream, slen := s.slen, port := s.port, free := s.free }

/-- The meaning of RESET (R380). -/
def execReset (s : State) : Out := .next (State.done s.afterReset .done)

/-- The meaning of HOST_CONFIG (R215, R388): refused with UsageError outside its window or for a record that fails a check. -/
def execHostConfig (cfg : Cfg) (s : State) : Out :=
  if s.window = true ∧ cfgAccepted cfg = true then .next (State.done { s with cfg := cfg, configured := true } .done)
  else .next (s.raise (.usage (some (.config cfg))))

/-- The meaning of HOST_LOAD (R214). -/
def execHostLoad (bytes : List Byte) (scan : Nat) (s : State) : Out :=
  if bytes.length < scan then .next (s.raise (.usage (some (.int scan))))
  else
    .next (State.done
      { s with
        stream := Memory.write [] 0 bytes
        slen := bytes.length
        scan := scan
        f := { s.f with valid := false } } .done)

/-- The meaning of HOST_SET_REFTIME (R216). -/
def execHostSetRefTime (t : Time) (s : State) : Out := .next (State.done { s with refTime := some t } .done)

end Sys2Proof.Machine
end

