-- ==== Sys2Proof/Machine/Flags.lean ====
section
/-! DEFINITION. The flag-like results of the block (R37): the loss-of-lock bit (R251), the kind state (R306), the age of a message
against a cached epoch (R302), the soft issue-of-data flag (R283). There are no arithmetic condition codes. -/

namespace Sys2Proof.Machine

/-- The loss-of-lock bit of a counter `n` after `prev` (R251). -/
def lossOfLock (eqRaises : Bool) (prev : Option Nat) (n : Nat) : Bool :=
  match prev with
  | none => false
  | some p => decide (n < p) || (decide (n = p) && eqRaises)

/-- The kind state after an applied update (R306). -/
def kindStateOf (mm : Bool) : KindState := if mm then .partialSet else .complete

/-- A message's epoch against a cached one (R302). -/
inductive Age where
  | newer | same | older
deriving DecidableEq, Repr

/-- The age of epoch `t` against the cached epoch; without one every message is newer (R302). Times are compared by the host's order
(R36). -/
def ageOf (cfg : Cfg) (cached : Option Time) (t : Time) : Age :=
  match cached with
  | none => .newer
  | some e => if before cfg e t then .newer else if before cfg t e then .older else .same

/-- The age of a message against an entry (R302, R304): an Empty entry has no epoch. -/
def entryAge (cfg : Cfg) (e : Entry) (t : Time) : Age := if e.st = .empty then .newer else ageOf cfg e.epoch t

/-- Whether the message's issue-of-data is inconsistent with the set of kind `k` it would join (R283). A message without one differs from
a set with one, and the other way round (DESIGN CHOICE, log 26). -/
def iodDiffers (cfg : Cfg) (cs : CorrState) (n : NetworkId) (t : Time) (iod : Option HdrCode) (k : CacheKind) : Bool :=
  match cs.lookup n with
  | none => false
  | some m => decide (entryAge cfg (m.get k) t = .same) && decide ((m.get k).iod ≠ iod)

/-- `IOD_CHECK(n, cks, t, iod)` (R283): the soft flag, or under the strict policy the condition for the first inconsistent
kind. -/
def iodCheckOf (cfg : Cfg) (cs : CorrState) (n : NetworkId) (kinds : List CacheKind) (t : Time) (iod : Option HdrCode) :
    Except Cond Bool :=
  match kinds.find? (iodDiffers cfg cs n t iod) with
  | none => .ok false
  | some k =>
    match cfg.iodPolicy with
    | .strict => .error (.inconsistentIod n k)
    | .lenient => .ok true

end Sys2Proof.Machine
end

