-- ==== Sys2Proof/Machine/Cache.lean ====
section
/-! DEFINITION. The state caches: the correction state (R300 to R318), the integrity state (R335, R336), the lock-time cache
(R319), and the operations on them. -/

namespace Sys2Proof.Machine

/-! ## CACHE_UPDATE -/

/-- `for (key, rec) in recs: e.ent[key] <- rec` (R305, R311): a later record replaces an earlier one whole. -/
def mergeRecords (ent recs : List (EntryKey × Record)) : List (EntryKey × Record) :=
  recs.foldl (fun m r => insertKey entryLt r.1 r.2 m) ent

/-- The entry an applied message leaves (R304, R308): `ent` is what the epoch gate left of the map. -/
def applyUpdate (ent : List (EntryKey × Record)) (t : Time) (hdr : CorrHdr) (recs : List (EntryKey × Record)) : Entry where
  st := kindStateOf hdr.mm
  epoch := some t
  iod := hdr.iod
  udi := hdr.udi
  provider := hdr.provider
  solution := hdr.solution
  ent := mergeRecords ent recs

/-- One entry under an update (R303, R304, R307): the entry afterwards and whether the message was stale. -/
def updateEntry (cfg : Cfg) (e : Entry) (t : Time) (hdr : CorrHdr) (recs : List (EntryKey × Record)) : Entry × Bool :=
  match entryAge cfg e t with
  | .newer => (applyUpdate [] t hdr recs, false)
  | .same => (applyUpdate e.ent (e.epoch.getD t) hdr recs, false)
  | .older =>
    match cfg.oldEpochPolicy with
    | .drop => (e, true)
    | .replace => (applyUpdate [] t hdr recs, false)

/-- `CS[n]`, created with every kind Empty if absent (R301). -/
def networkOf (cs : CorrState) (n : NetworkId) : NetState := (cs.lookup n).getD NetState.fresh

/-- `CACHE_UPDATE(n, k, t, hdr, recs)` (R304): the correction state afterwards and the report (R268). -/
def cacheUpdate (cfg : Cfg) (cs : CorrState) (n : NetworkId) (k : CacheKind) (t : Time) (hdr : CorrHdr)
    (recs : List (EntryKey × Record)) : CorrState × KindReport :=
  let r := updateEntry cfg ((networkOf cs n).get k) t hdr recs
  (insertKey intLt n ((networkOf cs n).set r.1 k) cs, ⟨k, r.1.st, r.2⟩)

/-- The meaning of CACHE_UPDATE (R304). -/
def execCacheUpdate (n : NetworkId) (k : CacheKind) (t : Time) (hdr : CorrHdr) (recs : List (EntryKey × Record)) (s : State) :
    Out :=
  unitOp s fun s =>
    let r := cacheUpdate s.cfg s.cs n k t hdr recs
    .next (State.done { s with cs := r.1 } (.report r.2))

/-- The meaning of IOD_CHECK (R283). -/
def execIodCheck (n : NetworkId) (kinds : List CacheKind) (t : Time) (iod : Option HdrCode) (s : State) : Out :=
  unitOp s fun s => finishPure s (iodCheckOf s.cfg s.cs n kinds t iod) .flag

/-! ## LOCK_CHECK -/

/-- The meaning of LOCK_CHECK (R251, R252): the loss-of-lock bit, then the counter is stored whatever the comparison gave, and whatever
pair the operands are (DESIGN CHOICE, log 56). -/
def execLockCheck (sat : SatIndex) (g : SignalCode) (n : Nat) (s : State) : Out :=
  unitOp s fun s =>
    .next (State.done { s with lk := insertKey lockLt (sat, g) n s.lk }
      (.flag (lossOfLock s.cfg.lockEqRaises (s.lk.lookup (sat, g)) n)))

/-! ## IS_UPDATE -/

/-- One provider's entry under an update (R336): the entry afterwards and whether the message was stale. -/
def updateProvider (cfg : Cfg) (e : IEntry) (t : Time) (key : IntegKey) (part : IntegPart) : IEntry × Bool :=
  match ageOf cfg e.epoch t with
  | .newer => (⟨some t, insertKey integLt key part []⟩, false)
  | .same => (⟨e.epoch, insertKey integLt key part e.parts⟩, false)
  | .older =>
    match cfg.oldEpochPolicy with
    | .drop => (e, true)
    | .replace => (⟨some t, insertKey integLt key part []⟩, false)

/-- `IS_UPDATE(p, t, ..)` (R336): the integrity state afterwards and whether the message was stale. -/
def integUpdate (cfg : Cfg) (is : IntegState) (p : ProviderId) (t : Time) (key : IntegKey) (part : IntegPart) :
    IntegState × Bool :=
  let r := updateProvider cfg ((is.lookup p).getD ⟨none, []⟩) t key part
  (insertKey intLt p r.1 is, r.2)

/-- The meaning of IS_UPDATE (R336); it answers whether the message was stale. -/
def execIsUpdate (p : ProviderId) (t : Time) (key : IntegKey) (part : IntegPart) (s : State) : Out :=
  unitOp s fun s =>
    let r := integUpdate s.cfg s.is p t key part
    .next (State.done { s with is := r.1 } (.flag r.2))

/-! ## Host access (R317, R318): host operations read no CFG and do not close the window (R382, R388) -/

/-- The meaning of HOST_READ (R317): `CS[n][k]`, LK and IS; nothing for an absent network id. -/
def execHostRead (n : NetworkId) (k : CacheKind) (s : State) : Out :=
  .next (s.done (.caches ((s.cs.lookup n).map (fun m => m.get k)) s.lk s.is))

/-- The meaning of HOST_EVICT (R318): `CS[n]` becomes absent. -/
def execHostEvict (n : NetworkId) (s : State) : Out := .next (State.done { s with cs := eraseKey n s.cs } .done)

/-- The meaning of HOST_EVICT_PROVIDER (R318): `IS[p]` becomes absent. -/
def execHostEvictProvider (p : ProviderId) (s : State) : Out := .next (State.done { s with is := eraseKey p s.is } .done)

end Sys2Proof.Machine
end

