-- ==== Sys2Proof/Machine/Handler.lean ====
section
/-! DEFINITION. What every handler shares (R203, R204): it reads the payload under the cursor and answers a message together with the
caches it leaves; the caches are written only when it has completed (R310). The station handlers (R206 to R208), RAW (R201) and
the ephemeris handlers (R220). -/

namespace Sys2Proof.Machine

/-- A handler's result: the message and the staged caches (R310). -/
structure Handled where
  msg : Message
  lk : LockCache
  cs : CorrState
  is : IntegState
deriving DecidableEq, Repr

/-- A message that leaves the caches as they are. -/
def State.plain (s : State) (m : Message) : Handled := ⟨m, s.lk, s.cs, s.is⟩

/-- The commit of the staged caches (R310). -/
def State.commit (s : State) (h : Handled) : State := { s with lk := h.lk, cs := h.cs, is := h.is }

/-- The end of a message's decode before RESULT is written: the message, or why there is none, and the state. -/
inductive Run where
  | ok (m : Message) (s : State)
  | cond (c : Cond) (s : State)
deriving DecidableEq, Repr

/-- Run a handler at the cursor. -/
def runMessage (s : State) (h : Rd Handled) : Run :=
  match h s.cur.off with
  | .ok r off => .ok r.msg (State.commit { s with cur := { s.cur with off := off } } r)
  | .stop c off => .cond c { s with cur := { s.cur with off := off } }

/-- The end of an operation that decodes a message and answers it (log 22). -/
def finishRun : Run → Out
  | .ok m s => .next (s.done (.message m))
  | .cond c s => .next (s.raise c)

/-- A handler issued as an operation on the cursor (R100, log 22). -/
def handlerOp (s : State) (h : State → Rd Handled) : Out := unitOp s fun s => finishRun (runMessage s (h s))

/-- The reference time, or UsageError while it is undefined (R31). -/
def needRefTime (s : State) : Rd Time := Rd.entry s.refTime

/-- A pure conversion of every item of a list, in order; the first condition ends it. -/
def convertAll {α β : Type} (f : α → Except Cond β) : List α → Except Cond (List β)
  | [] => .ok []
  | a :: as =>
    match f a with
    | .error c => .error c
    | .ok b =>
      match convertAll f as with
      | .error c => .error c
      | .ok bs => .ok (b :: bs)

/-! ## RAW -/

/-- The payload bytes of the current frame (R24); while `F.valid = 0` the fields of F hold any value (U1), and the payload is open
(log 20): some bytes, as many as a length field can say. -/
def State.payload (s : State) : List Byte :=
  if s.f.valid then Memory.slice s.stream (s.f.pos + 3) s.f.length.toNat else (Config.freePayload s.free).take 1023

/-- The type of the current frame (R23); open while `F.valid = 0` (U1, log 20). -/
def State.frameType (s : State) : BitVec 12 := if s.f.valid then s.f.type else Config.freeType s.free

/-- `RAW(t)` (R201): the frame's payload. -/
def readRaw (s : State) (t : BitVec 12) : Rd Handled := Rd.pure (s.plain (.rawUnhandled t s.payload))

/-- The meaning of RAW (R201). -/
def execRaw (t : BitVec 12) (s : State) : Out := handlerOp s fun s => readRaw s t

/-! ## Station metadata -/

/-- `n` bytes at the cursor: a byte block where it is aligned, else `n` reads of 8 bits (R128, R206). -/
def readString (s : State) (n : Nat) : Rd (List Byte) := fun off =>
  if off % 8 = 0 then readByteBlock s n off
  else (Rd.times (readBitsU s 8) n).map (fun l => l.map (BitVec.ofNat 8)) off

/-- One item of a station layout (R206). -/
def readStaItem (s : State) : StaItem → Rd (FieldName × StaVal)
  | .field d => (readRawField s d).map fun f => (d.name, .num f.val)
  | .str name c => (readRawField s c).bind fun f => (readString s f.raw.toNat).map fun b => (name, .bytes b)

/-- The station handler (R206 to R208). -/
def readStation (s : State) (k : StaKind) : Rd Handled :=
  (Rd.entry (s.cfg.staLayout.lookup k)).bind fun items =>
    (Rd.forEach (readStaItem s) items).map fun fs => s.plain (.station k (lastOf fs))

/-- The meaning of STA_ANT (R206). -/
def execStaAnt (s : State) : Out := handlerOp s fun s => readStation s .ant

/-- The meaning of STA_POS (R207). -/
def execStaPos (s : State) : Out := handlerOp s fun s => readStation s .pos

/-- The meaning of STA_GLOBIAS (R208). -/
def execStaGlobias (s : State) : Out := handlerOp s fun s => readStation s .globias

/-! ## Ephemerides -/

/-- The week of an ephemeris (R220, R223): only if the layout has a week field. A raw week that is the field's sentinel is
disambiguated like any other (DESIGN CHOICE, log 45). -/
def readWeek (s : State) (c : Constellation) (fs : List RawField) : Rd (Option Int) :=
  match rawOf .weekRaw fs with
  | none => Rd.pure none
  | some raw => (needRefTime s).bind fun ref => (Rd.lift (adjustWeekOf s.cfg c raw ref)).map some

/-- The ephemeris handler (R220): the fields, then the satellite, then the week. -/
def readEph (s : State) (c : Constellation) : Rd Handled :=
  (Rd.entry (s.cfg.ephLayout.get c)).bind fun lay =>
  (readFields s lay.header).bind fun fs =>
  (Rd.entry (rawOf .svid fs)).bind fun svid =>
  (Rd.lift (satOfSvid s.cfg .eph c svid)).bind fun sat =>
  (readWeek s c fs).map fun week => s.plain (.ephemeris ⟨c, fieldsOf fs, sat, week⟩)

/-- The meaning of EPH.GPS (R224). -/
def execEphGps (s : State) : Out := handlerOp s fun s => readEph s .gps

/-- The meaning of EPH.GLONASS (R225). -/
def execEphGlonass (s : State) : Out := handlerOp s fun s => readEph s .glonass

/-- The meaning of EPH.Galileo (R226). -/
def execEphGalileo (s : State) : Out := handlerOp s fun s => readEph s .galileo

/-- The meaning of EPH.BeiDou (R227). -/
def execEphBeidou (s : State) : Out := handlerOp s fun s => readEph s .beidou

/-- The meaning of EPH.QZSS (R228). -/
def execEphQzss (s : State) : Out := handlerOp s fun s => readEph s .qzss

/-- The meaning of EPH.NavIC (R229). -/
def execEphNavic (s : State) : Out := handlerOp s fun s => readEph s .navic

/-- The meaning of EPH.SBAS (R230). -/
def execEphSbas (s : State) : Out := handlerOp s fun s => readEph s .sbas

end Sys2Proof.Machine
end

