-- ==== Sys2Proof/Machine/Correction.lean ====
section
/-! DEFINITION. The correction handlers (R265 to R287): SSR, IGS and the grid messages. -/

namespace Sys2Proof.Machine

/-! ## The common header (R266, R267) -/

/-- `CFG.LAYOUT[h].header`. -/
def corrHeaderOf (cfg : Cfg) : CorrHandler → Option (List FieldDesc)
  | .ssr c k => (cfg.ssrLayout.lookup (c, k)).map (·.header)
  | .igs c k => (cfg.igsLayout.lookup (c, k)).map (·.header)
  | .gridTropo => cfg.tropoLayout.map (·.header)
  | .gridIono => cfg.ionoLayout.map (·.header)

/-- `READ_HEADER(h)` (R266). -/
def readHeader (s : State) (h : CorrHandler) : Rd (List RawField) :=
  match corrHeaderOf s.cfg h with
  | none => Rd.raise (.usage (some (.handler h)))
  | some ds => readFields s ds

/-- The meaning of READ_HEADER (R266). -/
def execReadHeader (h : CorrHandler) (s : State) : Out :=
  unitOp s fun s => finishRd s (readHeader s h) fun fs s => s.done (.fields (fieldsOf fs))

/-- What a correction handler takes from its header: the fields, the network id, the epoch, the values CACHE_UPDATE keeps. -/
structure CorrPrep where
  fields : List RawField
  network : NetworkId
  epoch : Time
  hdr : CorrHdr
deriving DecidableEq, Repr

/-- The key of a message in the correction state: the grid id of a grid message (R45, R279, R280), the network id of any other
(R267); the other of the two where the header has only that, and 0 where it has neither (log 12). -/
def networkIdOf (h : CorrHandler) (fs : List RawField) : NetworkId :=
  match h with
  | .gridTropo | .gridIono => ((rawOf .gridId fs).or (rawOf .networkId fs)).getD 0
  | .ssr _ _ | .igs _ _ => ((rawOf .networkId fs).or (rawOf .gridId fs)).getD 0

/-- The header values CACHE_UPDATE keeps (R304, R308): the codes as read, `NA` among them (R266, R397). R102 gives `mm` one bit; of a wider
or signed field only the raw integer 1 says that more is to follow (DESIGN CHOICE, log 57). -/
def corrHdrOf (fs : List RawField) (mm : Int) : CorrHdr :=
  ⟨codeOf .iod fs, codeOf .udi fs, codeOf .provider fs, codeOf .solution fs, decide (mm = 1)⟩

/-- The header and the epoch (R265, R266, R31): a layout without an epoch or a multi-message flag lacks an entry, which is missed
here, before the records are read (log 26). Quality fields of a header are kept as read and not decoded (DESIGN CHOICE, log 39). -/
def readPrep (s : State) (h : CorrHandler) : Rd CorrPrep :=
  (readHeader s h).bind fun fs =>
  (Rd.entry (rawOf .epoch fs)).bind fun raw =>
  (Rd.entry (rawOf .mm fs)).bind fun mm =>
  (needRefTime s).map fun ref => ⟨fs, networkIdOf h fs, epochOf s.cfg (.corr h) raw ref, corrHdrOf fs mm⟩

/-! ## Satellite records (R269 to R278) -/

/-- The fields of one bias sub-record; a slot is converted as soon as it is read (R276, R277), and of two the last counts (log 44). -/
def readSubFields (s : State) (c : Constellation) : List FieldDesc → Option SignalCode → List RawField →
    Rd (Option SignalCode × List RawField)
  | [], g, acc => Rd.pure (g, acc)
  | d :: ds, g, acc =>
    (readRawField s d).bind fun f =>
      if d.name = .slot then
        (Rd.lift (signalOf s.cfg .ssrSig c f.raw)).bind fun g' => readSubFields s c ds (some g') (acc ++ [f])
      else readSubFields s c ds g (acc ++ [f])

/-- One bias sub-record: the signal and the fields (R276, R277). A layout without a slot field lacks an entry, which is missed after the
fields of the first sub-record (DESIGN CHOICE, log 26). -/
def readSub (s : State) (c : Constellation) (lay : SsrLayout) : Rd (SignalCode × Fields) :=
  (readSubFields s c lay.subrecord none []).bind fun r =>
    (Rd.entry r.1).map fun g => (g, fieldsOf r.2)

/-- The sub-records of a satellite: the count, then as many (R276, R277). A layout without a count field lacks an entry, which is
missed where the count would stand (DESIGN CHOICE, log 26). -/
def readSubs (s : State) (c : Constellation) (lay : SsrLayout) : Rd (List (SignalCode × Fields)) :=
  (Rd.entry lay.nsig).bind fun d => (readRawField s d).bind fun m => Rd.times (readSub s c lay) m.raw.toNat

/-- The map of a code-bias record (R276): a repeated signal keeps the later value. -/
def codeMap (l : List (SignalCode × Fields)) : List (SignalCode × Value) :=
  l.foldl (fun m x => insertKey sigLt x.1 (valueOf .bias x.2) m) []

/-- The map of a phase-bias record (R277). -/
def phaseMap (l : List (SignalCode × Fields)) : List (SignalCode × PhaseBias) :=
  l.foldl (fun m x => insertKey sigLt x.1 ⟨valueOf .bias x.2, valueOf .intInd x.2, valueOf .disc x.2⟩ m) []

/-- The yaw pair (R278): on the wire if and only if the header's flag is 1. Where the flag is 1 and the layout has no pair, nothing is read
and both are not available (DESIGN CHOICE, log 26). -/
def readYaw (s : State) (lay : SsrLayout) (flag : Bool) : Rd (Value × Value) :=
  if flag then
    match lay.yaw with
    | none => Rd.pure (.na, .na)
    | some (y, r) => (readRawField s y).bind fun a => (readRawField s r).map fun b => (a.val, b.val)
  else Rd.pure (.na, .na)

/-- The record of a kind after the satellite id (R271 to R277). -/
def readRecord (s : State) (c : Constellation) (lay : SsrLayout) (yawFlag : Bool) : SsrKind → Rd Record
  | .orbit => (readFields s lay.record).map fun fs => .vals (withQuality s.cfg fs)
  | .clock => (readFields s lay.record).map fun fs => .vals (withQuality s.cfg fs)
  | .hrclock => (readFields s lay.record).map fun fs => .vals (withQuality s.cfg fs)
  | .ura => (readFields s lay.record).map fun fs => .vals (withQuality s.cfg fs)
  | .combined =>
    (readFields s lay.record).bind fun o =>
      (readFields s lay.clockRecord).map fun k => .combined (withQuality s.cfg o) (withQuality s.cfg k)
  | .codebias => (readSubs s c lay).map fun l => .code (codeMap l)
  | .phasebias =>
    (readYaw s lay yawFlag).bind fun y => (readSubs s c lay).map fun l => .phase y.1 y.2 (phaseMap l)

/-- One satellite's record: the SVID, its conversion, the kind's fields (R265, R269). -/
def readSatRecord (s : State) (fam : Family) (c : Constellation) (k : SsrKind) (lay : SsrLayout) (yawFlag : Bool) :
    Rd (EntryKey × Record) :=
  (readRawField s lay.svid).bind fun svid =>
  (Rd.lift (satOfSvid s.cfg fam c svid.raw)).bind fun sat =>
  (readRecord s c lay yawFlag k).map fun r => (.sat sat, r)

/-! ## The commit (R265, R283, R304, R312) -/

/-- The cache kinds a message kind writes (R44). -/
def cacheKindsOf : SsrKind → List CacheKind
  | .orbit => [.orbit]
  | .clock => [.clock]
  | .combined => [.orbit, .clock]
  | .hrclock => [.hrclock]
  | .codebias => [.codebias]
  | .phasebias => [.phasebias]
  | .ura => [.ura]

/-- The part of a record for a cache kind (R273, R312). -/
def recordPart (k : CacheKind) : Record → Record
  | .combined o c =>
    match k with
    | .clock => .vals c
    | _ => .vals o
  | r => r

/-- The updates of a message's kinds, in order (R265). -/
def updateKinds (cfg : Cfg) (n : NetworkId) (t : Time) (hdr : CorrHdr) (recs : List (EntryKey × Record)) :
    List CacheKind → CorrState → CorrState × List KindReport
  | [], cs => (cs, [])
  | k :: ks, cs =>
    let r := cacheUpdate cfg cs n k t hdr (recs.map (fun x => (x.1, recordPart k x.2)))
    let rest := updateKinds cfg n t hdr recs ks r.1
    (rest.1, r.2 :: rest.2)

/-- The end of a correction handler: the issue-of-data check, the staged updates, the report (R265, R268, R287). -/
def finishCorr (s : State) (h : CorrHandler) (pre : Option (List RawField)) (p : CorrPrep) (kinds : List CacheKind)
    (recs : List (EntryKey × Record)) : Rd Handled :=
  (Rd.lift (iodCheckOf s.cfg s.cs p.network kinds p.epoch p.hdr.iod)).map fun flag =>
    let r := updateKinds s.cfg p.network p.epoch p.hdr recs kinds s.cs
    ⟨.correction ⟨h, pre.map fieldsOf, p.network, fieldsOf p.fields, recs, r.2, flag⟩, s.lk, r.1, s.is⟩

/-- The generic procedure of a satellite message (R265). -/
def readCorr (s : State) (h : CorrHandler) (pre : Option (List RawField)) (fam : Family) (c : Constellation) (k : SsrKind)
    (lay : SsrLayout) : Rd Handled :=
  (readPrep s h).bind fun p =>
  (Rd.entry (countOf .nsat p.fields)).bind fun nsat =>
  (Rd.times (readSatRecord s fam c k lay (decide (rawOf .yawFlag p.fields = some 1))) nsat).bind fun recs =>
  finishCorr s h pre p (cacheKindsOf k) recs

/-- The handler `SSR(c, k)` (R271 to R277, R286). -/
def readSsr (s : State) (c : Constellation) (k : SsrKind) : Rd Handled :=
  (Rd.entryFor (.handler (.ssr c k)) (s.cfg.ssrLayout.lookup (c, k))).bind fun lay => readCorr s (.ssr c k) none .ssr c k lay

/-! ## Grid messages (R279 to R281) -/

/-- The sentinel of a residual of width `w` (R281, "sentinel per layout"). -/
def residNaAt (w : Nat) : ResidNa → Option Int
  | .none => .none
  | .mostNegative => some (-(2 ^ (w - 1)))
  | .mostPositive => some (2 ^ (w - 1) - 1)
  | .allOnes => some (-1)
  | .value v => some v

/-- The descriptor of one residual. -/
def residDesc (lay : ResidLayout) (w : Nat) (sf : Rat) : FieldDesc :=
  { name := .bias, width := w, signed := true, scale := sf, na := residNaAt w lay.na }

/-- `CFG.LAYOUT[h].npoints(n, hdr)` (R281). -/
def npointsOf (lay : GridLayout) (n : NetworkId) (fs : List RawField) : Option Nat :=
  match lay.npointsField with
  | some f => countOf f fs
  | none => lay.npointsOfGrid.lookup n

/-- The residual block (R281). A layout that names no fields for one has none: nothing is read (DESIGN CHOICE, log 26). -/
def readResid (s : State) (lay : GridLayout) (n : NetworkId) (hdr : List RawField) : Rd (List Value) :=
  match lay.resid with
  | none => Rd.pure []
  | some rl =>
    (readRawField s rl.present).bind fun present =>
      if present.raw = 0 then Rd.pure []
      else
        (readRawField s rl.widthCode).bind fun wc =>
        (Rd.entry (rl.width.lookup wc.raw)).bind fun w =>
        (readRawField s rl.scaleCode).bind fun sc =>
        (Rd.entry (rl.scale.lookup sc.raw)).bind fun sf =>
        (Rd.entry (npointsOf lay n hdr)).bind fun npoints =>
          if w = 0 then Rd.pure (List.replicate npoints .na)
          else (Rd.times (readRawField s (residDesc rl w sf)) npoints).map fun l => l.map (·.val)

/-- The records of the points (R279): `Point(p)` for each residual. -/
def pointRecords : Nat → List Value → List (EntryKey × Record)
  | _, [] => []
  | p, v :: vs => (.point p, .resid v) :: pointRecords (p + 1) vs

/-- The records of a grid message without satellites (R279). -/
def readGridModel (s : State) (lay : GridLayout) (p : CorrPrep) : Rd (List (EntryKey × Record)) :=
  (readFields s lay.record).bind fun m =>
    (readResid s lay p.network p.fields).map fun l => (.model, .vals (withQuality s.cfg m)) :: pointRecords 0 l

/-- One satellite's record of a grid message and its residual block (R280). -/
def readGridSat (s : State) (lay : GridLayout) (g : GridSat) (p : CorrPrep) : Rd (EntryKey × Record) :=
  (readRawField s g.svid).bind fun svid =>
  (Rd.lift (satOfSvid s.cfg .grid g.cons svid.raw)).bind fun sat =>
  (readFields s lay.record).bind fun m =>
  (readResid s lay p.network p.fields).map fun l => (.sat sat, .gridSat (withQuality s.cfg m) l)

/-- The grid handlers (R279, R280); `pre` as for the satellite messages. -/
def readGrid (s : State) (h : CorrHandler) (pre : Option (List RawField)) (k : CacheKind) (lay : GridLayout) : Rd Handled :=
  (readPrep s h).bind fun p =>
    match lay.perSat with
    | none => (readGridModel s lay p).bind fun recs => finishCorr s h pre p [k] recs
    | some g =>
      (Rd.entry (countOf .nsat p.fields)).bind fun nsat =>
        (Rd.times (readGridSat s lay g p) nsat).bind fun recs => finishCorr s h pre p [k] recs

/-- `GRID_TROPO` (R279): its model is read once, not per satellite. -/
def readGridTropo (s : State) (pre : Option (List RawField)) : Rd Handled :=
  (Rd.entryFor (.handler .gridTropo) s.cfg.tropoLayout).bind fun lay => readGrid s .gridTropo pre .tropo { lay with perSat := none }

/-- `GRID_IONO` (R280). -/
def readGridIono (s : State) (pre : Option (List RawField)) : Rd Handled :=
  (Rd.entryFor (.handler .gridIono) s.cfg.ionoLayout).bind fun lay => readGrid s .gridIono pre .iono lay

/-! ## IGS (R285, R198, R200) -/

/-- The handler a subtype selects: `IGS(c, k)`, or a grid message chosen by a subtype (R200), which follows the prefix and the subtype
field of IGS (DESIGN CHOICE, log 58). -/
def readSubtype (s : State) (pre : List RawField) : SubTarget → Rd Handled
  | .ssr c k =>
    (Rd.entryFor (.handler (.igs c k)) (s.cfg.igsLayout.lookup (c, k))).bind fun lay => readCorr s (.igs c k) (some pre) .igs c k lay
  | .gridTropo => readGridTropo s (some pre)
  | .gridIono => readGridIono s (some pre)

/-- The handler `IGS` (R285): the prefix, the subtype, then the handler the subtype selects; an unknown subtype is RAW (R198). A
subtype equal to its field's sentinel is the integer it is (DESIGN CHOICE, log 45). -/
def readIgs (s : State) : Rd Handled :=
  (Rd.entry s.cfg.igsPrefix).bind fun px =>
  (readFields s px.pre).bind fun pre =>
  (readRawField s px.subtype).bind fun sub =>
    match s.cfg.igsSubtypeTable.lookup sub.raw with
    | none => Sys2Proof.Machine.readRaw s s.frameType
    | some x => readSubtype s pre x

/-- The meaning of GRID_TROPO (R279). -/
def execGridTropo (s : State) : Out := handlerOp s fun s => readGridTropo s none

/-- The meaning of GRID_IONO (R280). -/
def execGridIono (s : State) : Out := handlerOp s fun s => readGridIono s none

/-- The meaning of IGS (R285). -/
def execIgs (s : State) : Out := handlerOp s readIgs

/-! ## The rows of the SSR kinds and of the test range -/

/-- The meaning of SSR.ORBIT.GPS (R271). -/
def execSsrOrbitGps (s : State) : Out := handlerOp s fun s => readSsr s .gps .orbit

/-- The meaning of SSR.CLOCK.GPS (R272). -/
def execSsrClockGps (s : State) : Out := handlerOp s fun s => readSsr s .gps .clock

/-- The meaning of SSR.COMBINED.GPS (R273). -/
def execSsrCombinedGps (s : State) : Out := handlerOp s fun s => readSsr s .gps .combined

/-- The meaning of SSR.HRCLOCK.GPS (R274). -/
def execSsrHrclockGps (s : State) : Out := handlerOp s fun s => readSsr s .gps .hrclock

/-- The meaning of SSR.CODEBIAS.GPS (R276). -/
def execSsrCodebiasGps (s : State) : Out := handlerOp s fun s => readSsr s .gps .codebias

/-- The meaning of SSR.PHASEBIAS.GPS (R277). -/
def execSsrPhasebiasGps (s : State) : Out := handlerOp s fun s => readSsr s .gps .phasebias

/-- The meaning of SSR.URA.GPS (R275). -/
def execSsrUraGps (s : State) : Out := handlerOp s fun s => readSsr s .gps .ura

/-- The meaning of SSR.ORBIT.GLONASS (R271). -/
def execSsrOrbitGlonass (s : State) : Out := handlerOp s fun s => readSsr s .glonass .orbit

/-- The meaning of SSR.CLOCK.GLONASS (R272). -/
def execSsrClockGlonass (s : State) : Out := handlerOp s fun s => readSsr s .glonass .clock

/-- The meaning of SSR.COMBINED.GLONASS (R273). -/
def execSsrCombinedGlonass (s : State) : Out := handlerOp s fun s => readSsr s .glonass .combined

/-- The meaning of SSR.HRCLOCK.GLONASS (R274). -/
def execSsrHrclockGlonass (s : State) : Out := handlerOp s fun s => readSsr s .glonass .hrclock

/-- The meaning of SSR.CODEBIAS.GLONASS (R276). -/
def execSsrCodebiasGlonass (s : State) : Out := handlerOp s fun s => readSsr s .glonass .codebias

/-- The meaning of SSR.PHASEBIAS.GLONASS (R277). -/
def execSsrPhasebiasGlonass (s : State) : Out := handlerOp s fun s => readSsr s .glonass .phasebias

/-- The meaning of SSR.URA.GLONASS (R275). -/
def execSsrUraGlonass (s : State) : Out := handlerOp s fun s => readSsr s .glonass .ura

/-- The meaning of SSR.ORBIT.Galileo (R271). -/
def execSsrOrbitGalileo (s : State) : Out := handlerOp s fun s => readSsr s .galileo .orbit

/-- The meaning of SSR.CLOCK.Galileo (R272). -/
def execSsrClockGalileo (s : State) : Out := handlerOp s fun s => readSsr s .galileo .clock

/-- The meaning of SSR.COMBINED.Galileo (R273). -/
def execSsrCombinedGalileo (s : State) : Out := handlerOp s fun s => readSsr s .galileo .combined

/-- The meaning of SSR.HRCLOCK.Galileo (R274). -/
def execSsrHrclockGalileo (s : State) : Out := handlerOp s fun s => readSsr s .galileo .hrclock

/-- The meaning of SSR.CODEBIAS.Galileo (R276). -/
def execSsrCodebiasGalileo (s : State) : Out := handlerOp s fun s => readSsr s .galileo .codebias

/-- The meaning of SSR.PHASEBIAS.Galileo (R277). -/
def execSsrPhasebiasGalileo (s : State) : Out := handlerOp s fun s => readSsr s .galileo .phasebias

/-- The meaning of SSR.URA.Galileo (R275). -/
def execSsrUraGalileo (s : State) : Out := handlerOp s fun s => readSsr s .galileo .ura

/-- The meaning of SSR.ORBIT.BeiDou (R271). -/
def execSsrOrbitBeidou (s : State) : Out := handlerOp s fun s => readSsr s .beidou .orbit

/-- The meaning of SSR.CLOCK.BeiDou (R272). -/
def execSsrClockBeidou (s : State) : Out := handlerOp s fun s => readSsr s .beidou .clock

/-- The meaning of SSR.COMBINED.BeiDou (R273). -/
def execSsrCombinedBeidou (s : State) : Out := handlerOp s fun s => readSsr s .beidou .combined

/-- The meaning of SSR.HRCLOCK.BeiDou (R274). -/
def execSsrHrclockBeidou (s : State) : Out := handlerOp s fun s => readSsr s .beidou .hrclock

/-- The meaning of SSR.CODEBIAS.BeiDou (R276). -/
def execSsrCodebiasBeidou (s : State) : Out := handlerOp s fun s => readSsr s .beidou .codebias

/-- The meaning of SSR.PHASEBIAS.BeiDou (R277). -/
def execSsrPhasebiasBeidou (s : State) : Out := handlerOp s fun s => readSsr s .beidou .phasebias

/-- The meaning of SSR.URA.BeiDou (R275). -/
def execSsrUraBeidou (s : State) : Out := handlerOp s fun s => readSsr s .beidou .ura

/-- The meaning of SSR.ORBIT.QZSS (R271). -/
def execSsrOrbitQzss (s : State) : Out := handlerOp s fun s => readSsr s .qzss .orbit

/-- The meaning of SSR.CLOCK.QZSS (R272). -/
def execSsrClockQzss (s : State) : Out := handlerOp s fun s => readSsr s .qzss .clock

/-- The meaning of SSR.COMBINED.QZSS (R273). -/
def execSsrCombinedQzss (s : State) : Out := handlerOp s fun s => readSsr s .qzss .combined

/-- The meaning of SSR.HRCLOCK.QZSS (R274). -/
def execSsrHrclockQzss (s : State) : Out := handlerOp s fun s => readSsr s .qzss .hrclock

/-- The meaning of SSR.CODEBIAS.QZSS (R276). -/
def execSsrCodebiasQzss (s : State) : Out := handlerOp s fun s => readSsr s .qzss .codebias

/-- The meaning of SSR.PHASEBIAS.QZSS (R277). -/
def execSsrPhasebiasQzss (s : State) : Out := handlerOp s fun s => readSsr s .qzss .phasebias

/-- The meaning of SSR.URA.QZSS (R275). -/
def execSsrUraQzss (s : State) : Out := handlerOp s fun s => readSsr s .qzss .ura

/-- The meaning of SSR.ORBIT.NavIC (R271). -/
def execSsrOrbitNavic (s : State) : Out := handlerOp s fun s => readSsr s .navic .orbit

/-- The meaning of SSR.CLOCK.NavIC (R272). -/
def execSsrClockNavic (s : State) : Out := handlerOp s fun s => readSsr s .navic .clock

/-- The meaning of SSR.COMBINED.NavIC (R273). -/
def execSsrCombinedNavic (s : State) : Out := handlerOp s fun s => readSsr s .navic .combined

/-- The meaning of SSR.HRCLOCK.NavIC (R274). -/
def execSsrHrclockNavic (s : State) : Out := handlerOp s fun s => readSsr s .navic .hrclock

/-- The meaning of SSR.CODEBIAS.NavIC (R276). -/
def execSsrCodebiasNavic (s : State) : Out := handlerOp s fun s => readSsr s .navic .codebias

/-- The meaning of SSR.PHASEBIAS.NavIC (R277). -/
def execSsrPhasebiasNavic (s : State) : Out := handlerOp s fun s => readSsr s .navic .phasebias

/-- The meaning of SSR.URA.NavIC (R275). -/
def execSsrUraNavic (s : State) : Out := handlerOp s fun s => readSsr s .navic .ura

/-- The meaning of SSR.ORBIT.SBAS (R271). -/
def execSsrOrbitSbas (s : State) : Out := handlerOp s fun s => readSsr s .sbas .orbit

/-- The meaning of SSR.CLOCK.SBAS (R272). -/
def execSsrClockSbas (s : State) : Out := handlerOp s fun s => readSsr s .sbas .clock

/-- The meaning of SSR.COMBINED.SBAS (R273). -/
def execSsrCombinedSbas (s : State) : Out := handlerOp s fun s => readSsr s .sbas .combined

/-- The meaning of SSR.HRCLOCK.SBAS (R274). -/
def execSsrHrclockSbas (s : State) : Out := handlerOp s fun s => readSsr s .sbas .hrclock

/-- The meaning of SSR.CODEBIAS.SBAS (R276). -/
def execSsrCodebiasSbas (s : State) : Out := handlerOp s fun s => readSsr s .sbas .codebias

/-- The meaning of SSR.PHASEBIAS.SBAS (R277). -/
def execSsrPhasebiasSbas (s : State) : Out := handlerOp s fun s => readSsr s .sbas .phasebias

/-- The meaning of SSR.URA.SBAS (R275). -/
def execSsrUraSbas (s : State) : Out := handlerOp s fun s => readSsr s .sbas .ura

/-- A test-range message (R199, R286): the handler `SSR(c, CFG.TEST_KIND_OF_OFFSET[o])`, the very one of the standard range. -/
def readTest (s : State) (c : Constellation) (o : Nat) : Rd Handled :=
  (Rd.entryFor (.int o) (s.cfg.testKindOfOffset.lookup o)).bind fun k => readSsr s c k

/-- The meaning of SSR.TEST.GPS (R199, R286). -/
def execSsrTestGps (o : Nat) (s : State) : Out := handlerOp s fun s => readTest s .gps o

/-- The meaning of SSR.TEST.GLONASS (R199, R286). -/
def execSsrTestGlonass (o : Nat) (s : State) : Out := handlerOp s fun s => readTest s .glonass o

/-- The meaning of SSR.TEST.Galileo (R199, R286). -/
def execSsrTestGalileo (o : Nat) (s : State) : Out := handlerOp s fun s => readTest s .galileo o

/-- The meaning of SSR.TEST.BeiDou (R199, R286). -/
def execSsrTestBeidou (o : Nat) (s : State) : Out := handlerOp s fun s => readTest s .beidou o

/-- The meaning of SSR.TEST.QZSS (R199, R286). -/
def execSsrTestQzss (o : Nat) (s : State) : Out := handlerOp s fun s => readTest s .qzss o

/-- The meaning of SSR.TEST.NavIC (R199, R286). -/
def execSsrTestNavic (o : Nat) (s : State) : Out := handlerOp s fun s => readTest s .navic o

/-- The meaning of SSR.TEST.SBAS (R199, R286). -/
def execSsrTestSbas (o : Nat) (s : State) : Out := handlerOp s fun s => readTest s .sbas o

end Sys2Proof.Machine
end

