-- ==== Sys2Proof/Machine/Framer.lean ====
section
/-! DEFINITION. FrameSync (R140 to R152): the frame search step by step, and the reverse path's frame emission. -/

namespace Sys2Proof.Machine

/-- The scan of SYNC_SCAN over the next `k` bytes (R141). -/
def scanPreamble (m : Memory) (preamble : Byte) : Nat → Nat → Option Nat
  | 0, _ => none
  | k + 1, p => if Memory.get m p = preamble then some p else scanPreamble m preamble k (p + 1)

/-- `SYNC_SCAN(start)` (R141). For a start beyond SLEN, outside the operand's range, the rule states no result: it is open (DESIGN
CHOICE, log 18). -/
def syncScanFrom (s : State) (start : Nat) : Option Nat :=
  if s.slen < start then Config.freeScan s.free start
  else scanPreamble s.stream s.cfg.preamble (s.slen - start) start

/-- `LEN_READ(p)` (R142, R143): the low 10 bits of the 16-bit value after the preamble. -/
def lenReadAt (s : State) (p : Nat) : Except Cond Nat :=
  if s.slen < p + 3 then .error (.truncatedAt p)
  else .ok ((Memory.read16 s.stream (p + 1)).extractLsb' 0 10).toNat

/-- `BOUND_CHECK(p, L)` (R144). -/
def boundCheckAt (s : State) (p len : Nat) : Except Cond Unit :=
  if s.slen < p + len + 6 then .error (.truncatedAt p) else .ok ()

/-- The CRC of the bytes a frame covers (R145, R146). -/
def frameCrc (s : State) (p len : Nat) : BitVec 24 := Sys2Proof.Machine.crc24 s.cfg.crc (Memory.slice s.stream p (len + 3))

/-- The outcome of a frame search (R146). -/
inductive FrameRes where
  | noFrame
  | frame (p len : Nat) (crc : BitVec 24)
  | cond (c : Cond)
deriving DecidableEq, Repr

/-- The examination of the candidate at `p` (R146 after the scan). -/
def candidateAt (s : State) (p : Nat) : FrameRes :=
  match lenReadAt s p with
  | .error c => .cond c
  | .ok len =>
    match boundCheckAt s p len with
    | .error c => .cond c
    | .ok () =>
      if frameCrc s p len = Memory.read24 s.stream (p + 3 + len) then .frame p len (Memory.read24 s.stream (p + 3 + len))
      else .cond (.checksum p)

/-- The search of `FIND_FRAME(start)` (R146): one candidate. -/
def searchFrame (s : State) (start : Nat) : FrameRes :=
  match syncScanFrom s start with
  | none => .noFrame
  | some p => candidateAt s p

/-- `F` after a search (R23, R146): invalid but for an accepted frame; `F.type` is DISPATCH's. -/
def FrameGroup.after (f : FrameGroup) : FrameRes → FrameGroup
  | .frame p len crc => { f with valid := true, pos := p, length := BitVec.ofNat 10 len, crc := crc }
  | _ => { f with valid := false }

/-- The meaning of SYNC_SCAN (R141). -/
def execSyncScan (start : Nat) (s : State) : Out :=
  unitOp s fun s => .next (s.done (.position (syncScanFrom s start)))

/-- The meaning of LEN_READ (R142). -/
def execLenRead (p : Nat) (s : State) : Out := unitOp s fun s => finishPure s (lenReadAt s p) .nat

/-- The meaning of BOUND_CHECK (R144). -/
def execBoundCheck (p len : Nat) (s : State) : Out := unitOp s fun s => finishPure s (boundCheckAt s p len) fun _ => .done

/-- The meaning of CRC24 (R145). -/
def execCrc24 (data : List Byte) (s : State) : Out :=
  unitOp s fun s => withCrc s fun s => .next (s.done (.crc (Sys2Proof.Machine.crc24 s.cfg.crc data)))

/-- The end of FIND_FRAME in F, RESULT and the value (R146). -/
def State.found (s : State) (r : FrameRes) : State :=
  match r with
  | .noFrame => State.done { s with f := s.f.after r } .noFrame
  | .frame p len _ => State.done { s with f := s.f.after r } (.frame p len)
  | .cond c => State.raise { s with f := s.f.after r } c

/-- The meaning of FIND_FRAME (R146). -/
def execFindFrame (start : Nat) (s : State) : Out :=
  unitOp s fun s => withCrc s fun s => .next (s.found (searchFrame s start))

/-! ## Reverse path -/

/-- The bytes of the frame of a payload (R152): zero pad bits, the CRC over preamble, length and payload. -/
def frameOf (cfg : Cfg) (payload : List Byte) : List Byte :=
  encodeFrame cfg 0 payload
    (Sys2Proof.Machine.crc24 cfg.crc ((encodeFrame cfg 0 payload 0).take (payload.length + 3)))

/-- `FRAME_EMIT(payload)` (R152): the frame into OBUF from its start, and the frame as the result. -/
def emitFrame (s : State) (payload : List Byte) : State :=
  if 1023 < payload.length then s.raise (.usage (some (.int payload.length)))
  else
    State.done
      { s with obuf := Memory.write s.obuf 0 (frameOf s.cfg payload), olen := max s.olen (payload.length + 6) }
      (.bytes (frameOf s.cfg payload))

/-- The meaning of FRAME_EMIT (R152). -/
def execFrameEmit (payload : List Byte) (s : State) : Out :=
  unitOp s fun s => withCrc s fun s => .next (emitFrame s payload)

end Sys2Proof.Machine
end

