-- ==== Sys2Proof/Machine/Integrity.lean ====
section
/-! DEFINITION. The integrity handler (R330 to R338). -/

namespace Sys2Proof.Machine

/-- One header field (R331): an index to look up where it has a table, else a plain field (log 29). -/
def readIntegHeaderField (s : State) (d : FieldDesc) : Rd (RawField × IntegHdrVal) :=
  (readRawField s d).bind fun f =>
    match headerTable s.cfg d.name with
    | none => Rd.pure (f, .plain f.val)
    | some _ => (Rd.lift (lookupIndex s.cfg d f.bits)).map fun v => (f, .looked v)

/-- The index of a frequency or signal mask as the layout reads it (R330). -/
def freqItem (cfg : Cfg) (c : Constellation) (t : Option SigTable) (k : Nat) : Except Cond FreqItem :=
  match t with
  | none => .ok (.index k)
  | some t =>
    match signalOf cfg t c k with
    | .error e => .error e
    | .ok g => .ok (.signal g)

/-- The looked-up values of an element, `val[e][name] <- v` (R330): a later record of the same element overwrites the earlier one. -/
def addVals (e : IntegElem) (vs : List (FieldName × IntegVal)) :
    List (IntegElem × List (FieldName × IntegVal)) → List (IntegElem × List (FieldName × IntegVal))
  | [] => [(e, lastOf vs)]
  | (e', vs') :: more => if e' = e then (e', lastOf (vs' ++ vs)) :: more else (e', vs') :: addVals e vs more

/-- The lists a message's masks gave for a constellation, in order: one, unless a message lists the constellation twice (log 53). -/
def listsOf {α : Type} (l : List (Constellation × List α)) (c : Constellation) : List (List α) :=
  (l.filter (fun x => decide (x.1 = c))).map Prod.snd

/-- The satellites of a constellation as the message has them so far: `sats[c] <-` keeps the last list (R330). -/
def partSats (p : IntegPart) (c : Constellation) : List SatIndex := ((listsOf p.sats c).getLast?).getD []

/-- The frequencies or signals of a constellation as the message has them so far: the last list (R330). -/
def partFreqs (p : IntegPart) (c : Constellation) : List FreqItem := ((listsOf p.freqs c).getLast?).getD []

/-- The elements of a satellite's signals, in the order of the mask. -/
def satPairs (p : IntegPart) (c : Constellation) (i : SatIndex) : List IntegElem := (partFreqs p c).map (.signal c i)

/-- The elements of a frequency's satellites, in the order of the mask. -/
def freqPairs (p : IntegPart) (c : Constellation) (f : FreqItem) : List IntegElem := (partSats p c).map (fun i => .signal c i f)

/-- The looked-up record of one element (R330, R331). -/
def readElem (s : State) (ds : List FieldDesc) (p : IntegPart) (e : IntegElem) : Rd IntegPart :=
  (Rd.forEach
    (fun d => (readBitsU s d.width).bind fun idx => (Rd.lift (lookupIndex s.cfg d idx)).map fun v => (d.name, v)) ds).map
    fun vs => { p with vals := addVals e vs p.vals }

/-- One step inside an element: its own record, or the records of its pairs. -/
def readInner (s : State) (own : IntegElem) (pairs : List IntegElem) (p : IntegPart) : IntegInner → Rd IntegPart
  | .record ds => readElem s ds p own
  | .each ds => Rd.foldSteps (readElem s ds) pairs p

/-- One step of a constellation (R330, R333, R334). -/
def readConsStep (s : State) (key : IntegKey) (lay : IntegLayout) (c : Constellation) (p : IntegPart) : IntegConsStep → Rd IntegPart
  | .satMask =>
    (Rd.entry (lay.satMask.get c)).bind fun m =>
    (readMaskField s (.integ key (.integSat c)) m).bind fun svids =>
    (Rd.lift (convertAll (fun v : Nat => satOfSvid s.cfg .integ c v) svids)).map fun l => { p with sats := p.sats ++ [(c, l)] }
  | .freqMask =>
    match lay.freqMask.get c with
    | none => Rd.pure p
    | some m =>
      (readMaskField s (.integ key (.integFreq c)) m.mask).bind fun ks =>
      (Rd.lift (convertAll (freqItem s.cfg c m.table) ks)).map fun l => { p with freqs := p.freqs ++ [(c, l)] }
  | .record ds => readElem s ds p (.cons c)
  | .eachSat steps =>
    Rd.foldSteps (fun p i => Rd.foldSteps (readInner s (.sat c i) (satPairs p c i)) steps p) (partSats p c) p
  | .eachFreq steps =>
    Rd.foldSteps (fun p f => Rd.foldSteps (readInner s (.freq c f) (freqPairs p c f)) steps p) (partFreqs p c) p

/-- One step of a message (R330): the order of masks and records is the layout's (log 29). -/
def readIntegStep (s : State) (key : IntegKey) (lay : IntegLayout) (p : IntegPart) : IntegStep → Rd IntegPart
  | .consMask =>
    (readMaskField s (.integ key .cons) lay.consMask).bind fun ks =>
    (Rd.forEach (fun k : Nat => Rd.entryFor (.int k) (lay.consOf.lookup k)) ks).map fun cs => { p with cons := cs }
  | .record ds => readElem s ds p .message
  | .eachCons steps =>
    Rd.foldSteps (fun p c => Rd.foldSteps (readConsStep s key lay c) steps p) p.cons p

/-- The key of a message of type `t` and the fields before its subtype: a type of the family may have subtypes (R330). These
fields are read plainly whatever tables the configuration has (DESIGN CHOICE, log 29). -/
def readIntegKey (s : State) (t : Nat) : Rd (IntegKey × List RawField) :=
  match s.cfg.integPrefix.lookup t with
  | none => Rd.pure (⟨t, none⟩, [])
  | some px =>
    (readFields s px.pre).bind fun pre => (readRawField s px.subtype).map fun sub => (⟨t, some sub.raw⟩, pre)

/-- An integrity message under its layout (R330). A header without a provider or an epoch lacks an entry (log 26). The message does not
depend on IS (R391): whether the update was stale is not part of it. -/
def readIntegBody (s : State) (t : Nat) (key : IntegKey × List RawField) (lay : IntegLayout) : Rd Handled :=
  (Rd.forEach (readIntegHeaderField s) lay.header).bind fun hdr =>
  (Rd.entryFor (.int t) (rawOf .provider (hdr.map Prod.fst))).bind fun p =>
  (Rd.entryFor (.int t) (rawOf .epoch (hdr.map Prod.fst))).bind fun raw =>
  (needRefTime s).bind fun ref =>
  (Rd.foldSteps (readIntegStep s key.1 lay) lay.body ⟨lastOf (hdr.map (fun x => (x.1.name, x.2))), [], [], [], []⟩).map fun part =>
    ⟨.integrity ⟨key.1, fieldsOf key.2, p, part⟩, s.lk, s.cs, (integUpdate s.cfg s.is p (epochOf s.cfg .integ raw ref) key.1 part).1⟩

/-- The integrity handler of message type `t` (R330). A subtype without a layout is an unknown type (D17, R360): RAW. A type without
one lacks an entry (R8). -/
def readInteg (s : State) (t : BitVec 12) : Rd Handled :=
  (readIntegKey s t.toNat).bind fun key =>
    match s.cfg.integLayout.lookup key.1, key.1.sub with
    | some lay, _ => readIntegBody s t.toNat key lay
    | none, some _ => Sys2Proof.Machine.readRaw s t
    | none, none => Rd.raise (.usage (some (.int t.toNat)))

/-- The meaning of INTEG (R330) for message type `t`. -/
def execInteg (t : BitVec 12) (s : State) : Out := handlerOp s fun s => readInteg s t

end Sys2Proof.Machine
end

