-- ==== Sys2Proof/Machine/Msm.lean ====
section
/-! DEFINITION. The observation handler (R235 to R252) and the lock-time cache's writes (R251, R252, R319). -/

namespace Sys2Proof.Machine

/-! ## Reading -/

/-- One field of a block with the values read for it, one per satellite or per present cell. -/
structure BlockData where
  block : MsmBlock
  vals : List RawField
deriving DecidableEq, Repr

/-- The fields of the blocks present in a variant's row, in layout order (R239 to R241). R239 fixes the level of a block and R215 has no
check of it: a field that a layout lists at the other level is read and not used (DESIGN CHOICE, log 23). -/
def presentFields (present : List MsmBlock) (fs : List (MsmBlock × FieldDesc)) : List (MsmBlock × FieldDesc) :=
  fs.filter (fun x => decide (x.1 ∈ present))

/-- The blocks, field-major: `n` values of the first field, then of the second (R240, R241). -/
def readBlocks (s : State) (n : Nat) (fs : List (MsmBlock × FieldDesc)) : Rd (List BlockData) :=
  Rd.forEach (fun x => (Rd.times (readRawField s x.2) n).map fun vs => ⟨x.1, vs⟩) fs

/-- Everything an MSM payload holds (R235). -/
structure MsmData where
  hdr : List RawField
  sats : List SatIndex
  sigs : List SignalCode
  cells : List Nat
  satData : List BlockData
  sigData : List BlockData
deriving DecidableEq, Repr

/-- The cell mask (R238): `nsat · nsig` bits, none if that is zero. -/
def readCells (s : State) (c : Constellation) (v : MsmVariant) (n : Nat) : Rd (List Nat) :=
  if n = 0 then Rd.pure [] else readMaskField s (.msm c v .cell) ⟨n, 0⟩

/-- The satellite and the signal block; neither follows if `nsat · nsig = 0` (R238, R240, R241), and only they look at the presence
matrix (R239). -/
def readMsmBlocks (s : State) (v : MsmVariant) (lay : MsmLayout) (nsat n ncell : Nat) : Rd (List BlockData × List BlockData) :=
  if n = 0 then Rd.pure ([], [])
  else
    (Rd.entry (s.cfg.msmPresent.lookup v)).bind fun present =>
    (readBlocks s nsat (presentFields present lay.satFields)).bind fun sd =>
      (readBlocks s ncell (presentFields present lay.sigFields)).map fun gd => (sd, gd)

/-- The reads of `MSM(c, v)` (R235 to R241): both masks come before either conversion. -/
def readMsmData (s : State) (c : Constellation) (v : MsmVariant) (lay : MsmLayout) : Rd MsmData :=
  (readFields s lay.header).bind fun hdr =>
  (readMaskField s (.msm c v .sat) lay.satMask).bind fun svids =>
  (readMaskField s (.msm c v .sig) lay.sigMask).bind fun slots =>
  (Rd.lift (convertAll (fun svid : Nat => satOfSvid s.cfg .msm c svid) svids)).bind fun sats =>
  (Rd.lift (convertAll (fun slot : Nat => signalOf s.cfg .msmSig c slot) slots)).bind fun sigs =>
  (readCells s c v (sats.length * sigs.length)).bind fun cells =>
  (readMsmBlocks s v lay sats.length (sats.length * sigs.length) cells.length).map fun d =>
    ⟨hdr, sats, sigs, cells, d.1, d.2⟩

/-! ## Reconstruction -/

/-- A value that is a sum of fields (R240, R247): not there at all, not available, or a number. -/
inductive Part where
  | absent
  | na
  | num (q : Rat)
deriving DecidableEq, Repr

/-- The sum of two such values. -/
def Part.add : Part → Part → Part
  | .absent, p => p
  | p, .absent => p
  | .na, _ => .na
  | _, .na => .na
  | .num a, .num b => .num (a + b)

/-- A field's value as a part. -/
def partOf (f : RawField) : Part :=
  match numOf f.val with
  | none => .na
  | some q => .num q

/-- The sum of satellite `i`'s fields of a block (R240): the rough range, or the rough rate. -/
def satSum (data : List BlockData) (b : MsmBlock) (i : Nat) : Part :=
  data.foldl (fun acc d => if d.block = b then acc.add ((d.vals[i]?).elim .absent partOf) else acc) .absent

/-- The value list of the field of a signal-level block: one field per block (log 23). -/
def blockVals (data : List BlockData) (b : MsmBlock) : List RawField :=
  match data.find? (fun d => decide (d.block = b)) with
  | none => []
  | some d => d.vals

/-- The place of cell `(i, j)` among the present cells (R238), if it is present. -/
def cellPlace (d : MsmData) (i j : Nat) : Option Nat := d.cells.idxOf? (i * d.sigs.length + j)

/-- The field of a block in cell `(i, j)`. -/
def cellField (d : MsmData) (b : MsmBlock) (i j : Nat) : Option RawField :=
  (cellPlace d i j).bind (fun q => (blockVals d.sigData b)[q]?)

/-- The rough range of satellite `i` (R240). -/
def roughOf (d : MsmData) (i : Nat) : Part := satSum d.satData .roughRange i

/-- Whether the rough range of satellite `i` is not its sentinel (R243): absence of the block is not. -/
def available (d : MsmData) (i : Nat) : Bool := decide (roughOf d i ≠ .na)

/-- Rough plus fine (R242). -/
def roughPlusFine (d : MsmData) (b : MsmBlock) (i j : Nat) : Option Rat :=
  match roughOf d i, (cellField d b i j).bind (fun f => numOf f.val) with
  | .num r, some f => some (r + f)
  | _, _ => none

/-- The frequency channel of satellite `i` (R245). How a raw value maps to a channel is the layout's; a value the layout does not map
gives no channel (DESIGN CHOICE, log 49). -/
def channelOf (c : Constellation) (lay : MsmLayout) (d : MsmData) (i : Nat) : Option Int :=
  if c = .glonass then
    match (blockVals d.satData .extInfo)[i]? with
    | none => none
    | some f => if f.val = .na then none else lay.channelOf.lookup f.raw
  else none

/-- A range in metres as cycles (R244); without a frequency it is not available; `CFG.C = 0` leaves it open (log 24). -/
def cyclesOf (cfg : Cfg) (c : Constellation) (g : SignalCode) (fcn : Option Int) (range : Option Rat) : Option Rat :=
  match range, cfg.freq.lookup (c, g, fcn) with
  | some r, some f => if cfg.c = 0 then Config.cyclesAtZeroC r f else some (r * f / cfg.c)
  | _, _ => none

/-- The Doppler of a cell (R247). -/
def dopplerOf (d : MsmData) (i j : Nat) : Option Rat :=
  match cellField d .doppler i j with
  | none => none
  | some f =>
    match (satSum d.satData .doppler i).add (partOf f) with
    | .num q => some q
    | _ => none

/-- The lock-time counter of a cell for which R251 runs: a present cell of a variant with the block whose satellite is available. -/
def lockOf (d : MsmData) (i j : Nat) : Option Nat :=
  if available d i then (cellField d .lockTime i j).map (·.bits) else none

/-- An array of shape `nsat × nsig` (R249). -/
def cellArray {α : Type} (d : MsmData) (f : Nat → Nat → α) : List (List α) :=
  (List.range d.sats.length).map (fun i => (List.range d.sigs.length).map (f i))

/-- The loss-of-lock bit of a cell against the cache as it was before the message (R251, R252). -/
def lliOf (cfg : Cfg) (lk : LockCache) (d : MsmData) (i j : Nat) : Bool :=
  match lockOf d i j, d.sats[i]?, d.sigs[j]? with
  | some n, some sat, some g => lossOfLock cfg.lockEqRaises (lk.lookup (sat, g)) n
  | _, _, _ => false

/-- One lock-time write (R252). -/
def lockWrite (d : MsmData) (lk : LockCache) (q : Nat) : LockCache :=
  let i := q / d.sigs.length
  let j := q % d.sigs.length
  match lockOf d i j, d.sats[i]?, d.sigs[j]? with
  | some n, some sat, some g => insertKey lockLt (sat, g) n lk
  | _, _, _ => lk

/-- The lock-time cache after a message: the writes in cell order (R252). -/
def lockWrites (d : MsmData) (lk : LockCache) : LockCache := d.cells.foldl (lockWrite d) lk

/-- The block of a message (R236, R242 to R249). A header layout without an `mm` field gives a block without the flag (DESIGN CHOICE,
log 26). R248 gives the half-cycle ambiguity one bit; of a wider field `half` holds the whole unsigned integer (DESIGN CHOICE, log 57). -/
def obsBlock (s : State) (c : Constellation) (v : MsmVariant) (lay : MsmLayout) (d : MsmData) : ObsBlock where
  cons := c
  variant := v
  hdr := fieldsOf d.hdr
  epoch :=
    match rawOf .epoch d.hdr, s.refTime with
    | some raw, some ref => some (epochOf s.cfg (.msm c v) raw ref)
    | _, _ => none
  sats := d.sats
  sigs := d.sigs
  prange := cellArray d (fun i j => roughPlusFine d .fineRange i j)
  phase := cellArray d (fun i j =>
    match d.sigs[j]? with
    | none => none
    | some g => cyclesOf s.cfg c g (channelOf c lay d i) (roughPlusFine d .phase i j))
  cnr := cellArray d (fun i j => if available d i then (cellField d .cnr i j).bind (fun f => numOf f.val) else none)
  doppler := cellArray d (fun i j => if available d i then dopplerOf d i j else none)
  half := cellArray d (fun i j => if available d i then ((cellField d .halfCycle i j).map (·.bits)).getD 0 else 0)
  lli := cellArray d (fun i j => lliOf s.cfg s.lk d i j)

/-- The handler `MSM(c, v)` (R235). -/
def readMsm (s : State) (c : Constellation) (v : MsmVariant) : Rd Handled :=
  (Rd.entry (s.cfg.msmLayout.lookup (c, v))).bind fun lay =>
  (readMsmData s c v lay).map fun d =>
    ⟨.observation (obsBlock s c v lay d), lockWrites d s.lk, s.cs, s.is⟩

/-! ## The rows -/

/-- The meaning of MSM1.GPS (R253). -/
def execMsm1Gps (s : State) : Out := handlerOp s fun s => readMsm s .gps .v1

/-- The meaning of MSM2.GPS (R254). -/
def execMsm2Gps (s : State) : Out := handlerOp s fun s => readMsm s .gps .v2

/-- The meaning of MSM3.GPS (R255). -/
def execMsm3Gps (s : State) : Out := handlerOp s fun s => readMsm s .gps .v3

/-- The meaning of MSM4.GPS (R256). -/
def execMsm4Gps (s : State) : Out := handlerOp s fun s => readMsm s .gps .v4

/-- The meaning of MSM5.GPS (R257). -/
def execMsm5Gps (s : State) : Out := handlerOp s fun s => readMsm s .gps .v5

/-- The meaning of MSM6.GPS (R258). -/
def execMsm6Gps (s : State) : Out := handlerOp s fun s => readMsm s .gps .v6

/-- The meaning of MSM7.GPS (R259). -/
def execMsm7Gps (s : State) : Out := handlerOp s fun s => readMsm s .gps .v7

/-- The meaning of MSM1.GLONASS (R253). -/
def execMsm1Glonass (s : State) : Out := handlerOp s fun s => readMsm s .glonass .v1

/-- The meaning of MSM2.GLONASS (R254). -/
def execMsm2Glonass (s : State) : Out := handlerOp s fun s => readMsm s .glonass .v2

/-- The meaning of MSM3.GLONASS (R255). -/
def execMsm3Glonass (s : State) : Out := handlerOp s fun s => readMsm s .glonass .v3

/-- The meaning of MSM4.GLONASS (R256). -/
def execMsm4Glonass (s : State) : Out := handlerOp s fun s => readMsm s .glonass .v4

/-- The meaning of MSM5.GLONASS (R257). -/
def execMsm5Glonass (s : State) : Out := handlerOp s fun s => readMsm s .glonass .v5

/-- The meaning of MSM6.GLONASS (R258). -/
def execMsm6Glonass (s : State) : Out := handlerOp s fun s => readMsm s .glonass .v6

/-- The meaning of MSM7.GLONASS (R259). -/
def execMsm7Glonass (s : State) : Out := handlerOp s fun s => readMsm s .glonass .v7

/-- The meaning of MSM1.Galileo (R253). -/
def execMsm1Galileo (s : State) : Out := handlerOp s fun s => readMsm s .galileo .v1

/-- The meaning of MSM2.Galileo (R254). -/
def execMsm2Galileo (s : State) : Out := handlerOp s fun s => readMsm s .galileo .v2

/-- The meaning of MSM3.Galileo (R255). -/
def execMsm3Galileo (s : State) : Out := handlerOp s fun s => readMsm s .galileo .v3

/-- The meaning of MSM4.Galileo (R256). -/
def execMsm4Galileo (s : State) : Out := handlerOp s fun s => readMsm s .galileo .v4

/-- The meaning of MSM5.Galileo (R257). -/
def execMsm5Galileo (s : State) : Out := handlerOp s fun s => readMsm s .galileo .v5

/-- The meaning of MSM6.Galileo (R258). -/
def execMsm6Galileo (s : State) : Out := handlerOp s fun s => readMsm s .galileo .v6

/-- The meaning of MSM7.Galileo (R259). -/
def execMsm7Galileo (s : State) : Out := handlerOp s fun s => readMsm s .galileo .v7

/-- The meaning of MSM1.BeiDou (R253). -/
def execMsm1Beidou (s : State) : Out := handlerOp s fun s => readMsm s .beidou .v1

/-- The meaning of MSM2.BeiDou (R254). -/
def execMsm2Beidou (s : State) : Out := handlerOp s fun s => readMsm s .beidou .v2

/-- The meaning of MSM3.BeiDou (R255). -/
def execMsm3Beidou (s : State) : Out := handlerOp s fun s => readMsm s .beidou .v3

/-- The meaning of MSM4.BeiDou (R256). -/
def execMsm4Beidou (s : State) : Out := handlerOp s fun s => readMsm s .beidou .v4

/-- The meaning of MSM5.BeiDou (R257). -/
def execMsm5Beidou (s : State) : Out := handlerOp s fun s => readMsm s .beidou .v5

/-- The meaning of MSM6.BeiDou (R258). -/
def execMsm6Beidou (s : State) : Out := handlerOp s fun s => readMsm s .beidou .v6

/-- The meaning of MSM7.BeiDou (R259). -/
def execMsm7Beidou (s : State) : Out := handlerOp s fun s => readMsm s .beidou .v7

/-- The meaning of MSM1.QZSS (R253). -/
def execMsm1Qzss (s : State) : Out := handlerOp s fun s => readMsm s .qzss .v1

/-- The meaning of MSM2.QZSS (R254). -/
def execMsm2Qzss (s : State) : Out := handlerOp s fun s => readMsm s .qzss .v2

/-- The meaning of MSM3.QZSS (R255). -/
def execMsm3Qzss (s : State) : Out := handlerOp s fun s => readMsm s .qzss .v3

/-- The meaning of MSM4.QZSS (R256). -/
def execMsm4Qzss (s : State) : Out := handlerOp s fun s => readMsm s .qzss .v4

/-- The meaning of MSM5.QZSS (R257). -/
def execMsm5Qzss (s : State) : Out := handlerOp s fun s => readMsm s .qzss .v5

/-- The meaning of MSM6.QZSS (R258). -/
def execMsm6Qzss (s : State) : Out := handlerOp s fun s => readMsm s .qzss .v6

/-- The meaning of MSM7.QZSS (R259). -/
def execMsm7Qzss (s : State) : Out := handlerOp s fun s => readMsm s .qzss .v7

/-- The meaning of MSM1.NavIC (R253). -/
def execMsm1Navic (s : State) : Out := handlerOp s fun s => readMsm s .navic .v1

/-- The meaning of MSM2.NavIC (R254). -/
def execMsm2Navic (s : State) : Out := handlerOp s fun s => readMsm s .navic .v2

/-- The meaning of MSM3.NavIC (R255). -/
def execMsm3Navic (s : State) : Out := handlerOp s fun s => readMsm s .navic .v3

/-- The meaning of MSM4.NavIC (R256). -/
def execMsm4Navic (s : State) : Out := handlerOp s fun s => readMsm s .navic .v4

/-- The meaning of MSM5.NavIC (R257). -/
def execMsm5Navic (s : State) : Out := handlerOp s fun s => readMsm s .navic .v5

/-- The meaning of MSM6.NavIC (R258). -/
def execMsm6Navic (s : State) : Out := handlerOp s fun s => readMsm s .navic .v6

/-- The meaning of MSM7.NavIC (R259). -/
def execMsm7Navic (s : State) : Out := handlerOp s fun s => readMsm s .navic .v7

/-- The meaning of MSM1.SBAS (R253). -/
def execMsm1Sbas (s : State) : Out := handlerOp s fun s => readMsm s .sbas .v1

/-- The meaning of MSM2.SBAS (R254). -/
def execMsm2Sbas (s : State) : Out := handlerOp s fun s => readMsm s .sbas .v2

/-- The meaning of MSM3.SBAS (R255). -/
def execMsm3Sbas (s : State) : Out := handlerOp s fun s => readMsm s .sbas .v3

/-- The meaning of MSM4.SBAS (R256). -/
def execMsm4Sbas (s : State) : Out := handlerOp s fun s => readMsm s .sbas .v4

/-- The meaning of MSM5.SBAS (R257). -/
def execMsm5Sbas (s : State) : Out := handlerOp s fun s => readMsm s .sbas .v5

/-- The meaning of MSM6.SBAS (R258). -/
def execMsm6Sbas (s : State) : Out := handlerOp s fun s => readMsm s .sbas .v6

/-- The meaning of MSM7.SBAS (R259). -/
def execMsm7Sbas (s : State) : Out := handlerOp s fun s => readMsm s .sbas .v7

end Sys2Proof.Machine
end

