-- ==== Sys2Proof/Machine/Encode.lean ====
section
/-! DEFINITION. The reverse path of every handler and ENCODE_ONE (R210, R233, R262, R288, R338): the fields of a message as a list
of writes in layout order, the payload span in OBUF, the writes, the frame. -/

namespace Sys2Proof.Machine

/-! ## Writes of a message -/

/-- One write of the reverse path: a field with its raw integer, or the condition reached in its place. -/
inductive WItem where
  | field (d : FieldDesc) (raw : Int)
  | fail (c : Cond)
deriving DecidableEq, Repr

/-- The bits a write takes. -/
def WItem.bits : WItem → Nat
  | .field d _ => d.width
  | .fail _ => 0

/-- An unsigned field of `w` bits without a descriptor of its own: the type, a chunk of a mask. -/
def plainField (w : Nat) : FieldDesc := { name := .other 0, width := w }

/-- One write at a cursor (R129, R130). -/
def putItem (m : Memory) (cur : Cursor) : WItem → WrRes
  | .fail c => .error c
  | .field d raw => if d.signed then putS m cur d.width raw d.ovf else putU m cur d.width raw d.ovf

/-- The writes in order; a condition ends them and keeps what was written (log 38). -/
def putItems (m : Memory) (cur : Cursor) : List WItem → Memory × Nat × Option Cond
  | [] => (m, cur.off, none)
  | i :: is =>
    match putItem m cur i with
    | .error c => (m, cur.off, some c)
    | .ok (m', off) => putItems m' { cur with off := off } is

/-- A rational to the nearest integer (R134, R233); the spec does not say which of two equally near ones (log 32). -/
def roundNearest (q : Rat) : Int :=
  let f := (q + 1 / 2).floor
  if q + 1 / 2 = f then (if Config.roundTieUp q then f else f - 1) else f

/-- The raw integer of a value (R133, R233): the sentinel for `NA`, else `round(value / scale)`. -/
def rawFor (d : FieldDesc) (v : Value) : Except Cond Int :=
  match numOf v with
  | some q => .ok (roundNearest (q / d.scale))
  | none =>
    match d.na with
    | some n => .ok n
    | none => .error (.usage none)

/-- The write of a value. -/
def valueItem (d : FieldDesc) (v : Value) : WItem :=
  match rawFor d v with
  | .ok raw => .field d raw
  | .error c => .fail c

/-- The write of a field the message does not determine (log 31), by its place in the message. -/
def freeItem (s : State) (d : FieldDesc) (place : List Nat) : WItem :=
  .field { d with signed := false } ((Config.freeField s.free place % 2 ^ d.width : Nat) : Int)

/-- The writes of a layout's fields. A record keeps the last of the fields of one name (R220), so an earlier one is free (log 44). -/
def layoutItems (s : State) (place : List Nat) (write : FieldDesc → WItem) : List FieldDesc → List WItem
  | [] => []
  | d :: ds =>
    (if ds.any (fun d' => decide (d'.name = d.name)) then freeItem s d (ds.length :: place) else write d) ::
      layoutItems s place write ds

/-- The writes of a layout's fields from a record's values. -/
def fieldItems (s : State) (place : List Nat) (ds : List FieldDesc) (fs : Fields) : List WItem :=
  layoutItems s place (fun d => valueItem d (valueOf d.name fs)) ds

/-- The write of a satellite id (R167): UsageError with the index where the SVID does not fit the field; and, the model's choice,
where the satellite is not one of constellation `c` (DESIGN CHOICE, log 50). -/
def satItem (cfg : Cfg) (fam : Family) (c : Constellation) (d : FieldDesc) (i : SatIndex) : WItem :=
  match svidOfSat cfg fam i with
  | .error e => .fail e
  | .ok (c', svid) =>
    if c' = c ∧ inFieldRange d.width d.signed svid = true then .field d svid else .fail (.usage (some (.int i)))

/-- The slots a signal table maps to a signal: SIG_OF has no inverse in the spec (log 51). -/
def slotsFor (tbl : List ((Constellation × Nat) × SignalCode)) (c : Constellation) (g : SignalCode) : List Nat :=
  tbl.filterMap (fun r => if r.1.1 = c ∧ tbl.lookup r.1 = some g then some r.1.2 else none)

/-- The least of some indices that a mask can hold above the index `prev`. -/
def nextIndex (m : MaskDesc) (prev : Option Nat) (l : List Nat) : Option Nat :=
  (l.filter (fun k => decide (m.offset ≤ k) && decide (k < m.offset + m.width) && prev.all (fun p => decide (p < k)))).min?

/-- The mask indices of some items, of which each may stand for several: each takes the least the mask can hold above the one before.
Where it has none of these the list ends with the least it has, which ENCODE_MASK refuses (R177, R178); an item that no index stands
for is a UsageError (DESIGN CHOICE, log 51). -/
def indicesFor {α : Type} (m : MaskDesc) (indices : α → List Nat) : List α → Option Nat → Except Cond (List Nat)
  | [], _ => .ok []
  | a :: as, prev =>
    match nextIndex m prev (indices a) with
    | some k => (indicesFor m indices as (some k)).map (k :: ·)
    | none =>
      match (indices a).min? with
      | some k => .ok [k]
      | none => .error (.usage none)

/-- The chunks of a mask's bits (R180), first chunk most significant. -/
def chunkItems (v : Nat) : List Nat → List WItem
  | [] => []
  | w :: ws => .field (plainField w) ((v / 2 ^ ws.sum % 2 ^ w : Nat) : Int) :: chunkItems v ws

/-- The writes of a mask (R177, R262): its indices, or the condition that stopped them. -/
def maskItems (cfg : Cfg) (f : MaskId) (m : MaskDesc) (l : Except Cond (List Nat)) : List WItem :=
  match l with
  | .error e => [.fail e]
  | .ok l =>
    match maskBits l m.width m.offset (maskOrderOf cfg f) with
    | .error e => [.fail e]
    | .ok bits => chunkItems bits (maskChunks m.width)

/-- The writes under a configuration entry, or UsageError where there is none (R8). -/
def withEntry {α : Type} (e : Option α) (f : α → List WItem) : List WItem :=
  match e with
  | none => [.fail (.usage none)]
  | some a => f a

/-- The raw integer a named header value was read from. -/
def fieldRaw (ds : List FieldDesc) (fs : Fields) (n : FieldName) : Option Int :=
  match descOf n ds, valueOf n fs with
  | some _, .scaled raw _ => some raw
  | some d, .na => d.na
  | _, _ => none

/-- The write of a count of `n`: the raw integer the message holds if it stands for as many, else `n` (R104, R132: with the sign and the
overflow mode of its field). -/
def countItem (d : FieldDesc) (n : Nat) (held : Option Int) : WItem :=
  match held with
  | some raw => .field d (if raw.toNat = n then raw else n)
  | none => .field d n

/-! ## Ephemerides and station metadata (R233, R206) -/

/-- A week as a field holds it: modulo `M`, less `M` where only that fits a signed field. -/
def weekField (d : FieldDesc) (w : Int) (m : Nat) : Int :=
  if inFieldRange d.width d.signed (w % m) = false ∧ inFieldRange d.width d.signed (w % m - m) = true then w % m - m else w % m

/-- The write of the week field (R233): the week modulo `M`, and a raw week that is not available as the sentinel. -/
def weekItem (cfg : Cfg) (r : EphRecord) (d : FieldDesc) (w : Int) : WItem :=
  match r.fields.lookup .weekRaw, d.na, weekModulus cfg r.cons with
  | some .na, some n, _ => .field d n
  | _, _, some m => .field d (weekField d w m)
  | _, _, none => .fail (.usage (some (.constellation r.cons)))

/-- One field of an ephemeris: the satellite as its SVID, the week, or a value. A record without a week has its raw week written like
any value, and a field for which the record holds no value is written as if it were NA (DESIGN CHOICE, log 54). -/
def ephItem (cfg : Cfg) (r : EphRecord) (d : FieldDesc) : WItem :=
  match d.name, r.week with
  | .svid, _ => satItem cfg .eph r.cons d r.sat
  | .weekRaw, some w => weekItem cfg r d w
  | n, _ => valueItem d (valueOf n r.fields)

/-- The writes of an ephemeris. -/
def ephItems (s : State) (r : EphRecord) : List WItem :=
  withEntry (s.cfg.ephLayout.get r.cons) fun lay => layoutItems s [0] (ephItem s.cfg r) lay.header

/-- The writes of a string: its count, then its bytes. -/
def stringItems (c : FieldDesc) (b : List Byte) : List WItem := .field c b.length :: b.map (fun x => .field (plainField 8) x.toNat)

/-- The writes of one item of a station record; a message without the string is none of this layout (log 55). -/
def staItem (fs : List (FieldName × StaVal)) : StaItem → List WItem
  | .field d =>
    match fs.lookup d.name with
    | some (.num v) => [valueItem d v]
    | _ => [valueItem d .na]
  | .str name c =>
    match fs.lookup name with
    | some (.bytes b) => stringItems c b
    | _ => [.fail (.usage none)]

/-- The writes of a station record; of two items of one name the record keeps the last (log 44), so an earlier field is free, and an
earlier string empty. -/
def staItems (s : State) (fs : List (FieldName × StaVal)) : List StaItem → List WItem
  | [] => []
  | i :: is =>
    (if is.any (fun x => decide (x.name = i.name)) then
      match i with
      | .field d => [freeItem s d [is.length]]
      | .str _ c => stringItems c []
    else staItem fs i) ++ staItems s fs is

/-! ## Corrections (R288) -/

/-- Whether a record holds its quality class or its quality value as not available. -/
def qualityNa (fs : Fields) : Bool := decide (fs.lookup .uraClass = some .na) || decide (fs.lookup .uraValue = some .na)

/-- The value of a field of a record with its quality through QUANTIZE (R288). A class or value that is not available is written as its
sentinel (R133), and its partner as it is held (DESIGN CHOICE, log 45). -/
def qualityItem (cfg : Cfg) (fs : Fields) (d : FieldDesc) : WItem :=
  match valueOf .stdev fs, qualityNa fs with
  | .exact q, false =>
    match d.name, quantizeUra cfg q with
    | .uraClass, .ok x => .field d x.1
    | .uraValue, .ok x => .field d x.2
    | .uraClass, .error e => .fail e
    | .uraValue, .error e => .fail e
    | _, _ => valueItem d (valueOf d.name fs)
  | _, _ => valueItem d (valueOf d.name fs)

/-- The writes of a record's fields. -/
def recordItems (s : State) (place : List Nat) (ds : List FieldDesc) (fs : Fields) : List WItem :=
  layoutItems s place (qualityItem s.cfg fs) ds

/-- The write of a signal's slot in a bias sub-record: the least that the field holds (DESIGN CHOICE, log 51). -/
def slotItem (cfg : Cfg) (c : Constellation) (g : SignalCode) (d : FieldDesc) : WItem :=
  match ((slotsFor cfg.ssrSig c g).filter (fun n => inFieldRange d.width d.signed n)).min? with
  | none => .fail (.usage none)
  | some n => .field d n

/-- The writes of one bias sub-record (R276, R277); a field the record does not keep is free (log 31). Every slot is converted when it
is read, so each names the signal. -/
def subItems (s : State) (c : Constellation) (place : List Nat) (g : SignalCode) (fs : Fields) : List FieldDesc → List WItem
  | [] => []
  | d :: ds =>
    (if d.name = .slot then slotItem s.cfg c g d
    else
      match fs.lookup d.name, ds.any (fun d' => decide (d'.name = d.name)) with
      | some v, false => valueItem d v
      | _, _ => freeItem s d (ds.length :: place)) :: subItems s c place g fs ds

/-- The writes of a signal count and its sub-records, in the order of the record's map, which rises by signal (DESIGN CHOICE, log 30). -/
def subsItems (s : State) (c : Constellation) (lay : SsrLayout) (place : List Nat) (subs : List (SignalCode × Fields)) : List WItem :=
  withEntry lay.nsig fun d =>
    .field d subs.length :: subs.zipIdx.flatMap (fun x => subItems s c (x.2 :: place) x.1.1 x.1.2 lay.subrecord)

/-- The writes of a record after the satellite id (R271 to R278). A record of another kind is no record of this message (log 55). -/
def ssrRecordItems (s : State) (c : Constellation) (lay : SsrLayout) (yawFlag : Bool) (place : List Nat) (kind : SsrKind)
    (r : Record) : List WItem :=
  match kind, r with
  | .codebias, .code m => subsItems s c lay place (m.map (fun x => (x.1, [(.bias, x.2)])))
  | .phasebias, .phase y yr m =>
    (match yawFlag, lay.yaw with
      | true, some (dy, dr) => [valueItem dy y, valueItem dr yr]
      | _, _ => []) ++
    subsItems s c lay place
      (m.map (fun x => (x.1, [(.bias, x.2.value), (.intInd, x.2.intInd), (.disc, x.2.disc)])))
  | .combined, .combined o ck => recordItems s (0 :: place) lay.record o ++ recordItems s (1 :: place) lay.clockRecord ck
  | .orbit, .vals fs => recordItems s place lay.record fs
  | .clock, .vals fs => recordItems s place lay.record fs
  | .hrclock, .vals fs => recordItems s place lay.record fs
  | .ura, .vals fs => recordItems s place lay.record fs
  | _, _ => [.fail (.usage none)]

/-- The writes of one satellite's record; the place of its free fields is its place in the message. -/
def satRecordItems (s : State) (fam : Family) (c : Constellation) (lay : SsrLayout) (yawFlag : Bool) (kind : SsrKind)
    (k : Nat) (x : EntryKey × Record) : List WItem :=
  match x.1 with
  | .sat i => satItem s.cfg fam c lay.svid i :: ssrRecordItems s c lay yawFlag [k, 1] kind x.2
  | _ => [.fail (.usage none)]

/-- The cached entries of the satellites of constellation `c`. -/
def entriesOf (cfg : Cfg) (c : Constellation) (ent : List (EntryKey × Record)) : List (EntryKey × Record) :=
  ent.filter fun x =>
    match x.1 with
    | .sat i => decide ((satOfIndex cfg i).toOption.map Prod.fst = some c)
    | _ => false

/-- The cached records of a message kind for constellation `c`, for an incremental message (R210, R288, log 30). They stand in the rising
order of their keys (DESIGN CHOICE, log 30). -/
def cachedRecords (s : State) (n : NetworkId) (c : Constellation) (kind : SsrKind) : List (EntryKey × Record) :=
  match kind, cacheKindsOf kind with
  | .combined, _ =>
    (entriesOf s.cfg c ((networkOf s.cs n).get .orbit).ent).filterMap fun x =>
      match x.2, ((networkOf s.cs n).get .clock).ent.lookup x.1 with
      | .vals o, some (.vals k) => some (x.1, .combined o k)
      | _, _ => none
  | _, k :: _ => entriesOf s.cfg c ((networkOf s.cs n).get k).ent
  | _, [] => []

/-- The records to send: those the message carries; where it carries none and its count says there are some, the cached ones
(log 30). -/
def recordsToSend (ds : List FieldDesc) (u : CorrUpdate) (cached : List (EntryKey × Record)) : List (EntryKey × Record) :=
  if u.recs = [] ∧ (fieldRaw ds u.hdr .nsat).map Int.toNat ≠ some 0 then cached else u.recs

/-- The writes of a satellite message's header (R288): the satellite count is the number of records sent. The multi-message flag is the
message's own: ENCODE_ONE encodes one message, and the host says by its `mm` whether it is the last of its epoch's set (DESIGN
CHOICE, log 52). -/
def headerItems (s : State) (ds : List FieldDesc) (fs : Fields) (nsat : Nat) : List WItem :=
  layoutItems s [0]
    (fun d => if d.name = .nsat then countItem d nsat (fieldRaw ds fs .nsat) else valueItem d (valueOf d.name fs)) ds

/-- The writes of a satellite message from its header on. -/
def ssrItems (s : State) (u : CorrUpdate) (fam : Family) (c : Constellation) (kind : SsrKind) (lay : SsrLayout) :
    List WItem :=
  let recs := recordsToSend lay.header u (cachedRecords s u.network c kind)
  headerItems s lay.header u.hdr recs.length ++
    recs.zipIdx.flatMap (fun x =>
      satRecordItems s fam c lay (decide (fieldRaw lay.header u.hdr .yawFlag = some 1)) kind x.2 x.1)

/-- Whether a residual can be written with width `w` and scale `sf` (R281, R288): as `round(value / scale)`, or as the sentinel. -/
def residFits (lay : ResidLayout) (w : Nat) (sf : Rat) (v : Value) : Bool :=
  match numOf v with
  | none => decide (w = 0) || (residNaAt w lay.na).isSome
  | some q =>
    decide (w ≠ 0) && !signedOverflow w (roundNearest (q / sf)) && decide (residNaAt w lay.na ≠ some (roundNearest (q / sf)))

/-- Whether a residual has the scale `sf` of its own (R281): written at it, it is read as the same value again (R210). -/
def residOwn (sf : Rat) : Value → Bool
  | .scaled _ scale => decide (scale = sf)
  | .exact _ => false
  | .na => true

/-- Whether no residual loses anything at scale `sf`. -/
def residExact (sf : Rat) (v : Value) : Bool :=
  match numOf v with
  | none => true
  | some q => decide (roundNearest (q / sf) * sf = q)

/-- How well a scale suits some residuals: their own, one at which none loses anything, another. -/
def residRank (vs : List Value) (sf : Rat) : Nat :=
  if vs.all (residOwn sf) then 0 else if vs.all (residExact sf) then 1 else 2

/-- A width and a scale with their codes. -/
abbrev ResidCode := (Int × Nat) × (Int × Rat)

/-- The widths and scales of a layout that its code fields can name. -/
def residChoices (lay : ResidLayout) : List ResidCode :=
  (lay.width.flatMap (fun w => lay.scale.map (fun f => (w, f)))).filter (fun x =>
    decide (lay.width.lookup x.1.1 = some x.1.2) && decide (lay.scale.lookup x.2.1 = some x.2.2) &&
      inFieldRange lay.widthCode.width lay.widthCode.signed x.1.1 && inFieldRange lay.scaleCode.width lay.scaleCode.signed x.2.1)

/-- Whether choice `a` is preferred to choice `b` for some residuals: their own scale first, then one at which none loses anything,
and of these the least width; then the finer scale, then the lesser width. -/
def residBetter (vs : List Value) (a b : ResidCode) : Bool :=
  let ra := residRank vs a.2.2
  let rb := residRank vs b.2.2
  if ra ≠ rb then decide (ra < rb)
  else if ra < 2 then decide (a.1.2 < b.1.2)
  else decide (a.2.2 < b.2.2) || (decide (a.2.2 = b.2.2) && decide (a.1.2 < b.1.2))

/-- The width and scale codes for some residuals: the preferred choice among those they can be written with (log 32). -/
def residCodes (lay : ResidLayout) (vs : List Value) : Option ResidCode :=
  ((residChoices lay).filter (fun x => vs.all (residFits lay x.1.2 x.2.2))).foldl
    (fun best x => match best with | none => some x | some b => if residBetter vs x b then some x else best) none

/-- The raw integer that says yes in a field: any but 0 does (R281); 1, or -1 where 1 does not fit (DESIGN CHOICE, log 32). -/
def flagRaw (d : FieldDesc) : Int := if inFieldRange d.width d.signed 1 then 1 else -1

/-- The writes of a residual block (R281). Residuals that no width and scale of the layout hold are a UsageError: R132 gives them no
overflow mode (DESIGN CHOICE, log 32). All the residuals given are written, whatever number of points the header or the grid says
(DESIGN CHOICE, log 54). -/
def residItems (lay : GridLayout) (vs : List Value) : List WItem :=
  match lay.resid with
  | none => []
  | some rl =>
    if vs = [] then [.field rl.present 0]
    else
      withEntry (residCodes rl vs) fun x =>
        .field rl.present (flagRaw rl.present) :: .field rl.widthCode x.1.1 :: .field rl.scaleCode x.2.1 ::
          (if x.1.2 = 0 then [] else vs.map (valueItem (residDesc rl x.1.2 x.2.2)))

/-- The residuals of a record list: the points in order; a gap in their numbers is not seen (DESIGN CHOICE, log 54). -/
def pointValues (recs : List (EntryKey × Record)) : List Value :=
  recs.filterMap fun x =>
    match x.1, x.2 with
    | .point _, .resid v => some v
    | _, _ => none

/-- The writes of a grid message without satellites (R279, R288). A message without a model record is none of this layout (log 55). -/
def gridModelItems (s : State) (u : CorrUpdate) (lay : GridLayout) (recs : List (EntryKey × Record)) : List WItem :=
  fieldItems s [0] lay.header u.hdr ++
    match recs.lookup .model with
    | some (.vals fs) => recordItems s [1] lay.record fs ++ residItems lay (pointValues recs)
    | _ => [.fail (.usage none)]

/-- The writes of one satellite's record of a grid message (R280); `k` is its place. -/
def gridSatItems (s : State) (lay : GridLayout) (g : GridSat) (x : EntryKey × Record) (k : Nat) : List WItem :=
  match x.1, x.2 with
  | .sat i, .gridSat fs vs => satItem s.cfg .grid g.cons g.svid i :: recordItems s [k, 1] lay.record fs ++ residItems lay vs
  | _, _ => [.fail (.usage none)]

/-- The writes of a grid message (R279, R280, R288). -/
def gridItems (s : State) (u : CorrUpdate) (k : CacheKind) (lay : GridLayout) : List WItem :=
  match lay.perSat with
  | none =>
    gridModelItems s u lay (if u.recs = [] then ((networkOf s.cs u.network).get k).ent else u.recs)
  | some g =>
    let recs := recordsToSend lay.header u (entriesOf s.cfg g.cons ((networkOf s.cs u.network).get k).ent)
    headerItems s lay.header u.hdr recs.length ++ recs.zipIdx.flatMap (fun x => gridSatItems s lay g x.1 x.2)

/-- The least subtype of the subtype field that selects a handler (R285, log 32). -/
def subtypeFor (cfg : Cfg) (d : FieldDesc) (x : SubTarget) : Option Int :=
  ((cfg.igsSubtypeTable.filter (fun r =>
    decide (r.2 = x) && decide (cfg.igsSubtypeTable.lookup r.1 = some x) && inFieldRange d.width d.signed r.1)).map Prod.fst).min?

/-- The writes of a message behind an IGS prefix and subtype, a grid message that came so among them (DESIGN CHOICE, log 58). -/
def subtypeItems (s : State) (pre : Fields) (x : SubTarget) (body : List WItem) : List WItem :=
  withEntry s.cfg.igsPrefix fun px =>
  withEntry (subtypeFor s.cfg px.subtype x) fun sub => fieldItems s [2] px.pre pre ++ .field px.subtype sub :: body

/-- The writes of a grid message: behind a subtype if it came so (R200). -/
def gridMessageItems (s : State) (u : CorrUpdate) (x : SubTarget) (k : CacheKind) (lay : Option GridLayout) : List WItem :=
  match u.pre with
  | none => withEntry lay (gridItems s u k)
  | some pre => subtypeItems s pre x (withEntry lay (gridItems s u k))

/-- The writes of a correction message. -/
def corrItems (s : State) (u : CorrUpdate) : List WItem :=
  match u.handler with
  | .ssr c k => withEntry (s.cfg.ssrLayout.lookup (c, k)) fun lay => ssrItems s u .ssr c k lay
  | .igs c k =>
    subtypeItems s (u.pre.getD []) (.ssr c k)
      (withEntry (s.cfg.igsLayout.lookup (c, k)) fun lay => ssrItems s u .igs c k lay)
  | .gridTropo => gridMessageItems s u .gridTropo .tropo (s.cfg.tropoLayout.map (fun lay => { lay with perSat := none }))
  | .gridIono => gridMessageItems s u .gridIono .iono s.cfg.ionoLayout

/-! ## Observations (R262, log 31) -/

/-- Entry `(i, j)` of an array. On the reverse path an entry that an array of another shape lacks is NA, 0 or false, and one it has beyond
the shape is not looked at (DESIGN CHOICE, log 54). -/
def cellOf {α : Type} (a : List (List α)) (i j : Nat) : Option α := (a[i]?).bind (·[j]?)

/-- Entry `(i, j)` of a numeric array. -/
def numAt (a : List (List (Option Rat))) (i j : Nat) : Option Rat := (cellOf a i j).join

/-- Whether a cell holds anything: a value that is not NA, or a half-cycle or loss-of-lock bit. -/
def cellHolds (b : ObsBlock) (i j : Nat) : Bool :=
  (numAt b.prange i j).isSome || (numAt b.phase i j).isSome || (numAt b.cnr i j).isSome || (numAt b.doppler i j).isSome ||
    decide ((cellOf b.half i j).getD 0 ≠ 0) || (cellOf b.lli i j).getD false

/-- The present cells of a block (R238, R262). -/
def cellsToSend (b : ObsBlock) : List Nat :=
  (List.range (b.sats.length * b.sigs.length)).filter
    (fun q => cellHolds b (q / b.sigs.length) (q % b.sigs.length))

/-- The phase range of a cell in metres: the inverse of R244, where it has one. -/
def phaseRange (s : State) (b : ObsBlock) (fcn : Option Int) (i j : Nat) : Option Rat :=
  match numAt b.phase i j, b.sigs[j]? with
  | some l, some g =>
    match s.cfg.freq.lookup (b.cons, g, fcn) with
    | some f => if f = 0 ∨ s.cfg.c = 0 then none else some (l * s.cfg.c / f)
    | none => none
  | _, _ => none

/-- The fields of a block. -/
def blockDescs (fs : List (MsmBlock × FieldDesc)) (b : MsmBlock) : List FieldDesc :=
  (fs.filter (fun x => decide (x.1 = b))).map Prod.snd

/-- How many phases of satellite `i` do not come back under a channel (R244): they have no frequency, or one of 0 without being 0. -/
def phasesLost (s : State) (b : ObsBlock) (fcn : Option Int) (i : Nat) : Nat :=
  b.sigs.zipIdx.countP fun x =>
    match numAt b.phase i x.2, s.cfg.freq.lookup (b.cons, x.1, fcn) with
    | some l, some f => decide (f = 0) && decide (l ≠ 0)
    | some _, none => true
    | none, _ => false

/-- Whether a phase of satellite `i` that is not available would come back as a value under a channel: it has a frequency, and the
phase field has no sentinel to say otherwise. -/
def phaseAppears (s : State) (sigFs : List (MsmBlock × FieldDesc)) (b : ObsBlock) (fcn : Option Int) (i : Nat) : Bool :=
  b.sigs.zipIdx.any fun x =>
    (numAt b.phase i x.2).isNone && cellHolds b i x.2 && (s.cfg.freq.lookup (b.cons, x.1, fcn)).isSome &&
      (blockDescs sigFs .phase).head?.any (fun d => d.na.isNone)

/-! ### The split of a quantity into its satellite-level and its signal-level part (R262) -/

/-- A value to be sent as the satellite-level part plus one signal-level field. -/
structure SplitTarget where
  q : Rat
  d : FieldDesc
deriving DecidableEq, Repr

/-- The least raw integer of a field. -/
def rawLow (d : FieldDesc) : Int := if d.signed then -(2 ^ (d.width - 1)) else 0

/-- The greatest raw integer of a field. -/
def rawHigh (d : FieldDesc) : Int := if d.signed then 2 ^ (d.width - 1) - 1 else 2 ^ d.width - 1

/-- Whether a field can hold a raw integer as a value: in range, and not the sentinel. -/
def holdsRaw (d : FieldDesc) (raw : Int) : Bool := inFieldRange d.width d.signed raw && decide (d.na ≠ some raw)

/-- A raw integer every field can hold as a value. -/
def plainRaw (d : FieldDesc) : Int := if holdsRaw d 0 then 0 else if holdsRaw d 1 then 1 else -1

/-- What some raw integers of the satellite-level fields add up to. -/
def splitValue (ds : List FieldDesc) (raws : List Int) : Rat := (List.zipWith (fun d r => (r : Rat) * d.scale) ds raws).sum

/-- The raw integer a quantity is sent as (R262): the nearest, if the field holds it as a value; else a neighbour within one unit of the
quantity that it holds, if there is one. -/
def nearRaw (d : FieldDesc) (q : Rat) : Int :=
  let n := roundNearest (q / d.scale)
  if holdsRaw d n then n
  else ([n - 1, n + 1].find? (fun (r : Int) => holdsRaw d r && decide (distance r (q / d.scale) ≤ 1))).getD n

/-- How near the signal-level fields must come: to the nearest raw integer, or to within one unit (R262). -/
inductive Nearness where
  | nearest | oneUnit
deriving DecidableEq, Repr

/-- Whether a split fits: each satellite-level field holds its raw integer, and each signal-level field the rest, rounded or to within
one unit. -/
def splitFits (near : Nearness) (ds : List FieldDesc) (targets : List SplitTarget) (raws : List Int) : Bool :=
  decide (raws.length = ds.length) && (ds.zip raws).all (fun x => holdsRaw x.1 x.2) &&
    targets.all (fun t =>
      holdsRaw t.d
        (match near with
          | .nearest => roundNearest ((t.q - splitValue ds raws) / t.d.scale)
          | .oneUnit => nearRaw t.d (t.q - splitValue ds raws)))

/-- Each field takes the floor of what is left (R262). -/
def splitFloor (q : Rat) : List FieldDesc → List Int
  | [] => []
  | d :: ds => (q / d.scale).floor :: splitFloor (q - (q / d.scale).floor * d.scale) ds

/-- The least value some fields can add up to. -/
def splitLow (ds : List FieldDesc) : Rat := (ds.map (fun d => (rawLow d : Rat) * d.scale)).sum

/-- The greatest value some fields can add up to. -/
def splitHigh (ds : List FieldDesc) : Rat := (ds.map (fun d => (rawHigh d : Rat) * d.scale)).sum

/-- The integers from `lo` to `hi`. -/
def intsFrom (lo hi : Int) : List Int := (List.range (hi + 1 - lo).toNat).map (fun (k : Nat) => lo + k)

/-- Every split whose value lies between `a` and `b`. -/
def splitsWithin : List FieldDesc → Rat → Rat → List (List Int)
  | [], a, b => if a ≤ 0 ∧ 0 ≤ b then [[]] else []
  | d :: ds, a, b =>
    ((intsFrom (max (rawLow d) ((a - splitHigh ds) / d.scale).ceil) (min (rawHigh d) ((b - splitLow ds) / d.scale).floor)).filter
      (holdsRaw d)).flatMap
      (fun (r : Int) => (splitsWithin ds (a - r * d.scale) (b - r * d.scale)).map (fun l => r :: l))

/-- The least value of the satellite-level part that leaves a signal-level field in range, to one unit. -/
def targetLow (t : SplitTarget) : Rat := t.q - (rawHigh t.d + 1) * t.d.scale

/-- The greatest one, to one unit. -/
def targetHigh (t : SplitTarget) : Rat := t.q - (rawLow t.d - 1) * t.d.scale

/-- The first split that fits: the given one, else the first in rising order. -/
def findSplit (near : Nearness) (ds : List FieldDesc) (first : List Int) (t : SplitTarget) (ts : List SplitTarget) : Option (List Int) :=
  if splitFits near ds (t :: ts) first then some first
  else
    (splitsWithin ds (ts.foldl (fun a t => max a (targetLow t)) (targetLow t))
      (ts.foldl (fun b t => min b (targetHigh t)) (targetHigh t))).find? (splitFits near ds (t :: ts))

/-- The split of a satellite's values (R262): the floors of the first value (shifted by the configured bias) if they fit, else the first
split that fits, so that a block a handler returned can always be sent; where none does with every field rounded, one with which every
field comes within one unit; the floors where there is none. Without a value, any. -/
def chooseSplit (ds : List FieldDesc) (bias : Rat) (targets : List SplitTarget) : List Int :=
  match targets with
  | [] => ds.map plainRaw
  | t :: ts =>
    let first := splitFloor (t.q + bias) ds
    ((findSplit .nearest ds first t ts).or (findSplit .oneUnit ds first t ts)).getD first

/-! ### The satellite-level raw integers of a block -/

/-- The ranges of satellite `i`: its pseudoranges and its phases in metres, each with its signal-level field. -/
def rangeTargets (s : State) (sigFs : List (MsmBlock × FieldDesc)) (b : ObsBlock) (fcn : Option Int) (i : Nat) :
    List SplitTarget :=
  (blockDescs sigFs .fineRange).head?.elim []
    (fun d => (List.range b.sigs.length).filterMap (fun j => (numAt b.prange i j).map (⟨·, d⟩))) ++
  (blockDescs sigFs .phase).head?.elim []
    (fun d => (List.range b.sigs.length).filterMap (fun j => (phaseRange s b fcn i j).map (⟨·, d⟩)))

/-- The Dopplers of satellite `i`. -/
def rateTargets (sigFs : List (MsmBlock × FieldDesc)) (b : ObsBlock) (i : Nat) : List SplitTarget :=
  (blockDescs sigFs .doppler).head?.elim []
    (fun d => (List.range b.sigs.length).filterMap (fun j => (numAt b.doppler i j).map (⟨·, d⟩)))

/-- The raw integers of an extended-information field to choose from: those the layout maps to a channel, the sentinel, and some it
does not map. -/
def extChoices (lay : MsmLayout) (d : FieldDesc) : List Int :=
  ((lay.channelOf.map Prod.fst).filter (holdsRaw d)) ++ d.na.toList ++
    ((intsFrom (rawLow d) (min (rawHigh d) (rawLow d + lay.channelOf.length + 1))).filter
      (fun r => holdsRaw d r && (lay.channelOf.lookup r).isNone))

/-- The channel an extended-information value stands for (R245). -/
def extChannel (lay : MsmLayout) (d : FieldDesc) (raw : Int) : Option Int :=
  if d.na = some raw then none else lay.channelOf.lookup raw

/-- How ill satellite `i` can be sent under a channel: above all by the phases that do not come back, then by a split that does not
fit, then by a phase that appears. -/
def channelRank (s : State) (satFs sigFs : List (MsmBlock × FieldDesc)) (b : ObsBlock) (i : Nat) (fcn : Option Int) : Nat :=
  let targets := rangeTargets s sigFs b fcn i
  let ds := blockDescs satFs .roughRange
  4 * phasesLost s b fcn i + 2 * (!splitFits .oneUnit ds targets (chooseSplit ds s.cfg.splitBias targets)).toNat +
    (phaseAppears s sigFs b fcn i).toNat

/-- The extended-information values of the least rank: a list of values with their ranks. -/
def leastRanked (l : List (Int × Nat)) : List Int := (l.filter (fun x => l.all (fun y => decide (x.2 ≤ y.2)))).map Prod.fst

/-- The raw extended information to send for satellite `i` (R245, log 31): not in the message, free; for GLONASS among the values under
which the satellite can be sent best. -/
def extRaw (s : State) (lay : MsmLayout) (satFs sigFs : List (MsmBlock × FieldDesc)) (b : ObsBlock) (d : FieldDesc) (i : Nat) : Int :=
  let n := Config.freeField s.free [i, 1]
  if b.cons = .glonass then
    match leastRanked ((extChoices lay d).map (fun r => (r, channelRank s satFs sigFs b i (extChannel lay d r)))) with
    | [] => rawInt d (n % 2 ^ d.width)
    | [r] => r
    | rs => (rs[n % rs.length]?).getD 0
  else rawInt d (n % 2 ^ d.width)

/-- The satellite-level raw integers of one satellite: nothing where the block does not determine them. -/
structure SatPlan where
  ext : Option Int
  fcn : Option Int
  rough : Option (List Int)
  rate : Option (List Int)
deriving DecidableEq, Repr

/-- The satellite-level raw integers of satellite `i` (R262): a range part wherever a cell holds anything, a rate part wherever one has
a Doppler. -/
def satPlan (s : State) (lay : MsmLayout) (satFs sigFs : List (MsmBlock × FieldDesc)) (b : ObsBlock) (i : Nat) : SatPlan :=
  let ext := (blockDescs satFs .extInfo).head?.map (fun d => (d, extRaw s lay satFs sigFs b d i))
  let fcn := if b.cons = .glonass then ext.bind (fun x => extChannel lay x.1 x.2) else none
  let rates := rateTargets sigFs b i
  { ext := ext.map Prod.snd
    fcn := fcn
    rough :=
      if (List.range b.sigs.length).any (cellHolds b i) then
        some (chooseSplit (blockDescs satFs .roughRange) s.cfg.splitBias (rangeTargets s sigFs b fcn i))
      else none
    rate := if rates = [] then none else some (chooseSplit (blockDescs satFs .doppler) 0 rates) }

/-! ### The writes of the blocks -/

/-- The write of a field whose raw integer the block may not determine: then its sentinel, or a free value where it has none
(log 31). -/
def openItem (s : State) (d : FieldDesc) (place : List Nat) (raw : Option Int) : WItem :=
  match raw, d.na with
  | some raw, _ => .field d raw
  | none, some n => .field d n
  | none, none => freeItem s d place

/-- The write of the `rank`-th satellite-level field of a block of a satellite; only the first extended-information field counts. A field
of a signal-level block that stands here is free (DESIGN CHOICE, log 23). -/
def satFieldItem (s : State) (p : SatPlan) (place : List Nat) (rank : Nat) (x : MsmBlock × FieldDesc) : WItem :=
  match x.1 with
  | .roughRange => openItem s x.2 place (p.rough.bind (·[rank]?))
  | .doppler => openItem s x.2 place (p.rate.bind (·[rank]?))
  | .extInfo =>
    match rank, p.ext with
    | 0, some raw => .field x.2 raw
    | _, _ => freeItem s x.2 place
  | _ => freeItem s x.2 place

/-- The write of a quantity (R262), its sentinel, or a free value where it has none (log 31). -/
def quantityItem (s : State) (d : FieldDesc) (place : List Nat) (q : Option Rat) : WItem :=
  match q with
  | some q => .field d (nearRaw d q)
  | none => openItem s d place none

/-- A quantity less the satellite-level part it is sent on; without a satellite-level field it is sent whole, though nothing then brings a
range back (R243; DESIGN CHOICE, log 54). -/
def lessSplit (ds : List FieldDesc) (raws : Option (List Int)) (q : Option Rat) : Option Rat :=
  q.map (fun q => q - (raws.map (splitValue ds)).getD 0)

/-- The write of a phase: where its range cannot be told from its cycles (a frequency or a `CFG.C` of 0), any value will do. -/
def phaseItem (s : State) (satFs : List (MsmBlock × FieldDesc)) (p : SatPlan) (b : ObsBlock) (place : List Nat) (d : FieldDesc)
    (i j : Nat) : WItem :=
  match phaseRange s b p.fcn i j, numAt b.phase i j, (b.sigs[j]?).bind (fun g => s.cfg.freq.lookup (b.cons, g, p.fcn)) with
  | some r, _, _ => quantityItem s d place (lessSplit (blockDescs satFs .roughRange) p.rough (some r))
  | none, some _, some _ => .field d (plainRaw d)
  | _, _, _ => openItem s d place none

/-- The write of a signal-level field of cell `(i, j)`; only the first field of a block counts (log 23). A field of a satellite-level
block that stands here is free (DESIGN CHOICE, log 23). -/
def sigFieldItem (s : State) (satFs : List (MsmBlock × FieldDesc)) (p : SatPlan) (b : ObsBlock) (place : List Nat)
    (rank : Nat) (x : MsmBlock × FieldDesc) (i j : Nat) : WItem :=
  match x.1, rank with
  | .fineRange, 0 => quantityItem s x.2 place (lessSplit (blockDescs satFs .roughRange) p.rough (numAt b.prange i j))
  | .phase, 0 => phaseItem s satFs p b place x.2 i j
  | .cnr, 0 => quantityItem s x.2 place (numAt b.cnr i j)
  | .doppler, 0 => quantityItem s x.2 place (lessSplit (blockDescs satFs .doppler) p.rate (numAt b.doppler i j))
  | .halfCycle, 0 => .field { x.2 with signed := false } ((cellOf b.half i j).getD 0 : Nat)
  | _, _ => freeItem s x.2 place

/-- The place of a field among the fields of its block. -/
def rankOf (fs : List (MsmBlock × FieldDesc)) (p : Nat) (b : MsmBlock) : Nat :=
  ((fs.take p).filter (fun x => decide (x.1 = b))).length

/-- The writes of the satellite and signal blocks (R240, R241, R262). A value of the message for which the variant or its layout has no
field is not sent (DESIGN CHOICE, log 54). -/
def msmBlockItems (s : State) (lay : MsmLayout) (present : List MsmBlock) (b : ObsBlock) (cells : List Nat) : List WItem :=
  let satFs := presentFields present lay.satFields
  let sigFs := presentFields present lay.sigFields
  let plans := (List.range b.sats.length).map (satPlan s lay satFs sigFs b)
  let plan (i : Nat) : SatPlan := (plans[i]?).getD ⟨none, none, none, none⟩
  satFs.zipIdx.flatMap (fun x =>
    (List.range b.sats.length).map (fun i =>
      satFieldItem s (plan i) [i, x.2, 2] (rankOf satFs x.2 x.1.1) x.1)) ++
  sigFs.zipIdx.flatMap (fun x =>
    cells.map (fun q =>
      sigFieldItem s satFs (plan (q / b.sigs.length)) b [q, x.2, 3] (rankOf sigFs x.2 x.1.1) x.1
        (q / b.sigs.length) (q % b.sigs.length)))

/-- The SVID of a satellite of constellation `c` for the MSM family; one of another constellation is a UsageError (log 50). -/
def msmSvid (cfg : Cfg) (c : Constellation) (i : SatIndex) : Except Cond Nat :=
  match svidOfSat cfg .msm i with
  | .error e => .error e
  | .ok (c', svid) => if c' = c then .ok svid else .error (.usage (some (.int i)))

/-- The writes of an observation block (R262). -/
def obsItems (s : State) (b : ObsBlock) : List WItem :=
  withEntry (s.cfg.msmLayout.lookup (b.cons, b.variant)) fun lay =>
    fieldItems s [0] lay.header b.hdr ++
    maskItems s.cfg (.msm b.cons b.variant .sat) lay.satMask (convertAll (msmSvid s.cfg b.cons) b.sats) ++
    maskItems s.cfg (.msm b.cons b.variant .sig) lay.sigMask
      (indicesFor lay.sigMask (slotsFor s.cfg.msmSig b.cons) b.sigs none) ++
    (if b.sats.length * b.sigs.length = 0 then []
      else
        maskItems s.cfg (.msm b.cons b.variant .cell) ⟨b.sats.length * b.sigs.length, 0⟩ (.ok (cellsToSend b)) ++
          withEntry (s.cfg.msmPresent.lookup b.variant) fun present => msmBlockItems s lay present b (cellsToSend b))

/-! ## Integrity (R338) -/

/-- The least index of a field of width `w` that a table maps to a value, or to the nearest value if the layout says so (R338); of equally
near values that of the least index counts (DESIGN CHOICE, log 32). -/
def indexFor (tbl : List (Option Rat)) (w : Nat) (sentinel : Int) (nearest : Bool) (q : Rat) : Option Nat :=
  let rows : List (Rat × Nat) := (tbl.take (2 ^ w)).zipIdx.filterMap (fun x =>
    match x.1 with
    | some v => if (x.2 : Int) = sentinel then none else some (v, x.2)
    | none => none)
  match rows.find? (fun x => decide (x.1 = q)) with
  | some x => some x.2
  | none =>
    if nearest then
      (rows.foldl (fun best x => match best with
        | none => some x
        | some b => if distance x.1 q < distance b.1 q then some x else best) (none : Option (Rat × Nat))).map Prod.snd
    else none

/-- The write of a looked-up value (R338): an index, or the sentinel, which is read as an unsigned index too. A value no index stands for
is none of this layout (DESIGN CHOICE, log 55). -/
def lookedItem (cfg : Cfg) (nearest : Bool) (d : FieldDesc) (v : IntegVal) : WItem :=
  match v with
  | .notProvided => .field { d with signed := false } (integSentinel d)
  | .provided q =>
    match (cfg.integTable.lookup d.name).bind (fun t => indexFor t d.width (integSentinel d) nearest q) with
    | none => .fail (.usage none)
    | some k => .field { d with signed := false } k

/-- The write of a header value (R331, R338); a message without it, or with one of the other kind, is none of this layout (log 55). -/
def integHeaderItem (cfg : Cfg) (lay : IntegLayout) (hdr : List (FieldName × IntegHdrVal)) (d : FieldDesc) : WItem :=
  match hdr.lookup d.name, headerTable cfg d.name with
  | some (.plain v), none => valueItem d v
  | some (.looked v), some _ => lookedItem cfg lay.nearest d v
  | _, _ => .fail (.usage none)

/-- The indices a layout gives a constellation (log 51). -/
def consIndices (lay : IntegLayout) (c : Constellation) : List Nat :=
  lay.consOf.filterMap (fun x => if lay.consOf.lookup x.1 = some c then some x.1 else none)

/-- The SVID of a satellite of constellation `c` for the integrity family; one of another constellation is a UsageError (log 50). -/
def integSvid (cfg : Cfg) (c : Constellation) (i : SatIndex) : Except Cond Nat :=
  match svidOfSat cfg .integ i with
  | .error e => .error e
  | .ok (c', svid) => if c' = c then .ok svid else .error (.usage (some (.int i)))

/-- The indices of an item of a frequency mask: its own, which ENCODE_MASK takes or refuses as it is, or the slots of its signal (R330,
R338, log 51). -/
def freqIndices (cfg : Cfg) (c : Constellation) (t : Option SigTable) (f : FreqItem) : List Nat :=
  match f, t with
  | .index k, none => [k]
  | .signal g, some t => slotsFor (sigTable cfg t) c g
  | _, _ => []

/-- A write of an integrity message: one of a mask, or a field of the record of an element. -/
inductive IntegWrite where
  | item (i : WItem)
  | value (e : IntegElem) (d : FieldDesc)
deriving DecidableEq, Repr

/-- How far the writing of an integrity message has come: the masks it has written, and its writes. -/
structure IntegOut where
  part : IntegPart
  writes : List IntegWrite
deriving DecidableEq, Repr

/-- Some more writes. -/
def IntegOut.write (o : IntegOut) (items : List WItem) : IntegOut := { o with writes := o.writes ++ items.map .item }

/-- The writes of one element's record. -/
def elemWrites (ds : List FieldDesc) (o : IntegOut) (e : IntegElem) : IntegOut := { o with writes := o.writes ++ ds.map (.value e) }

/-- The write of a field of an element's record; a message without a value for it is none of this layout (log 55). -/
def elemItem (s : State) (lay : IntegLayout) (p : IntegPart) (e : IntegElem) (d : FieldDesc) : WItem :=
  match (p.vals.lookup e).bind (fun vs => vs.lookup d.name) with
  | none => .fail (.usage none)
  | some v => lookedItem s.cfg lay.nearest d v

/-- Whether a write sets the value of an element under a name. -/
def IntegWrite.sets (e : IntegElem) (n : FieldName) : IntegWrite → Bool
  | .item _ => false
  | .value e' d => decide (e' = e) && decide (d.name = n)

/-- The writes of a message in the end. Of two values of one element and name the message keeps the last (R330, log 53), so an earlier
one is free. -/
def integWriteItems (s : State) (lay : IntegLayout) (p : IntegPart) : List IntegWrite → List WItem
  | [] => []
  | .item i :: ws => i :: integWriteItems s lay p ws
  | .value e d :: ws =>
    (if ws.any (IntegWrite.sets e d.name) then freeItem s d [ws.length, 1] else elemItem s lay p e d) :: integWriteItems s lay p ws

/-- The writes of a step inside an element. -/
def innerWrites (own : IntegElem) (pairs : List IntegElem) (o : IntegOut) : IntegInner → IntegOut
  | .record ds => elemWrites ds o own
  | .each ds => pairs.foldl (elemWrites ds) o

/-- The list the next mask of a constellation takes: the first of the message's lists for it that is not written yet. -/
def nextList {α : Type} (all written : List (Constellation × List α)) (c : Constellation) : Except Cond (List α) :=
  match (listsOf all c)[(listsOf written c).length]? with
  | none => .error (.usage none)
  | some l => .ok l

/-- The writes of a step of a constellation, over the lists written so far as the reader has them (R330). -/
def consStepWrites (s : State) (key : IntegKey) (lay : IntegLayout) (p : IntegPart) (c : Constellation) (o : IntegOut) :
    IntegConsStep → IntegOut
  | .satMask =>
    let l := nextList p.sats o.part.sats c
    IntegOut.write { o with part := { o.part with sats := o.part.sats ++ [(c, l.toOption.getD [])] } }
      (withEntry (lay.satMask.get c) fun m =>
        maskItems s.cfg (.integ key (.integSat c)) m (l.bind (convertAll (integSvid s.cfg c))))
  | .freqMask =>
    match lay.freqMask.get c with
    | none => o
    | some m =>
      let l := nextList p.freqs o.part.freqs c
      IntegOut.write { o with part := { o.part with freqs := o.part.freqs ++ [(c, l.toOption.getD [])] } }
        (maskItems s.cfg (.integ key (.integFreq c)) m.mask
          (l.bind fun l => indicesFor m.mask (freqIndices s.cfg c m.table) l none))
  | .record ds => elemWrites ds o (.cons c)
  | .eachSat steps =>
    (partSats o.part c).foldl (fun o i => steps.foldl (innerWrites (.sat c i) (satPairs o.part c i)) o) o
  | .eachFreq steps =>
    (partFreqs o.part c).foldl (fun o f => steps.foldl (innerWrites (.freq c f) (freqPairs o.part c f)) o) o

/-- The writes of a step of a message; a step over the constellations before their mask has none to go over, as for the reader. -/
def integStepWrites (s : State) (key : IntegKey) (lay : IntegLayout) (p : IntegPart) (o : IntegOut) : IntegStep → IntegOut
  | .consMask =>
    IntegOut.write { o with part := { o.part with cons := p.cons } }
      (maskItems s.cfg (.integ key .cons) lay.consMask (indicesFor lay.consMask (consIndices lay) p.cons none))
  | .record ds => elemWrites ds o .message
  | .eachCons steps => o.part.cons.foldl (fun o c => steps.foldl (consStepWrites s key lay p c) o) o

/-- The writes of a message's prefix and subtype, if its type has subtypes (R330). -/
def integKeyItems (s : State) (u : IntegUpdate) : List WItem :=
  match s.cfg.integPrefix.lookup u.key.type, u.key.sub with
  | none, none => []
  | some px, some sub => fieldItems s [2] px.pre u.pre ++ [.field px.subtype sub]
  | _, _ => [.fail (.usage none)]

/-- The writes of an integrity message (R338). What the message holds beyond what its layout writes is not sent, and nothing is raised
(DESIGN CHOICE, log 54). -/
def integItems (s : State) (u : IntegUpdate) : List WItem :=
  integKeyItems s u ++
  withEntry (s.cfg.integLayout.lookup u.key) fun lay =>
    layoutItems s [0] (integHeaderItem s.cfg lay u.part.hdr) lay.header ++
      integWriteItems s lay u.part (lay.body.foldl (integStepWrites s u.key lay u.part) ⟨⟨[], [], [], [], []⟩, []⟩).writes

/-! ## ENCODE_ONE (R210) -/

/-- The handler of `CFG.TYPE_TABLE` a correction message came by: a grid message behind a subtype came by IGS (R200;
DESIGN CHOICE, log 58). -/
def wireHandler (u : CorrUpdate) : Handler :=
  match u.handler, u.pre with
  | .ssr c k, _ => .ssr c k
  | .igs _ _, _ => .igs
  | .gridTropo, none => .gridTropo
  | .gridIono, none => .gridIono
  | _, some _ => .igs

/-- The type of an encoded message (R210): the least the table maps to its handler; an integrity message carries its own. -/
def typeFor (cfg : Cfg) : Message → Option Nat
  | .ephemeris r => leastType cfg (.eph r.cons)
  | .observation b => leastType cfg (.msm b.cons b.variant)
  | .correction u => leastType cfg (wireHandler u)
  | .integrity u => if cfg.typeTable.lookup u.key.type = some .integ then some u.key.type else none
  | .station k _ => leastType cfg (.sta k)
  | .rawUnhandled t _ => some t.toNat

/-- The writes of a message after its type. -/
def messageItems (s : State) : Message → List WItem
  | .ephemeris r => ephItems s r
  | .observation b => obsItems s b
  | .correction u => corrItems s u
  | .integrity u => integItems s u
  | .station k fs => withEntry (s.cfg.staLayout.lookup k) fun items => staItems s fs items
  | .rawUnhandled _ _ => []

/-- The bits of some writes. -/
def itemBits (items : List WItem) : Nat := (items.map WItem.bits).sum

/-- The writes of a whole payload: the type, then the message. -/
def payloadItems (s : State) (t : Nat) (msg : Message) : List WItem := .field (plainField 12) t :: messageItems s msg

/-- The sized payload span (R210): its bytes stand where the frame will hold them. -/
def payloadCursor (items : List WItem) : Cursor := ⟨.obuf, 3, (itemBits items + 7) / 8, 0⟩

/-- The state after the writes of a payload. -/
def writtenState (s : State) (items : List WItem) : State :=
  let r := putItems [] (payloadCursor items) items
  { s with
    obuf := r.1
    olen := 3 + (payloadCursor items).len
    cur := { payloadCursor items with off := r.2.1 } }

/-- A condition under the operand of the operation it ends, where it names no argument of its own (R346). -/
def Cond.ofOperand (x : UsageArg) : Cond → Cond
  | .usage none => .usage (some x)
  | c => c

/-- The writes of a message and its frame (R210). A message that its layout cannot send is a UsageError with the message (log 55). -/
def encodeItems (s : State) (msg : Message) (items : List WItem) : State :=
  match (putItems [] (payloadCursor items) items).2.2 with
  | some c => (writtenState s items).raise (c.ofOperand (.message msg))
  | none => emitFrame (writtenState s items) (Memory.slice (writtenState s items).obuf 3 (payloadCursor items).len)

/-- `ENCODE_ONE(msg)` (R210): OBUF is emptied (R28); `RawUnhandled` is its own payload. -/
def encodeMessage (s : State) (msg : Message) : State :=
  match msg with
  | .rawUnhandled _ payload => emitFrame { s with obuf := [], olen := 0 } payload
  | msg =>
    match typeFor s.cfg msg with
    | none => State.raise { s with obuf := [], olen := 0 } (.usage (some (.message msg)))
    | some t => encodeItems { s with obuf := [], olen := 0 } msg (payloadItems s t msg)

/-- The meaning of ENCODE_ONE (R210). -/
def execEncodeOne (msg : Message) (s : State) : Out :=
  unitOp s fun s => withCrc s fun s => .next (encodeMessage s msg)

end Sys2Proof.Machine
end

