-- ==== Sys2Proof/Machine/Registry.lean ====
section
/-! DEFINITION. The dispatcher (R193 to R203) and the top level: DECODE_ONE (R190, R191) and an arriving frame (R90). -/

namespace Sys2Proof.Machine

/-! ## DISPATCH -/

/-- The handler of an identifier (R95, R193). -/
def runHandler (s : State) : Handler → Rd Handled
  | .msm c v => readMsm s c v
  | .ssr c k => readSsr s c k
  | .gridTropo => readGridTropo s none
  | .gridIono => readGridIono s none
  | .eph c => readEph s c
  | .sta k => readStation s k
  | .igs => readIgs s
  | .integ => readInteg s s.f.type

/-- The handler of message type `t` (R193, R194): RAW without an entry. -/
def selectHandler (s : State) (t : BitVec 12) : Rd Handled :=
  match s.cfg.typeTable.lookup t.toNat with
  | none => Sys2Proof.Machine.readRaw s t
  | some h => runHandler s h

/-- `F.type <- t`, with the cursor after the type (R193). -/
def State.typed (s : State) (t off : Nat) : State :=
  { s with f := { s.f with type := BitVec.ofNat 12 t }, cur := { s.cur with off := off } }

/-- `DISPATCH()` (R193). -/
def dispatchRun (s : State) : Run :=
  match readBitsU s 12 s.cur.off with
  | .stop c _ => .cond c s
  | .ok t off => runMessage (s.typed t off) (selectHandler (s.typed t off) (BitVec.ofNat 12 t))

/-- The meaning of DISPATCH (R193). -/
def execDispatch (s : State) : Out := unitOp s fun s => finishRun (dispatchRun s)

/-! ## DECODE_ONE -/

/-- `SCAN` after a condition of the frame search (R191, R192). -/
def scanAfter (scan : Nat) : Cond → Nat
  | .truncatedAt p => p
  | .checksum p => p + 1
  | _ => scan

/-- The state at the start of a payload's decode (R190): past the frame, the cursor over the payload. -/
def State.enterFrame (s : State) (r : FrameRes) (p len : Nat) : State :=
  { s with f := s.f.after r, scan := p + len + 6, cur := ⟨.stream, p + 3, len, 0⟩ }

/-- The end of DECODE_ONE after the handler (R190, R191). -/
def finishDecode (consumed : Nat) : Run → Out
  | .ok m s => .next (State.done { s with out := some m } (.decoded consumed (some m)))
  | .cond c s => .next (s.raise c)

/-- `DECODE_ONE()` (R190) on a state without a value in OUT. -/
def decodeFrom (s : State) : Out :=
  match searchFrame s s.scan with
  | .noFrame =>
    .next (State.done { s with f := s.f.after .noFrame, scan := s.slen } (.decoded (s.slen - s.scan) none))
  | .cond c => .next (State.raise { s with f := s.f.after (.cond c), scan := scanAfter s.scan c } c)
  | .frame p len crc =>
    finishDecode (p + len + 6 - s.scan) (dispatchRun (s.enterFrame (.frame p len crc) p len))

/-- The body of DECODE_ONE in a configured block. -/
def decodeBody (s : State) : Out := withCrc s decodeFrom

/-- The meaning of DECODE_ONE (R190): `OUT <- none` first; R355 asks the same where the block is not configured (log 42). -/
def execDecodeOne (s : State) : Out := unitOp { s with out := none } decodeBody

/-! ## FRAME -/

/-- The bytes of a frame laid over STREAM at SCAN (log 15). -/
def State.arrive (s : State) (bytes : List Byte) : State :=
  { s with stream := Memory.write s.stream s.scan bytes, slen := max s.slen (s.scan + bytes.length) }

/-- The meaning of the frame format (R90, log 15): the frame's bytes stand at the stream position and are decoded. A payload above
1023 bytes is no payload of R90 and has no condition of its own: all its bytes are laid, with its length modulo 1024 in the
length field (DESIGN CHOICE, log 15). -/
def execFrame (pad : BitVec 6) (payload : List Byte) (crc : BitVec 24) (s : State) : Out :=
  unitOp { s with out := none } fun s => decodeBody (s.arrive (encodeFrame s.cfg pad payload crc))

end Sys2Proof.Machine
end

