-- ==== Sys2Proof/Machine/Boot.lean ====
section
/-! DEFINITION. How a table row's word is placed where the next step takes its instruction (log 33): a configuration whose type
numbers are G5's and whose layouts are as small as the rules allow, and the bytes of the word as a frame at the stream position.
PRESUMED: no number and no layout here is in the source; no meaning uses this file. -/

namespace Sys2Proof.Machine

/-- An unsigned field. -/
def uField (n : FieldName) (w : Nat) : FieldDesc := { name := n, width := w }

/-- A layout of a correction message with the header fields the rules use. -/
def fetchSsr : SsrLayout where
  header := [uField .epoch 20, uField .udi 4, uField .mm 1, uField .iod 4, uField .provider 16, uField .solution 4,
    uField .nsat 6]
  svid := uField .svid 6
  record := []
  clockRecord := []
  yaw := none
  nsig := some (uField .nsig 5)
  subrecord := [uField .slot 5]

/-- An MSM layout with the two masks of G8. -/
def fetchMsm : MsmLayout := ⟨[uField .stationId 12, uField .epoch 30, uField .mm 1], ⟨64, 1⟩, ⟨32, 1⟩, [], [], []⟩

/-- The 476 bits after the type of a GPS ephemeris (R224): the satellite, the rest in fields without a meaning. -/
def fetchEphGps : List FieldDesc :=
  uField .svid 6 :: uField (.other 7) 22 :: (List.range 7).map (fun n => uField (.other n) 64)

/-- One row for each constellation and each of a list of items. -/
def eachOf {α β : Type} (items : List α) (b : β) : List ((Constellation × α) × β) :=
  allConstellations.flatMap (fun c => items.map (fun a => ((c, a), b)))

/-- The configuration a table row's word runs under. -/
def fetchCfg : Cfg :=
  { rtcmCfg with
    prn := ⟨some ⟨1, 32, 1⟩, some ⟨1, 32, 100⟩, some ⟨1, 36, 200⟩, some ⟨1, 63, 300⟩, some ⟨1, 10, 400⟩, some ⟨1, 14, 500⟩,
      some ⟨1, 39, 600⟩⟩
    svidOffset := allConstellations.map (fun c => ((.eph, c), 1))
    igsSubtypeTable := [(0, .ssr .gps .orbit)]
    msmLayout := eachOf allVariants fetchMsm
    msmPresent := allVariants.map (fun v => (v, []))
    ssrLayout := eachOf allSsrKinds fetchSsr
    igsPrefix := some ⟨[uField .version 3], uField .subtype 8⟩
    igsLayout := [((.gps, .orbit), fetchSsr)]
    ephLayout := { PerCons.all (some ⟨[uField .svid 6], none⟩) with gps := some ⟨fetchEphGps, none⟩ }
    staLayout := [(.ant, []), (.pos, []), (.globias, [])] }

/-- The bytes of a table row's word: a frame's first bytes, or the frame of a payload that begins with the message type. -/
def wordBytes (nbits w : Nat) : List Byte :=
  if nbits ≤ 8 then [BitVec.ofNat 8 w, 0, 0, 0, 0, 0]
  else if nbits ≤ 16 then frameOf fetchCfg (typeBytes w ++ List.replicate 62 0)
  else (List.range (max 6 (nbits / 8))).map (fun k => BitVec.ofNat 8 (w / 256 ^ k))

/-- The state whose next step decodes the word: the bytes in STREAM, SCAN before them, DECODE_ONE issued. A row without bits places
nothing. -/
def State.placeWord (s : State) (nbits w : Nat) : State :=
  if nbits = 0 then s
  else
    { s with
      cfg := fetchCfg
      configured := true
      refTime := some 0
      stream := Memory.write [] 0 (wordBytes nbits w)
      slen := (wordBytes nbits w).length
      scan := 0
      port := [.decodeOne] }

end Sys2Proof.Machine
end

