-- ==== Sys2Proof/Machine/Bits.lean ====
section
/-! DEFINITION. The bit reader and writer's operations (R120 to R132), READ_FIELD and READ_MASK (R113). -/

namespace Sys2Proof.Machine

/-- `CUR <- (base, n, 0)` over a buffer (R120, R25). -/
def Cursor.over (space : Space) (base n : Nat) : Cursor := ⟨space, base, n, 0⟩

/-- The meaning of CUR_INIT (R120). Over STREAM a span outside it raises UsageError. Over OBUF (R25, R63: a buffer the block
appends to) the buffer is extended to hold the span (log 16). -/
def execCurInit (space : Space) (base n : Nat) (s : State) : Out :=
  unitOp s fun s =>
    match space with
    | .stream =>
      if s.slen < base + n then .next (s.raise (.usage (some (.span base n))))
      else .next (State.done { s with cur := Cursor.over .stream base n } .done)
    | .obuf =>
      .next (State.done { s with olen := max s.olen (base + n), cur := Cursor.over .obuf base n } .done)

/-- The meaning of READ_U (R121). -/
def execReadU (w : Nat) (s : State) : Out :=
  unitOp s fun s => finishRd s (readBitsU s w) fun v s => s.done (.nat v)

/-- The meaning of READ_S (R122). -/
def execReadS (w : Nat) (s : State) : Out :=
  unitOp s fun s => finishRd s (readBitsS s w) fun v s => s.done (.int v)

/-- The meaning of READ_BYTES (R127). -/
def execReadBytes (n : Nat) (s : State) : Out :=
  unitOp s fun s => finishRd s (readByteBlock s n) fun b s => s.done (.bytes b)

/-- The meaning of WRITE_U (R129). -/
def execWriteU (w : Nat) (v : Int) (ovf : Ovf) (s : State) : Out :=
  unitOp s fun s => writeOp s fun m cur => putU m cur w v ovf

/-- The meaning of WRITE_S (R130). -/
def execWriteS (w : Nat) (v : Int) (ovf : Ovf) (s : State) : Out :=
  unitOp s fun s => writeOp s fun m cur => putS m cur w v ovf

/-- The meaning of WRITE_BYTES (R131). -/
def execWriteBytes (b : List Byte) (s : State) : Out :=
  unitOp s fun s => writeOp s fun m cur => putBytes m cur b

/-- The meaning of READ_FIELD (R113). A descriptor whose scale is not positive, which R104 has none of, is read like any other (DESIGN
CHOICE, log 43). -/
def execReadField (d : FieldDesc) (s : State) : Out :=
  unitOp s fun s => finishRd s (readRawField s d) fun f s => s.done (.value f.val)

/-- The meaning of READ_MASK (R113, R180). -/
def execReadMask (f : MaskId) (width offset : Nat) (s : State) : Out :=
  unitOp s fun s => finishRd s (readMaskField s f ⟨width, offset⟩) fun l s => s.done (.indices l l.length)

end Sys2Proof.Machine
end

