-- ==== Sys2Proof/Machine/Identity.lean ====
section
/-! DEFINITION. The combinational lookups as operations: satellite identity (R160 to R169), masks (R175, R177), weeks (R223),
quality values (R282, R284), integrity lookups (R331). -/

namespace Sys2Proof.Machine

/-- The meaning of TO_INDEX (R160). -/
def execToIndex (c : Constellation) (prn : Nat) (s : State) : Out :=
  unitOp s fun s => finishPure s (satIndex s.cfg c prn) .nat

/-- The meaning of FROM_INDEX (R161). -/
def execFromIndex (idx : Nat) (s : State) : Out :=
  unitOp s fun s => finishPure s (satOfIndex s.cfg idx) fun x => .consPrn x.1 x.2

/-- The meaning of SVID_OFFSET (R165). -/
def execSvidOffset (fam : Family) (c : Constellation) (s : State) : Out :=
  unitOp s fun s => finishPure s (svidOffsetOf s.cfg fam c) .nat

/-- The meaning of SVID_TO_SAT (R166). -/
def execSvidToSat (fam : Family) (c : Constellation) (svid : Nat) (s : State) : Out :=
  unitOp s fun s => finishPure s (satOfSvid s.cfg fam c svid) .nat

/-- The meaning of SAT_TO_SVID (R167). -/
def execSatToSvid (fam : Family) (idx : SatIndex) (s : State) : Out :=
  unitOp s fun s => finishPure s (svidOfSat s.cfg fam idx) fun x => .consPrn x.1 x.2

/-- The meaning of SIG_OF (R169). -/
def execSigOf (table : SigTable) (c : Constellation) (slot : Nat) (s : State) : Out :=
  unitOp s fun s => finishPure s (signalOf s.cfg table c slot) .signal

/-- The meaning of DECODE_MASK (R175). Its rule confines the width and the bits and gives no condition outside: the operation
answers from the low `width` bits there (DESIGN CHOICE, log 46). -/
def execDecodeMask (bits width offset : Nat) (order : MaskOrder) (s : State) : Out :=
  unitOp s fun s =>
    .next (s.done (.indices (maskIndices bits width offset order) (maskIndices bits width offset order).length))

/-- The meaning of ENCODE_MASK (R177). Its rule takes a width of at least 1 and gives no condition outside: with width 0 the empty list
gives 0, and any index is out of range (DESIGN CHOICE, log 46). -/
def execEncodeMask (indices : List Nat) (width offset : Nat) (order : MaskOrder) (s : State) : Out :=
  unitOp s fun s => finishPure s (maskBits indices width offset order) .nat

/-- The meaning of ADJUST_WEEK (R223), whose reference time is an operand here: REF_TIME is not looked at, so nothing is raised while
it is undefined (DESIGN CHOICE, log 47); a handler gives REF_TIME and raises (R31). -/
def execAdjustWeek (c : Constellation) (rawWeek : Int) (ref : Time) (s : State) : Out :=
  unitOp s fun s => finishPure s (adjustWeekOf s.cfg c rawWeek ref) .int

/-- The meaning of DECODE_URA (R282). -/
def execDecodeUra (cls value : Int) (s : State) : Out :=
  unitOp s fun s => .next (s.done (.metres (uraMetres s.cfg cls value)))

/-- The meaning of QUANTIZE (R284). -/
def execQuantize (stdev : Rat) (s : State) : Out :=
  unitOp s fun s => finishPure s (quantizeUra s.cfg stdev) fun x => .quality x.1 x.2

/-- The meaning of LOOKUP (R331, R332). -/
def execLookup (d : FieldDesc) (idx : Nat) (s : State) : Out :=
  unitOp s fun s => finishPure s (lookupIndex s.cfg d idx) .lookup

end Sys2Proof.Machine
end

