-- ==== Sys2Proof/Machine/Dispatch.lean ====
section
/-! DEFINITION. The meaning of every instruction: one arm per constructor of Instr, one call of its meaning. -/

namespace Sys2Proof.Machine

def exec (i : Instr) (s : State) : Host.Outcome State Fault Refusal :=
  match i with
  | .reset => Sys2Proof.Machine.execReset s
  | .hostConfig cfg => Sys2Proof.Machine.execHostConfig cfg s
  | .hostLoad bytes scan => Sys2Proof.Machine.execHostLoad bytes scan s
  | .hostSetRefTime t => Sys2Proof.Machine.execHostSetRefTime t s
  | .hostEvict n => Sys2Proof.Machine.execHostEvict n s
  | .hostEvictProvider p => Sys2Proof.Machine.execHostEvictProvider p s
  | .hostRead n k => Sys2Proof.Machine.execHostRead n k s
  | .decodeOne => Sys2Proof.Machine.execDecodeOne s
  | .encodeOne msg => Sys2Proof.Machine.execEncodeOne msg s
  | .findFrame start => Sys2Proof.Machine.execFindFrame start s
  | .syncScan start => Sys2Proof.Machine.execSyncScan start s
  | .lenRead p => Sys2Proof.Machine.execLenRead p s
  | .boundCheck p len => Sys2Proof.Machine.execBoundCheck p len s
  | .crc24 data => Sys2Proof.Machine.execCrc24 data s
  | .frameEmit payload => Sys2Proof.Machine.execFrameEmit payload s
  | .curInit space base n => Sys2Proof.Machine.execCurInit space base n s
  | .readU w => Sys2Proof.Machine.execReadU w s
  | .readS w => Sys2Proof.Machine.execReadS w s
  | .readBytes n => Sys2Proof.Machine.execReadBytes n s
  | .writeU w v ovf => Sys2Proof.Machine.execWriteU w v ovf s
  | .writeS w v ovf => Sys2Proof.Machine.execWriteS w v ovf s
  | .writeBytes b => Sys2Proof.Machine.execWriteBytes b s
  | .readField d => Sys2Proof.Machine.execReadField d s
  | .readMask f width offset => Sys2Proof.Machine.execReadMask f width offset s
  | .toIndex c prn => Sys2Proof.Machine.execToIndex c prn s
  | .fromIndex idx => Sys2Proof.Machine.execFromIndex idx s
  | .svidOffset fam c => Sys2Proof.Machine.execSvidOffset fam c s
  | .svidToSat fam c svid => Sys2Proof.Machine.execSvidToSat fam c svid s
  | .satToSvid fam idx => Sys2Proof.Machine.execSatToSvid fam idx s
  | .sigOf table c slot => Sys2Proof.Machine.execSigOf table c slot s
  | .decodeMask bits width offset order => Sys2Proof.Machine.execDecodeMask bits width offset order s
  | .encodeMask indices width offset order => Sys2Proof.Machine.execEncodeMask indices width offset order s
  | .dispatch => Sys2Proof.Machine.execDispatch s
  | .adjustWeek c rawWeek ref => Sys2Proof.Machine.execAdjustWeek c rawWeek ref s
  | .lockCheck sat g n => Sys2Proof.Machine.execLockCheck sat g n s
  | .readHeader h => Sys2Proof.Machine.execReadHeader h s
  | .decodeUra cls value => Sys2Proof.Machine.execDecodeUra cls value s
  | .quantize stdev => Sys2Proof.Machine.execQuantize stdev s
  | .iodCheck n kinds t iod => Sys2Proof.Machine.execIodCheck n kinds t iod s
  | .cacheUpdate n k t hdr recs => Sys2Proof.Machine.execCacheUpdate n k t hdr recs s
  | .lookup d idx => Sys2Proof.Machine.execLookup d idx s
  | .isUpdate p t key part => Sys2Proof.Machine.execIsUpdate p t key part s
  | .frame pad payload crc => Sys2Proof.Machine.execFrame pad payload crc s
  | .msm1Gps => Sys2Proof.Machine.execMsm1Gps s
  | .msm2Gps => Sys2Proof.Machine.execMsm2Gps s
  | .msm3Gps => Sys2Proof.Machine.execMsm3Gps s
  | .msm4Gps => Sys2Proof.Machine.execMsm4Gps s
  | .msm5Gps => Sys2Proof.Machine.execMsm5Gps s
  | .msm6Gps => Sys2Proof.Machine.execMsm6Gps s
  | .msm7Gps => Sys2Proof.Machine.execMsm7Gps s
  | .msm1Glonass => Sys2Proof.Machine.execMsm1Glonass s
  | .msm2Glonass => Sys2Proof.Machine.execMsm2Glonass s
  | .msm3Glonass => Sys2Proof.Machine.execMsm3Glonass s
  | .msm4Glonass => Sys2Proof.Machine.execMsm4Glonass s
  | .msm5Glonass => Sys2Proof.Machine.execMsm5Glonass s
  | .msm6Glonass => Sys2Proof.Machine.execMsm6Glonass s
  | .msm7Glonass => Sys2Proof.Machine.execMsm7Glonass s
  | .msm1Galileo => Sys2Proof.Machine.execMsm1Galileo s
  | .msm2Galileo => Sys2Proof.Machine.execMsm2Galileo s
  | .msm3Galileo => Sys2Proof.Machine.execMsm3Galileo s
  | .msm4Galileo => Sys2Proof.Machine.execMsm4Galileo s
  | .msm5Galileo => Sys2Proof.Machine.execMsm5Galileo s
  | .msm6Galileo => Sys2Proof.Machine.execMsm6Galileo s
  | .msm7Galileo => Sys2Proof.Machine.execMsm7Galileo s
  | .msm1Beidou => Sys2Proof.Machine.execMsm1Beidou s
  | .msm2Beidou => Sys2Proof.Machine.execMsm2Beidou s
  | .msm3Beidou => Sys2Proof.Machine.execMsm3Beidou s
  | .msm4Beidou => Sys2Proof.Machine.execMsm4Beidou s
  | .msm5Beidou => Sys2Proof.Machine.execMsm5Beidou s
  | .msm6Beidou => Sys2Proof.Machine.execMsm6Beidou s
  | .msm7Beidou => Sys2Proof.Machine.execMsm7Beidou s
  | .msm1Qzss => Sys2Proof.Machine.execMsm1Qzss s
  | .msm2Qzss => Sys2Proof.Machine.execMsm2Qzss s
  | .msm3Qzss => Sys2Proof.Machine.execMsm3Qzss s
  | .msm4Qzss => Sys2Proof.Machine.execMsm4Qzss s
  | .msm5Qzss => Sys2Proof.Machine.execMsm5Qzss s
  | .msm6Qzss => Sys2Proof.Machine.execMsm6Qzss s
  | .msm7Qzss => Sys2Proof.Machine.execMsm7Qzss s
  | .msm1Navic => Sys2Proof.Machine.execMsm1Navic s
  | .msm2Navic => Sys2Proof.Machine.execMsm2Navic s
  | .msm3Navic => Sys2Proof.Machine.execMsm3Navic s
  | .msm4Navic => Sys2Proof.Machine.execMsm4Navic s
  | .msm5Navic => Sys2Proof.Machine.execMsm5Navic s
  | .msm6Navic => Sys2Proof.Machine.execMsm6Navic s
  | .msm7Navic => Sys2Proof.Machine.execMsm7Navic s
  | .msm1Sbas => Sys2Proof.Machine.execMsm1Sbas s
  | .msm2Sbas => Sys2Proof.Machine.execMsm2Sbas s
  | .msm3Sbas => Sys2Proof.Machine.execMsm3Sbas s
  | .msm4Sbas => Sys2Proof.Machine.execMsm4Sbas s
  | .msm5Sbas => Sys2Proof.Machine.execMsm5Sbas s
  | .msm6Sbas => Sys2Proof.Machine.execMsm6Sbas s
  | .msm7Sbas => Sys2Proof.Machine.execMsm7Sbas s
  | .ssrOrbitGps => Sys2Proof.Machine.execSsrOrbitGps s
  | .ssrClockGps => Sys2Proof.Machine.execSsrClockGps s
  | .ssrCombinedGps => Sys2Proof.Machine.execSsrCombinedGps s
  | .ssrHrclockGps => Sys2Proof.Machine.execSsrHrclockGps s
  | .ssrCodebiasGps => Sys2Proof.Machine.execSsrCodebiasGps s
  | .ssrPhasebiasGps => Sys2Proof.Machine.execSsrPhasebiasGps s
  | .ssrUraGps => Sys2Proof.Machine.execSsrUraGps s
  | .ssrOrbitGlonass => Sys2Proof.Machine.execSsrOrbitGlonass s
  | .ssrClockGlonass => Sys2Proof.Machine.execSsrClockGlonass s
  | .ssrCombinedGlonass => Sys2Proof.Machine.execSsrCombinedGlonass s
  | .ssrHrclockGlonass => Sys2Proof.Machine.execSsrHrclockGlonass s
  | .ssrCodebiasGlonass => Sys2Proof.Machine.execSsrCodebiasGlonass s
  | .ssrPhasebiasGlonass => Sys2Proof.Machine.execSsrPhasebiasGlonass s
  | .ssrUraGlonass => Sys2Proof.Machine.execSsrUraGlonass s
  | .ssrOrbitGalileo => Sys2Proof.Machine.execSsrOrbitGalileo s
  | .ssrClockGalileo => Sys2Proof.Machine.execSsrClockGalileo s
  | .ssrCombinedGalileo => Sys2Proof.Machine.execSsrCombinedGalileo s
  | .ssrHrclockGalileo => Sys2Proof.Machine.execSsrHrclockGalileo s
  | .ssrCodebiasGalileo => Sys2Proof.Machine.execSsrCodebiasGalileo s
  | .ssrPhasebiasGalileo => Sys2Proof.Machine.execSsrPhasebiasGalileo s
  | .ssrUraGalileo => Sys2Proof.Machine.execSsrUraGalileo s
  | .ssrOrbitBeidou => Sys2Proof.Machine.execSsrOrbitBeidou s
  | .ssrClockBeidou => Sys2Proof.Machine.execSsrClockBeidou s
  | .ssrCombinedBeidou => Sys2Proof.Machine.execSsrCombinedBeidou s
  | .ssrHrclockBeidou => Sys2Proof.Machine.execSsrHrclockBeidou s
  | .ssrCodebiasBeidou => Sys2Proof.Machine.execSsrCodebiasBeidou s
  | .ssrPhasebiasBeidou => Sys2Proof.Machine.execSsrPhasebiasBeidou s
  | .ssrUraBeidou => Sys2Proof.Machine.execSsrUraBeidou s
  | .ssrOrbitQzss => Sys2Proof.Machine.execSsrOrbitQzss s
  | .ssrClockQzss => Sys2Proof.Machine.execSsrClockQzss s
  | .ssrCombinedQzss => Sys2Proof.Machine.execSsrCombinedQzss s
  | .ssrHrclockQzss => Sys2Proof.Machine.execSsrHrclockQzss s
  | .ssrCodebiasQzss => Sys2Proof.Machine.execSsrCodebiasQzss s
  | .ssrPhasebiasQzss => Sys2Proof.Machine.execSsrPhasebiasQzss s
  | .ssrUraQzss => Sys2Proof.Machine.execSsrUraQzss s
  | .ssrOrbitNavic => Sys2Proof.Machine.execSsrOrbitNavic s
  | .ssrClockNavic => Sys2Proof.Machine.execSsrClockNavic s
  | .ssrCombinedNavic => Sys2Proof.Machine.execSsrCombinedNavic s
  | .ssrHrclockNavic => Sys2Proof.Machine.execSsrHrclockNavic s
  | .ssrCodebiasNavic => Sys2Proof.Machine.execSsrCodebiasNavic s
  | .ssrPhasebiasNavic => Sys2Proof.Machine.execSsrPhasebiasNavic s
  | .ssrUraNavic => Sys2Proof.Machine.execSsrUraNavic s
  | .ssrOrbitSbas => Sys2Proof.Machine.execSsrOrbitSbas s
  | .ssrClockSbas => Sys2Proof.Machine.execSsrClockSbas s
  | .ssrCombinedSbas => Sys2Proof.Machine.execSsrCombinedSbas s
  | .ssrHrclockSbas => Sys2Proof.Machine.execSsrHrclockSbas s
  | .ssrCodebiasSbas => Sys2Proof.Machine.execSsrCodebiasSbas s
  | .ssrPhasebiasSbas => Sys2Proof.Machine.execSsrPhasebiasSbas s
  | .ssrUraSbas => Sys2Proof.Machine.execSsrUraSbas s
  | .ssrTestGps o => Sys2Proof.Machine.execSsrTestGps o s
  | .ssrTestGlonass o => Sys2Proof.Machine.execSsrTestGlonass o s
  | .ssrTestGalileo o => Sys2Proof.Machine.execSsrTestGalileo o s
  | .ssrTestBeidou o => Sys2Proof.Machine.execSsrTestBeidou o s
  | .ssrTestQzss o => Sys2Proof.Machine.execSsrTestQzss o s
  | .ssrTestNavic o => Sys2Proof.Machine.execSsrTestNavic o s
  | .ssrTestSbas o => Sys2Proof.Machine.execSsrTestSbas o s
  | .ephGps => Sys2Proof.Machine.execEphGps s
  | .ephGlonass => Sys2Proof.Machine.execEphGlonass s
  | .ephGalileo => Sys2Proof.Machine.execEphGalileo s
  | .ephBeidou => Sys2Proof.Machine.execEphBeidou s
  | .ephQzss => Sys2Proof.Machine.execEphQzss s
  | .ephNavic => Sys2Proof.Machine.execEphNavic s
  | .ephSbas => Sys2Proof.Machine.execEphSbas s
  | .staAnt => Sys2Proof.Machine.execStaAnt s
  | .staPos => Sys2Proof.Machine.execStaPos s
  | .staGlobias => Sys2Proof.Machine.execStaGlobias s
  | .igs => Sys2Proof.Machine.execIgs s
  | .gridTropo => Sys2Proof.Machine.execGridTropo s
  | .gridIono => Sys2Proof.Machine.execGridIono s
  | .integ t => Sys2Proof.Machine.execInteg t s
  | .raw t => Sys2Proof.Machine.execRaw t s

end Sys2Proof.Machine
end

