-- ==== Sys2Proof/Machine/Step.lean ====
section
/-! DEFINITION. One step: the oldest issued operation (D5, R16, R76, log 1). -/

namespace Sys2Proof.Machine

/-- One step takes the oldest operation from the port and performs it whole; with none issued the block does nothing (R382). -/
def step (s : State) : Host.Outcome State Fault Refusal :=
  match s.port with
  | [] => .next s
  | i :: rest => exec i { s with port := rest }

/-- The state whose next step fetches and runs a table row's word (log 33). -/
def State.withFetchWord (s : State) (nbits w : Nat) : State := s.placeWord nbits w

end Sys2Proof.Machine
end

