-- ==== Sys2Proof/Laws/State.lean ====
section
/-! SUPPORT. One lemma per field for each update of the state that the meanings share. -/

namespace Sys2Proof.Machine

@[simp] theorem State.raise_stream (s : State) (c : Cond) : (s.raise c).stream = s.stream := rfl
@[simp] theorem State.raise_slen (s : State) (c : Cond) : (s.raise c).slen = s.slen := rfl
@[simp] theorem State.raise_scan (s : State) (c : Cond) : (s.raise c).scan = s.scan := rfl
@[simp] theorem State.raise_f (s : State) (c : Cond) : (s.raise c).f = s.f := rfl
@[simp] theorem State.raise_cur (s : State) (c : Cond) : (s.raise c).cur = s.cur := rfl
@[simp] theorem State.raise_result (s : State) (c : Cond) : (s.raise c).result = ⟨c.code, c.info s.free⟩ := rfl
@[simp] theorem State.raise_out (s : State) (c : Cond) : (s.raise c).out = s.out := rfl
@[simp] theorem State.raise_obuf (s : State) (c : Cond) : (s.raise c).obuf = s.obuf := rfl
@[simp] theorem State.raise_olen (s : State) (c : Cond) : (s.raise c).olen = s.olen := rfl
@[simp] theorem State.raise_cfg (s : State) (c : Cond) : (s.raise c).cfg = s.cfg := rfl
@[simp] theorem State.raise_configured (s : State) (c : Cond) : (s.raise c).configured = s.configured := rfl
@[simp] theorem State.raise_window (s : State) (c : Cond) : (s.raise c).window = s.window := rfl
@[simp] theorem State.raise_refTime (s : State) (c : Cond) : (s.raise c).refTime = s.refTime := rfl
@[simp] theorem State.raise_lk (s : State) (c : Cond) : (s.raise c).lk = s.lk := rfl
@[simp] theorem State.raise_cs (s : State) (c : Cond) : (s.raise c).cs = s.cs := rfl
@[simp] theorem State.raise_is (s : State) (c : Cond) : (s.raise c).is = s.is := rfl
@[simp] theorem State.raise_port (s : State) (c : Cond) : (s.raise c).port = s.port := rfl
@[simp] theorem State.raise_ret (s : State) (c : Cond) : (s.raise c).ret = .none := rfl
@[simp] theorem State.raise_free (s : State) (c : Cond) : (s.raise c).free = s.free := rfl

@[simp] theorem State.done_stream (s : State) (r : RetVal) : (s.done r).stream = s.stream := rfl
@[simp] theorem State.done_slen (s : State) (r : RetVal) : (s.done r).slen = s.slen := rfl
@[simp] theorem State.done_scan (s : State) (r : RetVal) : (s.done r).scan = s.scan := rfl
@[simp] theorem State.done_f (s : State) (r : RetVal) : (s.done r).f = s.f := rfl
@[simp] theorem State.done_cur (s : State) (r : RetVal) : (s.done r).cur = s.cur := rfl
@[simp] theorem State.done_result (s : State) (r : RetVal) : (s.done r).result = ⟨.ok, .zero⟩ := rfl
@[simp] theorem State.done_out (s : State) (r : RetVal) : (s.done r).out = s.out := rfl
@[simp] theorem State.done_obuf (s : State) (r : RetVal) : (s.done r).obuf = s.obuf := rfl
@[simp] theorem State.done_olen (s : State) (r : RetVal) : (s.done r).olen = s.olen := rfl
@[simp] theorem State.done_cfg (s : State) (r : RetVal) : (s.done r).cfg = s.cfg := rfl
@[simp] theorem State.done_configured (s : State) (r : RetVal) : (s.done r).configured = s.configured := rfl
@[simp] theorem State.done_window (s : State) (r : RetVal) : (s.done r).window = s.window := rfl
@[simp] theorem State.done_refTime (s : State) (r : RetVal) : (s.done r).refTime = s.refTime := rfl
@[simp] theorem State.done_lk (s : State) (r : RetVal) : (s.done r).lk = s.lk := rfl
@[simp] theorem State.done_cs (s : State) (r : RetVal) : (s.done r).cs = s.cs := rfl
@[simp] theorem State.done_is (s : State) (r : RetVal) : (s.done r).is = s.is := rfl
@[simp] theorem State.done_port (s : State) (r : RetVal) : (s.done r).port = s.port := rfl
@[simp] theorem State.done_ret (s : State) (r : RetVal) : (s.done r).ret = r := rfl
@[simp] theorem State.done_free (s : State) (r : RetVal) : (s.done r).free = s.free := rfl

@[simp] theorem State.commit_stream (s : State) (h : Handled) : (s.commit h).stream = s.stream := rfl
@[simp] theorem State.commit_slen (s : State) (h : Handled) : (s.commit h).slen = s.slen := rfl
@[simp] theorem State.commit_scan (s : State) (h : Handled) : (s.commit h).scan = s.scan := rfl
@[simp] theorem State.commit_f (s : State) (h : Handled) : (s.commit h).f = s.f := rfl
@[simp] theorem State.commit_cur (s : State) (h : Handled) : (s.commit h).cur = s.cur := rfl
@[simp] theorem State.commit_result (s : State) (h : Handled) : (s.commit h).result = s.result := rfl
@[simp] theorem State.commit_out (s : State) (h : Handled) : (s.commit h).out = s.out := rfl
@[simp] theorem State.commit_obuf (s : State) (h : Handled) : (s.commit h).obuf = s.obuf := rfl
@[simp] theorem State.commit_olen (s : State) (h : Handled) : (s.commit h).olen = s.olen := rfl
@[simp] theorem State.commit_cfg (s : State) (h : Handled) : (s.commit h).cfg = s.cfg := rfl
@[simp] theorem State.commit_configured (s : State) (h : Handled) : (s.commit h).configured = s.configured := rfl
@[simp] theorem State.commit_window (s : State) (h : Handled) : (s.commit h).window = s.window := rfl
@[simp] theorem State.commit_refTime (s : State) (h : Handled) : (s.commit h).refTime = s.refTime := rfl
@[simp] theorem State.commit_lk (s : State) (h : Handled) : (s.commit h).lk = h.lk := rfl
@[simp] theorem State.commit_cs (s : State) (h : Handled) : (s.commit h).cs = h.cs := rfl
@[simp] theorem State.commit_is (s : State) (h : Handled) : (s.commit h).is = h.is := rfl
@[simp] theorem State.commit_port (s : State) (h : Handled) : (s.commit h).port = s.port := rfl
@[simp] theorem State.commit_ret (s : State) (h : Handled) : (s.commit h).ret = s.ret := rfl
@[simp] theorem State.commit_free (s : State) (h : Handled) : (s.commit h).free = s.free := rfl

@[simp] theorem State.typed_stream (s : State) (t off : Nat) : (s.typed t off).stream = s.stream := rfl
@[simp] theorem State.typed_slen (s : State) (t off : Nat) : (s.typed t off).slen = s.slen := rfl
@[simp] theorem State.typed_scan (s : State) (t off : Nat) : (s.typed t off).scan = s.scan := rfl
@[simp] theorem State.typed_f (s : State) (t off : Nat) : (s.typed t off).f = { s.f with type := BitVec.ofNat 12 t } := rfl
@[simp] theorem State.typed_cur (s : State) (t off : Nat) : (s.typed t off).cur = { s.cur with off := off } := rfl
@[simp] theorem State.typed_result (s : State) (t off : Nat) : (s.typed t off).result = s.result := rfl
@[simp] theorem State.typed_out (s : State) (t off : Nat) : (s.typed t off).out = s.out := rfl
@[simp] theorem State.typed_obuf (s : State) (t off : Nat) : (s.typed t off).obuf = s.obuf := rfl
@[simp] theorem State.typed_olen (s : State) (t off : Nat) : (s.typed t off).olen = s.olen := rfl
@[simp] theorem State.typed_cfg (s : State) (t off : Nat) : (s.typed t off).cfg = s.cfg := rfl
@[simp] theorem State.typed_configured (s : State) (t off : Nat) : (s.typed t off).configured = s.configured := rfl
@[simp] theorem State.typed_window (s : State) (t off : Nat) : (s.typed t off).window = s.window := rfl
@[simp] theorem State.typed_refTime (s : State) (t off : Nat) : (s.typed t off).refTime = s.refTime := rfl
@[simp] theorem State.typed_lk (s : State) (t off : Nat) : (s.typed t off).lk = s.lk := rfl
@[simp] theorem State.typed_cs (s : State) (t off : Nat) : (s.typed t off).cs = s.cs := rfl
@[simp] theorem State.typed_is (s : State) (t off : Nat) : (s.typed t off).is = s.is := rfl
@[simp] theorem State.typed_port (s : State) (t off : Nat) : (s.typed t off).port = s.port := rfl
@[simp] theorem State.typed_ret (s : State) (t off : Nat) : (s.typed t off).ret = s.ret := rfl
@[simp] theorem State.typed_free (s : State) (t off : Nat) : (s.typed t off).free = s.free := rfl

@[simp] theorem State.enterFrame_stream (s : State) (r : FrameRes) (p len : Nat) : (s.enterFrame r p len).stream = s.stream := rfl
@[simp] theorem State.enterFrame_slen (s : State) (r : FrameRes) (p len : Nat) : (s.enterFrame r p len).slen = s.slen := rfl
@[simp] theorem State.enterFrame_scan (s : State) (r : FrameRes) (p len : Nat) : (s.enterFrame r p len).scan = p + len + 6 := rfl
@[simp] theorem State.enterFrame_f (s : State) (r : FrameRes) (p len : Nat) : (s.enterFrame r p len).f = s.f.after r := rfl
@[simp] theorem State.enterFrame_cur (s : State) (r : FrameRes) (p len : Nat) : (s.enterFrame r p len).cur = ⟨.stream, p + 3, len, 0⟩ := rfl
@[simp] theorem State.enterFrame_result (s : State) (r : FrameRes) (p len : Nat) : (s.enterFrame r p len).result = s.result := rfl
@[simp] theorem State.enterFrame_out (s : State) (r : FrameRes) (p len : Nat) : (s.enterFrame r p len).out = s.out := rfl
@[simp] theorem State.enterFrame_obuf (s : State) (r : FrameRes) (p len : Nat) : (s.enterFrame r p len).obuf = s.obuf := rfl
@[simp] theorem State.enterFrame_olen (s : State) (r : FrameRes) (p len : Nat) : (s.enterFrame r p len).olen = s.olen := rfl
@[simp] theorem State.enterFrame_cfg (s : State) (r : FrameRes) (p len : Nat) : (s.enterFrame r p len).cfg = s.cfg := rfl
@[simp] theorem State.enterFrame_configured (s : State) (r : FrameRes) (p len : Nat) : (s.enterFrame r p len).configured = s.configured := rfl
@[simp] theorem State.enterFrame_window (s : State) (r : FrameRes) (p len : Nat) : (s.enterFrame r p len).window = s.window := rfl
@[simp] theorem State.enterFrame_refTime (s : State) (r : FrameRes) (p len : Nat) : (s.enterFrame r p len).refTime = s.refTime := rfl
@[simp] theorem State.enterFrame_lk (s : State) (r : FrameRes) (p len : Nat) : (s.enterFrame r p len).lk = s.lk := rfl
@[simp] theorem State.enterFrame_cs (s : State) (r : FrameRes) (p len : Nat) : (s.enterFrame r p len).cs = s.cs := rfl
@[simp] theorem State.enterFrame_is (s : State) (r : FrameRes) (p len : Nat) : (s.enterFrame r p len).is = s.is := rfl
@[simp] theorem State.enterFrame_port (s : State) (r : FrameRes) (p len : Nat) : (s.enterFrame r p len).port = s.port := rfl
@[simp] theorem State.enterFrame_ret (s : State) (r : FrameRes) (p len : Nat) : (s.enterFrame r p len).ret = s.ret := rfl
@[simp] theorem State.enterFrame_free (s : State) (r : FrameRes) (p len : Nat) : (s.enterFrame r p len).free = s.free := rfl

@[simp] theorem State.arrive_stream (s : State) (b : List Byte) : (s.arrive b).stream = Memory.write s.stream s.scan b := rfl
@[simp] theorem State.arrive_slen (s : State) (b : List Byte) : (s.arrive b).slen = max s.slen (s.scan + b.length) := rfl
@[simp] theorem State.arrive_scan (s : State) (b : List Byte) : (s.arrive b).scan = s.scan := rfl
@[simp] theorem State.arrive_f (s : State) (b : List Byte) : (s.arrive b).f = s.f := rfl
@[simp] theorem State.arrive_cur (s : State) (b : List Byte) : (s.arrive b).cur = s.cur := rfl
@[simp] theorem State.arrive_result (s : State) (b : List Byte) : (s.arrive b).result = s.result := rfl
@[simp] theorem State.arrive_out (s : State) (b : List Byte) : (s.arrive b).out = s.out := rfl
@[simp] theorem State.arrive_obuf (s : State) (b : List Byte) : (s.arrive b).obuf = s.obuf := rfl
@[simp] theorem State.arrive_olen (s : State) (b : List Byte) : (s.arrive b).olen = s.olen := rfl
@[simp] theorem State.arrive_cfg (s : State) (b : List Byte) : (s.arrive b).cfg = s.cfg := rfl
@[simp] theorem State.arrive_configured (s : State) (b : List Byte) : (s.arrive b).configured = s.configured := rfl
@[simp] theorem State.arrive_window (s : State) (b : List Byte) : (s.arrive b).window = s.window := rfl
@[simp] theorem State.arrive_refTime (s : State) (b : List Byte) : (s.arrive b).refTime = s.refTime := rfl
@[simp] theorem State.arrive_lk (s : State) (b : List Byte) : (s.arrive b).lk = s.lk := rfl
@[simp] theorem State.arrive_cs (s : State) (b : List Byte) : (s.arrive b).cs = s.cs := rfl
@[simp] theorem State.arrive_is (s : State) (b : List Byte) : (s.arrive b).is = s.is := rfl
@[simp] theorem State.arrive_port (s : State) (b : List Byte) : (s.arrive b).port = s.port := rfl
@[simp] theorem State.arrive_ret (s : State) (b : List Byte) : (s.arrive b).ret = s.ret := rfl
@[simp] theorem State.arrive_free (s : State) (b : List Byte) : (s.arrive b).free = s.free := rfl

@[simp] theorem State.plain_msg (s : State) (m : Message) : (s.plain m).msg = m := rfl
@[simp] theorem State.plain_lk (s : State) (m : Message) : (s.plain m).lk = s.lk := rfl
@[simp] theorem State.plain_cs (s : State) (m : Message) : (s.plain m).cs = s.cs := rfl
@[simp] theorem State.plain_is (s : State) (m : Message) : (s.plain m).is = s.is := rfl

@[simp] theorem FrameGroup.after_noFrame (f : FrameGroup) : f.after .noFrame = { f with valid := false } := rfl
@[simp] theorem FrameGroup.after_cond (f : FrameGroup) (c : Cond) : f.after (.cond c) = { f with valid := false } := rfl
@[simp] theorem FrameGroup.after_frame (f : FrameGroup) (p len : Nat) (crc : BitVec 24) :
    f.after (.frame p len crc) = { f with valid := true, pos := p, length := BitVec.ofNat 10 len, crc := crc } := rfl

/-- No condition has the code OK (R345). -/
theorem Cond.code_ne_ok (c : Cond) : c.code ≠ .ok := by cases c <;> simp [Cond.code]

@[simp] theorem NetState.get_set_same (m : NetState) (e : Entry) (k : CacheKind) : (m.set e k).get k = e := by
  cases k <;> rfl

theorem NetState.get_set_ne (m : NetState) (e : Entry) (k k' : CacheKind) (h : k' ≠ k) : (m.set e k).get k' = m.get k' := by
  cases k <;> cases k' <;> first | rfl | exact absurd rfl h

@[simp] theorem NetState.fresh_get (k : CacheKind) : NetState.fresh.get k = Entry.fresh := by cases k <;> rfl

end Sys2Proof.Machine
end

