-- ==== Sys2Proof/Safety.lean ====
section
/-! DEFINITION. What a safe state is: the invariant of one decoding context; and the terms the statements use: how an operation
ends, where the fields of a message stand in the payload, what the configuration checks mean. -/

namespace Sys2Proof.Machine

/-- The keys of a register file stand in strictly rising order: no key twice (log 35). -/
def sortedKeys {κ ν : Type} (lt : κ → κ → Bool) (m : List (κ × ν)) : Prop := m.Pairwise (fun a b => lt a.1 b.1 = true)

/-- An entry of the correction state (R43): Empty has neither epoch nor records, every other state has an epoch. -/
def Entry.ok (e : Entry) : Prop :=
  (e.st = .empty → e.epoch = none ∧ e.ent = []) ∧ (e.st ≠ .empty → e.epoch.isSome = true) ∧ sortedKeys entryLt e.ent

/-- Every kind of a network's state. -/
def NetState.ok (m : NetState) : Prop := ∀ k, (m.get k).ok

/-- An entry of the integrity state (R336): it has an epoch, and one part per message type. -/
def IEntry.ok (e : IEntry) : Prop := e.epoch.isSome = true ∧ sortedKeys integLt e.parts

/-- The three caches: keys in order, entries as R43 and R336 leave them. -/
structure CachesOk (lk : LockCache) (cs : CorrState) (is : IntegState) : Prop where
  lk_sorted : sortedKeys lockLt lk
  cs_sorted : sortedKeys intLt cs
  cs_ok : ∀ x ∈ cs, x.2.ok
  is_sorted : sortedKeys intLt is
  is_ok : ∀ x ∈ is, x.2.ok

/-- A byte memory in canonical form that lists only addresses below a length. -/
structure MemoryOk (m : Memory) (len : Nat) : Prop where
  wf : Memory.wf m = true
  inside : ∀ c ∈ m, c.1 < len

/-- The bytes `F` describes are a frame of STREAM whose CRC matches (R24). -/
structure FrameOk (s : State) : Prop where
  inside : s.f.pos + s.f.length.toNat + 6 ≤ s.slen
  crc : frameCrc s s.f.pos s.f.length.toNat = s.f.crc
  trailing : Memory.read24 s.stream (s.f.pos + 3 + s.f.length.toNat) = s.f.crc

/-- The invariant of a decoding context (R22, R24, R25, R43, R163, R388). -/
structure State.Inv (s : State) : Prop where
  stream_ok : MemoryOk s.stream s.slen
  obuf_ok : MemoryOk s.obuf s.olen
  scan_le : s.scan ≤ s.slen
  cur_le : s.cur.off ≤ s.cur.bitlen
  frame_ok : s.f.valid = true → FrameOk s
  frame_window : s.f.valid = true → s.window = false
  config_ok : s.configured = true → cfgAccepted s.cfg = true
  caches_ok : CachesOk s.lk s.cs s.is

/-- An operation answers a next state. -/
def Answers (o : Out) : Prop := ∃ t, o = .next t

/-! ## How an operation ends -/

/-- The end of an operation of a unit in a value (R16, R26): the configuration window is closed (R388), the model's free counter moves
on (log 11). -/
def State.answers (s : State) (r : RetVal) : State :=
  { s with window := false, result := ⟨.ok, .zero⟩, ret := r, free := s.free + 1 }

/-- The end of an operation of a unit in a condition (R355); the model's free counter moves on (logs 10, 11). -/
def State.stops (s : State) (c : Code) (x : Info) : State :=
  { s with window := false, result := ⟨c, x⟩, ret := .none, free := s.free + 1 }

/-- The cursor `n` bits further (R125). -/
def State.past (s : State) (n : Nat) : State := { s with cur := { s.cur with off := s.cur.off + n } }

/-- The host operations that read no CFG (R382): they need no configuration, and but for RESET they leave the configuration window
as it is (R388). -/
def needsNoConfig (i : Instr) : Bool :=
  match i with
  | .reset | .hostConfig _ | .hostLoad _ _ | .hostSetRefTime _ | .hostEvict _ | .hostEvictProvider _ | .hostRead _ _ => true
  | _ => false

/-! ### Which instructions may write a register -/

/-- The instructions that run whatever message they find, and RESET. -/
def anyMessage (i : Instr) : Bool :=
  match i with
  | .reset | .decodeOne | .frame _ _ _ | .dispatch => true
  | _ => false

/-- The writers of LK (R40, R319): LOCK_CHECK and the observation messages. -/
def writesLk (i : Instr) : Bool :=
  anyMessage i ||
    match i, i.wireClass with
    | .lockCheck _ _ _, _ => true
    | _, .handler (.msm _ _) => true
    | _, _ => false

/-- The writers of CS (R42, R300, R319): CACHE_UPDATE, HOST_EVICT and the correction messages. -/
def writesCs (i : Instr) : Bool :=
  anyMessage i ||
    match i, i.wireClass with
    | .cacheUpdate _ _ _ _ _, _ => true
    | .hostEvict _, _ => true
    | _, .handler (.ssr _ _) => true
    | _, .handler .igs => true
    | _, .handler .gridTropo => true
    | _, .handler .gridIono => true
    | _, .test _ _ => true
    | _, _ => false

/-- The writers of IS (R48, R336): IS_UPDATE, HOST_EVICT_PROVIDER and the integrity messages. -/
def writesIs (i : Instr) : Bool :=
  anyMessage i ||
    match i, i.wireClass with
    | .isUpdate _ _ _ _, _ => true
    | .hostEvictProvider _, _ => true
    | _, .integ _ => true
    | _, _ => false

/-- The writers of F (R23): FIND_FRAME and what runs it, DISPATCH for the type, HOST_LOAD for its validity (R214). -/
def writesF (i : Instr) : Bool :=
  anyMessage i ||
    match i with
    | .findFrame _ => true
    | .hostLoad _ _ => true
    | _ => false

/-- The writers of CUR (R25): CUR_INIT, the reads and writes, the message rows but RAW (R201), and the reverse path. -/
def writesCur (i : Instr) : Bool :=
  anyMessage i ||
    match i, i.wireClass with
    | .curInit _ _ _, _ => true
    | .readU _, _ => true
    | .readS _, _ => true
    | .readBytes _, _ => true
    | .writeU _ _ _, _ => true
    | .writeS _ _ _, _ => true
    | .writeBytes _, _ => true
    | .readField _, _ => true
    | .readMask _ _ _, _ => true
    | .readHeader _, _ => true
    | .encodeOne _, _ => true
    | _, .handler _ => true
    | _, .test _ _ => true
    | _, .integ _ => true
    | _, _ => false

/-- The values R55 gives right after reset. -/
structure ResetValues (t : State) : Prop where
  scan : t.scan = 0
  valid : t.f.valid = false
  cur_len : t.cur.bitlen = 0
  cur_off : t.cur.off = 0
  result : t.result = ⟨.ok, .zero⟩
  out : t.out = none
  obuf : t.obuf = [] ∧ t.olen = 0
  configured : t.configured = false
  policies : t.cfg.iodPolicy = .lenient ∧ t.cfg.lockEqRaises = true ∧ t.cfg.oldEpochPolicy = .drop
  refTime : t.refTime = none
  caches : t.lk = [] ∧ t.cs = [] ∧ t.is = []

/-- A handler that ends in a condition: the cursor stays where the reading ended (R356), and nothing else changes (R310, R355). -/
def State.stopsAt (s : State) (x : Cond × Nat) : State :=
  State.stops { s with cur := { s.cur with off := x.2 } } x.1.code (x.1.info s.free)

/-! ## The CRC (R145) -/

/-- The bits of some bytes, the most significant of each first. -/
def bitList (data : List Byte) : List Bool := data.flatMap fun b => (List.range 8).map b.getMsbD

/-- One step of long division by `x^24 + poly`: the next coefficient comes in, and the generator is taken away where `x^24` goes out. -/
def divStep (poly r : BitVec 24) (b : Bool) : BitVec 24 :=
  ((r <<< 1) ||| (if b then 1 else 0)) ^^^ (if r.getMsbD 0 then poly else 0)

/-- The remainder by `x^24 + poly` of the polynomial whose coefficients are some bits, highest first. -/
def remainder (poly : BitVec 24) (bits : List Bool) : BitVec 24 := bits.foldl (divStep poly) 0

/-- The coefficients of `M(x) · x^24`, with the initial value added to the highest 24. -/
def dividend (init : BitVec 24) (data : List Byte) : List Bool :=
  List.zipWith xor (bitList data ++ List.replicate 24 false) ((List.range 24).map init.getMsbD ++ List.replicate (8 * data.length) false)

/-! ## Candidates and frames (R73, R141, R146) -/

/-- `p` is the first byte at or after `start` that equals the preamble. -/
def FirstCandidate (s : State) (start p : Nat) : Prop :=
  start ≤ p ∧ p < s.slen ∧ Memory.get s.stream p = s.cfg.preamble ∧
    ∀ x, start ≤ x → x < p → Memory.get s.stream x ≠ s.cfg.preamble

/-- No byte at or after `start` equals the preamble. -/
def NoCandidate (s : State) (start : Nat) : Prop :=
  ∀ x, start ≤ x → x < s.slen → Memory.get s.stream x ≠ s.cfg.preamble

/-- The length field of the candidate at `p` (R73): the low two bits of one byte and the next byte. -/
def lengthField (s : State) (p : Nat) : Nat :=
  (Memory.get s.stream (p + 1)).toNat % 4 * 256 + (Memory.get s.stream (p + 2)).toNat

/-- The three bytes after the payload of a frame at `p` of length `len`, as one number, first byte most significant (R67). -/
def trailingField (s : State) (p len : Nat) : Nat :=
  (Memory.get s.stream (p + 3 + len)).toNat * 65536 + (Memory.get s.stream (p + 4 + len)).toNat * 256 +
    (Memory.get s.stream (p + 5 + len)).toNat

/-- A whole frame with a matching CRC stands at `p` (R24). -/
def FrameAt (s : State) (p len : Nat) : Prop :=
  Memory.get s.stream p = s.cfg.preamble ∧ lengthField s p = len ∧ p + len + 6 ≤ s.slen ∧
    (frameCrc s p len).toNat = trailingField s p len

/-- `F` after the frame at `p` was accepted (R146). -/
def acceptedFrame (s : State) (p len : Nat) : FrameGroup :=
  { s.f with valid := true, pos := p, length := BitVec.ofNat 10 len, crc := frameCrc s p len }

/-! ## Where the fields of a message stand -/

/-- Bit `k` of the cursor's span (R11). -/
def curBit (s : State) (k : Nat) : Nat := (s.curByte (k / 8)).toNat / 2 ^ (7 - k % 8) % 2

/-- The unsigned value of `w` bits from bit `off` (R13): the first bit has weight `2 ^ (w - 1)`. -/
def bitsAt (s : State) (off w : Nat) : Nat := ((List.range w).map (fun j => curBit s (off + j) * 2 ^ (w - 1 - j))).sum

/-- The two's complement value of `w` bits (R13). -/
def signedValue (w v : Nat) : Int := if 2 ^ (w - 1) ≤ v then (v : Int) - 2 ^ w else v

/-- The next `n` bits lie in the cursor's span. -/
def Fits (s : State) (n : Nat) : Prop := s.cur.off + n ≤ s.cur.bitlen

/-- The field `d` at bit `off` (R105). -/
def fieldAt (s : State) (off : Nat) (d : FieldDesc) : RawField :=
  let bits := bitsAt s off d.width
  let raw : Int := if d.signed then signedValue d.width bits else bits
  ⟨d.name, bits, raw, if d.na = some raw then .na else .scaled raw d.scale⟩

/-- The fields of a list from bit `off` on (R104). -/
def fieldsAt (s : State) : Nat → List FieldDesc → List RawField
  | _, [] => []
  | off, d :: ds => fieldAt s off d :: fieldsAt s (off + d.width) ds

/-- The bits of a list of fields. -/
def widthOf (ds : List FieldDesc) : Nat := (ds.map (·.width)).sum

/-- The indices of the mask of width `width` at bit `off` (R106, R175, R176): its `k`-th index is bit `k` of the field, counted from
the first bit or from the last. -/
def maskAt (s : State) (f : MaskId) (m : MaskDesc) (off : Nat) : List Nat :=
  ((List.range m.width).filter (fun k =>
    decide (curBit s (match maskOrderOf s.cfg f with | .msb => off + k | .lsb => off + (m.width - 1 - k)) = 1))).map (· + m.offset)

/-- The blocks of an observation from bit `off` on, field-major, `n` values each (R240, R241). -/
def blocksAt (s : State) (n : Nat) : Nat → List (MsmBlock × FieldDesc) → List BlockData
  | _, [] => []
  | off, x :: xs =>
    ⟨x.1, (List.range n).map (fun i => fieldAt s (off + i * x.2.width) x.2)⟩ :: blocksAt s n (off + n * x.2.width) xs

/-- One bias sub-record at bit `off` (R276, R277): every slot field has a signal, and the last of them counts (log 44). -/
def subAt (s : State) (c : Constellation) (ds : List FieldDesc) (off : Nat) : Option (SignalCode × Fields) :=
  let fs := fieldsAt s off ds
  let slots := (fs.filter (fun f => decide (f.name = .slot))).map (fun f => (signalOf s.cfg .ssrSig c f.raw).toOption)
  match slots.getLast? with
  | some (some g) => if slots.all Option.isSome then some (g, fieldsOf fs) else none
  | _ => none

/-- `m` bias sub-records from bit `off` on. -/
def subsAt (s : State) (c : Constellation) (ds : List FieldDesc) : Nat → Nat → Option (List (SignalCode × Fields))
  | _, 0 => some []
  | off, m + 1 =>
    match subAt s c ds off, subsAt s c ds (off + widthOf ds) m with
    | some x, some xs => some (x :: xs)
    | _, _ => none

/-- The signal count and the sub-records at bit `off`, with their bits. -/
def countedSubsAt (s : State) (c : Constellation) (lay : SsrLayout) (off : Nat) : Option (List (SignalCode × Fields) × Nat) :=
  match lay.nsig with
  | none => none
  | some d =>
    (subsAt s c lay.subrecord (off + d.width) (fieldAt s off d).raw.toNat).map fun l =>
      (l, d.width + (fieldAt s off d).raw.toNat * widthOf lay.subrecord)

/-- The record of a kind at bit `off` (R271 to R278), with its bits. -/
def recordAt (s : State) (c : Constellation) (lay : SsrLayout) (yawFlag : Bool) (off : Nat) : SsrKind → Option (Record × Nat)
  | .combined =>
    some (.combined (withQuality s.cfg (fieldsAt s off lay.record))
      (withQuality s.cfg (fieldsAt s (off + widthOf lay.record) lay.clockRecord)), widthOf lay.record + widthOf lay.clockRecord)
  | .codebias => (countedSubsAt s c lay off).map fun l => (.code (codeMap l.1), l.2)
  | .phasebias =>
    match yawFlag, lay.yaw with
    | true, some (y, r) =>
      (countedSubsAt s c lay (off + (y.width + r.width))).map fun l =>
        (.phase (fieldAt s off y).val (fieldAt s (off + y.width) r).val (phaseMap l.1), y.width + r.width + l.2)
    | _, _ => (countedSubsAt s c lay off).map fun l => (.phase .na .na (phaseMap l.1), l.2)
  | _ => some (.vals (withQuality s.cfg (fieldsAt s off lay.record)), widthOf lay.record)

/-- `nsat` satellite records from bit `off` on (R265, R269), with their bits. -/
def satRecordsAt (s : State) (fam : Family) (c : Constellation) (k : SsrKind) (lay : SsrLayout) (yawFlag : Bool) :
    Nat → Nat → Option (List (EntryKey × Record) × Nat)
  | _, 0 => some ([], 0)
  | off, nsat + 1 =>
    match satOfSvid s.cfg fam c (fieldAt s off lay.svid).raw, recordAt s c lay yawFlag (off + lay.svid.width) k with
    | .ok sat, some (r, n) =>
      (satRecordsAt s fam c k lay yawFlag (off + (lay.svid.width + n)) nsat).map fun l =>
        ((.sat sat, r) :: l.1, lay.svid.width + n + l.2)
    | _, _ => none

/-- The items of a station record from bit `off` on (R206): a counted string is its count and then that many bytes, at whatever bit
they begin (R128). -/
def stationAt (s : State) : Nat → List StaItem → List (FieldName × StaVal) × Nat
  | _, [] => ([], 0)
  | off, .field d :: is =>
    let r := stationAt s (off + d.width) is
    ((d.name, .num (fieldAt s off d).val) :: r.1, d.width + r.2)
  | off, .str name c :: is =>
    let n := (fieldAt s off c).raw.toNat
    let r := stationAt s (off + (c.width + 8 * n)) is
    ((name, .bytes ((List.range n).map fun i => BitVec.ofNat 8 (bitsAt s (off + c.width + 8 * i) 8))) :: r.1,
      c.width + 8 * n + r.2)

/-- The residual block at bit `off` of a grid message for grid `n` with header `hdr` (R281), with its bits. -/
def residAt (s : State) (lay : GridLayout) (n : NetworkId) (hdr : List RawField) (off : Nat) : Option (List Value × Nat) :=
  match lay.resid with
  | none => some ([], 0)
  | some rl =>
    let o1 := off + rl.present.width
    let o2 := o1 + rl.widthCode.width
    let o3 := o2 + rl.scaleCode.width
    if (fieldAt s off rl.present).raw = 0 then some ([], rl.present.width)
    else
      match rl.width.lookup (fieldAt s o1 rl.widthCode).raw, rl.scale.lookup (fieldAt s o2 rl.scaleCode).raw,
        npointsOf lay n hdr with
      | some w, some sf, some npoints =>
        some ((List.range npoints).map (fun i => if w = 0 then .na else (fieldAt s (o3 + i * w) (residDesc rl w sf)).val),
          rl.present.width + rl.widthCode.width + rl.scaleCode.width + npoints * w)
      | _, _, _ => none

/-- `nsat` satellite records of a grid message from bit `off` on (R280), with their bits. -/
def gridSatsAt (s : State) (lay : GridLayout) (g : GridSat) (n : NetworkId) (hdr : List RawField) : Nat → Nat →
    Option (List (EntryKey × Record) × Nat)
  | _, 0 => some ([], 0)
  | off, nsat + 1 =>
    match satOfSvid s.cfg .grid g.cons (fieldAt s off g.svid).raw,
      residAt s lay n hdr (off + g.svid.width + widthOf lay.record) with
    | .ok sat, some (l, b) =>
      (gridSatsAt s lay g n hdr (off + (g.svid.width + widthOf lay.record + b)) nsat).map fun r =>
        ((.sat sat, .gridSat (withQuality s.cfg (fieldsAt s (off + g.svid.width) lay.record)) l) :: r.1,
          g.svid.width + widthOf lay.record + b + r.2)
    | _, _ => none

/-- The records of a grid message from bit `off` on (R279, R280), with their bits. -/
def gridAt (s : State) (lay : GridLayout) (n : NetworkId) (hdr : List RawField) (off : Nat) :
    Option (List (EntryKey × Record) × Nat) :=
  match lay.perSat with
  | some g => (countOf .nsat hdr).bind (gridSatsAt s lay g n hdr off)
  | none =>
    (residAt s lay n hdr (off + widthOf lay.record)).map fun r =>
      ((.model, .vals (withQuality s.cfg (fieldsAt s off lay.record))) ::
        r.1.zipIdx.map (fun x => (.point x.2, .resid x.1)), widthOf lay.record + r.2)

/-- The key of a message in the correction state (R45, R267, R279). -/
def messageKey (h : CorrHandler) (fs : List RawField) : NetworkId :=
  let network := rawOf .networkId fs
  let grid := rawOf .gridId fs
  ((if h = .gridTropo ∨ h = .gridIono then grid.or network else network.or grid)).getD 0

/-- The header of a correction message at bit `off` in a context with a reference time (R265 to R267). -/
structure HeaderAt (s : State) (h : CorrHandler) (ds : List FieldDesc) (off : Nat) (p : CorrPrep) : Prop where
  fields : p.fields = fieldsAt s off ds
  network : p.network = messageKey h p.fields
  epoch : ∃ raw ref, rawOf .epoch p.fields = some raw ∧ s.refTime = some ref ∧ p.epoch = epochOf s.cfg (.corr h) raw ref
  multi : ∃ mm, rawOf .mm p.fields = some mm ∧
    p.hdr = ⟨codeOf .iod p.fields, codeOf .udi p.fields, codeOf .provider p.fields, codeOf .solution p.fields, decide (mm = 1)⟩

/-- A satellite message at bit `off` (R265, R269): its header, its records and its bits. -/
structure CorrectionAt (s : State) (h : CorrHandler) (fam : Family) (c : Constellation) (k : SsrKind) (lay : SsrLayout) (off : Nat)
    (p : CorrPrep) (recs : List (EntryKey × Record)) (bits : Nat) : Prop where
  header : HeaderAt s h lay.header off p
  records : ∃ nsat n, countOf .nsat p.fields = some nsat ∧
    satRecordsAt s fam c k lay (decide (rawOf .yawFlag p.fields = some 1)) (off + widthOf lay.header) nsat = some (recs, n) ∧
    bits = widthOf lay.header + n

/-- The end of a correction message that the issue-of-data check let pass (R265, R268): the updates of its cache kinds, and the
report. -/
def State.corrected (s : State) (h : CorrHandler) (pre : Option Fields) (p : CorrPrep) (kinds : List CacheKind)
    (recs : List (EntryKey × Record)) (flag : Bool) : State :=
  let r := updateKinds s.cfg p.network p.epoch p.hdr recs kinds s.cs
  { s.answers (.message (.correction ⟨h, pre, p.network, fieldsOf p.fields, recs, r.2, flag⟩)) with cs := r.1 }

/-! ## What a handler does in order (R347, R356) -/

/-- One thing a handler does with the bits under the cursor: it reads some, or it needs something of what it has read. -/
inductive Event where
  | read (w : Nat)
  | need (r : Except Cond Unit)

/-- A conversion that may raise. -/
def mustBe {α : Type} (r : Except Cond α) : Event := .need (r.map fun _ => ())

/-- An entry that must be there (R8), or the reference time (R31). -/
def mustHave {α : Type} (o : Option α) : Event := .need (match o with | none => .error (.usage none) | some _ => .ok ())

/-- An entry that must be there, missed with the argument it is there for (R8, R346). -/
def mustHaveFor {α : Type} (x : UsageArg) (o : Option α) : Event :=
  .need (match o with | none => .error (.usage (some x)) | some _ => .ok ())

/-- The bits some events take. -/
def eventBits (es : List Event) : Nat := (es.map fun e => match e with | .read w => w | .need _ => 0).sum

/-- The first condition of some events from bit `off` of a span of `len` bits on, with the cursor where it is raised: a read the span
does not hold (R123), or a need that is not met, at the bit the reading has come to (R356). -/
def firstStop (len : Nat) : Nat → List Event → Option (Cond × Nat)
  | _, [] => none
  | off, .read w :: es => if len < off + w then some (.truncatedRead off w, off) else firstStop len (off + w) es
  | off, .need (.error c) :: _ => some (c, off)
  | off, .need (.ok ()) :: es => firstStop len off es

/-- The reads of a list of fields. -/
def fieldEvents (ds : List FieldDesc) : List Event := ds.map fun d => .read d.width

/-- The reads of a mask (R180). -/
def maskEvents (w : Nat) : List Event := (maskChunks w).map .read

/-- An ephemeris (R220, R31, R223). -/
def ephEvents (s : State) (c : Constellation) (lay : EphLayout) : List Event :=
  let fs := fieldsAt s s.cur.off lay.header
  fieldEvents lay.header ++
    [mustHave (rawOf .svid fs), mustBe (satOfSvid s.cfg .eph c ((rawOf .svid fs).getD 0))] ++
    match rawOf .weekRaw fs with
    | none => []
    | some raw => [mustHave s.refTime, mustBe (adjustWeekOf s.cfg c raw (s.refTime.getD 0))]

/-- A station message (R206): a string is one block of bytes at an aligned cursor, else as many reads of 8 bits (R128). -/
def stationEvents (s : State) : Nat → List StaItem → List Event
  | _, [] => []
  | off, .field d :: is => .read d.width :: stationEvents s (off + d.width) is
  | off, .str _ c :: is =>
    let n := (fieldAt s off c).raw.toNat
    .read c.width :: (if (off + c.width) % 8 = 0 then [.read (8 * n)] else List.replicate n (.read 8)) ++
      stationEvents s (off + (c.width + 8 * n)) is

/-- An observation message (R235 to R241): both masks, then the satellites, then the signals; the presence row at the blocks. -/
def msmEvents (s : State) (c : Constellation) (v : MsmVariant) (lay : MsmLayout) : List Event :=
  let o1 := s.cur.off + widthOf lay.header
  let svids := maskAt s (.msm c v .sat) lay.satMask o1
  let slots := maskAt s (.msm c v .sig) lay.sigMask (o1 + lay.satMask.width)
  let n := svids.length * slots.length
  let cells := maskAt s (.msm c v .cell) ⟨n, 0⟩ (o1 + lay.satMask.width + lay.sigMask.width)
  let present := (s.cfg.msmPresent.lookup v).getD []
  fieldEvents lay.header ++ maskEvents lay.satMask.width ++ maskEvents lay.sigMask.width ++
    svids.map (fun svid => mustBe (satOfSvid s.cfg .msm c svid)) ++
    slots.map (fun slot => mustBe (signalOf s.cfg .msmSig c slot)) ++
    if n = 0 then []
    else
      maskEvents n ++ mustHave (s.cfg.msmPresent.lookup v) ::
        (presentFields present lay.satFields).flatMap (fun x => List.replicate svids.length (.read x.2.width)) ++
        (presentFields present lay.sigFields).flatMap (fun x => List.replicate cells.length (.read x.2.width))

/-- One bias sub-record (R276, R277): the slot is converted as soon as it is read, and there is one. -/
def subEvents (s : State) (c : Constellation) (ds : List FieldDesc) : Nat → List FieldDesc → List Event
  | _, [] => [mustHave (descOf .slot ds)]
  | off, d :: more =>
    .read d.width :: (if d.name = .slot then [mustBe (signalOf s.cfg .ssrSig c (fieldAt s off d).raw)] else []) ++
      subEvents s c ds (off + d.width) more

/-- Some bias sub-records. -/
def subsEvents (s : State) (c : Constellation) (ds : List FieldDesc) : Nat → Nat → List Event
  | _, 0 => []
  | off, m + 1 => subEvents s c ds off ds ++ subsEvents s c ds (off + widthOf ds) m

/-- The signal count and the sub-records. -/
def countedSubsEvents (s : State) (c : Constellation) (lay : SsrLayout) (off : Nat) : List Event :=
  match lay.nsig with
  | none => [mustHave lay.nsig]
  | some d => .read d.width :: subsEvents s c lay.subrecord (off + d.width) (fieldAt s off d).raw.toNat

/-- The record of a kind after the satellite id (R271 to R278). -/
def recordEvents (s : State) (c : Constellation) (lay : SsrLayout) (yawFlag : Bool) (off : Nat) : SsrKind → List Event
  | .combined => fieldEvents lay.record ++ fieldEvents lay.clockRecord
  | .codebias => countedSubsEvents s c lay off
  | .phasebias =>
    match yawFlag, lay.yaw with
    | true, some (y, r) => .read y.width :: .read r.width :: countedSubsEvents s c lay (off + (y.width + r.width))
    | _, _ => countedSubsEvents s c lay off
  | _ => fieldEvents lay.record

/-- Some satellites of a correction message (R265, R269). -/
def satEvents (s : State) (fam : Family) (c : Constellation) (k : SsrKind) (lay : SsrLayout) (yawFlag : Bool) : Nat → Nat → List Event
  | _, 0 => []
  | off, nsat + 1 =>
    let es := .read lay.svid.width :: mustBe (satOfSvid s.cfg fam c (fieldAt s off lay.svid).raw) ::
      recordEvents s c lay yawFlag (off + lay.svid.width) k
    es ++ satEvents s fam c k lay yawFlag (off + eventBits es) nsat

/-- The header of a correction message (R265, R266, R31). -/
def headerEvents (s : State) (ds : List FieldDesc) (off : Nat) : List Event :=
  let fs := fieldsAt s off ds
  fieldEvents ds ++ [mustHave (rawOf .epoch fs), mustHave (rawOf .mm fs), mustHave s.refTime]

/-- The issue-of-data check of a correction message (R283), whose only condition is the strict policy's. -/
def iodEvent (s : State) (h : CorrHandler) (ds : List FieldDesc) (off : Nat) (kinds : List CacheKind) : Event :=
  let fs := fieldsAt s off ds
  mustBe (iodCheckOf s.cfg s.cs (messageKey h fs) kinds
    (epochOf s.cfg (.corr h) ((rawOf .epoch fs).getD 0) (s.refTime.getD 0)) (codeOf .iod fs))

/-- A satellite message at bit `off` (R265 to R278, R283). -/
def correctionEvents (s : State) (h : CorrHandler) (fam : Family) (c : Constellation) (k : SsrKind) (lay : SsrLayout) (off : Nat) :
    List Event :=
  let fs := fieldsAt s off lay.header
  headerEvents s lay.header off ++ [mustHave (rawOf .nsat fs)] ++
    satEvents s fam c k lay (decide (rawOf .yawFlag fs = some 1)) (off + widthOf lay.header) ((countOf .nsat fs).getD 0) ++
    [iodEvent s h lay.header off (cacheKindsOf k)]

/-- A residual block (R281). -/
def residEvents (s : State) (lay : GridLayout) (n : NetworkId) (hdr : List RawField) (off : Nat) : List Event :=
  match lay.resid with
  | none => []
  | some rl =>
    let o1 := off + rl.present.width
    let width := rl.width.lookup (fieldAt s o1 rl.widthCode).raw
    let scale := rl.scale.lookup (fieldAt s (o1 + rl.widthCode.width) rl.scaleCode).raw
    .read rl.present.width ::
      if (fieldAt s off rl.present).raw = 0 then []
      else
        [.read rl.widthCode.width, mustHave width, .read rl.scaleCode.width, mustHave scale, mustHave (npointsOf lay n hdr)] ++
          if width = some 0 then [] else List.replicate ((npointsOf lay n hdr).getD 0) (.read (width.getD 0))

/-- Some satellites of a grid message (R280). -/
def gridSatEvents (s : State) (lay : GridLayout) (g : GridSat) (n : NetworkId) (hdr : List RawField) : Nat → Nat → List Event
  | _, 0 => []
  | off, nsat + 1 =>
    let es := .read g.svid.width :: mustBe (satOfSvid s.cfg .grid g.cons (fieldAt s off g.svid).raw) :: fieldEvents lay.record ++
      residEvents s lay n hdr (off + (g.svid.width + widthOf lay.record))
    es ++ gridSatEvents s lay g n hdr (off + eventBits es) nsat

/-- A grid message at bit `off` (R279 to R281, R283). -/
def gridEvents (s : State) (h : CorrHandler) (k : CacheKind) (lay : GridLayout) (off : Nat) : List Event :=
  let fs := fieldsAt s off lay.header
  let o1 := off + widthOf lay.header
  headerEvents s lay.header off ++
    (match lay.perSat with
      | none => fieldEvents lay.record ++ residEvents s lay (messageKey h fs) fs (o1 + widthOf lay.record)
      | some g => mustHave (rawOf .nsat fs) :: gridSatEvents s lay g (messageKey h fs) fs o1 ((countOf .nsat fs).getD 0)) ++
    [iodEvent s h lay.header off [k]]

/-- An IGS message (R285): the prefix and the subtype, then what the subtype selects. -/
def igsEvents (s : State) (px : IgsPrefix) : List Event :=
  let o1 := s.cur.off + widthOf px.pre
  let o2 := o1 + px.subtype.width
  fieldEvents px.pre ++ .read px.subtype.width ::
    match s.cfg.igsSubtypeTable.lookup (fieldAt s o1 px.subtype).raw with
    | none => []
    | some (.ssr c k) =>
      match s.cfg.igsLayout.lookup (c, k) with
      | none => [mustHaveFor (.handler (.igs c k)) (s.cfg.igsLayout.lookup (c, k))]
      | some lay => correctionEvents s (.igs c k) .igs c k lay o2
    | some .gridTropo =>
      match s.cfg.tropoLayout with
      | none => [mustHaveFor (.handler .gridTropo) s.cfg.tropoLayout]
      | some lay => gridEvents s .gridTropo .tropo { lay with perSat := none } o2
    | some .gridIono =>
      match s.cfg.ionoLayout with
      | none => [mustHaveFor (.handler .gridIono) s.cfg.ionoLayout]
      | some lay => gridEvents s .gridIono .iono lay o2

/-! ### Integrity messages (R330 to R334) -/

/-- How far the reading of an integrity message has come: what it has read, the next bit, and what it did. -/
structure Walk where
  part : IntegPart
  off : Nat
  events : List Event

/-- Some events, and what has been read after them. -/
def Walk.go (w : Walk) (es : List Event) (p : IntegPart) : Walk := ⟨p, w.off + eventBits es, w.events ++ es⟩

/-- The header values at bit `off` (R331): an index to look up where the field has a table. -/
def integHeaderAt (s : State) : Nat → List FieldDesc → List (FieldName × IntegHdrVal)
  | _, [] => []
  | off, d :: ds =>
    (d.name,
      match headerTable s.cfg d.name with
      | none => .plain (fieldAt s off d).val
      | some _ => .looked ((lookupIndex s.cfg d (bitsAt s off d.width)).toOption.getD .notProvided)) ::
      integHeaderAt s (off + d.width) ds

/-- The events of the header at bit `off`. -/
def integHeaderEvents (s : State) : Nat → List FieldDesc → List Event
  | _, [] => []
  | off, d :: ds =>
    .read d.width ::
      (match headerTable s.cfg d.name with
        | none => []
        | some _ => [mustBe (lookupIndex s.cfg d (bitsAt s off d.width))]) ++
      integHeaderEvents s (off + d.width) ds

/-- The looked-up values of a record at bit `off` (R331). -/
def valuesAt (s : State) : Nat → List FieldDesc → List (FieldName × IntegVal)
  | _, [] => []
  | off, d :: ds =>
    (d.name, (lookupIndex s.cfg d (bitsAt s off d.width)).toOption.getD .notProvided) :: valuesAt s (off + d.width) ds

/-- The events of a record at bit `off`. -/
def lookupEvents (s : State) : Nat → List FieldDesc → List Event
  | _, [] => []
  | off, d :: ds => .read d.width :: mustBe (lookupIndex s.cfg d (bitsAt s off d.width)) :: lookupEvents s (off + d.width) ds

/-- The record of an element. -/
def elemWalk (s : State) (ds : List FieldDesc) (w : Walk) (e : IntegElem) : Walk :=
  w.go (lookupEvents s w.off ds) { w.part with vals := addVals e (valuesAt s w.off ds) w.part.vals }

/-- A step inside an element. -/
def innerWalk (s : State) (own : IntegElem) (pairs : List IntegElem) (w : Walk) : IntegInner → Walk
  | .record ds => elemWalk s ds w own
  | .each ds => pairs.foldl (elemWalk s ds) w

/-- A step of a constellation (R333, R334). -/
def consWalk (s : State) (key : IntegKey) (lay : IntegLayout) (c : Constellation) (w : Walk) : IntegConsStep → Walk
  | .satMask =>
    match lay.satMask.get c with
    | none => w.go [mustHave (lay.satMask.get c)] w.part
    | some m =>
      let l := (maskAt s (.integ key (.integSat c)) m w.off).map fun v => satOfSvid s.cfg .integ c v
      w.go (maskEvents m.width ++ l.map mustBe) { w.part with sats := w.part.sats ++ [(c, l.filterMap (·.toOption))] }
  | .freqMask =>
    match lay.freqMask.get c with
    | none => w
    | some m =>
      let l := (maskAt s (.integ key (.integFreq c)) m.mask w.off).map fun k => freqItem s.cfg c m.table k
      w.go (maskEvents m.mask.width ++ l.map mustBe) { w.part with freqs := w.part.freqs ++ [(c, l.filterMap (·.toOption))] }
  | .record ds => elemWalk s ds w (.cons c)
  | .eachSat steps =>
    (partSats w.part c).foldl (fun w i => steps.foldl (innerWalk s (.sat c i) (satPairs w.part c i)) w) w
  | .eachFreq steps =>
    (partFreqs w.part c).foldl (fun w f => steps.foldl (innerWalk s (.freq c f) (freqPairs w.part c f)) w) w

/-- A step of a message (R330). -/
def stepWalk (s : State) (key : IntegKey) (lay : IntegLayout) (w : Walk) : IntegStep → Walk
  | .consMask =>
    let ks := maskAt s (.integ key .cons) lay.consMask w.off
    w.go (maskEvents lay.consMask.width ++ ks.map fun (k : Nat) => mustHaveFor (.int k) (lay.consOf.lookup k))
      { w.part with cons := ks.filterMap fun k => lay.consOf.lookup k }
  | .record ds => elemWalk s ds w .message
  | .eachCons steps => w.part.cons.foldl (fun w c => steps.foldl (consWalk s key lay c) w) w

/-- The header at bit `off`, then the layout's steps. -/
def integWalk (s : State) (key : IntegKey) (lay : IntegLayout) (off : Nat) : Walk :=
  let fs := fieldsAt s off lay.header
  lay.body.foldl (stepWalk s key lay)
    ⟨⟨lastOf (integHeaderAt s off lay.header), [], [], [], []⟩, off + widthOf lay.header,
      integHeaderEvents s off lay.header ++
        [mustHaveFor (.int key.type) (rawOf .provider fs), mustHaveFor (.int key.type) (rawOf .epoch fs), mustHave s.refTime]⟩

/-! ## The caches -/

/-- The lock-time counter the rule of R251 takes from a present cell, with the key it belongs to: none where the message has no such
field, or where a rough range of the satellite is its sentinel (R243). -/
def lockAt (d : MsmData) (q : Nat) : Option ((SatIndex × SignalCode) × Nat) :=
  let i := q / d.sigs.length
  match d.sats[i]?, d.sigs[q % d.sigs.length]?, (d.cells.idxOf? q).bind (fun p => (blockVals d.sigData .lockTime)[p]?) with
  | some sat, some g, some f =>
    if d.satData.any (fun x => decide (x.block = .roughRange) && decide ((x.vals[i]?).map (·.val) = some .na)) then none
    else some ((sat, g), f.bits)
  | _, _, _ => none

/-- The record a list of records leaves for a key: the last one (R311). -/
def lastRecord (recs : List (EntryKey × Record)) (key : EntryKey) : Option Record := recs.reverse.lookup key

/-- `cs'` is `cs` with `CS[n][k]` the entry `e` and nothing else changed; a network id that was absent has every other kind
Empty (R301, R309). -/
structure OnlyEntry (cs cs' : CorrState) (n : NetworkId) (k : CacheKind) (e : Entry) : Prop where
  entry : (networkOf cs' n).get k = e
  present : (cs'.lookup n).isSome = true
  kinds : ∀ k', k' ≠ k → (networkOf cs' n).get k' = (networkOf cs n).get k'
  networks : ∀ n', n' ≠ n → cs'.lookup n' = cs.lookup n'

/-- `t1` is before `t2` in the host's order (R36). -/
def Earlier (cfg : Cfg) (t1 t2 : Time) : Prop := 0 < diffSeconds cfg t2 t1

/-- Neither of two times is before the other (R36): with the host's total order, they are one time. -/
def SameTime (cfg : Cfg) (t1 t2 : Time) : Prop := ¬Earlier cfg t1 t2 ∧ ¬Earlier cfg t2 t1

/-- The message's issue-of-data differs from that of the set of kind `k` it joins (R283). -/
def Inconsistent (s : State) (n : NetworkId) (t : Time) (iod : Option HdrCode) (k : CacheKind) : Prop :=
  ∃ m e, s.cs.lookup n = some m ∧ (m.get k).st ≠ .empty ∧ (m.get k).epoch = some e ∧ SameTime s.cfg e t ∧ (m.get k).iod ≠ iod

/-! ## Configurations (R215) -/

/-- Index `i` lies in the sub-range of constellation `c` (R163). -/
def InSubrange (cfg : Cfg) (c : Constellation) (i : Nat) : Prop :=
  ∃ r, cfg.prn.get c = some r ∧ r.base ≤ i ∧ i < r.base + (r.max + 1 - r.min)

/-- Every field descriptor of an SSR or IGS layout. -/
def SsrLayout.descs (l : SsrLayout) : List FieldDesc :=
  l.header ++ l.svid :: l.record ++ l.clockRecord ++ (l.yaw.elim [] fun y => [y.1, y.2]) ++ l.nsig.toList ++ l.subrecord

/-- Every field descriptor of a grid layout. -/
def GridLayout.descs (l : GridLayout) : List FieldDesc :=
  l.header ++ (l.perSat.elim [] fun g => [g.svid]) ++ l.record ++
    (l.resid.elim [] fun r => [r.present, r.widthCode, r.scaleCode])

/-- Every field descriptor of a configuration's layouts. -/
def descriptors (cfg : Cfg) : List FieldDesc :=
  (cfg.msmLayout.flatMap fun x => x.2.header ++ x.2.satFields.map Prod.snd ++ x.2.sigFields.map Prod.snd) ++
  (cfg.ssrLayout.flatMap fun x => SsrLayout.descs x.2) ++ (cfg.igsLayout.flatMap fun x => SsrLayout.descs x.2) ++
  (cfg.igsPrefix.elim [] fun p => p.subtype :: p.pre) ++ (cfg.integPrefix.flatMap fun x => x.2.subtype :: x.2.pre) ++
  (allConstellations.flatMap fun c => (cfg.ephLayout.get c).elim [] (·.header)) ++
  (cfg.staLayout.flatMap fun x => x.2.map fun i => match i with | .field d => d | .str _ c => c) ++
  (cfg.tropoLayout.elim [] GridLayout.descs) ++ (cfg.ionoLayout.elim [] GridLayout.descs) ++
  (cfg.integLayout.flatMap fun x => x.2.header ++ x.2.records)

/-! ## The reverse path -/

/-- A write that succeeds wherever there is room: a legal width, and a value that fits or is truncated (R129, R130, R132). -/
def WItem.writable : WItem → Bool
  | .fail _ => false
  | .field d raw => widthOk d.width && (inFieldRange d.width d.signed raw || decide (d.ovf = .truncate))

/-- The bits of some bytes hold the writes of a list from bit `off` on. -/
def Holds (b : List Byte) : Nat → List WItem → Prop
  | _, [] => True
  | off, .fail _ :: is => Holds b off is
  | off, .field d raw :: is => (ubits (listByte b) off d.width : Int) = raw % 2 ^ d.width ∧ Holds b (off + d.width) is

/-- A write that raises wherever there is room: a condition in its place, or a value of a field of legal width that does not fit and is
not truncated (R132). -/
def WItem.Refused (i : WItem) (c : Cond) : Prop :=
  match i with
  | .fail c' => c = c'
  | .field d raw =>
    widthOk d.width = true ∧ inFieldRange d.width d.signed raw = false ∧ d.ovf = .fail ∧ c = .usage (some (.int raw))

/-- What OBUF holds of a payload of `len` bytes that did not become a frame (log 38): the writes that were done, from byte 3 on, and
nothing else. -/
def Unframed (m : Memory) (len : Nat) (done : List WItem) : Prop :=
  ∃ payload : List Byte, payload.length = len ∧ Holds payload 0 done ∧
    (∀ k, itemBits done ≤ k → bitAt (listByte payload) k = false) ∧
    ∀ a, Memory.get m a = if a < 3 then 0 else payload.getD (a - 3) 0

end Sys2Proof.Machine
end

