-- ==== Sys2Proof/Certificates/Slice0/Obligations.lean ====
section
/-! DEFINITION. The statements for the provers, in the order of the spec's files: reset and configuration, framing, bit reader and
writer, satellites and masks, caches, message handlers, the top level, whole-machine rules. -/

open Sys2Proof Sys2Proof.Machine

/-! ## Reset, configuration, host operations -/

/-- R380 with R55's table, most of whose values are the spec's choice (D38): RESET puts every piece of state to its reset value
and leaves STREAM alone; the state right after reset has these values too. -/
def Obligations.ResetLeavesTheResetValues : Prop :=
  ResetValues State.reset ∧
  ∀ s, ∃ t, exec .reset s = .next t ∧ ResetValues t ∧ t.window = true ∧ t.stream = s.stream ∧ t.slen = s.slen

/-- R215, R388: HOST_CONFIG installs an accepted record inside its window, and otherwise raises UsageError and changes nothing.
The offending argument (R346) is the record. Which records are accepted: AcceptedConfigHasTheRequiredRows,
AcceptedConfigMeetsTheChecks. -/
def Obligations.HostConfigInstallsOrRefuses : Prop :=
  ∀ s cfg,
    (s.window = true → cfgAccepted cfg = true →
      exec (.hostConfig cfg) s = .next { s with cfg := cfg, configured := true, result := ⟨.ok, .zero⟩, ret := .done }) ∧
    ((s.window = false ∨ cfgAccepted cfg = false) →
      exec (.hostConfig cfg) s = .next { s with result := ⟨.usageError, .arg (.config cfg)⟩, ret := .none })

/-- R195, R196, R197, R198, R199: the rows HOST_CONFIG insists on. -/
def Obligations.AcceptedConfigHasTheRequiredRows : Prop :=
  ∀ s cfg t, exec (.hostConfig cfg) s = .next t → t.result.code = .ok →
    t.cfg = cfg ∧
    (∀ c b (v : MsmVariant), cfg.msmBase.get c = some b → cfg.typeTable.lookup (b + v.offset) = some (.msm c v)) ∧
    (∀ c b o k, cfg.ssrBase.get c = some b → o ≤ 6 → cfg.ssrKindOfOffset[o]? = some k →
      cfg.typeTable.lookup (b + o) = some (.ssr c k)) ∧
    (∀ c b, cfg.ephType.get c = some b → cfg.typeTable.lookup b = some (.eph c)) ∧
    (∀ b, cfg.antType = some b → cfg.typeTable.lookup b = some (.sta .ant)) ∧
    (∀ b, cfg.posType = some b → cfg.typeTable.lookup b = some (.sta .pos)) ∧
    (∀ b, cfg.globiasType = some b → cfg.typeTable.lookup b = some (.sta .globias)) ∧
    (∀ b, cfg.igsType = some b → cfg.typeTable.lookup b = some .igs) ∧
    (∀ c b o k, cfg.testBase.get c = some b → cfg.testKindOfOffset.lookup o = some k →
      cfg.typeTable.lookup (b + o) = some (.ssr c k))

/-- R215: the other checks of HOST_CONFIG: widths, sentinels, residual widths and their sentinel, index sub-ranges, integrity tables,
type numbers, the CRC. That a scale must be positive and a type number below 4096 is the model's reading of R104 and R194 (log 43),
that a GPS ephemeris layout of another size than R224's is refused is log 48 (DEDUCED), and that a signed field's sentinel index
counts by its bits is log 27 (DEDUCED). -/
def Obligations.AcceptedConfigMeetsTheChecks : Prop :=
  ∀ s cfg t, exec (.hostConfig cfg) s = .next t → t.result.code = .ok →
    (∀ d ∈ descriptors cfg, 1 ≤ d.width ∧ d.width ≤ 64 ∧ 0 < d.scale ∧
      ∀ v, d.na = some v → if d.signed then -(2 ^ (d.width - 1) : Int) ≤ v ∧ v < 2 ^ (d.width - 1) else 0 ≤ v ∧ v < 2 ^ d.width) ∧
    (∀ g r, (cfg.tropoLayout = some g ∨ cfg.ionoLayout = some g) → g.resid = some r → ∀ x ∈ r.width, x.2 ≤ 64 ∧
      ∀ v, r.na = .value v → x.2 ≠ 0 → -(2 ^ (x.2 - 1) : Int) ≤ v ∧ v < 2 ^ (x.2 - 1)) ∧
    (∀ c c' i, InSubrange cfg c i → InSubrange cfg c' i → c = c') ∧
    (∀ r, cfg.prn.gps = some r → r.base = r.min) ∧
    (∀ l, cfg.ephLayout.gps = some l → 12 + widthOf l.header = 488) ∧
    (∀ x ∈ cfg.integLayout, ∀ d ∈ x.2.records, ∀ idx : Nat, idx < 2 ^ d.width →
      (idx : Int) ≠ d.na.getD (2 ^ d.width - 1) % 2 ^ d.width →
      ∃ tbl q, cfg.integTable.lookup d.name = some tbl ∧ tbl[idx]? = some (some q)) ∧
    (∀ x h, (x, h) ∈ cfg.typeTable → x < 4096 ∧ cfg.typeTable.lookup x = some h) ∧
    cfg.crc.refin = false ∧ cfg.crc.refout = false

/-- R214: HOST_LOAD. -/
def Obligations.HostLoadReplacesTheStream : Prop :=
  ∀ s bytes scan,
    (scan ≤ bytes.length → ∃ m,
      exec (.hostLoad bytes scan) s =
        .next { s with
          stream := m
          slen := bytes.length
          scan := scan
          f := { s.f with valid := false }
          result := ⟨.ok, .zero⟩
          ret := .done } ∧
      ∀ i, i < bytes.length → some (Memory.get m i) = bytes[i]?) ∧
    (bytes.length < scan →
      exec (.hostLoad bytes scan) s =
        .next { s with result := ⟨.usageError, .arg (.int scan)⟩, ret := .none })

/-- R216, R317, R318: HOST_SET_REFTIME writes one register; HOST_READ gives `CS[n][k]`, LK and IS, nothing for an absent network
id, and has no side effect; the two evictions make one id absent and touch nothing else. -/
def Obligations.HostRegisterAndCacheOperations : Prop :=
  ∀ s : State,
    (∀ t, exec (.hostSetRefTime t) s = .next { s with refTime := some t, result := ⟨.ok, .zero⟩, ret := .done }) ∧
    (∀ n k, exec (.hostRead n k) s =
      .next { s with result := ⟨.ok, .zero⟩, ret := .caches ((s.cs.lookup n).map fun m => m.get k) s.lk s.is }) ∧
    (∀ n, ∃ cs', exec (.hostEvict n) s = .next { s with cs := cs', result := ⟨.ok, .zero⟩, ret := .done } ∧
      cs'.lookup n = none ∧ ∀ n', n' ≠ n → cs'.lookup n' = s.cs.lookup n') ∧
    ∀ p, ∃ is', exec (.hostEvictProvider p) s = .next { s with is := is', result := ⟨.ok, .zero⟩, ret := .done } ∧
      is'.lookup p = none ∧ ∀ p', p' ≠ p → is'.lookup p' = s.is.lookup p'

/-- R382 (the spec's decision D38, D39): the block does nothing on its own, and unconfigured it raises UsageError on every
operation but the seven host ones. Only OUT may also change (DECODE_ONE and an arriving frame take its value away, R355, log
42), and the window closes (log 3). -/
def Obligations.UnconfiguredRaisesUsageError : Prop :=
  (∀ s, s.port = [] → step s = .next s) ∧
  ∀ i s, s.configured = false → needsNoConfig i = false → ∃ x o, (o = s.out ∨ o = none) ∧
    exec i s = .next { s.stops .usageError (.arg x) with out := o }

/-- R388, the spec's decision D39: only RESET opens the configuration window, the seven host operations keep it, every other
operation closes it, and in a closed window HOST_CONFIG raises UsageError and changes nothing; RESET empties the caches. That an
operation closes the window even where it raises, in an unconfigured block too, and that FRAME and the message rows issued alone
close it, is the model's reading (DEDUCED, log 3). -/
def Obligations.ConfigurationWindowRule : Prop :=
  (∀ i s t, exec i s = .next t → (t.window = true ↔ i = .reset ∨ (s.window = true ∧ needsNoConfig i = true))) ∧
  (∀ cfg s, s.window = false →
    exec (.hostConfig cfg) s = .next { s with result := ⟨.usageError, .arg (.config cfg)⟩, ret := .none }) ∧
  (∀ s, ∃ t, exec .reset s = .next t ∧ t.window = true ∧ t.lk = [] ∧ t.cs = [] ∧ t.is = [])

/-- R14, R22, R23, R25, R27, R28, R40, R42, R48, R60, R80, R192, R300, R319, R389: which operations write CFG, STREAM, SCAN, REF_TIME,
OUT, OBUF, F, CUR, LK, CS and IS, over all instructions. A frame arriving at the stream position is the model's rendering of R90
(log 15), and a message row issued alone runs its handler (log 22). -/
def Obligations.EachRegisterHasItsWriters : Prop :=
  ∀ i s t, exec i s = .next t →
    (i ≠ .reset → (∀ cfg, i ≠ .hostConfig cfg) → t.cfg = s.cfg ∧ t.configured = s.configured) ∧
    ((∀ b n, i ≠ .hostLoad b n) → (∀ p b c, i ≠ .frame p b c) → t.stream = s.stream ∧ t.slen = s.slen) ∧
    ((∀ b n, i ≠ .hostLoad b n) → (∀ p b c, i ≠ .frame p b c) → i ≠ .decodeOne → i ≠ .reset → t.scan = s.scan) ∧
    ((∀ x, i ≠ .hostSetRefTime x) → i ≠ .reset → t.refTime = s.refTime) ∧
    ((∀ p b c, i ≠ .frame p b c) → i ≠ .decodeOne → i ≠ .reset → t.out = s.out) ∧
    (i ≠ .reset → (∀ m, i ≠ .encodeOne m) → (∀ b, i ≠ .frameEmit b) → (∀ w v o, i ≠ .writeU w v o) →
      (∀ w v o, i ≠ .writeS w v o) → (∀ b, i ≠ .writeBytes b) → t.obuf = s.obuf) ∧
    (writesF i = false → t.f = s.f) ∧ (writesCur i = false → t.cur = s.cur) ∧ (writesLk i = false → t.lk = s.lk) ∧
    (writesCs i = false → t.cs = s.cs) ∧ (writesIs i = false → t.is = s.is) ∧
    t.port = s.port

/-! ## FrameSync -/

/-- R141: SYNC_SCAN answers the least position of the preamble at or after `start`, or none. For a start beyond the stream, outside
the operand's range, what it answers is open (DESIGN CHOICE, log 18). -/
def Obligations.SyncScanFindsTheLeast : Prop :=
  ∀ s start, s.configured = true → ∃ r, exec (.syncScan start) s = .next (s.answers (.position r)) ∧
    (start ≤ s.slen →
      match r with
      | none => NoCandidate s start
      | some p => FirstCandidate s start p)

/-- R142, R143 (the spec's decision D11), R144: LEN_READ and BOUND_CHECK. -/
def Obligations.LengthAndBoundChecks : Prop :=
  ∀ s p len, s.configured = true →
    (p + 3 ≤ s.slen → exec (.lenRead p) s = .next (s.answers (.nat (lengthField s p)))) ∧
    (s.slen < p + 3 → exec (.lenRead p) s = .next (s.stops .truncatedMessage (.pos p))) ∧
    (p + len + 6 ≤ s.slen → exec (.boundCheck p len) s = .next (s.answers .done)) ∧
    (s.slen < p + len + 6 → exec (.boundCheck p len) s = .next (s.stops .truncatedMessage (.pos p)))

/-- R145: CRC24 is the remainder of `M(x) · x^24` by the generator `x^24 + CFG.CRC.poly`, with the initial value in the highest 24
coefficients and the final XOR; the empty sequence, leading zeros, and the law that data followed by its own CRC leaves the final
XOR alone. -/
def Obligations.Crc24OfDataAndItsCrcIsZero : Prop :=
  ∀ s data, s.configured = true → s.cfg.crc.reflected = false →
    let c := remainder s.cfg.crc.poly (dividend s.cfg.crc.init data) ^^^ s.cfg.crc.xorout
    exec (.crc24 data) s = .next (s.answers (.crc c)) ∧ Sys2Proof.Machine.crc24 s.cfg.crc data = c ∧
    (data = [] → c = s.cfg.crc.init ^^^ s.cfg.crc.xorout) ∧
    (s.cfg.crc.init = 0 → ∀ n,
      exec (.crc24 (List.replicate n 0 ++ data)) s = .next (s.answers (.crc c))) ∧
    exec (.crc24 (data ++ (beBytes 3 (c ^^^ s.cfg.crc.xorout).toNat))) s = .next (s.answers (.crc s.cfg.crc.xorout))

/-- R146: the outcomes of FIND_FRAME, for the first candidate at or after `start`; only F changes. For a start beyond the stream the
candidate is open (DESIGN CHOICE, log 18): it is examined like any other. -/
def Obligations.FindFrameOutcomes : Prop :=
  ∀ s start, s.configured = true → s.cfg.crc.reflected = false →
    (NoCandidate s start → start ≤ s.slen →
      exec (.findFrame start) s = .next { s.answers .noFrame with f := { s.f with valid := false } }) ∧
    (s.slen < start →
      exec (.findFrame start) s = .next { s.answers .noFrame with f := { s.f with valid := false } } ∨
      ∃ p, (s.slen < p + lengthField s p + 6 ∧
          exec (.findFrame start) s = .next { s.stops .truncatedMessage (.pos p) with f := { s.f with valid := false } }) ∨
        (p + lengthField s p + 6 ≤ s.slen ∧ (frameCrc s p (lengthField s p)).toNat ≠ trailingField s p (lengthField s p) ∧
          exec (.findFrame start) s = .next { s.stops .checksumMismatch (.pos p) with f := { s.f with valid := false } }) ∨
        (p + lengthField s p + 6 ≤ s.slen ∧ (frameCrc s p (lengthField s p)).toNat = trailingField s p (lengthField s p) ∧
          exec (.findFrame start) s =
            .next { s.answers (.frame p (lengthField s p)) with f := acceptedFrame s p (lengthField s p) })) ∧
    ∀ p, FirstCandidate s start p →
      (s.slen < p + 3 ∨ s.slen < p + lengthField s p + 6 →
        exec (.findFrame start) s =
          .next { s.stops .truncatedMessage (.pos p) with f := { s.f with valid := false } }) ∧
      (p + lengthField s p + 6 ≤ s.slen →
        (frameCrc s p (lengthField s p)).toNat ≠ trailingField s p (lengthField s p) →
        exec (.findFrame start) s =
          .next { s.stops .checksumMismatch (.pos p) with f := { s.f with valid := false } }) ∧
      (FrameAt s p (lengthField s p) →
        exec (.findFrame start) s =
          .next { s.answers (.frame p (lengthField s p)) with f := acceptedFrame s p (lengthField s p) })

/-- R151: with a generator of more than one term, one flipped payload bit, or any change of the trailing bytes alone, makes
FIND_FRAME reject the frame. -/
def Obligations.CrcGateRejectsMutations : Prop :=
  ∀ s p len, s.configured = true → s.cfg.crc.reflected = false → s.cfg.crc.poly ≠ 0 → FrameAt s p len → ∀ m,
    ((∃ k, k < 8 * len ∧ ∀ a, Memory.get m a =
        if a = p + 3 + k / 8 then Memory.get s.stream a ^^^ (0x80#8 >>> (k % 8)) else Memory.get s.stream a) ∨
      ((∀ a, a < p + 3 + len → Memory.get m a = Memory.get s.stream a) ∧
        ∃ a, p + 3 + len ≤ a ∧ a < p + 6 + len ∧ Memory.get m a ≠ Memory.get s.stream a)) →
    exec (.findFrame p) { s with stream := m } =
      .next { State.stops { s with stream := m } .checksumMismatch (.pos p) with f := { s.f with valid := false } }

/-- R152: FRAME_EMIT writes and answers the frame of a payload, refuses one above 1023 bytes, and the frame is found again. OBUF
beyond the frame keeps its bytes, and its length is the greater of the two (log 38). OBUF is in canonical form, which every step
keeps (StepKeepsTheInvariant). -/
def Obligations.FrameEmitWritesAFrameFoundAgain : Prop :=
  ∀ s payload, s.configured = true → s.cfg.crc.reflected = false → Memory.wf s.obuf = true →
    (1023 < payload.length → exec (.frameEmit payload) s = .next (s.stops .usageError (.arg (.int payload.length)))) ∧
    (payload.length ≤ 1023 → ∃ m,
      let head := s.cfg.preamble :: (beBytes 2 payload.length ++ payload)
      let b := head ++ beBytes 3 (Sys2Proof.Machine.crc24 s.cfg.crc head).toNat
      exec (.frameEmit payload) s =
        .next { s.answers (.bytes b) with obuf := m, olen := max s.olen (payload.length + 6) } ∧
      (∀ a, Memory.get m a = if a < b.length then b.getD a 0 else Memory.get s.obuf a) ∧
      ∀ s' : State, s'.configured = true → s'.cfg = s.cfg → s'.slen = b.length →
        (∀ a, a < b.length → Memory.get s'.stream a = b.getD a 0) →
        ∃ t, exec (.findFrame 0) s' = .next t ∧ t.ret = .frame 0 payload.length ∧ t.f.valid = true ∧ t.payload = payload)

/-! ## Encodings -/

/-- R90, R91: decoding an encoded frame gives it back, whatever follows it. -/
def Obligations.FrameDecodeEncode : Prop :=
  ∀ cfg pad payload crc rest, payload.length ≤ 1023 → ∃ b,
    encode cfg (.frame pad payload crc) = some b ∧ b.length = payload.length + 6 ∧
    decodeFrame cfg (b ++ rest) = .ok (.frame pad payload crc, rest)

/-- R94 to R99, R199: under a configuration HOST_CONFIG accepts, the two bytes that encode a message's type decode to that
message, whatever the rest of the payload holds, its first four bits among them; and every type from the base numbers has an
encoding. -/
def Obligations.MessageTypeDecodeEncode : Prop :=
  ∀ cfg, cfgAccepted cfg = true →
    (∀ i b, encode cfg i = some b → (∀ pad p c, i ≠ .frame pad p c) → ∀ x : Byte, x.toNat < 16 → ∀ rest,
      ∃ b0 b1, b = [b0, b1] ∧ decodeMessage cfg (b0 :: (b1 ||| x) :: rest) = .ok i) ∧
    (∀ c n (v : MsmVariant), cfg.msmBase.get c = some n → (encode cfg (Instr.ofMsm c v)).isSome = true) ∧
    (∀ c n k o, cfg.ssrBase.get c = some n → o ≤ 6 → cfg.ssrKindOfOffset[o]? = some k →
      (encode cfg (Instr.ofSsr c k)).isSome = true) ∧
    (∀ t : BitVec 12, cfg.typeTable.lookup t.toNat = none → (encode cfg (.raw t)).isSome = true)

/-- R94 under the default numbers of G5 (log 33): a few words, written out from the encoding (type 1077 in `43 50`, V48; type 1074; a
frame's first bytes). -/
def Obligations.WrittenWordsDecode : Prop :=
  decodeTableWord 16 1077 = some .msm7Gps ∧ decodeTableWord 16 1074 = some .msm4Gps ∧
  decodeTableWord 16 1019 = some .ephGps ∧ decodeTableWord 16 1057 = some .ssrOrbitGps ∧
  decodeTableWord 16 4076 = some .igs ∧ decodeTableWord 16 1005 = some .staPos ∧
  decodeTableWord 8 0xD3 = some (.frame 0 [] 0)

/-! ## BitReader and BitWriter -/

/-- R120: CUR_INIT over STREAM. Over OBUF the buffer is extended to hold the span, the model's choice (log 16). -/
def Obligations.CurInitSetsTheCursor : Prop :=
  ∀ s base n, s.configured = true →
    (base + n ≤ s.slen → exec (.curInit .stream base n) s = .next { s.answers .done with cur := ⟨.stream, base, n, 0⟩ }) ∧
    (s.slen < base + n → exec (.curInit .stream base n) s = .next (s.stops .usageError (.arg (.span base n)))) ∧
    exec (.curInit .obuf base n) s =
      .next { s.answers .done with cur := ⟨.obuf, base, n, 0⟩, olen := max s.olen (base + n) }

/-- R121, R122, R123, R124 with R13: READ_U and READ_S. "That the cursor is unchanged on failure is the spec's choice" (R123,
D7). Where the span reaches beyond its buffer the byte is open (log 19). -/
def Obligations.ReadsGiveTheFieldsBits : Prop :=
  ∀ s (w : Nat), s.configured = true →
    (w < 1 ∨ 64 < w →
      exec (.readU w) s = .next (s.stops .usageError (.arg (.int w))) ∧
      exec (.readS w) s = .next (s.stops .usageError (.arg (.int w)))) ∧
    (1 ≤ w → w ≤ 64 → s.cur.bitlen < s.cur.off + w →
      exec (.readU w) s = .next (s.stops .truncatedMessage (.bits s.cur.off w)) ∧
      exec (.readS w) s = .next (s.stops .truncatedMessage (.bits s.cur.off w))) ∧
    (1 ≤ w → w ≤ 64 → Fits s w →
      exec (.readU w) s = .next ((s.past w).answers (.nat (bitsAt s s.cur.off w))) ∧ bitsAt s s.cur.off w < 2 ^ w ∧
      exec (.readS w) s = .next ((s.past w).answers (.int (signedValue w (bitsAt s s.cur.off w)))))

/-- R127, R128, R131: READ_BYTES answers the block at an aligned cursor; WRITE_BYTES copies its bytes and no other byte of OBUF
changes; OBUF is in canonical form, which every step keeps. Refusing a cursor that is not aligned is the spec's choice (R128); that
OBUF grows to hold what is written is log 16 (DEDUCED). -/
def Obligations.ByteBlocksAreCopied : Prop :=
  ∀ s n b, s.configured = true → Memory.wf s.obuf = true →
    (s.cur.off % 8 ≠ 0 →
      exec (.readBytes n) s = .next (s.stops .usageError (.arg (.int s.cur.off))) ∧
      exec (.writeBytes b) s = .next (s.stops .usageError (.arg (.int s.cur.off)))) ∧
    (s.cur.off % 8 = 0 → s.cur.bitlen < s.cur.off + 8 * n →
      exec (.readBytes n) s = .next (s.stops .truncatedMessage (.bits s.cur.off (8 * n)))) ∧
    (s.cur.off % 8 = 0 → s.cur.bitlen < s.cur.off + 8 * b.length →
      exec (.writeBytes b) s = .next (s.stops .truncatedMessage (.bits s.cur.off (8 * b.length)))) ∧
    (s.cur.off % 8 = 0 → Fits s (8 * n) → ∃ r,
      exec (.readBytes n) s = .next ((s.past (8 * n)).answers (.bytes r)) ∧ r.length = n ∧
      ∀ i, i < n → r[i]? = some (s.curByte (s.cur.off / 8 + i))) ∧
    (s.cur.off % 8 = 0 → s.cur.space = .obuf → Fits s (8 * b.length) → ∃ m,
      exec (.writeBytes b) s =
        .next { (s.past (8 * b.length)).answers .done with
          obuf := m
          olen := if b = [] then s.olen else max s.olen (s.cur.base + (s.cur.off / 8 + b.length)) } ∧
      ∀ a, Memory.get m a =
        if s.cur.base + s.cur.off / 8 ≤ a ∧ a < s.cur.base + s.cur.off / 8 + b.length then
          b.getD (a - (s.cur.base + s.cur.off / 8)) 0
        else Memory.get s.obuf a)

/-- R129, R130, R132: WRITE_U and WRITE_S move exactly their bits into OBUF; a width, a value that does not fit and must, and a
span without room are refused with nothing changed; OBUF is in canonical form, which every step keeps. That a field without room
raises TruncatedMessage is the spec's own choice (R129, D42); that OBUF grows to hold what is written is log 16 (DEDUCED). Writes
over STREAM: NamedStops (log 17). -/
def Obligations.WritesMoveExactlyTheirBits : Prop :=
  ∀ s (w : Nat) (v : Int) ovf, s.configured = true → Memory.wf s.obuf = true →
    let inU : Prop := 0 ≤ v ∧ v < 2 ^ w
    let inS : Prop := -(2 ^ (w - 1)) ≤ v ∧ v < 2 ^ (w - 1)
    let written (t : State) : Prop := ∃ m,
      t = { (s.past w).answers .done with obuf := m, olen := max s.olen (s.cur.base + (s.cur.off + w + 7) / 8) } ∧
      ∀ k, bitAt (Memory.get m) k =
        if 8 * s.cur.base + s.cur.off ≤ k ∧ k < 8 * s.cur.base + s.cur.off + w then
          (v % 2 ^ w).toNat.testBit (w - 1 - (k - (8 * s.cur.base + s.cur.off)))
        else bitAt (Memory.get s.obuf) k
    (w < 1 ∨ 64 < w →
      exec (.writeU w v ovf) s = .next (s.stops .usageError (.arg (.int w))) ∧
      ∃ x, (x = (w : Int) ∨ (x = v ∧ ovf = .fail)) ∧ exec (.writeS w v ovf) s = .next (s.stops .usageError (.arg (.int x)))) ∧
    (1 ≤ w → w ≤ 64 → ovf = .fail →
      (¬inU → exec (.writeU w v ovf) s = .next (s.stops .usageError (.arg (.int v)))) ∧
      (¬inS → exec (.writeS w v ovf) s = .next (s.stops .usageError (.arg (.int v))))) ∧
    (1 ≤ w → w ≤ 64 → s.cur.bitlen < s.cur.off + w →
      (inU ∨ ovf = .truncate → exec (.writeU w v ovf) s = .next (s.stops .truncatedMessage (.bits s.cur.off w))) ∧
      (inS ∨ ovf = .truncate → exec (.writeS w v ovf) s = .next (s.stops .truncatedMessage (.bits s.cur.off w)))) ∧
    (1 ≤ w → w ≤ 64 → s.cur.space = .obuf → Fits s w →
      (inU ∨ ovf = .truncate → ∃ t, exec (.writeU w v ovf) s = .next t ∧ written t) ∧
      (inS ∨ ovf = .truncate → ∃ t, exec (.writeS w v ovf) s = .next t ∧ written t))

/-- R129, R130: what was written is read back from the same offset. -/
def Obligations.WriteThenReadGivesItBack : Prop :=
  ∀ s (w : Nat) (v : Int) ovf t, s.configured = true → Memory.wf s.obuf = true → s.cur.space = .obuf → Fits s w →
    (exec (.writeU w v ovf) s = .next t → t.result.code = .ok →
      exec (.readU w) { t with cur := s.cur } =
        .next (State.answers t (.nat (v % 2 ^ w).toNat))) ∧
    (exec (.writeS w v ovf) s = .next t → t.result.code = .ok → -(2 ^ (w - 1)) ≤ v → v < 2 ^ (w - 1) →
      exec (.readS w) { t with cur := s.cur } = .next (State.answers t (.int v)))

/-- R105, R113, R266: READ_FIELD assembles the value at the cursor, and READ_HEADER the fields of a header in layout order; a width no
field has is a UsageError with it, and the first field that does not fit (R123, R356) ends either with the cursor at it. A descriptor
with a scale that is not positive is read like any other (DESIGN CHOICE, log 43). -/
def Obligations.FieldsAreAssembledInOrder : Prop :=
  ∀ s, s.configured = true →
    (∀ d,
      (d.width < 1 ∨ 64 < d.width → exec (.readField d) s = .next (s.stops .usageError (.arg (.int d.width)))) ∧
      (1 ≤ d.width → d.width ≤ 64 →
        (Fits s d.width →
          exec (.readField d) s = .next ((s.past d.width).answers (.value (fieldAt s s.cur.off d).val))) ∧
        ∀ x, firstStop s.cur.bitlen s.cur.off (fieldEvents [d]) = some x → exec (.readField d) s = .next (s.stopsAt x))) ∧
    ∀ h ds, corrHeaderOf s.cfg h = some ds → (∀ d ∈ ds, 1 ≤ d.width ∧ d.width ≤ 64) →
      (Fits s (widthOf ds) →
        exec (.readHeader h) s =
          .next ((s.past (widthOf ds)).answers (.fields (fieldsOf (fieldsAt s s.cur.off ds))))) ∧
      ∀ x, firstStop s.cur.bitlen s.cur.off (fieldEvents ds) = some x → exec (.readHeader h) s = .next (s.stopsAt x)

/-- R106, R113, R175, R176, R180: READ_MASK of any width gives the indices of the set bits, ascending, and their count; width 0 is a
UsageError, and the first chunk that does not fit (R123, R356) ends it with the cursor at it. -/
def Obligations.ReadMaskListsTheSetBits : Prop :=
  ∀ s f width offset, s.configured = true →
    (width = 0 → exec (.readMask f width offset) s = .next (s.stops .usageError (.arg (.int 0)))) ∧
    (1 ≤ width → Fits s width → ∃ l,
      exec (.readMask f width offset) s = .next ((s.past width).answers (.indices l l.length)) ∧
      l.Pairwise (· < ·) ∧
      ∀ i, i ∈ l ↔ ∃ k, k < width ∧ i = k + offset ∧
        curBit s (match maskOrderOf s.cfg f with | .msb => s.cur.off + k | .lsb => s.cur.off + (width - 1 - k)) = 1) ∧
    ∀ x, 1 ≤ width → firstStop s.cur.bitlen s.cur.off (maskEvents width) = some x →
      exec (.readMask f width offset) s = .next (s.stopsAt x)

/-! ## Masks, satellites, signals -/

/-- R175, R177, R178: DECODE_MASK lists the set bits of an integer, ascending, with their count; ENCODE_MASK sets the bits of a
strictly ascending list in range, and the first index out of range or out of order is a usage error; refusing a list that is not
ascending is the spec's choice (R178, D16). What the two answer for a width of 0, and DECODE_MASK for bits beyond the width, which
R175 and R177 confine, is log 46 (DESIGN CHOICE). -/
def Obligations.MaskOperations : Prop :=
  ∀ s width offset order, s.configured = true →
    (∀ bits, ∃ l, exec (.decodeMask bits width offset order) s = .next (s.answers (.indices l l.length)) ∧
      l.Pairwise (· < ·) ∧
      ∀ i, i ∈ l ↔ ∃ k, k < width ∧ i = k + offset ∧
        bits.testBit (match order with | .msb => width - 1 - k | .lsb => k) = true) ∧
    (∀ l, l.Pairwise (· < ·) → (∀ i ∈ l, offset ≤ i ∧ i < offset + width) → ∃ bits,
      exec (.encodeMask l width offset order) s = .next (s.answers (.nat bits)) ∧ bits < 2 ^ width ∧
      ∀ k, k < width → (bits.testBit (match order with | .msb => width - 1 - k | .lsb => k) = true ↔ k + offset ∈ l)) ∧
    (∀ pre i post, pre.Pairwise (· < ·) → (∀ j ∈ pre, offset ≤ j ∧ j < offset + width) →
      (i < offset ∨ offset + width ≤ i ∨ ∃ j ∈ pre, i ≤ j) →
      exec (.encodeMask (pre ++ i :: post) width offset order) s = .next (s.stops .usageError (.arg (.int i))))

/-- R181: the two mask operations are inverses of each other. -/
def Obligations.MaskRoundTrips : Prop :=
  ∀ s width offset order, s.configured = true →
    (∀ l bits t, exec (.encodeMask l width offset order) s = .next t → t.ret = .nat bits →
      exec (.decodeMask bits width offset order) s = .next (s.answers (.indices l l.length))) ∧
    (∀ bits l n t, bits < 2 ^ width → exec (.decodeMask bits width offset order) s = .next t → t.ret = .indices l n →
      exec (.encodeMask l width offset order) s = .next (s.answers (.nat bits)))

/-- R160, R162: TO_INDEX, and FROM_INDEX on the valid ranges, with the sub-ranges disjoint as HOST_CONFIG demands: exact
inverses. -/
def Obligations.SatelliteIndexing : Prop :=
  ∀ s, s.configured = true → cfgAccepted s.cfg = true →
    (∀ c prn r, s.cfg.prn.get c = some r → r.min ≤ prn → prn ≤ r.max →
      exec (.toIndex c prn) s = .next (s.answers (.nat (r.base + (prn - r.min)))) ∧
      exec (.fromIndex (r.base + (prn - r.min))) s = .next (s.answers (.consPrn c prn))) ∧
    (∀ c prn r, s.cfg.prn.get c = some r → prn < r.min ∨ r.max < prn →
      exec (.toIndex c prn) s = .next (s.stops .invalidPrn (.prn (some c) prn))) ∧
    (∀ c i r, s.cfg.prn.get c = some r → InSubrange s.cfg c i →
      exec (.fromIndex i) s = .next (s.answers (.consPrn c (r.min + (i - r.base)))) ∧
      exec (.toIndex c (r.min + (i - r.base))) s = .next (s.answers (.nat i)))

/-- R165, R166, R167, R168: the SVID operations, each with its own family's offset, in both directions; an index of no sub-range
is InvalidPrn (R161, the spec's choice D14). A constellation without a range has no valid PRN (R8). -/
def Obligations.SvidConversions : Prop :=
  ∀ s fam c o, s.configured = true → cfgAccepted s.cfg = true → s.cfg.svidOffset.lookup (fam, c) = some o →
    exec (.svidOffset fam c) s = .next (s.answers (.nat o)) ∧
    (∀ svid r, s.cfg.prn.get c = some r → r.min ≤ svid + o → svid + o ≤ r.max → ∃ i,
      i = r.base + (svid + o - r.min) ∧
      exec (.svidToSat fam c svid) s = .next (s.answers (.nat i)) ∧
      exec (.satToSvid fam i) s = .next (s.answers (.consPrn c svid))) ∧
    (∀ svid, (∀ r, s.cfg.prn.get c = some r → svid + o < r.min ∨ r.max < svid + o) →
      exec (.svidToSat fam c svid) s = .next (s.stops .invalidPrn (.prn (some c) (svid + o)))) ∧
    (∀ i r, s.cfg.prn.get c = some r → InSubrange s.cfg c i → r.min + (i - r.base) < o →
      exec (.satToSvid fam i) s = .next (s.stops .usageError (.arg (.int i)))) ∧
    (∀ i, (∀ c', ¬InSubrange s.cfg c' i) →
      exec (.fromIndex i) s = .next (s.stops .invalidPrn (.prn none i)) ∧
      exec (.satToSvid fam i) s = .next (s.stops .invalidPrn (.prn none i)))

/-- R169, R32: SIG_OF reads the table it is given, or raises InvalidSignalCode. -/
def Obligations.SignalOfSlot : Prop :=
  ∀ s tbl c slot, s.configured = true →
    (∀ g, (sigTable s.cfg tbl).lookup (c, slot) = some g → exec (.sigOf tbl c slot) s = .next (s.answers (.signal g))) ∧
    ((sigTable s.cfg tbl).lookup (c, slot) = none →
      exec (.sigOf tbl c slot) s = .next (s.stops .invalidSignalCode (.slot c slot))) ∧
    sigTable s.cfg .msmSig = s.cfg.msmSig ∧ sigTable s.cfg .ssrSig = s.cfg.ssrSig

/-- R223: ADJUST_WEEK answers a week congruent to the raw one whose start is at least as near to the reference as that of any other;
which of several equally near ones is left open (U6, log 9). The differences of times and the starts of the weeks are the host's, by
the configuration's rows and default (R36, logs 7 and 9). That the operation reads its operand alone and answers while REF_TIME is
undefined too is log 47 (DESIGN CHOICE). -/
def Obligations.AdjustWeekIsNearest : Prop :=
  ∀ s c raw ref m, s.configured = true → weekModulus s.cfg c = some m → 0 < m → ∃ w,
    exec (.adjustWeek c raw ref) s = .next (s.answers (.int w)) ∧ (m : Int) ∣ w - raw ∧
    ∀ w', (m : Int) ∣ w' - raw → |diffSeconds s.cfg (weekStart s.cfg c w) ref| ≤ |diffSeconds s.cfg (weekStart s.cfg c w') ref|

/-- R282, R284, R331, R332: DECODE_URA reads the quality table; QUANTIZE takes the nearest defined entry, ties toward the larger
class, then the larger value (the spec's tie-break), and inverts the table on entries whose value is not shared; LOOKUP answers
an integrity table's value, or NotProvided for the sentinel index, and under an accepted configuration it cannot miss for a
record field. That DECODE_URA answers nothing for a pair without a row, rather than R8's UsageError, and that a signed field's
sentinel index counts by its bits, is log 27 (DEDUCED); that LOOKUP takes an index beyond the field's range too, if the table goes
on so far, is log 46 (DESIGN CHOICE); that it takes a sentinel outside the field's range modulo `2^width` is log 27 (DESIGN CHOICE). -/
def Obligations.QualityAndIntegrityTables : Prop :=
  ∀ s, s.configured = true →
    (∀ cls v, exec (.decodeUra cls v) s = .next (s.answers (.metres (s.cfg.uraTable.lookup (cls, v))))) ∧
    (∀ q, s.cfg.uraTable ≠ [] → ∃ cls v m, exec (.quantize q) s = .next (s.answers (.quality cls v)) ∧
      s.cfg.uraTable.lookup (cls, v) = some m ∧
      ∀ cls' v' m', s.cfg.uraTable.lookup (cls', v') = some m' →
        |m - q| ≤ |m' - q| ∧ (|m - q| = |m' - q| → cls' < cls ∨ (cls' = cls ∧ v' ≤ v))) ∧
    (∀ cls v m, s.cfg.uraTable.lookup (cls, v) = some m →
      (∀ cls' v', s.cfg.uraTable.lookup (cls', v') = some m → (cls', v') = (cls, v)) →
      exec (.quantize m) s = .next (s.answers (.quality cls v))) ∧
    ∀ (d : FieldDesc) (idx : Nat),
      ((idx : Int) = d.na.getD (2 ^ d.width - 1) % 2 ^ d.width → exec (.lookup d idx) s = .next (s.answers (.lookup .notProvided))) ∧
      (∀ tbl q, (idx : Int) ≠ d.na.getD (2 ^ d.width - 1) % 2 ^ d.width → s.cfg.integTable.lookup d.name = some tbl →
        tbl[idx]? = some (some q) → exec (.lookup d idx) s = .next (s.answers (.lookup (.provided q)))) ∧
      (∀ x, cfgAccepted s.cfg = true → x ∈ s.cfg.integLayout → d ∈ x.2.records → idx < 2 ^ d.width → ∃ v,
        exec (.lookup d idx) s = .next (s.answers (.lookup v)))

/-- R8, R346, R353: a lookup in a configuration table that has no entry raises UsageError and changes nothing else but the cursor,
which stays where the entry was needed; the information word is the operand where it is one's (R346), else open (log 10). That
QUANTIZE of an empty table raises is log 40 (DEDUCED), and that LOOKUP does with an index beyond the field's range, log 46 (DESIGN
CHOICE); a sentinel outside it counts modulo `2^width` (DESIGN CHOICE, log 27). -/
def Obligations.MissingTableEntriesRaiseUsageError : Prop :=
  ∀ s, s.configured = true →
    (∀ fam c, s.cfg.svidOffset.lookup (fam, c) = none → ∀ svid,
      exec (.svidOffset fam c) s = .next (s.stops .usageError (.arg (.offsetOf fam c))) ∧
      exec (.svidToSat fam c svid) s = .next (s.stops .usageError (.arg (.offsetOf fam c)))) ∧
    (∀ c raw ref, weekModulus s.cfg c = none →
      exec (.adjustWeek c raw ref) s = .next (s.stops .usageError (.arg (.constellation c)))) ∧
    (∀ q, s.cfg.uraTable = [] → exec (.quantize q) s = .next (s.stops .usageError (.arg (.metres q)))) ∧
    (∀ d (idx : Nat), (idx : Int) ≠ d.na.getD (2 ^ d.width - 1) % 2 ^ d.width →
      (∀ tbl q, s.cfg.integTable.lookup d.name = some tbl → tbl[idx]? ≠ some (some q)) →
      exec (.lookup d idx) s = .next (s.stops .usageError (.arg (.int idx)))) ∧
    (∀ h, corrHeaderOf s.cfg h = none → exec (.readHeader h) s = .next (s.stops .usageError (.arg (.handler h)))) ∧
    (∀ i, (∃ c v, i = Instr.ofMsm c v ∧ s.cfg.msmLayout.lookup (c, v) = none) ∨
        (∃ c, i = Instr.ofEph c ∧ s.cfg.ephLayout.get c = none) ∨ (∃ k, i = Instr.ofSta k ∧ s.cfg.staLayout.lookup k = none) ∨
        (i = .igs ∧ s.cfg.igsPrefix = none) →
      ∃ x, exec i s = .next (s.stops .usageError (.arg x))) ∧
    (∀ i x, (∃ c k, i = Instr.ofSsr c k ∧ x = .handler (.ssr c k) ∧ s.cfg.ssrLayout.lookup (c, k) = none) ∨
        (∃ (c : Constellation) (o : Nat), i = Instr.ofSsrTest o c ∧ x = .int o ∧ s.cfg.testKindOfOffset.lookup o = none) ∨
        (i = .gridTropo ∧ x = .handler .gridTropo ∧ s.cfg.tropoLayout = none) ∨
        (i = .gridIono ∧ x = .handler .gridIono ∧ s.cfg.ionoLayout = none) ∨
        (∃ t : BitVec 12, i = .integ t ∧ x = .int t.toNat ∧ s.cfg.integPrefix.lookup t.toNat = none ∧
          s.cfg.integLayout.lookup ⟨t.toNat, none⟩ = none) →
      exec i s = .next (s.stops .usageError (.arg x))) ∧
    (∀ c v lay sats sigs, cfgAccepted s.cfg = true → s.cfg.msmLayout.lookup (c, v) = some lay →
      s.cfg.msmPresent.lookup v = none →
      let o1 := widthOf lay.header
      let o2 := o1 + lay.satMask.width
      let o3 := o2 + lay.sigMask.width
      List.Forall₂ (fun (svid : Nat) i => satOfSvid s.cfg .msm c svid = .ok i) (maskAt s (.msm c v .sat) lay.satMask (s.cur.off + o1))
        sats →
      List.Forall₂ (fun slot g => s.cfg.msmSig.lookup (c, slot) = some g) (maskAt s (.msm c v .sig) lay.sigMask (s.cur.off + o2))
        sigs →
      sats.length * sigs.length ≠ 0 → Fits s (o3 + sats.length * sigs.length) →
      ∃ x, exec (Instr.ofMsm c v) s = .next ((s.past (o3 + sats.length * sigs.length)).stops .usageError (.arg x)))

/-! ## The caches -/

/-- R251, R252: LOCK_CHECK as an operation: the bit, then the counter is stored whatever the comparison gave. "That no indicator is
raised on the first observation is the spec's choice" (R251, D22). That any pair is stored is the model's (DESIGN CHOICE, log 56). -/
def Obligations.LockCheckComparesThenStores : Prop :=
  ∀ s sat g n, s.configured = true → ∃ b lk', exec (.lockCheck sat g n) s = .next { s.answers (.flag b) with lk := lk' } ∧
    (s.lk.lookup (sat, g) = none → b = false) ∧
    (∀ prev, s.lk.lookup (sat, g) = some prev →
      (n < prev → b = true) ∧ (n = prev → b = s.cfg.lockEqRaises) ∧ (prev < n → b = false)) ∧
    lk'.lookup (sat, g) = some n ∧ ∀ key, key ≠ (sat, g) → lk'.lookup key = s.lk.lookup key

/-- R283: IOD_CHECK: no mismatch, a mismatch under the lenient policy, the first mismatch under the strict one. What the header's
issue of data is compared with is the spec's choice (D27, D28). Whether two epochs are the same is the host's (R36, log 7), and an
issue of data that is missing differs from one that is there (DESIGN CHOICE, log 26). -/
def Obligations.IodCheckFollowsThePolicy : Prop :=
  ∀ s n kinds t iod, s.configured = true →
    ((∀ k ∈ kinds, ¬Inconsistent s n t iod k) → exec (.iodCheck n kinds t iod) s = .next (s.answers (.flag false))) ∧
    ((∃ k ∈ kinds, Inconsistent s n t iod k) → s.cfg.iodPolicy = .lenient →
      exec (.iodCheck n kinds t iod) s = .next (s.answers (.flag true))) ∧
    (∀ pre k post, kinds = pre ++ k :: post → (∀ k' ∈ pre, ¬Inconsistent s n t iod k') → Inconsistent s n t iod k →
      s.cfg.iodPolicy = .strict →
      exec (.iodCheck n kinds t iod) s = .next (s.stops .inconsistentIssueOfData (.entry n k)))

/-- R303, R304, R306, R308, R309, R311: CACHE_UPDATE over the transition table; it changes `CS[n][k]` and nothing else.
Which of two epochs is earlier, or neither, is the host's (R36, log 7). -/
def Obligations.CacheUpdateTransitions : Prop :=
  ∀ s n k t hdr recs, s.configured = true →
    let e := (networkOf s.cs n).get k
    let st : KindState := if hdr.mm then .partialSet else .complete
    ((e.st = .empty ∨ ∃ e0, e.epoch = some e0 ∧
        (Earlier s.cfg e0 t ∨ (Earlier s.cfg t e0 ∧ s.cfg.oldEpochPolicy = .replace))) → ∃ cs' ent,
      exec (.cacheUpdate n k t hdr recs) s = .next { s.answers (.report ⟨k, st, false⟩) with cs := cs' } ∧
      OnlyEntry s.cs cs' n k ⟨st, some t, hdr.iod, hdr.udi, hdr.provider, hdr.solution, ent⟩ ∧
      ∀ key, ent.lookup key = lastRecord recs key) ∧
    (∀ e0, e.st ≠ .empty → e.epoch = some e0 → SameTime s.cfg e0 t → ∃ cs' ent,
      exec (.cacheUpdate n k t hdr recs) s = .next { s.answers (.report ⟨k, st, false⟩) with cs := cs' } ∧
      OnlyEntry s.cs cs' n k ⟨st, some e0, hdr.iod, hdr.udi, hdr.provider, hdr.solution, ent⟩ ∧
      ∀ key, ent.lookup key = (lastRecord recs key).or (e.ent.lookup key)) ∧
    (∀ e0, e.st ≠ .empty → e.epoch = some e0 → Earlier s.cfg t e0 → ¬Earlier s.cfg e0 t → s.cfg.oldEpochPolicy = .drop → ∃ cs',
      exec (.cacheUpdate n k t hdr recs) s = .next { s.answers (.report ⟨k, e.st, true⟩) with cs := cs' } ∧
      OnlyEntry s.cs cs' n k e)

/-- R313, R314: of two messages of one network and kind, a second of a newer epoch leaves only its own satellites; two of one
epoch accumulate, whatever the first one's multi-message flag. The order of epochs is the host's (R36), in the model's form of it
(DESIGN CHOICE, log 7). -/
def Obligations.TwoMessagesReplaceOrAccumulate : Prop :=
  ∀ s s1 s2 n k t1 t2 hdr1 hdr2 recs1 recs2, s.configured = true → ((networkOf s.cs n).get k).st = .empty →
    exec (.cacheUpdate n k t1 hdr1 recs1) s = .next s1 → exec (.cacheUpdate n k t2 hdr2 recs2) s1 = .next s2 →
    ¬Earlier s.cfg t2 t1 →
    let e1 := (networkOf s1.cs n).get k
    let e2 := (networkOf s2.cs n).get k
    e1.st = (if hdr1.mm then .partialSet else .complete) ∧ e2.st = (if hdr2.mm then .partialSet else .complete) ∧
    (Earlier s.cfg t1 t2 → e2.epoch = some t2 ∧ ∀ key, e2.ent.lookup key = lastRecord recs2 key) ∧
    (SameTime s.cfg t1 t2 → e2.epoch = some t1 ∧ ∀ key, (e2.ent.lookup key).isSome = true ↔
      (lastRecord recs1 key).isSome = true ∨ (lastRecord recs2 key).isSome = true)

/-- R336, whose detail "is the spec's": IS_UPDATE: a newer epoch keeps only the message's part, the same epoch replaces the part
of its type, an older one follows the policy; the other providers keep their state. The order of epochs is the host's (R36, log 7). -/
def Obligations.IsUpdateTransitions : Prop :=
  ∀ s p t key part, s.configured = true → ∃ is' e' stale,
    exec (.isUpdate p t key part) s = .next { s.answers (.flag stale) with is := is' } ∧
    is'.lookup p = some e' ∧ (∀ p', p' ≠ p → is'.lookup p' = s.is.lookup p') ∧
    ((∀ e, s.is.lookup p = some e → e.epoch = none ∨
        ∃ e0, e.epoch = some e0 ∧ (Earlier s.cfg e0 t ∨ (Earlier s.cfg t e0 ∧ s.cfg.oldEpochPolicy = .replace))) →
      e' = ⟨some t, [(key, part)]⟩ ∧ stale = false) ∧
    (∀ e e0, s.is.lookup p = some e → e.epoch = some e0 → SameTime s.cfg e0 t →
      e'.epoch = some e0 ∧ e'.parts.lookup key = some part ∧ stale = false ∧
      ∀ m, m ≠ key → e'.parts.lookup m = e.parts.lookup m) ∧
    (∀ e e0, s.is.lookup p = some e → e.epoch = some e0 → Earlier s.cfg t e0 → ¬Earlier s.cfg e0 t →
      s.cfg.oldEpochPolicy = .drop → e' = e ∧ stale = true)

/-! ## Message handlers -/

/-- R220, R222, R223: an ephemeris handler reads its fields at their bit positions, converts the satellite and the week, and
changes the cursor only; the first condition on the way (R31, R347, R356) ends it. A raw week that is its field's sentinel is
disambiguated too (log 45); a layout without a satellite id misses an entry (DEDUCED, log 26). Of two fields with
one name the record keeps the last, as R220's assignment does (log 44). -/
def Obligations.EphemerisReadsItsBitPositions : Prop :=
  ∀ s c lay, s.configured = true → cfgAccepted s.cfg = true → s.cfg.ephLayout.get c = some lay →
    let fs := fieldsAt s s.cur.off lay.header
    (∀ svid sat week, Fits s (widthOf lay.header) → rawOf .svid fs = some svid → satOfSvid s.cfg .eph c svid = .ok sat →
      (match rawOf .weekRaw fs with
        | none => week = none
        | some raw => ∃ ref w, s.refTime = some ref ∧ adjustWeekOf s.cfg c raw ref = .ok w ∧ week = some w) →
      exec (Instr.ofEph c) s =
        .next ((s.past (widthOf lay.header)).answers (.message (.ephemeris ⟨c, fieldsOf fs, sat, week⟩)))) ∧
    ∀ x, firstStop s.cur.bitlen s.cur.off (ephEvents s c lay) = some x → exec (Instr.ofEph c) s = .next (s.stopsAt x)

/-- R206, R207, R208: a station handler reads its items at their bit positions and changes the cursor only; a payload too short for
them is truncated (R347). A string at a bit that is no multiple of 8 is log 41 (DEDUCED), and of two items with one name the last
counts (DEDUCED, log 44). -/
def Obligations.StationReadsItsBitPositions : Prop :=
  ∀ s k items, s.configured = true → cfgAccepted s.cfg = true → s.cfg.staLayout.lookup k = some items →
    (Fits s (stationAt s s.cur.off items).2 →
      exec (Instr.ofSta k) s =
        .next ((s.past (stationAt s s.cur.off items).2).answers
          (.message (.station k (lastOf (stationAt s s.cur.off items).1))))) ∧
    ∀ x, firstStop s.cur.bitlen s.cur.off (stationEvents s s.cur.off items) = some x →
      exec (Instr.ofSta k) s = .next (s.stopsAt x)

/-- R201: RAW answers the type and the payload of the current frame, and changes neither the cursor nor a cache. While no frame is
current the payload is open (U1, log 20). -/
def Obligations.RawAnswersThePayload : Prop :=
  ∀ s t, s.configured = true → ∃ b, exec (.raw t) s = .next (s.answers (.message (.rawUnhandled t b))) ∧
    (s.f.valid = true → b.length = s.f.length.toNat ∧
      ∀ i, i < b.length → b[i]? = some (Memory.get s.stream (s.f.pos + 3 + i))) ∧
    (s.f.valid = false → b.length ≤ 1023)

/-- R235 to R241, R249, R252: an MSM handler reads the masks, the cell mask and the blocks at their bit positions, writes the
lock-time cache, and changes nothing else but the cursor; the first condition on the way (R261, R347, R356) ends it. What the block
`obsBlock` answers of these holds is ObservationArrays' matter. That a field listed at the other level than R239 gives its block is read
where it stands is log 23 (DESIGN CHOICE). -/
def Obligations.MsmReadsItsBitPositions : Prop :=
  ∀ s c v lay, s.configured = true → cfgAccepted s.cfg = true → s.cfg.msmLayout.lookup (c, v) = some lay →
    let o1 := s.cur.off + widthOf lay.header
    let o2 := o1 + lay.satMask.width
    let o3 := o2 + lay.sigMask.width
    (∀ present sats sigs,
      List.Forall₂ (fun (svid : Nat) i => satOfSvid s.cfg .msm c svid = .ok i) (maskAt s (.msm c v .sat) lay.satMask o1) sats →
      List.Forall₂ (fun slot g => s.cfg.msmSig.lookup (c, slot) = some g) (maskAt s (.msm c v .sig) lay.sigMask o2) sigs →
      let n := sats.length * sigs.length
      n = 0 ∨ s.cfg.msmPresent.lookup v = some present →
      let cells := if n = 0 then [] else maskAt s (.msm c v .cell) ⟨n, 0⟩ o3
      let sf := presentFields present lay.satFields
      let gf := presentFields present lay.sigFields
      let satBits := sats.length * widthOf (sf.map Prod.snd)
      let bits := if n = 0 then 0 else n + satBits + cells.length * widthOf (gf.map Prod.snd)
      let total := widthOf lay.header + lay.satMask.width + lay.sigMask.width + bits
      Fits s total →
      let d : MsmData := ⟨fieldsAt s s.cur.off lay.header, sats, sigs, cells,
        if n = 0 then [] else blocksAt s sats.length (o3 + n) sf,
        if n = 0 then [] else blocksAt s cells.length (o3 + n + satBits) gf⟩
      exec (Instr.ofMsm c v) s =
        .next { (s.past total).answers (.message (.observation (obsBlock s c v lay d))) with lk := lockWrites d s.lk }) ∧
    ∀ x, firstStop s.cur.bitlen s.cur.off (msmEvents s c v lay) = some x → exec (Instr.ofMsm c v) s = .next (s.stopsAt x)

/-- R236, R240 and R242 to R249: an observation block: its constellation, variant, header values and epoch, none where REF_TIME is
undefined or, the model's reading, the header has no epoch field (DEDUCED, log 26); the arrays' shape; range, phase in cycles, CNR,
Doppler and half-cycle bit of a present cell; the sentinels; absent blocks; cells that are not present. The formula of the phase is
general knowledge in the spec (R244), the sum of the Doppler its own choice (R247, D55); `CFG.C = 0` and an unmapped GLONASS channel
are logs 24 and 49. That the first field of a signal block counts and several satellite-level fields add up is log 23 (DEDUCED), that
the half-cycle bit is read without a sign is log 13 (DEDUCED), that a field listed at the other level than its block's is not used log
23 (DESIGN CHOICE), and that `half` holds the whole integer of a field of more than one bit log 57 (DESIGN CHOICE). -/
def Obligations.ObservationArrays : Prop :=
  ∀ s c v lay d,
    let b := obsBlock s c v lay d
    (b.cons = c ∧ b.variant = v ∧ b.hdr = fieldsOf d.hdr ∧
      (rawOf .epoch d.hdr = none ∨ s.refTime = none → b.epoch = none) ∧
      (∀ raw ref, rawOf .epoch d.hdr = some raw → s.refTime = some ref → b.epoch = some (epochOf s.cfg (.msm c v) raw ref))) ∧
    ∀ i j, i < d.sats.length → j < d.sigs.length →
    let rough := d.satData.filter (fun x => decide (x.block = .roughRange))
    let rate := d.satData.filter (fun x => decide (x.block = .doppler))
    let sumOf (l : List BlockData) : Rat := (l.filterMap fun x => (x.vals[i]?).bind fun g => numOf g.val).sum
    let empty := numAt b.prange i j = none ∧ numAt b.phase i j = none ∧ numAt b.cnr i j = none ∧
      numAt b.doppler i j = none ∧ cellOf b.half i j = some 0 ∧ cellOf b.lli i j = some false
    (b.sats = d.sats ∧ b.sigs = d.sigs ∧
      b.prange.map List.length = List.replicate d.sats.length d.sigs.length ∧
      b.phase.map List.length = List.replicate d.sats.length d.sigs.length ∧
      b.cnr.map List.length = List.replicate d.sats.length d.sigs.length ∧
      b.doppler.map List.length = List.replicate d.sats.length d.sigs.length ∧
      b.half.map List.length = List.replicate d.sats.length d.sigs.length ∧
      b.lli.map List.length = List.replicate d.sats.length d.sigs.length) ∧
    (i * d.sigs.length + j ∉ d.cells → empty) ∧
    ((∃ x ∈ rough, ∃ f, x.vals[i]? = some f ∧ f.val = .na) → empty) ∧
    (rough = [] → numAt b.prange i j = none ∧ numAt b.phase i j = none) ∧
    ((∀ x ∈ d.sigData, x.block ≠ .fineRange) → numAt b.prange i j = none) ∧
    ((∀ x ∈ d.sigData, x.block ≠ .phase) → numAt b.phase i j = none) ∧
    ((∀ x ∈ d.sigData, x.block ≠ .cnr) → numAt b.cnr i j = none) ∧
    ((∀ x ∈ d.sigData, x.block ≠ .doppler) → numAt b.doppler i j = none) ∧
    ((∀ x ∈ d.sigData, x.block ≠ .halfCycle) → cellOf b.half i j = some 0) ∧
    ((∀ x ∈ d.sigData, x.block ≠ .lockTime) → cellOf b.lli i j = some false) ∧
    (∀ (q : Nat) (f : RawField), d.cells[q]? = some (i * d.sigs.length + j) → d.cells.Nodup →
      (∀ x ∈ rough, ∃ f, x.vals[i]? = some f ∧ f.val ≠ .na) →
      ((blockVals d.sigData .fineRange)[q]? = some f →
        (f.val = .na → numAt b.prange i j = none) ∧
        (rough ≠ [] → f.val ≠ .na → numAt b.prange i j = some (sumOf rough + (numOf f.val).getD 0))) ∧
      ((blockVals d.sigData .phase)[q]? = some f → f.val = .na → numAt b.phase i j = none) ∧
      (rough ≠ [] → (blockVals d.sigData .phase)[q]? = some f → f.val ≠ .na → ∀ g, d.sigs[j]? = some g →
        let fcn : Option Int :=
          if c = .glonass then
            ((blockVals d.satData .extInfo)[i]?).bind fun e => if e.val = .na then none else lay.channelOf.lookup e.raw
          else none
        (s.cfg.freq.lookup (c, g, fcn) = none → numAt b.phase i j = none) ∧
        ∀ fr, s.cfg.freq.lookup (c, g, fcn) = some fr → s.cfg.c ≠ 0 →
          numAt b.phase i j = some ((sumOf rough + (numOf f.val).getD 0) * fr / s.cfg.c)) ∧
      ((blockVals d.sigData .doppler)[q]? = some f →
        (f.val = .na ∨ (∃ x ∈ rate, ∃ r, x.vals[i]? = some r ∧ r.val = .na) → numAt b.doppler i j = none) ∧
        (f.val ≠ .na → (∀ x ∈ rate, ∃ r, x.vals[i]? = some r ∧ r.val ≠ .na) →
          numAt b.doppler i j = some (sumOf rate + (numOf f.val).getD 0))) ∧
      ((blockVals d.sigData .cnr)[q]? = some f → numAt b.cnr i j = numOf f.val) ∧
      ((blockVals d.sigData .halfCycle)[q]? = some f → cellOf b.half i j = some f.bits))

/-- R243, R250, R251, R252: the loss-of-lock bits of a message compare with the cache before it, and afterwards the cache holds for each
satellite and signal the counter of its last cell that the rule runs for: a present cell with a lock-time field of a satellite
whose rough range is available. That only an earlier entry raises the bit is the spec's own choice (R251, D22), and so is which
cells are passed over (R252, D24); that the first field of a lock-time block counts is log 23 (DEDUCED). -/
def Obligations.LockTimesOfAMessage : Prop :=
  ∀ s c v lay d,
    (∀ i j, i < d.sats.length → j < d.sigs.length →
      (cellOf (obsBlock s c v lay d).lli i j = some true ↔
        ∃ key n prev, lockAt d (i * d.sigs.length + j) = some (key, n) ∧ s.lk.lookup key = some prev ∧
          (n < prev ∨ (n = prev ∧ s.cfg.lockEqRaises = true)))) ∧
    ∀ key, (lockWrites d s.lk).lookup key =
      ((((d.cells.filterMap (lockAt d)).filter fun x => decide (x.1 = key)).getLast?).map Prod.snd).or (s.lk.lookup key)

/-- R265 to R278, R283, R286, R287, R312: an SSR handler, and the test-range row of the same kind, read the header and the records at
their bit positions, update their cache kinds and answer the report; the first condition on the way, a mismatch under the strict policy
among them, ends them. Each kind is updated as CACHE_UPDATE does it; COMBINED puts its orbit fields into ORBIT and its clock fields
into CLOCK, each by its own epoch (R273, R312). The model's: a missing header field (DEDUCED, log 26), a bias layout without a count or
a slot (DESIGN CHOICE, log 26), a yaw flag without a yaw pair (DESIGN CHOICE, log 26), the key of a header with both ids (DESIGN
CHOICE, log 12), the added standard deviation (DEDUCED, log 39), of two fields with one name the last (DEDUCED, log 44), a sentinel
used as the integer it is (DESIGN CHOICE, log 45), quality fields of a header not decoded (DESIGN CHOICE, log 39), an `mm` or yaw flag
of more than one bit (DESIGN CHOICE, log 57); header codes are kept as NA where they are their sentinels (R397). -/
def Obligations.SsrReadsItsBitPositions : Prop :=
  ∀ s c k lay i, s.configured = true → cfgAccepted s.cfg = true → s.cfg.ssrLayout.lookup (c, k) = some lay →
    (i = Instr.ofSsr c k ∨ ∃ o, i = Instr.ofSsrTest o c ∧ s.cfg.testKindOfOffset.lookup o = some k) →
    (∀ p recs bits flag, CorrectionAt s (.ssr c k) .ssr c k lay s.cur.off p recs bits → Fits s bits →
      iodCheckOf s.cfg s.cs p.network (cacheKindsOf k) p.epoch p.hdr.iod = .ok flag →
      let t := (s.past bits).corrected (.ssr c k) none p (cacheKindsOf k) recs flag
      exec i s = .next t ∧
      (∀ ck, cacheKindsOf k = [ck] → ∃ s1, exec (.cacheUpdate p.network ck p.epoch p.hdr recs) s = .next s1 ∧ t.cs = s1.cs) ∧
      (k = .combined → ∃ (l : List (EntryKey × Fields × Fields)) (s1 s2 : State),
        recs = l.map (fun x => (x.1, .combined x.2.1 x.2.2)) ∧
        exec (.cacheUpdate p.network .orbit p.epoch p.hdr (l.map fun x => (x.1, .vals x.2.1))) s = .next s1 ∧
        exec (.cacheUpdate p.network .clock p.epoch p.hdr (l.map fun x => (x.1, .vals x.2.2))) s1 = .next s2 ∧
        t.cs = s2.cs)) ∧
    ∀ x, firstStop s.cur.bitlen s.cur.off (correctionEvents s (.ssr c k) .ssr c k lay s.cur.off) = some x →
      exec i s = .next (s.stopsAt x)

/-- R285, R198, R200: IGS reads its prefix and the subtype, then the message the subtype selects as that handler does, into the same
cache entries, each updated as CACHE_UPDATE does it; a subtype without an entry is RawUnhandled; the first condition on the way, a
mismatch under the strict policy among them, ends it. The model's: a subtype that is its field's sentinel is the integer it is (DESIGN
CHOICE, log 45), a missing header field (DEDUCED, log 26), the key of a header with both ids (DESIGN CHOICE, log 12), RawUnhandled
without a current frame (DESIGN CHOICE, log 20), the argument of a missing layout (DESIGN CHOICE, log 10), quality fields of a header
not decoded (DESIGN CHOICE, log 39), an `mm` or yaw flag of more than one bit (DESIGN CHOICE, log 57); of the records, the added standard
deviation (DEDUCED, log 39), of two fields with one name the last (DEDUCED, log 44), a yaw flag without a yaw pair, a bias layout without
a count or a slot and a grid layout without a residual block (DESIGN CHOICE, log 26); of a grid message, that the subtype of IGS selects
it (DESIGN CHOICE, log 58), and a layout with satellites, their constellation, the record that keeps fields and residuals together, and
GRID_TROPO's satellites ignored (DESIGN CHOICE, unsafe, log 28). -/
def Obligations.IgsDispatchesOnTheSubtype : Prop :=
  ∀ s px, s.configured = true → cfgAccepted s.cfg = true → s.cfg.igsPrefix = some px →
    let o1 := widthOf px.pre
    let o2 := o1 + px.subtype.width
    let pre := some (fieldsOf (fieldsAt s s.cur.off px.pre))
    let target := s.cfg.igsSubtypeTable.lookup (fieldAt s (s.cur.off + o1) px.subtype).raw
    (∀ c k lay p recs bits flag, target = some (.ssr c k) → s.cfg.igsLayout.lookup (c, k) = some lay →
      CorrectionAt s (.igs c k) .igs c k lay (s.cur.off + o2) p recs bits → Fits s (o2 + bits) →
      iodCheckOf s.cfg s.cs p.network (cacheKindsOf k) p.epoch p.hdr.iod = .ok flag →
      let t := (s.past (o2 + bits)).corrected (.igs c k) pre p (cacheKindsOf k) recs flag
      exec .igs s = .next t ∧
      (∀ ck, cacheKindsOf k = [ck] → ∃ s1, exec (.cacheUpdate p.network ck p.epoch p.hdr recs) s = .next s1 ∧ t.cs = s1.cs) ∧
      (k = .combined → ∃ (l : List (EntryKey × Fields × Fields)) (s1 s2 : State),
        recs = l.map (fun x => (x.1, .combined x.2.1 x.2.2)) ∧
        exec (.cacheUpdate p.network .orbit p.epoch p.hdr (l.map fun x => (x.1, .vals x.2.1))) s = .next s1 ∧
        exec (.cacheUpdate p.network .clock p.epoch p.hdr (l.map fun x => (x.1, .vals x.2.2))) s1 = .next s2 ∧
        t.cs = s2.cs)) ∧
    (∀ h ck lay p recs bits flag,
      (target = some .gridTropo ∧ h = .gridTropo ∧ ck = .tropo ∧ s.cfg.tropoLayout.map (fun l => { l with perSat := none }) = some lay) ∨
        (target = some .gridIono ∧ h = .gridIono ∧ ck = .iono ∧ s.cfg.ionoLayout = some lay) →
      HeaderAt s h lay.header (s.cur.off + o2) p →
      gridAt s lay p.network p.fields (s.cur.off + o2 + widthOf lay.header) = some (recs, bits) →
      Fits s (o2 + widthOf lay.header + bits) → iodCheckOf s.cfg s.cs p.network [ck] p.epoch p.hdr.iod = .ok flag →
      let t := (s.past (o2 + widthOf lay.header + bits)).corrected h pre p [ck] recs flag
      exec .igs s = .next t ∧ ∃ s1, exec (.cacheUpdate p.network ck p.epoch p.hdr recs) s = .next s1 ∧ t.cs = s1.cs) ∧
    (target = none → Fits s o2 → ∃ t b,
      exec .igs s = .next ((s.past o2).answers (.message (.rawUnhandled t b))) ∧
      (s.f.valid = true → t = s.f.type ∧ b = s.payload)) ∧
    ∀ x, firstStop s.cur.bitlen s.cur.off (igsEvents s px) = some x → exec .igs s = .next (s.stopsAt x)

/-- R279, R280, R281: a grid handler reads the header, the model or the satellites, and the residual blocks at their bit positions and
updates the one kind TROPO or IONO as CACHE_UPDATE does it; the first condition on the way, a mismatch under the strict policy among
them, ends it. The constellation of a GRID_IONO satellite id and the record that keeps fields and residuals together are the model's
(DESIGN CHOICE, log 28), and so are a header without an epoch, a multi-message flag or a satellite count (DEDUCED, log 26), a layout
without a residual block (DESIGN CHOICE, log 26), the key of a header with both ids (DESIGN CHOICE, log 12) and a steering field that
is its sentinel (DESIGN CHOICE, log 45), quality fields of a header not decoded (DESIGN CHOICE, log 39), an `mm` of more than one bit
(DESIGN CHOICE, log 57); that width 0 means no value, and where the number of points comes from, are the spec's own choices (R281, D57,
D58). -/
def Obligations.GridReadsItsBitPositions : Prop :=
  ∀ s h k i lay, s.configured = true → cfgAccepted s.cfg = true →
    ((h = .gridTropo ∧ k = .tropo ∧ i = .gridTropo ∧ s.cfg.tropoLayout.map (fun l => { l with perSat := none }) = some lay) ∨
      (h = .gridIono ∧ k = .iono ∧ i = .gridIono ∧ s.cfg.ionoLayout = some lay)) →
    (∀ p recs bits flag, HeaderAt s h lay.header s.cur.off p →
      gridAt s lay p.network p.fields (s.cur.off + widthOf lay.header) = some (recs, bits) →
      Fits s (widthOf lay.header + bits) → iodCheckOf s.cfg s.cs p.network [k] p.epoch p.hdr.iod = .ok flag →
      let t := (s.past (widthOf lay.header + bits)).corrected h none p [k] recs flag
      exec i s = .next t ∧ ∃ s1, exec (.cacheUpdate p.network k p.epoch p.hdr recs) s = .next s1 ∧ t.cs = s1.cs) ∧
    ∀ x, firstStop s.cur.bitlen s.cur.off (gridEvents s h k lay s.cur.off) = some x → exec i s = .next (s.stopsAt x)

/-- R330, R331, R333, R334, R336: an integrity handler reads the header, then the masks and the records in the order of its layout, at
their bit positions, updates one provider's state with that part, and changes nothing else but the cursor; the first condition on the
way ends it. What the layout says and how (the order of masks and records, the elements, a subtype) and which header fields are looked
up is the model's form of what R330 leaves to the layout (DESIGN CHOICE, log 29); so are a header without a provider or an epoch
(DEDUCED, log 26), a signed sentinel counted by its bits (DEDUCED, log 27), a provider that is its field's sentinel (DESIGN CHOICE, log
45) and a constellation listed twice (DESIGN CHOICE, log 53). The detail of R336 is the spec's own choice (D51). A subtype without a
layout is an unknown type (D17, R360); without a current frame its payload is open (log 20). -/
def Obligations.IntegrityUpdatesOneProvider : Prop :=
  ∀ s (t : BitVec 12), s.configured = true → cfgAccepted s.cfg = true →
    (∀ px x, s.cfg.integPrefix.lookup t.toNat = some px →
      firstStop s.cur.bitlen s.cur.off (fieldEvents px.pre ++ [.read px.subtype.width]) = some x →
      exec (.integ t) s = .next (s.stopsAt x)) ∧
    (∀ px, s.cfg.integPrefix.lookup t.toNat = some px → Fits s (widthOf px.pre + px.subtype.width) →
      s.cfg.integLayout.lookup ⟨t.toNat, some (fieldAt s (s.cur.off + widthOf px.pre) px.subtype).raw⟩ = none → ∃ b,
      exec (.integ t) s = .next ((s.past (widthOf px.pre + px.subtype.width)).answers (.message (.rawUnhandled t b))) ∧
      (s.f.valid = true → b = s.payload)) ∧
    ∀ key pre lay bits0,
      (match s.cfg.integPrefix.lookup t.toNat with
        | none => key = ⟨t.toNat, none⟩ ∧ pre = [] ∧ bits0 = 0
        | some px => bits0 = widthOf px.pre + px.subtype.width ∧ pre = fieldsAt s s.cur.off px.pre ∧
            key = ⟨t.toNat, some (fieldAt s (s.cur.off + widthOf px.pre) px.subtype).raw⟩) →
      bits0 = 0 ∨ Fits s bits0 → s.cfg.integLayout.lookup key = some lay →
      let w := integWalk s key lay (s.cur.off + bits0)
      let fs := fieldsAt s (s.cur.off + bits0) lay.header
      (∀ p raw ref, firstStop s.cur.bitlen (s.cur.off + bits0) w.events = none →
        rawOf .provider fs = some p → rawOf .epoch fs = some raw → s.refTime = some ref →
        exec (.integ t) s =
          .next { (s.past (bits0 + eventBits w.events)).answers (.message (.integrity ⟨key, fieldsOf pre, p, w.part⟩)) with
            is := (integUpdate s.cfg s.is p (epochOf s.cfg .integ raw ref) key w.part).1 }) ∧
      ∀ x, firstStop s.cur.bitlen (s.cur.off + bits0) w.events = some x → exec (.integ t) s = .next (s.stopsAt x)

/-! ## The top level -/

/-- R193, R194, R202: DISPATCH reads the type and runs the row the type decodes to; a type without a row answers RawUnhandled; a
payload too short for the type is truncated. -/
def Obligations.DispatchRunsTheTypesRow : Prop :=
  ∀ s, s.configured = true → cfgAccepted s.cfg = true →
    let t := BitVec.ofNat 12 (bitsAt s s.cur.off 12)
    let s1 : State := { s.past 12 with f := { s.f with type := t } }
    (Fits s 12 → exec .dispatch s = exec (decodeType s.cfg t) s1) ∧
    (Fits s 12 → s.cfg.typeTable.lookup t.toNat = none → ∃ b,
      exec .dispatch s = .next (s1.answers (.message (.rawUnhandled t b))) ∧ (s.f.valid = true → b = s.payload)) ∧
    (s.cur.bitlen < s.cur.off + 12 → exec .dispatch s = .next (s.stops .truncatedMessage (.bits s.cur.off 12)))

/-- R190, R191, R192: the outcomes of DECODE_ONE, row by row: SCAN, OUT, F, the bytes consumed, and the caches after a
condition. The bytes consumed are the spec's choice (D12). -/
def Obligations.DecodeOneOutcomes : Prop :=
  ∀ s, s.configured = true → s.cfg.crc.reflected = false → s.scan ≤ s.slen →
    (NoCandidate s s.scan →
      exec .decodeOne s =
        .next { s.answers (.decoded (s.slen - s.scan) none) with
          f := { s.f with valid := false }, scan := s.slen, out := none }) ∧
    ∀ p, FirstCandidate s s.scan p →
      (s.slen < p + 3 ∨ s.slen < p + lengthField s p + 6 →
        exec .decodeOne s =
          .next { s.stops .truncatedMessage (.pos p) with f := { s.f with valid := false }, scan := p, out := none }) ∧
      (p + lengthField s p + 6 ≤ s.slen →
        (frameCrc s p (lengthField s p)).toNat ≠ trailingField s p (lengthField s p) →
        exec .decodeOne s =
          .next { s.stops .checksumMismatch (.pos p) with
            f := { s.f with valid := false }, scan := p + 1, out := none }) ∧
      (∀ len, FrameAt s p len → ∃ t, exec .decodeOne s = .next t ∧ t.scan = p + len + 6 ∧
        t.f = { acceptedFrame s p len with type := t.f.type } ∧ t.cur.space = .stream ∧ t.cur.base = p + 3 ∧ t.cur.len = len ∧
        t.stream = s.stream ∧ t.slen = s.slen ∧ t.obuf = s.obuf ∧ t.olen = s.olen ∧ t.cfg = s.cfg ∧ t.refTime = s.refTime ∧
        ((t.result = ⟨.ok, .zero⟩ ∧ ∃ m, t.out = some m ∧ t.ret = .decoded (p + len + 6 - s.scan) (some m)) ∨
          (t.result.code ≠ .ok ∧ t.out = none ∧ t.ret = .none ∧ t.lk = s.lk ∧ t.cs = s.cs ∧ t.is = s.is)))

/-- R210: ENCODE_ONE: a RawUnhandled message is its own payload; a message no type maps to is a usage error; otherwise, where every
field's value fits, the payload holds the type and the fields in layout order, then zero bits to a whole byte, and its frame is
answered. A payload above 1023 bytes is a UsageError with its length (R152), and a write that is refused ends it in its condition
(R132), with the message as the argument where the condition names none (DESIGN CHOICE, log 55); OBUF then holds the writes that were
done (DEDUCED, log 38). The least type is R210's own choice (D17). The cursor at byte 3 and the OBUF emptied first are log 38
(DEDUCED); the fields the message does not determine, the records of an incremental message, the split of a range and the residual
codes are logs 30 to 32 (DESIGN CHOICE). R262: where a range and its fine fields can be split at all, with every fine field rounded or
to within one unit, the chosen split fits them. -/
def Obligations.EncodeOneWritesTheFields : Prop :=
  (∀ s, s.configured = true → s.cfg.crc.reflected = false →
    (∀ t payload, payload.length ≤ 1023 → ∃ m,
      exec (.encodeOne (.rawUnhandled t payload)) s =
        .next { s.answers (.bytes (frameOf s.cfg payload)) with obuf := m, olen := payload.length + 6 } ∧
      ∀ a, Memory.get m a = (frameOf s.cfg payload).getD a 0) ∧
    (∀ t payload, 1023 < payload.length →
      exec (.encodeOne (.rawUnhandled t payload)) s =
        .next { s.stops .usageError (.arg (.int payload.length)) with obuf := [], olen := 0 }) ∧
    (∀ msg, typeFor s.cfg msg = none →
      exec (.encodeOne msg) s = .next { s.stops .usageError (.arg (.message msg)) with obuf := [], olen := 0 }) ∧
    (∀ msg t, (∀ t' b, msg ≠ .rawUnhandled t' b) → typeFor s.cfg msg = some t →
      let items := payloadItems s t msg
      (∀ i ∈ items, WItem.writable i = true) → itemBits items ≤ 8 * 1023 → ∃ payload m,
        exec (.encodeOne msg) s =
          .next { s.answers (.bytes (frameOf s.cfg payload)) with
            obuf := m
            olen := payload.length + 6
            cur := ⟨.obuf, 3, payload.length, itemBits items⟩ } ∧
        (∀ a, Memory.get m a = (frameOf s.cfg payload).getD a 0) ∧
        payload.length = (itemBits items + 7) / 8 ∧ Holds payload 0 items ∧
        ∀ k, itemBits items ≤ k → bitAt (listByte payload) k = false) ∧
    (∀ msg t, (∀ t' b, msg ≠ .rawUnhandled t' b) → typeFor s.cfg msg = some t →
      let items := payloadItems s t msg
      let len := (itemBits items + 7) / 8
      ((∀ i ∈ items, WItem.writable i = true) → 8 * 1023 < itemBits items → ∃ m,
        exec (.encodeOne msg) s =
          .next { s.stops .usageError (.arg (.int len)) with
            obuf := m, olen := 3 + len, cur := ⟨.obuf, 3, len, itemBits items⟩ } ∧
        Unframed m len items) ∧
      ∀ done i rest c, items = done ++ i :: rest → (∀ i ∈ done, WItem.writable i = true) → WItem.Refused i c → ∃ m,
        exec (.encodeOne msg) s =
          .next { s.stops (c.ofOperand (.message msg)).code ((c.ofOperand (.message msg)).info s.free) with
            obuf := m, olen := 3 + len, cur := ⟨.obuf, 3, len, itemBits done⟩ } ∧
        Unframed m len done)) ∧
  ∀ ds bias targets raws, (∀ d ∈ ds, 0 < d.scale) → (∀ x ∈ targets, 0 < x.d.scale) →
    (splitFits .nearest ds targets raws = true → splitFits .nearest ds targets (chooseSplit ds bias targets) = true) ∧
    (splitFits .oneUnit ds targets raws = true → splitFits .oneUnit ds targets (chooseSplit ds bias targets) = true)

/-- R210, R233, R206, R288, R134: encoding a message that a handler read gives the bits it was read from, behind a type of that
handler: ephemerides, station messages, and the corrections with one record per satellite (the bias kinds merge their sub-records).
Every name stands once in its list of fields, satellite ids and string counts are unsigned, a raw week is below the modulus, and no
two entries of the quality table share a value (R284). -/
def Obligations.EncodeOneReversesAMessage : Prop :=
  ∀ s i t m h, s.configured = true → cfgAccepted s.cfg = true → exec i s = .next t → t.ret = .message m →
    (∃ x, (x, h) ∈ s.cfg.typeTable) →
    ((∃ c lay, i = Instr.ofEph c ∧ h = .eph c ∧ s.cfg.ephLayout.get c = some lay ∧ (lay.header.map (·.name)).Nodup ∧
        (∀ d ∈ lay.header, d.name = .svid → d.signed = false) ∧
        ∀ raw modulus, rawOf .weekRaw (fieldsAt s s.cur.off lay.header) = some raw → weekModulus s.cfg c = some modulus →
          0 ≤ raw ∧ raw < modulus) ∨
      (∃ k items, i = Instr.ofSta k ∧ h = .sta k ∧ s.cfg.staLayout.lookup k = some items ∧
        (items.map fun x => match x with | .field d => d.name | .str n _ => n).Nodup ∧
        ∀ n c, .str n c ∈ items → c.signed = false) ∨
      (∃ c k lay, i = Instr.ofSsr c k ∧ h = .ssr c k ∧ k ≠ .codebias ∧ k ≠ .phasebias ∧
        s.cfg.ssrLayout.lookup (c, k) = some lay ∧ (lay.header.map (·.name)).Nodup ∧ (lay.record.map (·.name)).Nodup ∧
        (lay.clockRecord.map (·.name)).Nodup ∧ lay.svid.signed = false ∧
        ∀ x y q, s.cfg.uraTable.lookup x = some q → s.cfg.uraTable.lookup y = some q → x = y)) →
    let n := t.cur.off - s.cur.off
    12 + n ≤ 8 * 1023 → ∀ u : State, u.configured = true → u.cfg = s.cfg → ∃ t' payload i',
      exec (.encodeOne m) u = .next t' ∧ t'.ret = .bytes (frameOf s.cfg payload) ∧ payload.length = (12 + n + 7) / 8 ∧
      decodeMessage s.cfg payload = .ok i' ∧
      (i' = i ∨ ∃ c k o, h = .ssr c k ∧ i' = Instr.ofSsrTest o c ∧ s.cfg.testKindOfOffset.lookup o = some k) ∧
      ∀ j, j < n → (bitAt (listByte payload) (12 + j)).toNat = curBit s (s.cur.off + j)

/-- R90, R92, R147 (log 15): a frame that arrives at the stream position lies there byte for byte and is decoded: accepted
whatever its pad bits if its CRC field is the CRC, rejected otherwise. -/
def Obligations.AnArrivingFrameIsDecoded : Prop :=
  ∀ s pad payload crc, s.configured = true → s.cfg.crc.reflected = false → Memory.wf s.stream = true → s.scan ≤ s.slen →
    payload.length ≤ 1023 → ∃ m,
    let b := encodeFrame s.cfg pad payload crc
    let s' : State := { s with stream := m, slen := max s.slen (s.scan + (payload.length + 6)) }
    (∀ a, Memory.get m a =
      if s.scan ≤ a ∧ a < s.scan + (payload.length + 6) then b.getD (a - s.scan) 0 else Memory.get s.stream a) ∧
    exec (.frame pad payload crc) s = exec .decodeOne s' ∧
    (crc = Sys2Proof.Machine.crc24 s.cfg.crc (b.take (payload.length + 3)) → ∃ t,
      exec (.frame pad payload crc) s = .next t ∧ t.scan = s.scan + (payload.length + 6) ∧ t.f.valid = true ∧
      t.payload = payload ∧ t.stream = m) ∧
    (crc ≠ Sys2Proof.Machine.crc24 s.cfg.crc (b.take (payload.length + 3)) →
      exec (.frame pad payload crc) s =
        .next { s'.stops .checksumMismatch (.pos s.scan) with
          f := { s.f with valid := false }, scan := s.scan + 1, out := none })

/-! ## Whole-machine rules -/

/-- R16, R76 (log 1): a step performs the oldest issued operation whole. -/
def Obligations.StepRunsTheIssuedOperation : Prop :=
  ∀ s i rest, s.port = i :: rest → step s = exec i { s with port := rest }

/-- R113, R190, R193: where DECODE_ONE is issued and a frame stands at the first candidate whose payload decodes to the row `i`,
the step runs `i` on the payload: F and SCAN are set and the cursor stands after the type; afterwards the message is in OUT. -/
def Obligations.StepRunsTheDecodedMessage : Prop :=
  ∀ s rest p len i, s.port = .decodeOne :: rest → s.configured = true → cfgAccepted s.cfg = true → s.scan ≤ s.slen →
    FirstCandidate s s.scan p → FrameAt s p len →
    let payload := Memory.slice s.stream (p + 3) len
    decodeMessage s.cfg payload = .ok i →
    let s1 : State := { s with
      port := rest
      out := none
      window := false
      f := { acceptedFrame s p len with type := BitVec.ofNat 12 (ubits (listByte payload) 0 12) }
      scan := p + len + 6
      cur := ⟨.stream, p + 3, len, 12⟩ }
    step s =
      match exec i s1 with
      | .next t =>
        match t.ret with
        | .message m => .next { t with out := some m, ret := .decoded (p + len + 6 - s.scan) (some m) }
        | _ => .next t
      | o => o

/-- R16, R401: every operation ends in a result or in a condition, if the host keeps its one duty: writes to OBUF only. -/
def Obligations.EveryOperationEnds : Prop :=
  ∀ i s, s.Inv →
    ((∃ w v o, i = .writeU w v o ∨ i = .writeS w v o) ∨ (∃ b, i = .writeBytes b) → s.cur.space = .obuf) →
    ∃ t, exec i s = .next t ∧ ((t.result = ⟨.ok, .zero⟩ ∧ t.ret ≠ .none) ∨ (t.result.code ≠ .ok ∧ t.ret = .none))

/-- R310, R361: an operation that ends in a condition leaves LK, CS and IS exactly as they were, over all instructions; that this
holds for the addressed entry too is the spec's choice (R310). -/
def Obligations.ConditionsLeaveTheCaches : Prop :=
  ∀ i s t, exec i s = .next t → t.result.code ≠ .ok → t.lk = s.lk ∧ t.cs = s.cs ∧ t.is = s.is

/-- The stops of the model by name, and no others (logs 17, 21): a write whose bits would move under a cursor over STREAM, and every
operation that computes a CRC under a reflected configuration, for which R145 has no rule. -/
def Obligations.NamedStops : Prop :=
  (∀ s, s.configured = true →
    (s.cfg.crc.reflected = true → (∀ b, exec (.crc24 b) s = .refused .reflectedCrc) ∧
      (∀ n, exec (.findFrame n) s = .refused .reflectedCrc) ∧ (∀ b, exec (.frameEmit b) s = .refused .reflectedCrc) ∧
      (∀ m, exec (.encodeOne m) s = .refused .reflectedCrc) ∧ exec .decodeOne s = .refused .reflectedCrc ∧
      ∀ p b c, exec (.frame p b c) s = .refused .reflectedCrc) ∧
    (s.cur.space = .stream →
      (∀ w v ovf, 1 ≤ w → w ≤ 64 → s.cur.off + w ≤ s.cur.bitlen →
        (ovf = .truncate ∨ (0 ≤ v ∧ v < 2 ^ w) → exec (.writeU w v ovf) s = .fault .writeOnStreamCursor) ∧
        (ovf = .truncate ∨ (-(2 ^ (w - 1)) ≤ v ∧ v < 2 ^ (w - 1)) → exec (.writeS w v ovf) s = .fault .writeOnStreamCursor)) ∧
      ∀ b, b ≠ [] → s.cur.off % 8 = 0 → s.cur.off + 8 * b.length ≤ s.cur.bitlen →
        exec (.writeBytes b) s = .fault .writeOnStreamCursor)) ∧
  ∀ i s,
    (∀ f, exec i s = .fault f → s.configured = true ∧ f = .writeOnStreamCursor ∧ s.cur.space = .stream ∧
      ((∃ w v o, i = .writeU w v o ∨ i = .writeS w v o) ∨ ∃ b, i = .writeBytes b)) ∧
    ∀ r, exec i s = .refused r → s.configured = true ∧ r = .reflectedCrc ∧ s.cfg.crc.reflected = true ∧
      (i = .decodeOne ∨ (∃ p b c, i = .frame p b c) ∨ (∃ b, i = .crc24 b ∨ i = .frameEmit b) ∨ (∃ n, i = .findFrame n) ∨
        ∃ m, i = .encodeOne m)

/-- The invariant of a decoding context holds right after reset. -/
def Obligations.InvariantHoldsAtReset : Prop := State.Inv State.reset

/-- R22, R24, R25, R43, R163, R313, R388: every step keeps the invariant: STREAM and OBUF stay canonical and inside their lengths,
SCAN inside STREAM, the cursor inside its span, F a frame with a matching CRC while it is valid, the configuration accepted, the
caches' entries as R43 and R336 leave them. -/
def Obligations.StepKeepsTheInvariant : Prop := ∀ s t, s.Inv → step s = .next t → t.Inv
end

