-- ==== Sys2Proof/Laws/Memory.lean ====
section
/-! SUPPORT. Byte memories: read after write, the canonical form, the range of listed addresses. -/

namespace Sys2Proof.Machine

@[simp] theorem Memory.get_nil (a : Nat) : Memory.get [] a = 0 := rfl

theorem Memory.get_cons (k : Nat) (v : Byte) (m : Memory) (a : Nat) :
    Memory.get ((k, v) :: m) a = if k = a then v else Memory.get m a := rfl

/-- An address below every listed one reads as zero. -/
theorem Memory.get_below (m : Memory) (a : Nat) (h : ∀ c ∈ m, a < c.1) : Memory.get m a = 0 := by
  induction m with
  | nil => rfl
  | cons c m ih =>
    obtain ⟨k, v⟩ := c
    have hk : a < k := h (k, v) (by simp)
    rw [Memory.get_cons, if_neg (by omega)]
    exact ih (fun c hc => h c (by simp [hc]))

/-- The canonical form, as a proposition. -/
theorem Memory.wf_iff (m : Memory) :
    Memory.wf m = true ↔ (m.map Prod.fst).Pairwise (· < ·) ∧ ∀ c ∈ m, c.2 ≠ 0 := by
  simp [Memory.wf]

theorem Memory.wf_cons (k : Nat) (v : Byte) (m : Memory) :
    Memory.wf ((k, v) :: m) = true ↔ (∀ c ∈ m, k < c.1) ∧ v ≠ 0 ∧ Memory.wf m = true := by
  simp only [Memory.wf_iff, List.map_cons, List.pairwise_cons, List.mem_map, List.mem_cons]
  constructor
  · rintro ⟨⟨h1, h2⟩, h3⟩
    exact ⟨fun c hc => h1 c.1 ⟨c, hc, rfl⟩, h3 (k, v) (Or.inl rfl), h2, fun c hc => h3 c (Or.inr hc)⟩
  · rintro ⟨h1, h2, h3, h4⟩
    refine ⟨⟨?_, h3⟩, ?_⟩
    · rintro x ⟨c, hc, rfl⟩
      exact h1 c hc
    · rintro c (rfl | hc)
      · exact h2
      · exact h4 c hc

/-- Every address a store lists was listed before or is the stored one. -/
theorem Memory.mem_set (m : Memory) (a : Nat) (b : Byte) (c : Host.Cell) (h : c ∈ Memory.set m a b) : c ∈ m ∨ c.1 = a := by
  induction m with
  | nil =>
    simp only [Memory.set] at h
    split at h <;> simp_all
  | cons d m ih =>
    obtain ⟨k, v⟩ := d
    simp only [Memory.set] at h
    split at h
    · split at h <;> simp_all
      rcases h with rfl | h | h <;> simp_all
    · split at h
      · split at h <;> simp_all
        rcases h with rfl | h <;> simp_all
      · simp only [List.mem_cons] at h ⊢
        rcases h with rfl | h
        · simp
        · rcases ih h with h | h <;> simp_all

/-- A store keeps the canonical form. -/
theorem Memory.set_wf (m : Memory) (a : Nat) (b : Byte) (h : Memory.wf m = true) : Memory.wf (Memory.set m a b) = true := by
  induction m with
  | nil =>
    simp only [Memory.set]
    split
    · rfl
    · next hb => rw [Memory.wf_cons]; exact ⟨by simp, hb, rfl⟩
  | cons d m ih =>
    obtain ⟨k, v⟩ := d
    rw [Memory.wf_cons] at h
    obtain ⟨h1, h2, h3⟩ := h
    simp only [Memory.set]
    split
    · next hak =>
      split
      · rw [Memory.wf_cons]; exact ⟨h1, h2, h3⟩
      · next hb =>
        rw [Memory.wf_cons, Memory.wf_cons]
        refine ⟨?_, hb, h1, h2, h3⟩
        intro c hc
        rcases List.mem_cons.mp hc with rfl | hc
        · exact hak
        · exact Nat.lt_trans hak (h1 c hc)
    · split
      · split
        · exact h3
        · next hb => rw [Memory.wf_cons]; exact ⟨h1, hb, h3⟩
      · next hak hne =>
        rw [Memory.wf_cons]
        refine ⟨?_, h2, ih h3⟩
        intro c hc
        rcases Memory.mem_set m a b c hc with hc | rfl
        · exact h1 c hc
        · omega

/-- Reading after a store (R14). -/
theorem Memory.get_set (m : Memory) (a : Nat) (b : Byte) (x : Nat) (h : Memory.wf m = true) :
    Memory.get (Memory.set m a b) x = if x = a then b else Memory.get m x := by
  induction m with
  | nil =>
    simp only [Memory.set]
    split
    · next hb => subst hb; simp
    · simp only [Memory.get_cons, Memory.get_nil]
      by_cases hx : a = x
      · simp [hx]
      · rw [if_neg hx, if_neg (fun h => hx h.symm)]
  | cons d m ih =>
    obtain ⟨k, v⟩ := d
    rw [Memory.wf_cons] at h
    obtain ⟨h1, h2, h3⟩ := h
    simp only [Memory.set]
    split
    · next hak =>
      have hbelow : Memory.get ((k, v) :: m) a = 0 :=
        Memory.get_below _ _ (fun c hc => by
          rcases List.mem_cons.mp hc with rfl | hc
          · exact hak
          · exact Nat.lt_trans hak (h1 c hc))
      split
      · next hb =>
        by_cases hx : x = a
        · rw [if_pos hx, hx, hbelow, hb]
        · rw [if_neg hx]
      · rw [Memory.get_cons]
        by_cases hx : a = x
        · simp [hx]
        · rw [if_neg hx, if_neg (fun h => hx h.symm)]
    · split
      · next hak hka =>
        subst hka
        split
        · next hb =>
          by_cases hx : x = a
          · rw [if_pos hx, hx, hb]; exact Memory.get_below _ _ h1
          · rw [if_neg hx, Memory.get_cons, if_neg (fun h => hx h.symm)]
        · rw [Memory.get_cons, Memory.get_cons]
          by_cases hx : a = x
          · simp [hx]
          · rw [if_neg hx, if_neg (fun h => hx h.symm), if_neg hx]
      · next hak hka =>
        rw [Memory.get_cons, Memory.get_cons, ih h3]
        by_cases hx : k = x
        · rw [if_pos hx, if_pos hx, if_neg (by omega)]
        · rw [if_neg hx, if_neg hx]

/-- A block store keeps the canonical form. -/
theorem Memory.write_wf (bs : List Byte) (m : Memory) (a : Nat) (h : Memory.wf m = true) :
    Memory.wf (Memory.write m a bs) = true := by
  induction bs generalizing m a with
  | nil => exact h
  | cons b bs ih => exact ih _ _ (Memory.set_wf m a b h)

/-- Reading after a block store: the stored bytes, and every other byte as before. -/
theorem Memory.get_write (bs : List Byte) (m : Memory) (a x : Nat) (h : Memory.wf m = true) :
    Memory.get (Memory.write m a bs) x = if a ≤ x ∧ x < a + bs.length then bs.getD (x - a) 0 else Memory.get m x := by
  induction bs generalizing m a with
  | nil => simp [Memory.write]
  | cons b bs ih =>
    simp only [Memory.write]
    rw [ih _ _ (Memory.set_wf m a b h), Memory.get_set _ _ _ _ h]
    by_cases hx : x = a
    · subst hx
      rw [if_neg (by omega), if_pos rfl, if_pos (by simp)]
      simp
    · rw [if_neg hx]
      by_cases hin : a + 1 ≤ x ∧ x < a + 1 + bs.length
      · rw [if_pos hin, if_pos ⟨by omega, by simp; omega⟩]
        obtain ⟨d, rfl⟩ : ∃ d, x = a + 1 + d := ⟨x - (a + 1), by omega⟩
        simp [show a + 1 + d - a = d + 1 by omega]
      · rw [if_neg hin, if_neg (by simp; omega)]

/-- Every address a block store lists was listed before or lies in the block. -/
theorem Memory.mem_write (bs : List Byte) (m : Memory) (a : Nat) (c : Host.Cell) (h : c ∈ Memory.write m a bs) :
    c ∈ m ∨ (a ≤ c.1 ∧ c.1 < a + bs.length) := by
  induction bs generalizing m a with
  | nil => exact Or.inl h
  | cons b bs ih =>
    rcases ih _ _ h with h | h
    · rcases Memory.mem_set _ _ _ _ h with h | h
      · exact Or.inl h
      · right; simp; omega
    · right; simp; omega

@[simp] theorem Memory.slice_length (m : Memory) (a n : Nat) : (Memory.slice m a n).length = n := by simp [Memory.slice]

/-- A slice depends only on its own bytes. -/
theorem Memory.slice_congr (m m' : Memory) (a n : Nat) (h : ∀ x, a ≤ x → x < a + n → Memory.get m x = Memory.get m' x) :
    Memory.slice m a n = Memory.slice m' a n := by
  simp only [Memory.slice, List.map_inj_left, List.mem_range]
  intro i hi
  exact h _ (by omega) (by omega)

/-- The slice of a written block is the block. -/
theorem Memory.slice_write (bs : List Byte) (m : Memory) (a : Nat) (h : Memory.wf m = true) :
    Memory.slice (Memory.write m a bs) a bs.length = bs := by
  apply List.ext_getElem (by simp)
  intro i h1 h2
  simp only [Memory.slice, List.getElem_map, List.getElem_range]
  rw [Memory.get_write _ _ _ _ h, if_pos ⟨by omega, by omega⟩]
  simp [h2]

/-- Setting one bit: that bit, and every other byte as before. -/
theorem setBit_wf (m : Memory) (base k : Nat) (b : Bool) (h : Memory.wf m = true) : Memory.wf (setBit m base k b) = true :=
  Memory.set_wf _ _ _ h

theorem setBit_get_ne (m : Memory) (base k : Nat) (b : Bool) (x : Nat) (h : Memory.wf m = true) (hx : x ≠ base + k / 8) :
    Memory.get (setBit m base k b) x = Memory.get m x := by
  simp only [setBit]
  rw [Memory.get_set _ _ _ _ h, if_neg hx]

theorem writeBits_wf (w : Nat) (m : Memory) (base off v : Nat) (h : Memory.wf m = true) :
    Memory.wf (writeBits m base off w v) = true := by
  induction w generalizing m off with
  | zero => exact h
  | succ w ih => exact ih _ _ (setBit_wf _ _ _ _ h)

/-- A bit-field write changes no byte outside the bytes of its field (R129). -/
theorem writeBits_get_ne (w : Nat) (m : Memory) (base off v x : Nat) (h : Memory.wf m = true)
    (hx : x < base + off / 8 ∨ base + (off + w + 7) / 8 ≤ x) : Memory.get (writeBits m base off w v) x = Memory.get m x := by
  induction w generalizing m off with
  | zero => rfl
  | succ w ih =>
    simp only [writeBits]
    rw [ih _ _ (setBit_wf _ _ _ _ h) (by omega), setBit_get_ne _ _ _ _ _ h (by omega)]

theorem setBit_mem (m : Memory) (base k : Nat) (b : Bool) (c : Host.Cell) (h : c ∈ setBit m base k b) :
    c ∈ m ∨ c.1 = base + k / 8 := Memory.mem_set _ _ _ _ h

theorem writeBits_mem (w : Nat) (m : Memory) (base off v : Nat) (c : Host.Cell) (h : c ∈ writeBits m base off w v) :
    c ∈ m ∨ (base + off / 8 ≤ c.1 ∧ c.1 < base + (off + w + 7) / 8) := by
  induction w generalizing m off with
  | zero => exact Or.inl h
  | succ w ih =>
    rcases ih _ _ h with h | h
    · rcases setBit_mem _ _ _ _ _ h with h | h
      · exact Or.inl h
      · right; omega
    · right; omega

end Sys2Proof.Machine
end

