-- ==== Sys2Proof/Laws/Maps.lean ====
section
/-! SUPPORT. Keyed register files: lookup after an insertion or a removal, and the order of the keys. -/

namespace Sys2Proof.Machine

variable {κ ν : Type} [DecidableEq κ]

/-- What the lemmas ask of an order of keys. -/
structure KeyOrder (lt : κ → κ → Bool) : Prop where
  irrefl : ∀ a, lt a a = false
  trans : ∀ a b c, lt a b = true → lt b c = true → lt a c = true
  total : ∀ a b, a ≠ b → lt a b = true ∨ lt b a = true

theorem lookup_insertKey_same (lt : κ → κ → Bool) (k : κ) (v : ν) (m : List (κ × ν)) :
    (insertKey lt k v m).lookup k = some v := by
  induction m with
  | nil => simp [insertKey]
  | cons x m ih =>
    obtain ⟨k', v'⟩ := x
    simp only [insertKey]
    split
    · simp
    · next h =>
      split
      · simp
      · rw [List.lookup_cons, beq_eq_false_iff_ne.mpr h]
        exact ih

theorem lookup_insertKey_ne (lt : κ → κ → Bool) (k x : κ) (v : ν) (m : List (κ × ν)) (h : x ≠ k) :
    (insertKey lt k v m).lookup x = m.lookup x := by
  induction m with
  | nil => simp [insertKey, List.lookup_cons, beq_eq_false_iff_ne.mpr h]
  | cons y m ih =>
    obtain ⟨k', v'⟩ := y
    simp only [insertKey]
    split
    · next hk => subst hk; simp [List.lookup_cons, beq_eq_false_iff_ne.mpr h]
    · split
      · rw [List.lookup_cons, beq_eq_false_iff_ne.mpr h]
      · rw [List.lookup_cons, List.lookup_cons, ih]

theorem mem_insertKey (lt : κ → κ → Bool) (k : κ) (v : ν) (m : List (κ × ν)) (x : κ × ν)
    (h : x ∈ insertKey lt k v m) : x ∈ m ∨ x = (k, v) := by
  induction m with
  | nil => simp_all [insertKey]
  | cons y m ih =>
    obtain ⟨k', v'⟩ := y
    simp only [insertKey] at h
    split at h
    · rcases List.mem_cons.mp h with h | h
      · exact Or.inr h
      · exact Or.inl (List.mem_cons_of_mem _ h)
    · split at h
      · rcases List.mem_cons.mp h with h | h
        · exact Or.inr h
        · exact Or.inl h
      · rcases List.mem_cons.mp h with h | h
        · exact Or.inl (h ▸ List.mem_cons_self ..)
        · rcases ih h with h | h
          · exact Or.inl (List.mem_cons_of_mem _ h)
          · exact Or.inr h

theorem insertKey_sorted {lt : κ → κ → Bool} (ho : KeyOrder lt) (k : κ) (v : ν) (m : List (κ × ν))
    (h : sortedKeys lt m) : sortedKeys lt (insertKey lt k v m) := by
  induction m with
  | nil => simp [insertKey, sortedKeys]
  | cons y m ih =>
    obtain ⟨k', v'⟩ := y
    simp only [sortedKeys, List.pairwise_cons] at h
    simp only [insertKey]
    split
    · next hk =>
      subst hk
      simp only [sortedKeys, List.pairwise_cons]
      exact h
    · next hk =>
      split
      · next hlt =>
        simp only [sortedKeys, List.pairwise_cons, List.mem_cons]
        refine ⟨?_, h⟩
        rintro x (rfl | hx)
        · exact hlt
        · exact ho.trans _ _ _ hlt (h.1 x hx)
      · next hlt =>
        simp only [sortedKeys, List.pairwise_cons]
        refine ⟨?_, ih h.2⟩
        intro x hx
        rcases mem_insertKey lt k v m x hx with hx | rfl
        · exact h.1 x hx
        · rcases ho.total k k' hk with h' | h'
          · exact absurd h' hlt
          · exact h'

theorem mem_eraseKey (k : κ) (m : List (κ × ν)) (x : κ × ν) (h : x ∈ eraseKey k m) : x ∈ m := List.mem_of_mem_filter h

theorem eraseKey_sorted (lt : κ → κ → Bool) (k : κ) (m : List (κ × ν)) (h : sortedKeys lt m) :
    sortedKeys lt (eraseKey k m) := h.filter _

theorem lookup_eraseKey_same (k : κ) (m : List (κ × ν)) : (eraseKey k m).lookup k = none := by
  induction m with
  | nil => rfl
  | cons y m ih =>
    obtain ⟨k', v'⟩ := y
    simp only [eraseKey, List.filter_cons] at ih ⊢
    by_cases hk : k' = k
    · simp only [hk, ne_eq, not_true_eq_false, decide_false, Bool.false_eq_true, if_false]
      exact ih
    · simp only [ne_eq, hk, not_false_eq_true, decide_true, if_true]
      rw [List.lookup_cons, beq_eq_false_iff_ne.mpr (fun h => hk h.symm)]
      exact ih

theorem lookup_eraseKey_ne (k x : κ) (m : List (κ × ν)) (h : x ≠ k) : (eraseKey k m).lookup x = m.lookup x := by
  induction m with
  | nil => rfl
  | cons y m ih =>
    obtain ⟨k', v'⟩ := y
    simp only [eraseKey, List.filter_cons] at ih ⊢
    by_cases hk : k' = k
    · subst hk
      simp only [ne_eq, not_true_eq_false, decide_false, Bool.false_eq_true, if_false]
      rw [List.lookup_cons, beq_eq_false_iff_ne.mpr h]
      exact ih
    · simp only [ne_eq, hk, not_false_eq_true, decide_true, if_true]
      rw [List.lookup_cons, List.lookup_cons]
      cases x == k' <;> simp only
      exact ih

/-! ## The orders in use -/

theorem intLt_order : KeyOrder intLt :=
  ⟨fun a => by simp [intLt], fun a b c h1 h2 => by simp [intLt] at *; omega, fun a b h => by simp [intLt]; omega⟩

theorem integLt_order : KeyOrder integLt where
  irrefl a := by obtain ⟨t, x⟩ := a; cases x <;> simp [integLt]
  trans a b c := by
    obtain ⟨t1, x1⟩ := a; obtain ⟨t2, x2⟩ := b; obtain ⟨t3, x3⟩ := c
    cases x1 <;> cases x2 <;> cases x3 <;> simp [integLt] <;> omega
  total a b h := by
    obtain ⟨t1, x1⟩ := a; obtain ⟨t2, x2⟩ := b
    cases x1 <;> cases x2 <;> simp [integLt] at * <;> omega

theorem entryLt_order : KeyOrder entryLt where
  irrefl a := by cases a <;> simp [entryLt]
  trans a b c := by
    cases a <;> cases b <;> cases c <;> simp only [entryLt, decide_eq_true_eq, Bool.false_eq_true, imp_self, implies_true,
      false_implies, forall_const]
    all_goals exact Nat.lt_trans
  total a b h := by
    cases a <;> cases b <;> simp_all only [entryLt, decide_eq_true_eq, or_true, true_or, Bool.false_eq_true, ne_eq,
      not_true_eq_false, EntryKey.sat.injEq, EntryKey.point.injEq]
    all_goals exact Nat.lt_or_gt_of_ne h

theorem char_toNat_inj (a b : Char) (h : a.toNat = b.toNat) : a = b := Char.toNat_inj.mp h

theorem sigLt_order : KeyOrder sigLt where
  irrefl a := by simp [sigLt]
  trans a b c := by simp only [sigLt, Bool.or_eq_true, Bool.and_eq_true, decide_eq_true_eq]; omega
  total a b h := by
    simp only [sigLt, Bool.or_eq_true, Bool.and_eq_true, decide_eq_true_eq]
    by_cases h1 : a.band = b.band
    · by_cases h2 : a.attr.toNat = b.attr.toNat
      · have h3 := char_toNat_inj _ _ h2
        exact absurd (by cases a; cases b; simp_all) h
      · omega
    · omega

theorem lockLt_order : KeyOrder lockLt where
  irrefl a := by simp [lockLt, sigLt]
  trans a b c := by
    simp only [lockLt, Bool.or_eq_true, Bool.and_eq_true, decide_eq_true_eq]
    rintro (h1 | ⟨h1, h1'⟩) (h2 | ⟨h2, h2'⟩)
    · exact Or.inl (Nat.lt_trans h1 h2)
    · exact Or.inl (h2 ▸ h1)
    · exact Or.inl (h1 ▸ h2)
    · exact Or.inr ⟨h1.trans h2, sigLt_order.trans _ _ _ h1' h2'⟩
  total a b h := by
    simp only [lockLt, Bool.or_eq_true, Bool.and_eq_true, decide_eq_true_eq]
    by_cases h1 : a.1 = b.1
    · have h2 : a.2 ≠ b.2 := fun h2 => h (Prod.ext h1 h2)
      rcases sigLt_order.total _ _ h2 with h3 | h3
      · exact Or.inl (Or.inr ⟨h1, h3⟩)
      · exact Or.inr (Or.inr ⟨h1.symm, h3⟩)
    · rcases Nat.lt_or_gt_of_ne h1 with h2 | h2
      · exact Or.inl (Or.inl h2)
      · exact Or.inr (Or.inl h2)

end Sys2Proof.Machine
end

