-- ==== Sys2Proof/Laws/Reading.lean ====
section
/-! SUPPORT. Reading operations: where they can end. `Within n P m` says that `m`, begun at or below bit `n`, ends at or below bit
`n`, never before where it began, and that its value has `P`. -/

namespace Sys2Proof.Machine

/-- See the file's head. -/
def Within {α : Type} (n : Nat) (P : α → Prop) (m : Rd α) : Prop :=
  ∀ off, off ≤ n →
    (∀ a off', m off = .ok a off' → off ≤ off' ∧ off' ≤ n ∧ P a) ∧ (∀ c off', m off = .stop c off' → off ≤ off' ∧ off' ≤ n)

section
variable {α β : Type} {n : Nat} {P : α → Prop} {Q : β → Prop}

theorem Within.pure (a : α) (h : P a) : Within n P (Rd.pure a) := by
  intro off ho
  constructor
  · intro b off' he
    simp only [Rd.pure, RdRes.ok.injEq] at he
    obtain ⟨rfl, rfl⟩ := he
    exact ⟨Nat.le_refl _, ho, h⟩
  · intro e off' he
    simp [Rd.pure] at he

theorem Within.raise (c : Cond) : Within n P (Rd.raise (α := α) c) := by
  intro off ho
  constructor
  · intro b off' he
    simp [Rd.raise] at he
  · intro e off' he
    simp only [Rd.raise, RdRes.stop.injEq] at he
    obtain ⟨rfl, rfl⟩ := he
    exact ⟨Nat.le_refl _, ho⟩

theorem Within.bind {m : Rd α} {k : α → Rd β} (hm : Within n P m) (hk : ∀ a, P a → Within n Q (k a)) :
    Within n Q (m.bind k) := by
  intro off ho
  obtain ⟨h1, h2⟩ := hm off ho
  simp only [Rd.bind]
  constructor
  · intro b off' he
    split at he
    · next a off1 h =>
      obtain ⟨ha, hb, hp⟩ := h1 _ _ h
      obtain ⟨h3, h4, h5⟩ := (hk a hp off1 hb).1 b off' he
      exact ⟨by omega, h4, h5⟩
    · simp at he
  · intro e off' he
    split at he
    · next a off1 h =>
      obtain ⟨ha, hb, hp⟩ := h1 _ _ h
      obtain ⟨h3, h4⟩ := (hk a hp off1 hb).2 e off' he
      exact ⟨by omega, h4⟩
    · next e' off1 h =>
      simp only [RdRes.stop.injEq] at he
      obtain ⟨rfl, rfl⟩ := he
      exact h2 _ _ h

theorem Within.map {m : Rd α} {f : α → β} (hm : Within n P m) (hf : ∀ a, P a → Q (f a)) :
    Within n Q (m.map f) := hm.bind fun a ha => Within.pure _ (hf a ha)

theorem Within.weaken {m : Rd α} {P' : α → Prop} (hm : Within n P m) (h : ∀ a, P a → P' a) : Within n P' m := by
  intro off ho
  obtain ⟨h1, h2⟩ := hm off ho
  exact ⟨fun a off' he => ⟨(h1 a off' he).1, (h1 a off' he).2.1, h a (h1 a off' he).2.2⟩, h2⟩

theorem Within.lift (r : Except Cond α) (h : ∀ a, r = .ok a → P a) : Within n P (Rd.lift r) := by
  cases r with
  | ok a => exact Within.pure a (h a rfl)
  | error c => exact Within.raise c

theorem Within.entry (r : Option α) (h : ∀ a, r = some a → P a) : Within n P (Rd.entry r) := by
  cases r with
  | some a => exact Within.pure a (h a rfl)
  | none => exact Within.raise _

theorem Within.entryFor (x : UsageArg) (r : Option α) (h : ∀ a, r = some a → P a) : Within n P (Rd.entryFor x r) := by
  cases r with
  | some a => exact Within.pure a (h a rfl)
  | none => exact Within.raise _

theorem Within.forEach {f : α → Rd β} (l : List α) (h : ∀ a ∈ l, Within n Q (f a)) :
    Within n (fun bs => ∀ b ∈ bs, Q b) (Rd.forEach f l) := by
  induction l with
  | nil => exact Within.pure _ (by simp)
  | cons a l ih =>
    refine Within.bind (h a (by simp)) fun b hb => ?_
    refine Within.bind (ih fun a ha => h a (List.mem_cons_of_mem _ ha)) fun bs hbs => ?_
    exact Within.pure _ (by
      intro x hx
      rcases List.mem_cons.mp hx with rfl | hx
      · exact hb
      · exact hbs x hx)

theorem Within.times {f : Rd β} (k : Nat) (h : Within n Q f) :
    Within n (fun bs => ∀ b ∈ bs, Q b) (Rd.times f k) := by
  induction k with
  | zero => exact Within.pure _ (by simp)
  | succ k ih =>
    refine Within.bind h fun b hb => ?_
    refine Within.bind ih fun bs hbs => ?_
    exact Within.pure _ (by
      intro x hx
      rcases List.mem_cons.mp hx with rfl | hx
      · exact hb
      · exact hbs x hx)

end

/-- Nothing is asked of a value. -/
abbrev Any {α : Type} : α → Prop := fun _ => True

variable {s : State}

/-- READ_U stays in the span (R123). -/
theorem readBitsU_within (w : Nat) : Within s.cur.bitlen (fun v => v < 2 ^ w) (readBitsU s w) := by
  intro off ho
  simp only [readBitsU]
  constructor
  · intro v off' he
    split at he
    · simp at he
    · split at he
      · simp at he
      · simp only [RdRes.ok.injEq] at he
        obtain ⟨rfl, rfl⟩ := he
        refine ⟨by omega, by omega, ?_⟩
        have : ∀ w, ubits s.curByte off w < 2 ^ w := by
          intro w
          induction w with
          | zero => simp [ubits]
          | succ w ih =>
            simp only [ubits, Nat.pow_succ]
            have := Bool.toNat_le (bitAt s.curByte (off + w))
            omega
        exact this w
  · intro e off' he
    split at he
    · simp only [RdRes.stop.injEq] at he
      obtain ⟨rfl, rfl⟩ := he
      exact ⟨Nat.le_refl _, ho⟩
    · split at he
      · simp only [RdRes.stop.injEq] at he
        obtain ⟨rfl, rfl⟩ := he
        exact ⟨Nat.le_refl _, ho⟩
      · simp at he

theorem readByteBlock_within (k : Nat) : Within s.cur.bitlen Any (readByteBlock s k) := by
  intro off ho
  simp only [readByteBlock]
  constructor
  · intro v off' he
    split at he
    · simp at he
    · split at he
      · simp at he
      · simp only [RdRes.ok.injEq] at he
        obtain ⟨rfl, rfl⟩ := he
        exact ⟨by omega, by omega, trivial⟩
  · intro e off' he
    split at he
    · simp only [RdRes.stop.injEq] at he
      obtain ⟨rfl, rfl⟩ := he
      exact ⟨Nat.le_refl _, ho⟩
    · split at he
      · simp only [RdRes.stop.injEq] at he
        obtain ⟨rfl, rfl⟩ := he
        exact ⟨Nat.le_refl _, ho⟩
      · simp at he

theorem readBitsS_within (w : Nat) : Within s.cur.bitlen Any (readBitsS s w) :=
  (readBitsU_within w).map fun _ _ => trivial

theorem readRawField_within (d : FieldDesc) : Within s.cur.bitlen Any (readRawField s d) :=
  (readBitsU_within d.width).map fun _ _ => trivial

theorem readFields_within (ds : List FieldDesc) : Within s.cur.bitlen Any (readFields s ds) :=
  (Within.forEach ds fun d _ => readRawField_within d).weaken fun _ _ => trivial

theorem readChunks_within (ws : List Nat) (acc : Nat) :
    Within s.cur.bitlen Any (readChunks s ws acc) := by
  induction ws generalizing acc with
  | nil => exact Within.pure _ trivial
  | cons w ws ih => exact (readBitsU_within w).bind fun v _ => ih _

theorem readMaskField_within (f : MaskId) (m : MaskDesc) :
    Within s.cur.bitlen Any (readMaskField s f m) := (readChunks_within _ _).map fun _ _ => trivial

theorem readHeader_within (h : CorrHandler) : Within s.cur.bitlen Any (readHeader s h) := by
  simp only [readHeader]
  split
  · exact Within.raise _
  · exact readFields_within _

/-! ## The caches a handler leaves -/

theorem mergeRecords_sorted (recs ent : List (EntryKey × Record)) (h : sortedKeys entryLt ent) :
    sortedKeys entryLt (mergeRecords ent recs) := by
  induction recs generalizing ent with
  | nil => exact h
  | cons r recs ih => exact ih _ (insertKey_sorted entryLt_order _ _ _ h)

theorem kindStateOf_ne_empty (mm : Bool) : kindStateOf mm ≠ .empty := by cases mm <;> simp [kindStateOf]

theorem applyUpdate_ok (ent : List (EntryKey × Record)) (t : Time) (hdr : CorrHdr) (recs : List (EntryKey × Record))
    (h : sortedKeys entryLt ent) : (applyUpdate ent t hdr recs).ok :=
  ⟨fun h => absurd h (kindStateOf_ne_empty _), fun _ => rfl, mergeRecords_sorted recs ent h⟩

theorem updateEntry_ok (cfg : Cfg) (e : Entry) (t : Time) (hdr : CorrHdr) (recs : List (EntryKey × Record))
    (h : e.ok) : (updateEntry cfg e t hdr recs).1.ok := by
  simp only [updateEntry]
  split
  · exact applyUpdate_ok _ _ _ _ List.Pairwise.nil
  · exact applyUpdate_ok _ _ _ _ h.2.2
  · split
    · exact h
    · exact applyUpdate_ok _ _ _ _ List.Pairwise.nil

theorem NetState.fresh_ok : NetState.fresh.ok := fun k => by
  rw [NetState.fresh_get]
  exact ⟨fun _ => ⟨rfl, rfl⟩, fun h => absurd rfl h, List.Pairwise.nil⟩

theorem mem_of_lookup {κ ν : Type} [DecidableEq κ] (m : List (κ × ν)) (k : κ) (v : ν) (h : m.lookup k = some v) :
    (k, v) ∈ m := by
  induction m with
  | nil => simp at h
  | cons x m ih =>
    obtain ⟨k', v'⟩ := x
    rw [List.lookup_cons] at h
    by_cases hk : k = k'
    · subst hk; simp_all
    · rw [beq_eq_false_iff_ne.mpr hk] at h
      exact List.mem_cons_of_mem _ (ih h)

theorem networkOf_ok (cs : CorrState) (n : NetworkId) (h : ∀ x ∈ cs, x.2.ok) : (networkOf cs n).ok := by
  simp only [networkOf]
  cases hl : cs.lookup n with
  | none => exact NetState.fresh_ok
  | some m => exact h _ (mem_of_lookup _ _ _ hl)

/-- An update keeps the correction state's form (R43). -/
theorem cacheUpdate_ok (cfg : Cfg) (cs : CorrState) (n : NetworkId) (k : CacheKind) (t : Time) (hdr : CorrHdr)
    (recs : List (EntryKey × Record)) (h1 : sortedKeys intLt cs) (h2 : ∀ x ∈ cs, x.2.ok) :
    sortedKeys intLt (cacheUpdate cfg cs n k t hdr recs).1 ∧ ∀ x ∈ (cacheUpdate cfg cs n k t hdr recs).1, x.2.ok := by
  refine ⟨insertKey_sorted intLt_order _ _ _ h1, fun x hx => ?_⟩
  rcases mem_insertKey _ _ _ _ _ hx with hx | rfl
  · exact h2 x hx
  · intro k'
    by_cases hk : k' = k
    · subst hk
      rw [NetState.get_set_same]
      exact updateEntry_ok _ _ _ _ _ (networkOf_ok cs n h2 _)
    · rw [NetState.get_set_ne _ _ _ _ hk]
      exact networkOf_ok cs n h2 _

theorem updateKinds_ok (cfg : Cfg) (n : NetworkId) (t : Time) (hdr : CorrHdr) (recs : List (EntryKey × Record))
    (ks : List CacheKind) (cs : CorrState) (h1 : sortedKeys intLt cs) (h2 : ∀ x ∈ cs, x.2.ok) :
    sortedKeys intLt (updateKinds cfg n t hdr recs ks cs).1 ∧ ∀ x ∈ (updateKinds cfg n t hdr recs ks cs).1, x.2.ok := by
  induction ks generalizing cs with
  | nil => exact ⟨h1, h2⟩
  | cons k ks ih =>
    obtain ⟨h3, h4⟩ := cacheUpdate_ok cfg cs n k t hdr (recs.map (fun x => (x.1, recordPart k x.2))) h1 h2
    exact ih _ h3 h4

theorem updateProvider_ok (cfg : Cfg) (e : IEntry) (t : Time) (key : IntegKey) (part : IntegPart)
    (h : e.epoch = none ∨ e.ok) : (updateProvider cfg e t key part).1.ok := by
  have single : ∀ q : Option Time, q.isSome = true → IEntry.ok ⟨q, insertKey integLt key part []⟩ :=
    fun q hq => ⟨hq, insertKey_sorted integLt_order _ _ _ List.Pairwise.nil⟩
  simp only [updateProvider]
  rcases h with h | h
  · simp only [ageOf, h]
    exact single _ rfl
  · split
    · exact single _ rfl
    · exact ⟨h.1, insertKey_sorted integLt_order _ _ _ h.2⟩
    · split
      · exact h
      · exact single _ rfl

/-- An update keeps the integrity state's form (R336). -/
theorem integUpdate_ok (cfg : Cfg) (is : IntegState) (p : ProviderId) (t : Time) (key : IntegKey) (part : IntegPart)
    (h1 : sortedKeys intLt is) (h2 : ∀ x ∈ is, x.2.ok) :
    sortedKeys intLt (integUpdate cfg is p t key part).1 ∧ ∀ x ∈ (integUpdate cfg is p t key part).1, x.2.ok := by
  refine ⟨insertKey_sorted intLt_order _ _ _ h1, fun x hx => ?_⟩
  rcases mem_insertKey _ _ _ _ _ hx with hx | rfl
  · exact h2 x hx
  · refine updateProvider_ok _ _ _ _ _ ?_
    cases hl : is.lookup p with
    | none => exact Or.inl rfl
    | some e => exact Or.inr (h2 _ (mem_of_lookup _ _ _ hl))

theorem lockWrite_sorted (d : MsmData) (lk : LockCache) (q : Nat) (h : sortedKeys lockLt lk) :
    sortedKeys lockLt (lockWrite d lk q) := by
  simp only [lockWrite]
  split
  · exact insertKey_sorted lockLt_order _ _ _ h
  · exact h

theorem lockWrites_sorted (d : MsmData) (lk : LockCache) (h : sortedKeys lockLt lk) :
    sortedKeys lockLt (lockWrites d lk) := by
  simp only [lockWrites]
  generalize d.cells = l
  induction l generalizing lk with
  | nil => exact h
  | cons q l ih => exact ih _ (lockWrite_sorted d lk q h)

/-! ## The handlers -/

/-- The caches a handler stages. -/
def Handled.ok (r : Handled) : Prop := CachesOk r.lk r.cs r.is

theorem readRaw_within (t : BitVec 12) (hc : CachesOk s.lk s.cs s.is) :
    Within s.cur.bitlen Handled.ok (readRaw s t) := by
  exact Within.pure _ hc

theorem readString_within (k : Nat) : Within s.cur.bitlen Any (readString s k) := by
  intro off ho
  simp only [readString]
  split
  · exact readByteBlock_within k off ho
  · exact ((Within.times k (readBitsU_within 8)).map (Q := Any) fun _ _ => trivial) off ho

theorem readStaItem_within (i : StaItem) : Within s.cur.bitlen Any (readStaItem s i) := by
  cases i with
  | field d => exact (readRawField_within d).map fun _ _ => trivial
  | str name c => exact (readRawField_within c).bind fun f _ => (readString_within _).map fun _ _ => trivial

theorem readStation_within (k : StaKind) (hc : CachesOk s.lk s.cs s.is) :
    Within s.cur.bitlen Handled.ok (readStation s k) :=
  (Within.entry (P := Any) _ fun _ _ => trivial).bind fun items _ =>
    (Within.forEach items fun i _ => readStaItem_within i).map fun _ _ => hc

theorem readEph_within (c : Constellation) (hc : CachesOk s.lk s.cs s.is) :
    Within s.cur.bitlen Handled.ok (readEph s c) := by
  refine (Within.entry (P := Any) _ fun _ _ => trivial).bind fun lay _ => ?_
  refine (readFields_within _).bind fun fs _ => ?_
  refine (Within.entry (P := Any) _ fun _ _ => trivial).bind fun svid _ => ?_
  refine (Within.lift (P := Any) _ fun _ _ => trivial).bind fun sat _ => ?_
  have hw : Within s.cur.bitlen Any (readWeek s c fs) := by
    simp only [readWeek]
    split
    · exact Within.pure _ trivial
    · exact (Within.entry (P := Any) _ fun _ _ => trivial).bind fun ref _ =>
        (Within.lift (P := Any) _ fun _ _ => trivial).map fun _ _ => trivial
  exact hw.map fun _ _ => hc

theorem readBlocks_within (k : Nat) (fs : List (MsmBlock × FieldDesc)) :
    Within s.cur.bitlen Any (readBlocks s k fs) :=
  (Within.forEach (Q := Any) fs fun x _ => (Within.times k (readRawField_within x.2)).map fun _ _ => trivial).weaken
    fun _ _ => trivial

theorem readMsmData_within (c : Constellation) (v : MsmVariant) (lay : MsmLayout) : Within s.cur.bitlen Any (readMsmData s c v lay) := by
  refine (readFields_within _).bind fun hdr _ => ?_
  refine (readMaskField_within _ _).bind fun svids _ => ?_
  refine (readMaskField_within _ _).bind fun slots _ => ?_
  refine (Within.lift (P := Any) _ fun _ _ => trivial).bind fun sats _ => ?_
  refine (Within.lift (P := Any) _ fun _ _ => trivial).bind fun sigs _ => ?_
  have h1 : Within s.cur.bitlen Any (readCells s c v (sats.length * sigs.length)) := by
    simp only [readCells]
    split
    · exact Within.pure _ trivial
    · exact readMaskField_within _ _
  refine h1.bind fun cells _ => ?_
  have h2 : Within s.cur.bitlen Any
      (readMsmBlocks s v lay sats.length (sats.length * sigs.length) cells.length) := by
    simp only [readMsmBlocks]
    split
    · exact Within.pure _ trivial
    · exact (Within.entry (P := Any) _ fun _ _ => trivial).bind fun present _ => (readBlocks_within _ _).bind fun sd _ => (readBlocks_within _ _).map fun _ _ => trivial
  exact h2.map fun _ _ => trivial

theorem readMsm_within (c : Constellation) (v : MsmVariant) (hc : CachesOk s.lk s.cs s.is) :
    Within s.cur.bitlen Handled.ok (readMsm s c v) := by
  refine (Within.entry (P := Any) _ fun _ _ => trivial).bind fun lay _ => ?_
  exact (readMsmData_within c v lay).map fun d _ =>
    ⟨lockWrites_sorted d s.lk hc.lk_sorted, hc.cs_sorted, hc.cs_ok, hc.is_sorted, hc.is_ok⟩

theorem readPrep_within (h : CorrHandler) : Within s.cur.bitlen Any (readPrep s h) := by
  refine (readHeader_within h).bind fun fs _ => ?_
  refine (Within.entry (P := Any) _ fun _ _ => trivial).bind fun raw _ => ?_
  refine (Within.entry (P := Any) _ fun _ _ => trivial).bind fun mm _ => ?_
  exact (Within.entry (P := Any) _ fun _ _ => trivial).map fun _ _ => trivial

theorem readSubFields_within (c : Constellation) (ds : List FieldDesc) (g : Option SignalCode) (acc : List RawField) : Within s.cur.bitlen Any (readSubFields s c ds g acc) := by
  induction ds generalizing g acc with
  | nil => exact Within.pure _ trivial
  | cons d ds ih =>
    refine (readRawField_within d).bind fun f _ => ?_
    split
    · exact (Within.lift (P := Any) _ fun _ _ => trivial).bind fun g' _ => ih _ _
    · exact ih _ _

theorem readSubs_within (c : Constellation) (lay : SsrLayout) :
    Within s.cur.bitlen Any (readSubs s c lay) := by
  refine (Within.entry (P := Any) _ fun _ _ => trivial).bind fun d _ => ?_
  refine (readRawField_within d).bind fun m _ => ?_
  refine (Within.times (Q := Any) _ ?_).weaken fun _ _ => trivial
  exact (readSubFields_within c _ _ _).bind fun r _ =>
    (Within.entry (P := Any) _ fun _ _ => trivial).map fun _ _ => trivial

theorem readRecord_within (c : Constellation) (lay : SsrLayout) (yawFlag : Bool) (k : SsrKind) :
    Within s.cur.bitlen Any (readRecord s c lay yawFlag k) := by
  have hv : Within s.cur.bitlen Any ((readFields s lay.record).map fun fs => Record.vals (withQuality s.cfg fs)) :=
    (readFields_within _).map fun _ _ => trivial
  cases k with
  | orbit => exact hv
  | clock => exact hv
  | hrclock => exact hv
  | ura => exact hv
  | combined =>
    exact (readFields_within _).bind fun o _ => (readFields_within _).map fun _ _ => trivial
  | codebias => exact (readSubs_within c lay).map fun _ _ => trivial
  | phasebias =>
    have hy : Within s.cur.bitlen Any (readYaw s lay yawFlag) := by
      simp only [readYaw]
      split
      · split
        · exact Within.pure _ trivial
        · exact (readRawField_within _).bind fun a _ => (readRawField_within _).map fun _ _ => trivial
      · exact Within.pure _ trivial
    exact hy.bind fun y _ => (readSubs_within c lay).map fun _ _ => trivial

theorem readSatRecord_within (fam : Family) (c : Constellation) (k : SsrKind) (lay : SsrLayout) (yawFlag : Bool) : Within s.cur.bitlen Any (readSatRecord s fam c k lay yawFlag) := by
  refine (readRawField_within _).bind fun svid _ => ?_
  refine (Within.lift (P := Any) _ fun _ _ => trivial).bind fun sat _ => ?_
  exact (readRecord_within c lay yawFlag k).map fun _ _ => trivial

theorem finishCorr_within {n : Nat} (h : CorrHandler) (pre : Option (List RawField)) (p : CorrPrep) (kinds : List CacheKind)
    (recs : List (EntryKey × Record)) (hc : CachesOk s.lk s.cs s.is) :
    Within n Handled.ok (finishCorr s h pre p kinds recs) :=
  (Within.lift (P := Any) _ fun _ _ => trivial).map fun _ _ =>
    have hk := updateKinds_ok s.cfg p.network p.epoch p.hdr recs kinds s.cs hc.cs_sorted hc.cs_ok
    ⟨hc.lk_sorted, hk.1, hk.2, hc.is_sorted, hc.is_ok⟩

theorem readCorr_within (h : CorrHandler) (pre : Option (List RawField)) (fam : Family) (c : Constellation) (k : SsrKind)
    (lay : SsrLayout) (hc : CachesOk s.lk s.cs s.is) :
    Within s.cur.bitlen Handled.ok (readCorr s h pre fam c k lay) := by
  refine (readPrep_within h).bind fun p _ => ?_
  refine (Within.entry (P := Any) _ fun _ _ => trivial).bind fun nsat _ => ?_
  refine (Within.times nsat (readSatRecord_within fam c k lay _)).bind fun recs _ => ?_
  exact finishCorr_within h pre p _ recs hc

theorem readSsr_within (c : Constellation) (k : SsrKind) (hc : CachesOk s.lk s.cs s.is) :
    Within s.cur.bitlen Handled.ok (readSsr s c k) :=
  (Within.entryFor (P := Any) _ _ fun _ _ => trivial).bind fun lay _ => readCorr_within _ _ _ _ _ lay hc

theorem readTest_within (c : Constellation) (o : Nat) (hc : CachesOk s.lk s.cs s.is) :
    Within s.cur.bitlen Handled.ok (readTest s c o) :=
  (Within.entryFor (P := Any) _ _ fun _ _ => trivial).bind fun k _ => readSsr_within c k hc

theorem readResid_within (lay : GridLayout) (n : NetworkId) (hdr : List RawField) :
    Within s.cur.bitlen Any (readResid s lay n hdr) := by
  simp only [readResid]
  split
  · exact Within.pure _ trivial
  · refine (readRawField_within _).bind fun present _ => ?_
    split
    · exact Within.pure _ trivial
    · refine (readRawField_within _).bind fun wc _ => ?_
      refine (Within.entry (P := Any) _ fun _ _ => trivial).bind fun w _ => ?_
      refine (readRawField_within _).bind fun sc _ => ?_
      refine (Within.entry (P := Any) _ fun _ _ => trivial).bind fun sf _ => ?_
      refine (Within.entry (P := Any) _ fun _ _ => trivial).bind fun np _ => ?_
      split
      · exact Within.pure _ trivial
      · exact (Within.times np (readRawField_within _)).map fun _ _ => trivial

theorem readGrid_within (h : CorrHandler) (pre : Option (List RawField)) (k : CacheKind) (lay : GridLayout)
    (hc : CachesOk s.lk s.cs s.is) : Within s.cur.bitlen Handled.ok (readGrid s h pre k lay) := by
  refine (readPrep_within h).bind fun p _ => ?_
  split
  · have hm : Within s.cur.bitlen Any (readGridModel s lay p) :=
      (readFields_within _).bind fun m _ => (readResid_within lay _ _).map fun _ _ => trivial
    exact hm.bind fun recs _ => finishCorr_within h _ p _ recs hc
  · next g _ =>
    refine (Within.entry (P := Any) _ fun _ _ => trivial).bind fun nsat _ => ?_
    have hg : Within s.cur.bitlen Any (readGridSat s lay g p) := by
      refine (readRawField_within _).bind fun svid _ => ?_
      refine (Within.lift (P := Any) _ fun _ _ => trivial).bind fun sat _ => ?_
      exact (readFields_within _).bind fun m _ => (readResid_within lay _ _).map fun _ _ => trivial
    exact (Within.times nsat hg).bind fun recs _ => finishCorr_within h _ p _ recs hc

theorem readGridTropo_within (pre : Option (List RawField)) (hc : CachesOk s.lk s.cs s.is) :
    Within s.cur.bitlen Handled.ok (readGridTropo s pre) :=
  (Within.entryFor (P := Any) _ _ fun _ _ => trivial).bind fun _ _ => readGrid_within _ _ _ _ hc

theorem readGridIono_within (pre : Option (List RawField)) (hc : CachesOk s.lk s.cs s.is) :
    Within s.cur.bitlen Handled.ok (readGridIono s pre) :=
  (Within.entryFor (P := Any) _ _ fun _ _ => trivial).bind fun _ _ => readGrid_within _ _ _ _ hc

theorem readSubtype_within (pre : List RawField) (x : SubTarget) (hc : CachesOk s.lk s.cs s.is) :
    Within s.cur.bitlen Handled.ok (readSubtype s pre x) := by
  cases x with
  | ssr c k => exact (Within.entryFor (P := Any) _ _ fun _ _ => trivial).bind fun lay _ => readCorr_within _ _ _ _ _ lay hc
  | gridTropo => exact readGridTropo_within _ hc
  | gridIono => exact readGridIono_within _ hc

theorem readIgs_within (hc : CachesOk s.lk s.cs s.is) : Within s.cur.bitlen Handled.ok (readIgs s) := by
  refine (Within.entry (P := Any) _ fun _ _ => trivial).bind fun px _ => ?_
  refine (readFields_within _).bind fun pre _ => ?_
  refine (readRawField_within _).bind fun sub _ => ?_
  split
  · exact readRaw_within _ hc
  · exact readSubtype_within _ _ hc

/-! ### Integrity messages -/

theorem Within.foldSteps {σ β : Type} {n : Nat} {P : σ → Prop} {f : σ → β → Rd σ} (l : List β) (x : σ) (hx : P x)
    (h : ∀ x b, P x → Within n P (f x b)) : Within n P (Rd.foldSteps f l x) := by
  induction l generalizing x with
  | nil => exact Within.pure _ hx
  | cons b l ih => exact (h x b hx).bind fun y hy => ih y hy

theorem readElem_within (ds : List FieldDesc) (p : IntegPart) (e : IntegElem) : Within s.cur.bitlen Any (readElem s ds p e) :=
  (Within.forEach (Q := Any) ds fun d _ => (readBitsU_within d.width).bind fun _ _ =>
    (Within.lift (P := Any) _ fun _ _ => trivial).map fun _ _ => trivial).map fun _ _ => trivial

theorem readInner_within (own : IntegElem) (pairs : List IntegElem) (p : IntegPart) (x : IntegInner) :
    Within s.cur.bitlen Any (readInner s own pairs p x) := by
  cases x with
  | record ds => exact readElem_within _ _ _
  | each ds => exact Within.foldSteps _ _ trivial fun p e _ => readElem_within _ _ _

theorem readConsStep_within (key : IntegKey) (lay : IntegLayout) (c : Constellation) (p : IntegPart) (x : IntegConsStep) :
    Within s.cur.bitlen Any (readConsStep s key lay c p x) := by
  cases x with
  | satMask =>
    refine (Within.entry (P := Any) _ fun _ _ => trivial).bind fun m _ => ?_
    refine (readMaskField_within _ _).bind fun svids _ => ?_
    exact (Within.lift (P := Any) _ fun _ _ => trivial).map fun _ _ => trivial
  | freqMask =>
    simp only [readConsStep]
    split
    · exact Within.pure _ trivial
    · exact (readMaskField_within _ _).bind fun ks _ => (Within.lift (P := Any) _ fun _ _ => trivial).map fun _ _ => trivial
  | record ds => exact readElem_within _ _ _
  | eachSat steps =>
    exact Within.foldSteps _ _ trivial fun p i _ => Within.foldSteps _ _ trivial fun p x _ => readInner_within _ _ _ _
  | eachFreq steps =>
    exact Within.foldSteps _ _ trivial fun p i _ => Within.foldSteps _ _ trivial fun p x _ => readInner_within _ _ _ _

theorem readIntegStep_within (key : IntegKey) (lay : IntegLayout) (p : IntegPart) (x : IntegStep) :
    Within s.cur.bitlen Any (readIntegStep s key lay p x) := by
  cases x with
  | consMask =>
    exact (readMaskField_within _ _).bind fun ks _ =>
      (Within.forEach (Q := Any) ks fun k _ => Within.entryFor _ _ fun _ _ => trivial).map fun _ _ => trivial
  | record ds => exact readElem_within _ _ _
  | eachCons steps =>
    exact Within.foldSteps _ _ trivial fun p c _ => Within.foldSteps _ _ trivial fun p x _ => readConsStep_within _ _ _ _ _

theorem readIntegKey_within (t : Nat) : Within s.cur.bitlen Any (readIntegKey s t) := by
  simp only [readIntegKey]
  split
  · exact Within.pure _ trivial
  · exact (readFields_within _).bind fun pre _ => (readRawField_within _).map fun _ _ => trivial

theorem readIntegBody_within (t : Nat) (key : IntegKey × List RawField) (lay : IntegLayout) (hc : CachesOk s.lk s.cs s.is) :
    Within s.cur.bitlen Handled.ok (readIntegBody s t key lay) := by
  have hh : ∀ d, Within s.cur.bitlen Any (readIntegHeaderField s d) := fun d => by
    refine (readRawField_within d).bind fun f _ => ?_
    split
    · exact Within.pure _ trivial
    · exact (Within.lift (P := Any) _ fun _ _ => trivial).map fun _ _ => trivial
  refine (Within.forEach _ fun d _ => hh d).bind fun hdr _ => ?_
  refine (Within.entryFor (P := Any) _ _ fun _ _ => trivial).bind fun p _ => ?_
  refine (Within.entryFor (P := Any) _ _ fun _ _ => trivial).bind fun raw _ => ?_
  refine (Within.entry (P := Any) _ fun _ _ => trivial).bind fun ref _ => ?_
  refine (Within.foldSteps (P := Any) lay.body _ trivial fun p x _ => readIntegStep_within _ _ _ _).map fun part _ => ?_
  have hi := integUpdate_ok s.cfg s.is p (epochOf s.cfg .integ raw ref) key.1 part hc.is_sorted hc.is_ok
  exact ⟨hc.lk_sorted, hc.cs_sorted, hc.cs_ok, hi.1, hi.2⟩

theorem readInteg_within (t : BitVec 12) (hc : CachesOk s.lk s.cs s.is) : Within s.cur.bitlen Handled.ok (readInteg s t) := by
  refine (readIntegKey_within t.toNat).bind fun key _ => ?_
  split
  · exact readIntegBody_within _ _ _ hc
  · exact readRaw_within t hc
  · exact Within.raise _

/-- Every handler: it stays in the payload, and keeps the caches' form. -/
theorem runHandler_within (h : Handler) (hc : CachesOk s.lk s.cs s.is) : Within s.cur.bitlen Handled.ok (runHandler s h) := by
  cases h with
  | msm c v => exact readMsm_within c v hc
  | ssr c k => exact readSsr_within c k hc
  | gridTropo => exact readGridTropo_within _ hc
  | gridIono => exact readGridIono_within _ hc
  | eph c => exact readEph_within c hc
  | sta k => exact readStation_within k hc
  | igs => exact readIgs_within hc
  | integ => exact readInteg_within _ hc

theorem selectHandler_within (t : BitVec 12) (hc : CachesOk s.lk s.cs s.is) :
    Within s.cur.bitlen Handled.ok (selectHandler s t) := by
  simp only [selectHandler]
  split
  · exact readRaw_within t hc
  · exact runHandler_within _ hc

end Sys2Proof.Machine
end

