-- ==== Sys2Proof/Laws/Ops.lean ====
section
/-! SUPPORT. What the shared endings of an operation can do, once each: unitOp, finishPure, finishRd, writeOp, the runs of a message;
and the writes of the reverse path. -/

namespace Sys2Proof.Machine

@[simp] theorem tick_next (t : State) : tick (.next t) = .next { t with free := t.free + 1 } := rfl
@[simp] theorem tick_fault (f : Fault) : tick (.fault f) = .fault f := rfl
@[simp] theorem tick_refused (r : Refusal) : tick (.refused r) = .refused r := rfl

/-- What `tick` changes: the free counter of a next state. -/
theorem tick_eq_next {o : Out} {t : State} (h : tick o = .next t) : ∃ t', o = .next t' ∧ t = { t' with free := t'.free + 1 } := by
  cases o with
  | next t' => simp only [tick_next, Host.Outcome.next.injEq] at h; exact ⟨t', rfl, h.symm⟩
  | fault f => simp at h
  | refused r => simp at h

/-- A unit operation before HOST_CONFIG (R382). -/
theorem unitOp_unconfigured {s : State} (body : State → Out) (h : s.configured = false) :
    unitOp s body = tick (.next (State.raise { s with window := false } (.usage none))) := by simp [unitOp, h]

/-- A unit operation in a configured block. -/
theorem unitOp_configured {s : State} (body : State → Out) (h : s.configured = true) :
    unitOp s body = tick (body { s with window := false }) := by simp [unitOp, h]

/-- The two ways a unit operation answers a next state. -/
theorem unitOp_next {s t : State} {body : State → Out} (h : unitOp s body = .next t) :
    ∃ t', t = { t' with free := t'.free + 1 } ∧
      ((s.configured = false ∧ t' = State.raise { s with window := false } (.usage none)) ∨
        (s.configured = true ∧ body { s with window := false } = .next t')) := by
  obtain ⟨t', h', rfl⟩ := tick_eq_next h
  refine ⟨t', rfl, ?_⟩
  split at h'
  · next hc => exact Or.inr ⟨hc, h'⟩
  · next hc =>
    simp only [Host.Outcome.next.injEq] at h'
    exact Or.inl ⟨by simpa using hc, h'.symm⟩

/-- The two ways a pure operation ends. -/
theorem finishPure_next {α : Type} {s t : State} {r : Except Cond α} {ret : α → RetVal}
    (h : finishPure s r ret = .next t) : (∃ a, r = .ok a ∧ t = s.done (ret a)) ∨ (∃ c, r = .error c ∧ t = s.raise c) := by
  cases r with
  | ok a => simp only [finishPure, Host.Outcome.next.injEq] at h; exact Or.inl ⟨a, rfl, h.symm⟩
  | error c => simp only [finishPure, Host.Outcome.next.injEq] at h; exact Or.inr ⟨c, rfl, h.symm⟩

/-- A pure operation always answers. -/
theorem finishPure_answers {α : Type} (s : State) (r : Except Cond α) (ret : α → RetVal) : Answers (finishPure s r ret) := by
  cases r with
  | ok a => exact ⟨_, rfl⟩
  | error c => exact ⟨_, rfl⟩

/-- The two ways a reading operation answers a next state. -/
theorem finishRd_next {α : Type} {s t : State} {m : Rd α} {k : α → State → State} (h : finishRd s m k = .next t) :
    (∃ a off, m s.cur.off = .ok a off ∧ t = k a { s with cur := { s.cur with off := off } }) ∨
      (∃ c off, m s.cur.off = .stop c off ∧ t = State.raise { s with cur := { s.cur with off := off } } c) := by
  simp only [finishRd] at h
  split at h
  · next a off hm =>
    simp only [Host.Outcome.next.injEq] at h
    exact Or.inl ⟨a, off, hm, h.symm⟩
  · next c off hm =>
    simp only [Host.Outcome.next.injEq] at h
    exact Or.inr ⟨c, off, hm, h.symm⟩

/-- The three ways a write operation answers a next state. -/
theorem writeOp_next {s t : State} {w : Memory → Cursor → WrRes} (h : writeOp s w = .next t) :
    (∃ c, w (s.buffer s.cur.space) s.cur = .error c ∧ t = s.raise c) ∨
      (∃ m, w (s.buffer s.cur.space) s.cur = .ok (m, s.cur.off) ∧ t = s.done .done) ∨
      (∃ m off, w s.obuf s.cur = .ok (m, off) ∧ s.cur.space = .obuf ∧
        t = State.done
          { s with obuf := m, olen := max s.olen (s.cur.base + (off + 7) / 8), cur := { s.cur with off := off } } .done) := by
  simp only [writeOp] at h
  split at h
  · next c hw =>
    simp only [Host.Outcome.next.injEq] at h
    exact Or.inl ⟨c, hw, h.symm⟩
  · next m off hw =>
    split at h
    · next ho =>
      simp only [Host.Outcome.next.injEq] at h
      exact Or.inr (Or.inl ⟨m, ho ▸ hw, h.symm⟩)
    · split at h
      · simp at h
      · next hs =>
        simp only [Host.Outcome.next.injEq] at h
        rw [hs] at hw
        exact Or.inr (Or.inr ⟨m, off, hw, hs, h.symm⟩)

/-- What a run of a message's handler leaves (R310): a completed one commits the staged caches, a condition moves the cursor only. -/
theorem runMessage_ok {s t : State} {h : Rd Handled} {m : Message} (hr : runMessage s h = .ok m t) :
    ∃ r off, h s.cur.off = .ok r off ∧ m = r.msg ∧ t = State.commit { s with cur := { s.cur with off := off } } r := by
  simp only [runMessage] at hr
  split at hr
  · next r off hh =>
    simp only [Run.ok.injEq] at hr
    exact ⟨r, off, hh, hr.1.symm, hr.2.symm⟩
  · simp at hr

theorem runMessage_cond {s t : State} {h : Rd Handled} {c : Cond} (hr : runMessage s h = .cond c t) :
    ∃ off, h s.cur.off = .stop c off ∧ t = { s with cur := { s.cur with off := off } } := by
  simp only [runMessage] at hr
  split at hr
  · simp at hr
  · next c' off hh =>
    simp only [Run.cond.injEq] at hr
    obtain ⟨rfl, rfl⟩ := hr
    exact ⟨off, hh, rfl⟩

theorem finishRun_next {r : Run} {t : State} (h : finishRun r = .next t) :
    (∃ m s, r = .ok m s ∧ t = s.done (.message m)) ∨ (∃ c s, r = .cond c s ∧ t = s.raise c) := by
  cases r with
  | ok m s => simp only [finishRun, Host.Outcome.next.injEq] at h; exact Or.inl ⟨m, s, rfl, h.symm⟩
  | cond c s => simp only [finishRun, Host.Outcome.next.injEq] at h; exact Or.inr ⟨c, s, rfl, h.symm⟩

/-- What DISPATCH leaves when a message completes (R193). -/
theorem dispatchRun_ok {s t : State} {m : Message} (hr : dispatchRun s = .ok m t) :
    ∃ ty off, readBitsU s 12 s.cur.off = .ok ty off ∧
      runMessage (s.typed ty off) (selectHandler (s.typed ty off) (BitVec.ofNat 12 ty)) = .ok m t := by
  simp only [dispatchRun] at hr
  split at hr
  · simp at hr
  · next ty off h => exact ⟨ty, off, h, hr⟩

/-- What DISPATCH leaves when a condition ends it (R193): the state is unchanged before the type is read. -/
theorem dispatchRun_cond {s t : State} {c : Cond} (hr : dispatchRun s = .cond c t) :
    t = s ∨ ∃ ty off, readBitsU s 12 s.cur.off = .ok ty off ∧
      runMessage (s.typed ty off) (selectHandler (s.typed ty off) (BitVec.ofNat 12 ty)) = .cond c t := by
  simp only [dispatchRun] at hr
  split at hr
  · simp only [Run.cond.injEq] at hr
    exact Or.inl hr.2.symm
  · next ty off h => exact Or.inr ⟨ty, off, h, hr⟩

/-! ## Writes -/

/-- What a successful field write does (R129): it stays in the span and keeps every byte outside its field. -/
structure WriteOk (m : Memory) (cur : Cursor) (m' : Memory) (off' : Nat) : Prop where
  off_le : cur.off ≤ off'
  le : off' ≤ cur.bitlen
  wf : Memory.wf m' = true
  inside : ∀ c ∈ m', c ∈ m ∨ (cur.base ≤ c.1 ∧ c.1 < cur.base + (off' + 7) / 8)
  other : ∀ x, x < cur.base + cur.off / 8 ∨ cur.base + (off' + 7) / 8 ≤ x → Memory.get m' x = Memory.get m x

theorem putU_ok {m m' : Memory} {cur : Cursor} {w : Nat} {v : Int} {ovf : Ovf} {off' : Nat} (hm : Memory.wf m = true)
    (h : putU m cur w v ovf = .ok (m', off')) :
    WriteOk m cur m' off' ∧ 1 ≤ w ∧ w ≤ 64 ∧ off' = cur.off + w ∧
      m' = writeBits m cur.base cur.off w (v % 2 ^ w).toNat := by
  simp only [putU] at h
  split at h
  · simp at h
  · next hw =>
    split at h
    · simp at h
    · split at h
      · simp at h
      · next hb =>
        simp only [Except.ok.injEq, Prod.mk.injEq] at h
        obtain ⟨rfl, rfl⟩ := h
        refine ⟨⟨by omega, by omega, writeBits_wf _ _ _ _ _ hm, ?_, ?_⟩, by omega, by omega, rfl, rfl⟩
        · intro c hc
          rcases writeBits_mem _ _ _ _ _ _ hc with hc | hc
          · exact Or.inl hc
          · simp only [Cursor.bitlen] at hb
            right; omega
        · intro x hx
          exact writeBits_get_ne _ _ _ _ _ _ hm hx

theorem putS_ok {m m' : Memory} {cur : Cursor} {w : Nat} {v : Int} {ovf : Ovf} {off' : Nat} (hm : Memory.wf m = true)
    (h : putS m cur w v ovf = .ok (m', off')) :
    WriteOk m cur m' off' ∧ 1 ≤ w ∧ w ≤ 64 ∧ off' = cur.off + w ∧
      m' = writeBits m cur.base cur.off w (v % 2 ^ w).toNat := by
  simp only [putS] at h
  split at h
  · simp at h
  · have := putU_ok hm h
    simpa using this

theorem putBytes_ok {m m' : Memory} {cur : Cursor} {b : List Byte} {off' : Nat} (hm : Memory.wf m = true)
    (h : putBytes m cur b = .ok (m', off')) :
    WriteOk m cur m' off' ∧ cur.off % 8 = 0 ∧ off' = cur.off + 8 * b.length ∧
      m' = Memory.write m (cur.base + cur.off / 8) b := by
  simp only [putBytes] at h
  split at h
  · simp at h
  · next ha =>
    split at h
    · simp at h
    · next hb =>
      simp only [Except.ok.injEq, Prod.mk.injEq] at h
      obtain ⟨rfl, rfl⟩ := h
      refine ⟨⟨by omega, by omega, Memory.write_wf _ _ _ hm, ?_, ?_⟩, by omega, rfl, rfl⟩
      · intro c hc
        rcases Memory.mem_write _ _ _ _ hc with hc | hc
        · exact Or.inl hc
        · simp only [Cursor.bitlen] at hb
          right; omega
      · intro x hx
        rw [Memory.get_write _ _ _ _ hm, if_neg (by omega)]

/-- The writes of a message stay in the sized span. -/
theorem putItems_ok (items : List WItem) (m : Memory) (cur : Cursor) (hm : Memory.wf m = true)
    (ho : cur.off ≤ cur.bitlen) :
    (putItems m cur items).2.1 ≤ cur.bitlen ∧ Memory.wf (putItems m cur items).1 = true ∧
      ∀ c ∈ (putItems m cur items).1, c ∈ m ∨ (cur.base ≤ c.1 ∧ c.1 < cur.base + cur.len) := by
  induction items generalizing m cur with
  | nil => exact ⟨ho, hm, fun c hc => Or.inl hc⟩
  | cons i items ih =>
    simp only [putItems]
    cases hi : putItem m cur i with
    | error c => exact ⟨ho, hm, fun c hc => Or.inl hc⟩
    | ok r =>
      obtain ⟨m', off⟩ := r
      have hok : WriteOk m cur m' off := by
        cases i with
        | fail c => simp [putItem] at hi
        | field d raw =>
          simp only [putItem] at hi
          split at hi
          · exact (putS_ok hm hi).1
          · exact (putU_ok hm hi).1
      obtain ⟨h1, h2, h3⟩ := ih m' { cur with off := off } hok.wf (by exact hok.le)
      refine ⟨h1, h2, fun c hc => ?_⟩
      rcases h3 c hc with hc | hc
      · refine (hok.inside c hc).imp_right fun h => ⟨h.1, ?_⟩
        have := hok.le
        simp only [Cursor.bitlen] at this
        omega
      · exact Or.inr hc

end Sys2Proof.Machine
end

