-- ==== Sys2Proof/Laws/Invariant.lean ====
section
/-! SUPPORT. The invariant under each shared operation. -/

namespace Sys2Proof.Machine

/-! ## The frame search -/

/-- Where the scan finds a preamble (R141). -/
theorem scanPreamble_some {m : Memory} {b : Byte} {k p q : Nat} (h : scanPreamble m b k p = some q) :
    p ≤ q ∧ q < p + k ∧ Memory.get m q = b ∧ ∀ x, p ≤ x → x < q → Memory.get m x ≠ b := by
  induction k generalizing p with
  | zero => simp [scanPreamble] at h
  | succ k ih =>
    simp only [scanPreamble] at h
    split at h
    · next hb =>
      simp only [Option.some.injEq] at h
      subst h
      exact ⟨Nat.le_refl _, by omega, hb, fun x h1 h2 => by omega⟩
    · next hb =>
      obtain ⟨h1, h2, h3, h4⟩ := ih h
      refine ⟨by omega, by omega, h3, fun x hx1 hx2 => ?_⟩
      by_cases hx : x = p
      · rw [hx]; exact hb
      · exact h4 x (by omega) hx2

/-- Where it finds none. -/
theorem scanPreamble_none {m : Memory} {b : Byte} {k p : Nat} (h : scanPreamble m b k p = none) :
    ∀ x, p ≤ x → x < p + k → Memory.get m x ≠ b := by
  induction k generalizing p with
  | zero => intro x h1 h2; omega
  | succ k ih =>
    simp only [scanPreamble] at h
    split at h
    · simp at h
    · next hb =>
      intro x h1 h2
      by_cases hx : x = p
      · rw [hx]; exact hb
      · exact ih h x (by omega) (by omega)

theorem syncScanFrom_some {s : State} {start p : Nat} (hs : start ≤ s.slen) (h : syncScanFrom s start = some p) :
    start ≤ p ∧ p < s.slen ∧ Memory.get s.stream p = s.cfg.preamble := by
  simp only [syncScanFrom, Nat.not_lt.mpr hs, if_false] at h
  obtain ⟨h1, h2, h3, _⟩ := scanPreamble_some h
  exact ⟨h1, by omega, h3⟩

/-- What an accepted candidate is (R146). -/
theorem candidateAt_frame {s : State} {p q len : Nat} {crc : BitVec 24} (h : candidateAt s p = .frame q len crc) :
    q = p ∧ p + len + 6 ≤ s.slen ∧ len ≤ 1023 ∧ lenReadAt s p = .ok len ∧ frameCrc s p len = crc ∧
      Memory.read24 s.stream (p + 3 + len) = crc := by
  simp only [candidateAt] at h
  split at h
  · simp at h
  · next l hl =>
    split at h
    · simp at h
    · next hb =>
      split at h
      · next hcrc =>
        simp only [FrameRes.frame.injEq] at h
        obtain ⟨rfl, rfl, rfl⟩ := h
        simp only [boundCheckAt] at hb
        split at hb
        · simp at hb
        · refine ⟨rfl, by omega, ?_, hl, hcrc, rfl⟩
          simp only [lenReadAt] at hl
          split at hl
          · simp at hl
          · simp only [Except.ok.injEq] at hl
            have := ((Memory.read16 s.stream (p + 1)).extractLsb' 0 10).isLt
            omega
      · simp at h

/-- What a condition of a candidate is (R142, R144, R146). -/
theorem candidateAt_cond {s : State} {p : Nat} {c : Cond} (h : candidateAt s p = .cond c) :
    c = .truncatedAt p ∨ (c = .checksum p ∧ p + 6 ≤ s.slen) := by
  simp only [candidateAt] at h
  split at h
  · next c' hl =>
    simp only [lenReadAt] at hl
    split at hl
    · simp only [Except.error.injEq] at hl
      simp only [FrameRes.cond.injEq] at h
      exact Or.inl (by rw [← h, ← hl])
    · simp at hl
  · next l hl =>
    split at h
    · next c' hb =>
      simp only [boundCheckAt] at hb
      split at hb
      · simp only [Except.error.injEq] at hb
        simp only [FrameRes.cond.injEq] at h
        exact Or.inl (by rw [← h, ← hb])
      · simp at hb
    · next hb =>
      split at h
      · simp at h
      · simp only [FrameRes.cond.injEq] at h
        simp only [boundCheckAt] at hb
        split at hb
        · simp at hb
        · exact Or.inr ⟨h.symm, by omega⟩

theorem candidateAt_ne_noFrame (s : State) (p : Nat) : candidateAt s p ≠ .noFrame := by
  simp only [candidateAt]
  split
  · simp
  · split
    · simp
    · split <;> simp

theorem searchFrame_frame {s : State} {start p len : Nat} {crc : BitVec 24} (h : searchFrame s start = .frame p len crc) :
    p + len + 6 ≤ s.slen ∧ len ≤ 1023 ∧ frameCrc s p len = crc ∧ Memory.read24 s.stream (p + 3 + len) = crc := by
  simp only [searchFrame] at h
  split at h
  · simp at h
  · next q hq =>
    obtain ⟨rfl, h1, h2, _, h3, h4⟩ := candidateAt_frame h
    exact ⟨h1, h2, h3, h4⟩

theorem searchFrame_cond {s : State} {start : Nat} {c : Cond} (hs : start ≤ s.slen) (h : searchFrame s start = .cond c) :
    ∃ p, start ≤ p ∧ p < s.slen ∧ (c = .truncatedAt p ∨ c = .checksum p) := by
  simp only [searchFrame] at h
  split at h
  · simp at h
  · next q hq =>
    refine ⟨q, (syncScanFrom_some hs hq).1, (syncScanFrom_some hs hq).2.1, ?_⟩
    rcases candidateAt_cond h with h | h
    · exact Or.inl h
    · exact Or.inr h.1

/-! ## Updates that keep the invariant -/

theorem FrameOk.congr {s t : State} (h : FrameOk s) (h1 : t.f.pos = s.f.pos) (h2 : t.f.length = s.f.length)
    (h3 : t.f.crc = s.f.crc) (h4 : t.stream = s.stream) (h5 : t.slen = s.slen) (h6 : t.cfg = s.cfg) : FrameOk t := by
  obtain ⟨a, b, c⟩ := h
  refine ⟨by rw [h1, h2, h5]; exact a, ?_, by rw [h1, h2, h3, h4]; exact c⟩
  simp only [frameCrc] at b ⊢
  rw [h1, h2, h3, h4, h6]
  exact b

/-- The invariant looks at none of RESULT, OUT, the returned value, the free counter, the port, REF_TIME; the window may close. -/
theorem State.Inv.congr {s t : State} (h : s.Inv) (h1 : t.stream = s.stream) (h2 : t.slen = s.slen) (h3 : t.obuf = s.obuf)
    (h4 : t.olen = s.olen) (h5 : t.scan = s.scan) (h6 : t.cur = s.cur) (h7 : t.f = s.f) (h8 : t.cfg = s.cfg)
    (h9 : t.configured = s.configured) (h10 : t.window = s.window ∨ t.window = false) (h11 : t.lk = s.lk)
    (h12 : t.cs = s.cs) (h13 : t.is = s.is) : t.Inv where
  stream_ok := by rw [h1, h2]; exact h.stream_ok
  obuf_ok := by rw [h3, h4]; exact h.obuf_ok
  scan_le := by rw [h5, h2]; exact h.scan_le
  cur_le := by rw [h6]; exact h.cur_le
  frame_ok := by
    rw [h7]
    exact fun hv => (h.frame_ok hv).congr (by rw [h7]) (by rw [h7]) (by rw [h7]) h1 h2 h8
  frame_window := by
    rw [h7]
    intro hv
    rcases h10 with h10 | h10
    · rw [h10]; exact h.frame_window hv
    · exact h10
  config_ok := by rw [h9, h8]; exact h.config_ok
  caches_ok := by rw [h11, h12, h13]; exact h.caches_ok

theorem State.Inv.raise {s : State} (h : s.Inv) (c : Cond) : (s.raise c).Inv :=
  h.congr rfl rfl rfl rfl rfl rfl rfl rfl rfl (Or.inl rfl) rfl rfl rfl

theorem State.Inv.done {s : State} (h : s.Inv) (r : RetVal) : (s.done r).Inv :=
  h.congr rfl rfl rfl rfl rfl rfl rfl rfl rfl (Or.inl rfl) rfl rfl rfl

theorem State.Inv.close {s : State} (h : s.Inv) : State.Inv { s with window := false } :=
  h.congr rfl rfl rfl rfl rfl rfl rfl rfl rfl (Or.inr rfl) rfl rfl rfl

theorem State.Inv.tick {s : State} (h : s.Inv) : State.Inv { s with free := s.free + 1 } :=
  h.congr rfl rfl rfl rfl rfl rfl rfl rfl rfl (Or.inl rfl) rfl rfl rfl

theorem State.Inv.moveCursor {s : State} (h : s.Inv) (cur : Cursor) (hc : cur.off ≤ cur.bitlen) :
    State.Inv { s with cur := cur } where
  stream_ok := h.stream_ok
  obuf_ok := h.obuf_ok
  scan_le := h.scan_le
  cur_le := hc
  frame_ok := fun hv => (h.frame_ok hv).congr rfl rfl rfl rfl rfl rfl
  frame_window := h.frame_window
  config_ok := h.config_ok
  caches_ok := h.caches_ok

theorem State.Inv.caches {s : State} (h : s.Inv) (lk : LockCache) (cs : CorrState) (is : IntegState)
    (hc : CachesOk lk cs is) : State.Inv { s with lk := lk, cs := cs, is := is } where
  stream_ok := h.stream_ok
  obuf_ok := h.obuf_ok
  scan_le := h.scan_le
  cur_le := h.cur_le
  frame_ok := fun hv => (h.frame_ok hv).congr rfl rfl rfl rfl rfl rfl
  frame_window := h.frame_window
  config_ok := h.config_ok
  caches_ok := hc

theorem State.Inv.commit {s : State} (h : s.Inv) (r : Handled) (hr : r.ok) : (s.commit r).Inv := h.caches _ _ _ hr

theorem State.Inv.typed {s : State} (h : s.Inv) (t off : Nat) (ho : off ≤ s.cur.bitlen) : (s.typed t off).Inv where
  stream_ok := h.stream_ok
  obuf_ok := h.obuf_ok
  scan_le := h.scan_le
  cur_le := ho
  frame_ok := fun hv => (h.frame_ok hv).congr rfl rfl rfl rfl rfl rfl
  frame_window := h.frame_window
  config_ok := h.config_ok
  caches_ok := h.caches_ok

theorem State.Inv.noFrame {s : State} (h : s.Inv) (scan : Nat) (hs : scan ≤ s.slen) :
    State.Inv { s with f := { s.f with valid := false }, scan := scan } where
  stream_ok := h.stream_ok
  obuf_ok := h.obuf_ok
  scan_le := hs
  cur_le := h.cur_le
  frame_ok := fun hv => by simp at hv
  frame_window := fun hv => by simp at hv
  config_ok := h.config_ok
  caches_ok := h.caches_ok

/-- An accepted frame (R24, R146). -/
theorem State.Inv.frame {s : State} (h : s.Inv) (hw : s.window = false) {p len : Nat} {crc : BitVec 24}
    (hl : len ≤ 1023) (hb : p + len + 6 ≤ s.slen) (hc : frameCrc s p len = crc)
    (ht : Memory.read24 s.stream (p + 3 + len) = crc) (scan : Nat) (hs : scan ≤ s.slen) :
    State.Inv { s with f := s.f.after (.frame p len crc), scan := scan } where
  stream_ok := h.stream_ok
  obuf_ok := h.obuf_ok
  scan_le := hs
  cur_le := h.cur_le
  frame_ok := fun _ => by
    have hm : (BitVec.ofNat 10 len).toNat = len := by simp; omega
    refine ⟨?_, ?_, ?_⟩
    · simp only [FrameGroup.after_frame, hm]; exact hb
    · simp only [FrameGroup.after_frame, hm]; exact hc
    · simp only [FrameGroup.after_frame, hm]; exact ht
  frame_window := fun _ => hw
  config_ok := h.config_ok
  caches_ok := h.caches_ok

/-- A handler run. -/
theorem State.Inv.runMessage_ok {s t : State} (h : s.Inv) {m : Rd Handled} (hm : Within s.cur.bitlen Handled.ok m)
    {msg : Message} (hr : runMessage s m = .ok msg t) : t.Inv := by
  obtain ⟨r, off, h1, _, rfl⟩ := Sys2Proof.Machine.runMessage_ok hr
  obtain ⟨_, h2, h3⟩ := (hm _ h.cur_le).1 _ _ h1
  exact (h.moveCursor { s.cur with off := off } h2).commit r h3

theorem State.Inv.runMessage_cond {s t : State} (h : s.Inv) {m : Rd Handled}
    (hm : Within s.cur.bitlen Handled.ok m) {c : Cond} (hr : runMessage s m = .cond c t) : t.Inv := by
  obtain ⟨off, h1, rfl⟩ := Sys2Proof.Machine.runMessage_cond hr
  obtain ⟨_, h2⟩ := (hm _ h.cur_le).2 _ _ h1
  exact h.moveCursor { s.cur with off := off } h2

/-- A unit operation keeps the invariant if its body does in a configured block with the window closed. -/
theorem State.Inv.unitOp {s t : State} (h : s.Inv) {body : State → Out}
    (hb : ∀ t s', s'.Inv → s'.configured = true → s'.window = false → body s' = .next t → t.Inv)
    (he : unitOp s body = .next t) : t.Inv := by
  obtain ⟨t', rfl, ⟨_, rfl⟩ | ⟨hc, hb'⟩⟩ := unitOp_next he
  · exact (h.close.raise _).tick
  · exact (hb t' _ h.close hc rfl hb').tick

theorem State.Inv.finishPure {α : Type} {s t : State} (h : s.Inv) {r : Except Cond α} {ret : α → RetVal}
    (he : finishPure s r ret = .next t) : t.Inv := by
  rcases finishPure_next he with ⟨a, _, rfl⟩ | ⟨c, _, rfl⟩
  · exact h.done _
  · exact h.raise _

theorem State.Inv.finishRd {α : Type} {s t : State} (h : s.Inv) {m : Rd α} (hm : Within s.cur.bitlen Any m)
    {ret : α → RetVal} (he : finishRd s m (fun a s => s.done (ret a)) = .next t) : t.Inv := by
  rcases finishRd_next he with ⟨a, off, h1, rfl⟩ | ⟨c, off, h1, rfl⟩
  · exact (h.moveCursor { s.cur with off := off } ((hm _ h.cur_le).1 _ _ h1).2.1).done _
  · exact (h.moveCursor { s.cur with off := off } ((hm _ h.cur_le).2 _ _ h1).2).raise _

theorem State.Inv.writeOp {s t : State} (h : s.Inv) {w : Memory → Cursor → WrRes}
    (hw : ∀ m cur m' off, Memory.wf m = true → w m cur = .ok (m', off) → WriteOk m cur m' off)
    (he : writeOp s w = .next t) : t.Inv := by
  rcases writeOp_next he with ⟨c, _, rfl⟩ | ⟨m, _, rfl⟩ | ⟨m, off, h1, h2, rfl⟩
  · exact h.raise _
  · exact h.done _
  · have hok := hw _ _ _ _ h.obuf_ok.wf h1
    refine State.Inv.done
      (s := { s with obuf := m, olen := max s.olen (s.cur.base + (off + 7) / 8), cur := { s.cur with off := off } }) ?_ _
    refine State.Inv.moveCursor (s := { s with obuf := m, olen := max s.olen (s.cur.base + (off + 7) / 8) }) ?_
      { s.cur with off := off } hok.le
    exact {
      stream_ok := h.stream_ok
      obuf_ok := ⟨hok.wf, fun c hc => by
        rcases hok.inside c hc with hc | hc
        · have := h.obuf_ok.inside c hc
          simp only
          omega
        · simp only
          omega⟩
      scan_le := h.scan_le
      cur_le := h.cur_le
      frame_ok := fun hv => (h.frame_ok hv).congr rfl rfl rfl rfl rfl rfl
      frame_window := h.frame_window
      config_ok := h.config_ok
      caches_ok := h.caches_ok }

theorem encodeFrame_length (cfg : Cfg) (pad : BitVec 6) (payload : List Byte) (crc : BitVec 24) :
    (encodeFrame cfg pad payload crc).length = payload.length + 6 := by simp [encodeFrame]

theorem frameOf_length (cfg : Cfg) (payload : List Byte) : (frameOf cfg payload).length = payload.length + 6 :=
  encodeFrame_length ..

theorem State.Inv.withObuf {s : State} (h : s.Inv) (m : Memory) (len : Nat) (hm : MemoryOk m len) :
    State.Inv { s with obuf := m, olen := len } where
  stream_ok := h.stream_ok
  obuf_ok := hm
  scan_le := h.scan_le
  cur_le := h.cur_le
  frame_ok := fun hv => (h.frame_ok hv).congr rfl rfl rfl rfl rfl rfl
  frame_window := h.frame_window
  config_ok := h.config_ok
  caches_ok := h.caches_ok

theorem State.Inv.emitFrame {s : State} (h : s.Inv) (payload : List Byte) : (emitFrame s payload).Inv := by
  simp only [Sys2Proof.Machine.emitFrame]
  split
  · exact h.raise _
  · refine State.Inv.done ?_ _
    refine h.withObuf _ _ ⟨Memory.write_wf _ _ _ h.obuf_ok.wf, fun c hc => ?_⟩
    rcases Memory.mem_write _ _ _ _ hc with hc | hc
    · have := h.obuf_ok.inside c hc
      omega
    · rw [frameOf_length] at hc
      omega

theorem State.Inv.writtenState {s : State} (h : s.Inv) (items : List WItem) : (writtenState s items).Inv := by
  obtain ⟨h1, h2, h3⟩ := putItems_ok items [] (payloadCursor items) rfl (Nat.zero_le _)
  have hm : MemoryOk (putItems [] (payloadCursor items) items).1 (3 + (payloadCursor items).len) :=
    ⟨h2, fun c hc => by
      rcases h3 c hc with hc | hc
      · simp at hc
      · simp only [payloadCursor] at hc ⊢; omega⟩
  exact (h.withObuf _ _ hm).moveCursor _ h1

theorem State.Inv.encodeItems {s : State} (h : s.Inv) (msg : Message) (items : List WItem) :
    (encodeItems s msg items).Inv := by
  simp only [Sys2Proof.Machine.encodeItems]
  split
  · exact (h.writtenState items).raise _
  · exact (h.writtenState items).emitFrame _

theorem State.Inv.encodeMessage {s : State} (h : s.Inv) (msg : Message) : (encodeMessage s msg).Inv := by
  have h0 : State.Inv { s with obuf := [], olen := 0 } := h.withObuf [] 0 ⟨rfl, by simp⟩
  cases msg
  case rawUnhandled t payload => exact h0.emitFrame payload
  all_goals
    simp only [Sys2Proof.Machine.encodeMessage]
    split
    · exact h0.raise _
    · exact h0.encodeItems _ _

theorem State.Inv.dispatchRun_ok {s t : State} (h : s.Inv) {m : Message} (hr : dispatchRun s = .ok m t) : t.Inv := by
  obtain ⟨ty, off, h1, h2⟩ := Sys2Proof.Machine.dispatchRun_ok hr
  have ho := ((readBitsU_within 12 _ h.cur_le).1 _ _ h1).2.1
  exact (h.typed ty off ho).runMessage_ok
    (selectHandler_within _ h.caches_ok) h2

theorem State.Inv.dispatchRun_cond {s t : State} (h : s.Inv) {c : Cond} (hr : dispatchRun s = .cond c t) : t.Inv := by
  rcases Sys2Proof.Machine.dispatchRun_cond hr with rfl | ⟨ty, off, h1, h2⟩
  · exact h
  · have ho := ((readBitsU_within 12 _ h.cur_le).1 _ _ h1).2.1
    exact (h.typed ty off ho).runMessage_cond
      (selectHandler_within _ h.caches_ok) h2

theorem State.Inv.handlerOp {s t : State} (h : s.Inv) {m : State → Rd Handled}
    (hm : ∀ s', s'.Inv → Within s'.cur.bitlen Handled.ok (m s')) (he : handlerOp s m = .next t) : t.Inv := by
  refine h.unitOp (fun t s' h' _ _ hb => ?_) he
  rcases finishRun_next hb with ⟨msg, s1, hr, rfl⟩ | ⟨c, s1, hr, rfl⟩
  · exact (h'.runMessage_ok (hm s' h') hr).done _
  · exact (h'.runMessage_cond (hm s' h') hr).raise _

theorem State.Inv.decodeFrom {s t : State} (h : s.Inv) (hw : s.window = false) (he : decodeFrom s = .next t) : t.Inv := by
  simp only [Sys2Proof.Machine.decodeFrom] at he
  split at he
  · simp only [Host.Outcome.next.injEq] at he
    subst he
    exact (h.noFrame s.slen (Nat.le_refl _)).done _
  · next c hc =>
    simp only [Host.Outcome.next.injEq] at he
    subst he
    obtain ⟨p, h1, h2, h3⟩ := searchFrame_cond h.scan_le hc
    refine (h.noFrame (scanAfter s.scan c) ?_).raise _
    rcases h3 with rfl | rfl
    · simp only [scanAfter]; omega
    · simp only [scanAfter]; omega
  · next p len crc hc =>
    obtain ⟨h2, h3, h4, h5⟩ := searchFrame_frame hc
    have hf : (s.enterFrame (.frame p len crc) p len).Inv :=
      (h.frame hw h3 h2 h4 h5 (p + len + 6) h2).moveCursor ⟨.stream, p + 3, len, 0⟩ (Nat.zero_le _)
    cases hr : dispatchRun (s.enterFrame (.frame p len crc) p len) with
    | ok m s1 =>
      simp only [hr, finishDecode, Host.Outcome.next.injEq] at he
      subst he
      exact ((hf.dispatchRun_ok hr).congr rfl rfl rfl rfl rfl rfl rfl rfl rfl (Or.inl rfl) rfl rfl rfl : State.Inv { s1 with out := some m }).done _
    | cond c s1 =>
      simp only [hr, finishDecode, Host.Outcome.next.injEq] at he
      subst he
      exact (hf.dispatchRun_cond hr).raise _

theorem State.Inv.decodeBody {s t : State} (h : s.Inv) (hw : s.window = false) (he : decodeBody s = .next t) : t.Inv := by
  simp only [Sys2Proof.Machine.decodeBody, withCrc] at he
  split at he
  · simp at he
  · exact h.decodeFrom hw he

/-- The search sets the validity of F itself (R146): what it was before does not matter. -/
theorem decodeFrom_invalid (s : State) : decodeFrom { s with f := { s.f with valid := false } } = decodeFrom s := by
  have hs : searchFrame { s with f := { s.f with valid := false } } s.scan = searchFrame s s.scan := rfl
  simp only [decodeFrom, hs]
  cases searchFrame s s.scan <;> rfl

/-- A frame's bytes at the stream position (log 15): only F may no longer describe STREAM. -/
theorem State.Inv.arrive {s : State} (h : s.Inv) (bytes : List Byte) :
    State.Inv { s.arrive bytes with f := { s.f with valid := false } } where
  stream_ok := ⟨Memory.write_wf _ _ _ h.stream_ok.wf, fun c hc => by
    rcases Memory.mem_write _ _ _ _ hc with hc | hc
    · have := h.stream_ok.inside c hc
      simp only [State.arrive_slen]; omega
    · simp only [State.arrive_slen]; omega⟩
  obuf_ok := h.obuf_ok
  scan_le := by
    have := h.scan_le
    simp only [State.arrive_slen, State.arrive_scan]; omega
  cur_le := h.cur_le
  frame_ok := fun hv => by simp at hv
  frame_window := fun hv => by simp at hv
  config_ok := h.config_ok
  caches_ok := h.caches_ok

end Sys2Proof.Machine
end

