-- ==== Sys2Proof/Tests/Slice0.lean ====
section
/-! SUPPORT. Tests. The expected values come from spec/95_test_vectors.md, under its configuration `CFG_T` (completed for the
constellations and kinds it leaves unused), or from the rule a test names. -/

set_option maxRecDepth 100000
set_option Elab.async false

namespace Sys2Proof.Tests

open Sys2Proof Sys2Proof.Machine

/-! ## The test configuration -/

/-- An unsigned field with scale 1. -/
def uns (n : FieldName) (w : Nat) : FieldDesc := { name := n, width := w }

/-- A signed field. -/
def sgn (n : FieldName) (w : Nat) (scale : Rat) : FieldDesc := { name := n, width := w, signed := true, scale := scale }

def l1c : SignalCode := ⟨1, 'C'⟩
def l2w : SignalCode := ⟨2, 'W'⟩

/-- One light-millisecond. -/
def rms : Rat := 299792458 / 1000

def ssrHeader : List FieldDesc :=
  [uns .epoch 8, uns .udi 2, uns .mm 1, uns .iod 3, uns .provider 4, uns .solution 2, uns .nsat 4]

def orbitRecord : List FieldDesc := [uns .iode 8, sgn (.other 1) 10 (1 / 10000)]
def clockRecord : List FieldDesc := [sgn (.other 2) 18 (1 / 10000)]

def ssrLay (k : SsrKind) : SsrLayout :=
  match k with
  | .orbit => ⟨ssrHeader, uns .svid 6, orbitRecord, [], none, none, []⟩
  | .clock => ⟨ssrHeader, uns .svid 6, clockRecord, [], none, none, []⟩
  | .hrclock => ⟨ssrHeader, uns .svid 6, clockRecord, [], none, none, []⟩
  | .combined => ⟨ssrHeader, uns .svid 6, orbitRecord, clockRecord, none, none, []⟩
  | .ura => ⟨ssrHeader, uns .svid 6, [uns .uraClass 3, uns .uraValue 3], [], none, none, []⟩
  | .codebias => ⟨ssrHeader, uns .svid 6, [], [], none, some (uns .nsig 2), [uns .slot 5, sgn .bias 14 (1 / 100)]⟩
  | .phasebias =>
    ⟨ssrHeader ++ [uns .yawFlag 1], uns .svid 6, [], [], some (uns .yaw 4, sgn .yawRate 4 1), some (uns .nsig 2),
      [uns .slot 5, sgn .bias 6 (1 / 100), uns .intInd 2, uns .disc 2]⟩

/-- Every satellite and signal field of an observation layout, of which a variant's row selects some. -/
def msmLay : MsmLayout where
  header := [uns .stationId 4, uns .epoch 8, uns .mm 1]
  satMask := ⟨8, 1⟩
  sigMask := ⟨4, 1⟩
  satFields := [(.roughRange, { name := .other 4, width := 8, scale := rms, na := some 255 }), (.extInfo, uns (.other 10) 4),
    (.doppler, sgn (.other 11) 6 1)]
  sigFields := [(.fineRange, { name := .other 5, width := 15, signed := true, scale := rms / 1024, na := some (-16384) }),
    (.phase, { name := .other 12, width := 12, signed := true, scale := rms / 4096, na := some (-2048) }),
    (.lockTime, uns (.other 6) 4), (.halfCycle, uns (.other 13) 1), (.cnr, uns (.other 7) 6),
    (.doppler, sgn (.other 14) 8 (1 / 100))]
  channelOf := [(0, -7), (1, -6), (8, 1)]

def residLay : ResidLayout :=
  ⟨uns .residPresent 1, uns .residWidthCode 2, uns .residScaleCode 1, [(0, 0), (1, 4), (2, 6), (3, 8)],
    [(0, 4 / 1000), (1, 1 / 100)], .mostNegative⟩

def qzssEph : EphLayout :=
  ⟨[uns .svid 4, uns .weekRaw 10, uns .iode 8, { name := .other 8, width := 16, scale := 16 }, sgn (.other 9) 22 (1 / 2 ^ 31),
    uns .health 6], some 1024⟩

/-- 488 bits with the type (R224). -/
def gpsEph : EphLayout :=
  ⟨[uns .svid 6, uns .weekRaw 10, uns .iode 8] ++ (List.range 7).map (fun n => uns (.other n) 64) ++ [uns .health 4], some 1024⟩

/-- `URA_TABLE` of `CFG_T`: `(3^c (1 + v/4) - 1)` millimetres, (0,0) and (7,7) undefined. -/
def uraRows : List ((Int × Int) × Rat) :=
  (List.range 8).flatMap fun c => (List.range 8).filterMap fun v =>
    if (c = 0 ∧ v = 0) ∨ (c = 7 ∧ v = 7) then none else some ((c, v), ((3 : Rat) ^ c * (1 + (v : Rat) / 4) - 1) / 1000)

/-- The field of V71 to V73 and its table, 10^-1 to 10^-15. -/
def lookField : FieldDesc := uns (.other 20) 4
def lookTable : List (Option Rat) := (List.range 15).map fun k => some (1 / (10 : Rat) ^ (k + 1))

def integLay : IntegLayout where
  header := [uns .provider 4, uns .epoch 8]
  consMask := ⟨2, 0⟩
  consOf := [(0, .gps), (1, .qzss)]
  satMask := { PerCons.all none with gps := some ⟨8, 1⟩, qzss := some ⟨4, 193⟩ }
  freqMask := PerCons.all none
  body := [.consMask, .eachCons [.satMask], .eachCons [.eachSat [.record [lookField]]]]
  nearest := false

/-- The rows of `epoch_of` a test needs: the raw value itself, as `CFG_T` has it. -/
def epochs (h : EpochKey) (l : List Int) : List ((EpochKey × Int × Time) × Time) := l.map fun r => ((h, r, 0), (r : Rat))

def tNumbers : Cfg :=
  { Cfg.default with
    prn := ⟨some ⟨1, 32, 1⟩, some ⟨1, 24, 200⟩, some ⟨1, 36, 230⟩, some ⟨1, 63, 270⟩, some ⟨193, 202, 100⟩, some ⟨1, 14, 340⟩,
      some ⟨120, 158, 360⟩⟩
    svidOffset := ([.eph, .msm, .ssr, .igs, .grid, .integ] : List Family).flatMap fun f => allConstellations.map fun c =>
      ((f, c), match c with
        | .qzss => if f = .integ then 0 else 192
        | .sbas => 119
        | _ => 0)
    msmSig := allConstellations.flatMap fun c => [((c, 1), l1c), ((c, 2), l2w)]
    ssrSig := allConstellations.flatMap fun c => [((c, 0), l1c), ((c, 5), l2w)]
    freq := [((.gps, l1c, none), 1575420000), ((.glonass, l1c, some 1), 1602562500)]
    msmBase := ⟨some 197, some 210, some 220, some 230, some 240, some 250, some 260⟩
    ssrBase := ⟨some 100, some 110, some 120, some 130, some 140, some 150, some 160⟩
    testBase := ⟨some 500, some 510, some 520, some 530, some 540, some 550, some 560⟩
    testKindOfOffset := [(0, .orbit), (3, .clock)]
    ephType := ⟨some 301, some 302, some 303, some 304, some 300, some 305, some 306⟩
    antType := some 310
    posType := some 311
    globiasType := some 312
    igsType := some 400
    igsSubtypeTable := [(21, .ssr .gps .orbit), (22, .gridTropo)]
    msmLayout := allConstellations.flatMap fun c => allVariants.map fun v => ((c, v), msmLay)
    ssrLayout := allConstellations.flatMap fun c => allSsrKinds.map fun k => ((c, k), ssrLay k)
    igsPrefix := some ⟨[uns .version 3], uns .subtype 8⟩
    igsLayout := [((.gps, .orbit), ssrLay .orbit)]
    ephLayout := { PerCons.all (some qzssEph) with gps := some gpsEph }
    staLayout := [(.ant, [.field (uns .stationId 12), .str (.other 30) (uns (.other 31) 8)]),
      (.pos, [.field (uns .stationId 12), .field (sgn (.other 32) 38 (1 / 10000))]), (.globias, [.field (uns .stationId 12)])]
    tropoLayout := some ⟨ssrHeader ++ [uns .gridId 5, uns .npts 3], none, [sgn (.other 3) 9 (4 / 1000)], some residLay,
      some .npts, []⟩
    ionoLayout := some ⟨ssrHeader ++ [uns .gridId 5, uns .npts 3], some ⟨uns .svid 6, .gps⟩, [sgn (.other 3) 9 (4 / 1000)],
      some residLay, some .npts, []⟩
    integLayout := [(⟨700, none⟩, integLay)]
    integTable := [(.other 20, lookTable)]
    msmPresent := [(.v1, [.roughRange]), (.v2, [.phase]), (.v3, [.roughRange, .fineRange]),
      (.v4, [.roughRange, .fineRange, .lockTime, .cnr]), (.v5, [.roughRange, .fineRange, .phase]),
      (.v6, [.roughRange, .fineRange, .phase, .lockTime]),
      (.v7, [.roughRange, .extInfo, .fineRange, .phase, .lockTime, .halfCycle, .cnr, .doppler])]
    uraTable := uraRows
    epochRows := epochs (.corr (.ssr .gps .orbit)) [10, 20, 40] ++ epochs (.corr (.ssr .gps .combined)) [50] ++
      epochs (.corr (.ssr .gps .codebias)) [40] ++ epochs (.corr (.ssr .gps .ura)) [40] ++
      epochs (.corr (.igs .gps .orbit)) [40] ++ epochs (.corr .gridTropo) [40] ++ epochs (.corr .gridIono) [40] ++
      epochs (.msm .gps .v4) [50, 51, 55] ++ epochs (.msm .gps .v3) [50] ++ epochs .integ [40] }

/-- `CFG_T`, completed. -/
def tCfg : Cfg :=
  { tNumbers with typeTable := requiredRows tNumbers ++ [(600, .gridTropo), (601, .gridIono), (700, .integ)] }

/-- `RESET`, `HOST_CONFIG(CFG_T)`, `HOST_SET_REFTIME(0)`. -/
def st : State := { State.reset with cfg := tCfg, configured := true, refTime := some 0 }

/-- The stream holds the `n` bytes of the number `v`. -/
def State.withBytes (s : State) (n v : Nat) : State := { s with stream := Memory.write [] 0 (beBytes n v), slen := n, scan := 0 }

/-- The `n` bytes of `v` under the cursor, `off` bits read. -/
def onBytes (n v off : Nat) : State := { State.withBytes st n v with cur := ⟨.stream, 0, n, off⟩ }

/-- A cursor over `n` zero bytes of OBUF. -/
def onZeros (n : Nat) : State := { st with olen := n, cur := ⟨.obuf, 0, n, 0⟩ }

/-- The state an operation answers. -/
def after (i : Instr) (s : State) : State :=
  match exec i s with
  | .next t => t
  | _ => State.reset

/-- How an operation ended: its value, or the condition it raised; and `CUR.off`. -/
def ended (i : Instr) (s : State) : Option (RetVal × Result × Nat) :=
  match exec i s with
  | .next t => some (t.ret, t.result, t.cur.off)
  | _ => none

/-- It answered `r` with the cursor at `off`. -/
def gave (r : RetVal) (off : Nat) : Option (RetVal × Result × Nat) := some (r, ⟨.ok, .zero⟩, off)

/-- It raised `c` with the cursor at `off`. -/
def raised (c : Code) (x : Info) (off : Nat) : Option (RetVal × Result × Nat) := some (.none, ⟨c, x⟩, off)

/-- It answered a next state without a condition. -/
def runs (i : Instr) (s : State) : Bool :=
  match exec i s with
  | .next t => decide (t.result.code = .ok)
  | _ => false

theorem test_config_accepted : cfgAccepted tCfg = true := by decide +kernel

/-! ## Well-formedness: each check refuses an ill-formed term -/

theorem test_wellFormed_refuses :
    ([.hostLoad [1] 2, .boundCheck 0 1024, .frameEmit (List.replicate 1024 0), .readU 0, .readS 65, .writeU 65 0 .fail,
      .writeS 0 0 .fail, .readField (uns .svid 65), .readField { uns .svid 4 with scale := 0 },
      .readField { uns .svid 4 with na := some 16 }, .readField { sgn .svid 4 1 with na := some 8 },
      .readMask (.other 0) 0 0, .decodeMask 256 8 0 .msb, .decodeMask 0 0 0 .msb,
      .encodeMask [9] 8 1 .msb, .encodeMask [0] 8 1 .msb, .encodeMask [2, 2] 8 1 .msb, .encodeMask [] 0 1 .msb,
      .quantize (-1), .lookup lookField 16, .lookup (uns .svid 0) 0,
      .frame 0 (List.replicate 1024 0) 0] : List Instr).all
      (fun i => !i.wellFormed) = true := by decide +kernel

theorem test_wellFormed_accepts :
    ([.hostLoad [1] 1, .boundCheck 0 1023, .frameEmit (List.replicate 1023 0), .readU 1, .readS 64, .writeU 64 0 .fail,
      .writeS 1 0 .fail, .readField { sgn .svid 4 1 with na := some (-8) }, .readMask (.other 0) 70 0,
      .decodeMask 255 8 0 .msb, .encodeMask [1, 8] 8 1 .msb, .quantize 0, .lookup lookField 15,
      .frame 63 (List.replicate 1023 0) 0, .msm4Gps] : List Instr).all
      (fun i => i.wellFormed) = true := by decide +kernel

/-! ## Decoding: the words of the rows, written out (a type is the first 12 bits of the payload, R94) -/

/-- The words of the observation types (R96): base plus variant offset. -/
def msmWords : List (List Byte × Instr) := [
  ([0x0C, 0x50], .msm1Gps), ([0x0C, 0x60], .msm2Gps), ([0x0C, 0x70], .msm3Gps),
  ([0x0C, 0x80], .msm4Gps), ([0x0C, 0x90], .msm5Gps), ([0x0C, 0xA0], .msm6Gps),
  ([0x0C, 0xB0], .msm7Gps), ([0x0D, 0x20], .msm1Glonass), ([0x0D, 0x30], .msm2Glonass),
  ([0x0D, 0x40], .msm3Glonass), ([0x0D, 0x50], .msm4Glonass), ([0x0D, 0x60], .msm5Glonass),
  ([0x0D, 0x70], .msm6Glonass), ([0x0D, 0x80], .msm7Glonass), ([0x0D, 0xC0], .msm1Galileo),
  ([0x0D, 0xD0], .msm2Galileo), ([0x0D, 0xE0], .msm3Galileo), ([0x0D, 0xF0], .msm4Galileo),
  ([0x0E, 0x00], .msm5Galileo), ([0x0E, 0x10], .msm6Galileo), ([0x0E, 0x20], .msm7Galileo),
  ([0x0E, 0x60], .msm1Beidou), ([0x0E, 0x70], .msm2Beidou), ([0x0E, 0x80], .msm3Beidou),
  ([0x0E, 0x90], .msm4Beidou), ([0x0E, 0xA0], .msm5Beidou), ([0x0E, 0xB0], .msm6Beidou),
  ([0x0E, 0xC0], .msm7Beidou), ([0x0F, 0x00], .msm1Qzss), ([0x0F, 0x10], .msm2Qzss),
  ([0x0F, 0x20], .msm3Qzss), ([0x0F, 0x30], .msm4Qzss), ([0x0F, 0x40], .msm5Qzss),
  ([0x0F, 0x50], .msm6Qzss), ([0x0F, 0x60], .msm7Qzss), ([0x0F, 0xA0], .msm1Navic),
  ([0x0F, 0xB0], .msm2Navic), ([0x0F, 0xC0], .msm3Navic), ([0x0F, 0xD0], .msm4Navic),
  ([0x0F, 0xE0], .msm5Navic), ([0x0F, 0xF0], .msm6Navic), ([0x10, 0x00], .msm7Navic),
  ([0x10, 0x40], .msm1Sbas), ([0x10, 0x50], .msm2Sbas), ([0x10, 0x60], .msm3Sbas),
  ([0x10, 0x70], .msm4Sbas), ([0x10, 0x80], .msm5Sbas), ([0x10, 0x90], .msm6Sbas),
  ([0x10, 0xA0], .msm7Sbas)]

/-- The words of the correction types (R97): base plus kind offset. -/
def ssrWords : List (List Byte × Instr) := [
  ([0x06, 0x40], .ssrOrbitGps), ([0x06, 0x50], .ssrClockGps), ([0x06, 0x60], .ssrCombinedGps),
  ([0x06, 0x70], .ssrHrclockGps), ([0x06, 0x80], .ssrCodebiasGps), ([0x06, 0x90], .ssrPhasebiasGps),
  ([0x06, 0xA0], .ssrUraGps), ([0x06, 0xE0], .ssrOrbitGlonass), ([0x06, 0xF0], .ssrClockGlonass),
  ([0x07, 0x00], .ssrCombinedGlonass), ([0x07, 0x10], .ssrHrclockGlonass), ([0x07, 0x20], .ssrCodebiasGlonass),
  ([0x07, 0x30], .ssrPhasebiasGlonass), ([0x07, 0x40], .ssrUraGlonass), ([0x07, 0x80], .ssrOrbitGalileo),
  ([0x07, 0x90], .ssrClockGalileo), ([0x07, 0xA0], .ssrCombinedGalileo), ([0x07, 0xB0], .ssrHrclockGalileo),
  ([0x07, 0xC0], .ssrCodebiasGalileo), ([0x07, 0xD0], .ssrPhasebiasGalileo), ([0x07, 0xE0], .ssrUraGalileo),
  ([0x08, 0x20], .ssrOrbitBeidou), ([0x08, 0x30], .ssrClockBeidou), ([0x08, 0x40], .ssrCombinedBeidou),
  ([0x08, 0x50], .ssrHrclockBeidou), ([0x08, 0x60], .ssrCodebiasBeidou), ([0x08, 0x70], .ssrPhasebiasBeidou),
  ([0x08, 0x80], .ssrUraBeidou), ([0x08, 0xC0], .ssrOrbitQzss), ([0x08, 0xD0], .ssrClockQzss),
  ([0x08, 0xE0], .ssrCombinedQzss), ([0x08, 0xF0], .ssrHrclockQzss), ([0x09, 0x00], .ssrCodebiasQzss),
  ([0x09, 0x10], .ssrPhasebiasQzss), ([0x09, 0x20], .ssrUraQzss), ([0x09, 0x60], .ssrOrbitNavic),
  ([0x09, 0x70], .ssrClockNavic), ([0x09, 0x80], .ssrCombinedNavic), ([0x09, 0x90], .ssrHrclockNavic),
  ([0x09, 0xA0], .ssrCodebiasNavic), ([0x09, 0xB0], .ssrPhasebiasNavic), ([0x09, 0xC0], .ssrUraNavic),
  ([0x0A, 0x00], .ssrOrbitSbas), ([0x0A, 0x10], .ssrClockSbas), ([0x0A, 0x20], .ssrCombinedSbas),
  ([0x0A, 0x30], .ssrHrclockSbas), ([0x0A, 0x40], .ssrCodebiasSbas), ([0x0A, 0x50], .ssrPhasebiasSbas),
  ([0x0A, 0x60], .ssrUraSbas)]

/-- The words of the test ranges (R99), the ephemerides, the station messages, IGS, the grids, integrity and RAW (R98). -/
def otherWords : List (List Byte × Instr) := [
  ([0x1F, 0x40], .ssrTestGps 0), ([0x1F, 0xE0], .ssrTestGlonass 0), ([0x20, 0x80], .ssrTestGalileo 0),
  ([0x21, 0x20], .ssrTestBeidou 0), ([0x21, 0xC0], .ssrTestQzss 0), ([0x22, 0x60], .ssrTestNavic 0),
  ([0x23, 0x00], .ssrTestSbas 0), ([0x1F, 0x70], .ssrTestGps 3), ([0x12, 0xD0], .ephGps), ([0x12, 0xE0], .ephGlonass),
  ([0x12, 0xF0], .ephGalileo), ([0x13, 0x00], .ephBeidou), ([0x12, 0xC0], .ephQzss),
  ([0x13, 0x10], .ephNavic), ([0x13, 0x20], .ephSbas), ([0x13, 0x60], .staAnt),
  ([0x13, 0x70], .staPos), ([0x13, 0x80], .staGlobias), ([0x19, 0x00], .igs),
  ([0x25, 0x80], .gridTropo), ([0x25, 0x90], .gridIono), ([0x2B, 0xC0], .integ 700),
  ([0x3E, 0xD0], .raw 1005)]

theorem test_decode_msm : msmWords.all (fun x => decide (decodeMessage tCfg x.1 = .ok x.2)) = true := by decide +kernel

theorem test_decode_ssr : ssrWords.all (fun x => decide (decodeMessage tCfg x.1 = .ok x.2)) = true := by decide +kernel

theorem test_decode_other : otherWords.all (fun x => decide (decodeMessage tCfg x.1 = .ok x.2)) = true := by decide +kernel

theorem test_encode_words :
    (msmWords ++ ssrWords ++ otherWords).all (fun x => decide (encode tCfg x.2 = some x.1)) = true := by decide +kernel

/-- R90: `D3`, six pad bits, ten length bits, the payload, three CRC bytes; what follows is left. -/
theorem test_decode_frame :
    decodeFrame tCfg [0xD3, 0xFC, 0x02, 0xAB, 0xCD, 0x01, 0x02, 0x03, 0x55] = .ok (.frame 63 [0xAB, 0xCD] 0x010203, [0x55]) ∧
    decodeFrame tCfg [0xD2, 0, 0, 0, 0, 0] = .error .noPreamble ∧ decodeFrame tCfg [0xD3, 0] = .error .truncatedHeader ∧
    decodeFrame tCfg [0xD3, 0, 1, 0, 0, 0] = .error .truncatedFrame := by decide +kernel

/-- R93: a payload of fewer than two bytes has no type; the rest of the second byte is not part of it. -/
theorem test_decode_short : decodeMessage tCfg [0x43] = .error .noType ∧ decodeMessage tCfg [0x06, 0x4F] = .ok .ssrOrbitGps := by
  decide +kernel

/-- The 42 operations have no wire encoding (R112). -/
theorem test_operations_have_no_word :
    ([.reset, .decodeOne, .dispatch, .readU 8, .hostConfig tCfg, .crc24 []] : List Instr).all
      (fun i => decide (encode tCfg i = none)) = true := by decide +kernel

theorem test_tableWord :
    decodeTableWord 16 1077 = some .msm7Gps ∧ decodeTableWord 16 4076 = some .igs ∧ decodeTableWord 16 5 = some (.raw 5) ∧
    decodeTableWord 8 0xD3 = some (.frame 0 [] 0) ∧ decodeTableWord 48 0xD3 = some (.frame 0 [] 0) ∧
    decodeTableWord 0 0 = none ∧ decodeTableWord 8 0xD2 = none := by decide +kernel

/-- The next step after reset runs the word. -/
theorem test_withFetchWord :
    ([1071, 1074, 1019, 1045, 1057, 1230, 1007, 4076, 5, 1265] : List Nat).all (fun w =>
      match step (State.reset.withFetchWord 16 w) with
      | .next t => decide (t.result.code = .ok ∧ t.out ≠ none)
      | _ => false) = true := by decide +kernel

/-! ## Reset and host operations -/

/-- A state with something in every register. -/
def used : State :=
  { State.withBytes st 2 0xD300 with
    scan := 1
    f := ⟨true, 0, 5, 7, 9⟩
    cur := ⟨.stream, 0, 1, 3⟩
    result := ⟨.checksumMismatch, .pos 4⟩
    out := some (.rawUnhandled 5 [1])
    obuf := [(0, 1)]
    olen := 1
    window := false
    lk := [((3, l1c), 5)]
    cs := [(0, NetState.fresh), (4, { NetState.fresh with orbit := ⟨.complete, some 10, some (.code 3), none, none, none, []⟩ })]
    is := [(1, ⟨some 3, []⟩), (2, ⟨some 4, []⟩)] }

/-- R380, V81: everything is reset but the stream. -/
theorem test_reset :
    after .reset used = { State.reset with stream := [(0, 0xD3)], slen := 2, ret := .done } := by decide +kernel

/-- R215, R388: accepted inside the window. -/
theorem test_hostConfig :
    (after (.hostConfig tCfg) State.reset).configured = true ∧ (after (.hostConfig tCfg) State.reset).cfg = tCfg ∧
    (after (.hostConfig tCfg) State.reset).window = true := by decide +kernel

/-- V78, V82: a closed window; a field of width 65; `IDX_BASE[GPS] = 0` with `PRN_MIN[GPS] = 1`; a missing type row; a GPS ephemeris
of another size than R224's; a residual's sentinel outside its four bits (R133). -/
theorem test_hostConfig_refused :
    ([(tCfg, { st with window := false }),
      ({ tCfg with igsPrefix := some ⟨[uns .version 65], uns .subtype 8⟩ }, State.reset),
      ({ tCfg with prn := { tCfg.prn with gps := some ⟨1, 32, 0⟩ } }, State.reset),
      ({ tCfg with ephLayout := PerCons.all (some qzssEph) }, State.reset),
      ({ tCfg with tropoLayout := tCfg.tropoLayout.map fun l => { l with resid := some { residLay with na := .value 8 } } }, State.reset),
      ({ tCfg with typeTable := [] }, State.reset), ({ tCfg with crc := { tCfg.crc with refin := true } }, State.reset)] :
      List (Cfg × State)).all
      (fun x => decide ((after (.hostConfig x.1) x.2).result.code = .usageError ∧
        (after (.hostConfig x.1) x.2).configured = x.2.configured ∧ (after (.hostConfig x.1) x.2).cfg = x.2.cfg)) = true := by
  decide +kernel

/-- V77, R214. -/
theorem test_hostLoad :
    ended (.hostLoad [1, 2] 3) used = raised .usageError (.arg (.int 3)) 3 ∧ (after (.hostLoad [1, 2] 3) used).stream = used.stream ∧
    (after (.hostLoad [1, 0, 2] 3) used).stream = [(0, 1), (2, 2)] ∧ (after (.hostLoad [1, 0, 2] 3) used).slen = 3 ∧
    (after (.hostLoad [1, 0, 2] 3) used).scan = 3 ∧ (after (.hostLoad [1, 0, 2] 3) used).f.valid = false := by decide +kernel

theorem test_hostSetRefTime : (after (.hostSetRefTime 17) State.reset).refTime = some 17 := by decide +kernel

/-- V80, R317, R318. -/
theorem test_hostRead :
    ended (.hostRead 4 .orbit) used =
      gave (.caches (some ⟨.complete, some 10, some (.code 3), none, none, none, []⟩) used.lk used.is) 3 ∧
    ended (.hostRead 5 .orbit) used = gave (.caches none used.lk used.is) 3 ∧
    ended (.hostRead 0 .orbit) used = gave (.caches (some Entry.fresh) used.lk used.is) 3 := by decide +kernel

theorem test_hostEvict :
    (after (.hostEvict 4) used).cs = [(0, NetState.fresh)] ∧ (after (.hostEvict 4) used).lk = used.lk ∧
    (after (.hostEvictProvider 1) used).is = [(2, ⟨some 4, []⟩)] ∧ (after (.hostEvictProvider 7) used).is = used.is := by
  decide +kernel

/-- V76, R382: unconfigured, a unit's operation raises UsageError. -/
theorem test_unconfigured :
    (after .decodeOne State.reset).result.code = .usageError ∧ (after (.readU 8) State.reset).result.code = .usageError ∧
    (after .msm4Gps State.reset).result.code = .usageError := by decide +kernel

/-! ## FrameSync (V22 to V35, P1) -/

def s1 : Nat := 0xD300133ED7D30202980EDEEF34B4BD62AC0941986F33360B98

/-- R145's table. -/
theorem test_crc24 :
    ([(0, 0), (3, 0), (1, 1), (9, 0x313233343536373839), (3, 0xD30000), (22, s1 / 2 ^ 24)] : List (Nat × Nat)).map
      (fun x => ended (.crc24 (beBytes x.1 x.2)) st) =
    ([0, 0, 0x864CFB, 0xCDE703, 0x47EA4B, 0x360B98] : List (BitVec 24)).map (fun c => gave (.crc c) 0) := by decide +kernel

/-- V22, V26, V30: accepted. -/
theorem test_findFrame_accepts :
    ended (.findFrame 0) (State.withBytes st 25 s1) = gave (.frame 0 19) 0 ∧
    (after (.findFrame 0) (State.withBytes st 25 s1)).f = ⟨true, 0, 19, 0, 0x360B98⟩ ∧
    ended (.findFrame 0) (State.withBytes st 6 0xD3000047EA4B) = gave (.frame 0 0) 0 ∧
    ended (.findFrame 0) (State.withBytes st 25 0xD3FC133ED7D30202980EDEEF34B4BD62AC0941986F33B438F2) = gave (.frame 0 19) 0 := by
  decide +kernel

/-- V23 to V25, V27 to V31: not accepted. -/
theorem test_findFrame_rejects :
    ([(24, s1 / 256, 0), (25, s1, 1), (25, s1, 6), (25, s1 ^^^ 0x80 * 256 ^ 21, 0), (25, s1 ^^^ 1, 0), (25, s1 ^^^ 256 ^ 3, 0),
      (25, s1 ^^^ 0xFC * 256 ^ 23, 0), (2, 0xD300, 0)] : List (Nat × Nat × Nat)).map
      (fun x => ended (.findFrame x.2.2) (State.withBytes st x.1 x.2.1)) =
    [raised .truncatedMessage (.pos 0) 0, raised .truncatedMessage (.pos 5) 0, gave .noFrame 0,
      raised .checksumMismatch (.pos 0) 0, raised .checksumMismatch (.pos 0) 0, raised .checksumMismatch (.pos 0) 0,
      raised .checksumMismatch (.pos 0) 0, raised .truncatedMessage (.pos 0) 0] := by decide +kernel

/-- V32. -/
theorem test_syncScan :
    ([0, 3, 4] : List Nat).map (fun n => ended (.syncScan n) (State.withBytes st 4 0x00FFD300)) =
    [gave (.position (some 2)) 0, gave (.position none) 0, gave (.position none) 0] := by decide +kernel

/-- V33. -/
theorem test_lenRead :
    ([0xD30013, 0xD3FE02, 0xD3FFFF] : List Nat).map (fun v => ended (.lenRead 0) (State.withBytes st 3 v)) =
      [gave (.nat 19) 0, gave (.nat 514) 0, gave (.nat 1023) 0] ∧
    ended (.lenRead 1) (State.withBytes st 3 0xD30013) = raised .truncatedMessage (.pos 1) 0 := by decide +kernel

/-- R144: the bound is allowed. -/
theorem test_boundCheck :
    ended (.boundCheck 0 19) (State.withBytes st 25 s1) = gave .done 0 ∧
    ended (.boundCheck 1 19) (State.withBytes st 25 s1) = raised .truncatedMessage (.pos 1) 0 := by decide +kernel

/-- V34, V35. -/
theorem test_frameEmit :
    ended (.frameEmit []) st = gave (.bytes [0xD3, 0, 0, 0x47, 0xEA, 0x4B]) 0 ∧
    ended (.frameEmit (beBytes 19 (s1 / 2 ^ 24))) st = gave (.bytes (beBytes 25 s1)) 0 ∧
    ended (.frameEmit (List.replicate 1024 0)) st = raised .usageError (.arg (.int 1024)) 0 := by decide +kernel

/-! ## BitReader and BitWriter (V1 to V21, P2) -/

/-- V1, V3, V5, V6, V9, V10 to V13, and the empty cursor. -/
theorem test_readU :
    ([(0, 1), (0, 3), (3, 7), (5, 11), (0, 24), (23, 1), (24, 1), (0, 0), (0, 65), (20, 5)] : List (Nat × Nat)).map
      (fun x => ended (.readU x.2) (onBytes 3 0xA5C3F0 x.1)) =
    [gave (.nat 1) 1, gave (.nat 5) 3, gave (.nat 23) 10, gave (.nat 1475) 16, gave (.nat 10863600) 24, gave (.nat 0) 24,
      raised .truncatedMessage (.bits 24 1) 24, raised .usageError (.arg (.int 0)) 0, raised .usageError (.arg (.int 65)) 0,
      raised .truncatedMessage (.bits 20 5) 20] ∧
    ended (.readU 1) (onBytes 0 0 0) = raised .truncatedMessage (.bits 0 1) 0 := by decide +kernel

/-- P2: the reads of `S1`'s payload, steps 1, 2, 4 and 14. -/
theorem test_readU_payload :
    ([(0, 12), (12, 12), (30, 1), (152, 1)] : List (Nat × Nat)).map
      (fun x => ended (.readU x.2) (onBytes 19 (s1 / 2 ^ 24 % 2 ^ 152) x.1)) =
    [gave (.nat 1005) 12, gave (.nat 2003) 24, gave (.nat 1) 31, raised .truncatedMessage (.bits 152 1) 152] := by decide +kernel

/-- V2, V4, V7, V8 and P2's steps 8, 11 and 13. -/
theorem test_readS :
    ([(0, 1), (0, 3), (5, 11), (4, 12)] : List (Nat × Nat)).map (fun x => ended (.readS x.2) (onBytes 3 0xA5C3F0 x.1)) =
      [gave (.int (-1)) 1, gave (.int (-3)) 3, gave (.int (-573)) 16, gave (.int 1475) 16] ∧
    ([34, 74, 114] : List Nat).map (fun o => ended (.readS 38) (onBytes 19 (s1 / 2 ^ 24 % 2 ^ 152) o)) =
      [gave (.int 11141045999) 72, gave (.int (-48507297108)) 112, gave (.int 39755214643) 152] := by decide +kernel

/-- V14 to V16. -/
theorem test_readBytes :
    ([(8, 2), (4, 1), (16, 2)] : List (Nat × Nat)).map (fun x => ended (.readBytes x.2) (onBytes 3 0xA5C3F0 x.1)) =
    [gave (.bytes [0xC3, 0xF0]) 24, raised .usageError (.arg (.int 4)) 4, raised .truncatedMessage (.bits 16 16) 16] := by decide +kernel

/-- R120. -/
theorem test_curInit :
    (after (.curInit .stream 3 19) (State.withBytes st 25 s1)).cur = ⟨.stream, 3, 19, 0⟩ ∧
    (after (.curInit .stream 3 23) (State.withBytes st 25 s1)).result.code = .usageError ∧
    (after (.curInit .obuf 3 4) st).cur = ⟨.obuf, 3, 4, 0⟩ := by decide +kernel

/-- V18, V20, V21. -/
theorem test_writeU :
    (after (.writeU 12 1077 .fail) (onZeros 2)).obuf = [(0, 0x43), (1, 0x50)] ∧
    ended (.writeU 12 1077 .fail) (onZeros 2) = gave .done 12 ∧
    (after (.writeU 4 0x1F .truncate) (onZeros 1)).obuf = [(0, 0xF0)] ∧
    ended (.writeU 4 0x1F .fail) (onZeros 1) = raised .usageError (.arg (.int 31)) 0 ∧
    ended (.writeU 8 1 .fail) (onZeros 0) = raised .truncatedMessage (.bits 0 8) 0 := by decide +kernel

/-- V17, its second write; V19. -/
theorem test_writeS :
    (after (.writeS 7 (-1) .fail)
      { onZeros 2 with obuf := [(0, 0xA0)], cur := ⟨.obuf, 0, 2, 3⟩ }).obuf = [(0, 0xBF), (1, 0xC0)] ∧
    (after (.writeS 5 (-16) .fail) (onZeros 1)).obuf = [(0, 0x80)] ∧ (after (.writeS 5 15 .fail) (onZeros 1)).obuf = [(0, 0x78)] ∧
    ended (.writeS 5 16 .fail) (onZeros 1) = raised .usageError (.arg (.int 16)) 0 := by decide +kernel

/-- R131, R128. -/
theorem test_writeBytes :
    (after (.writeBytes [0xAB, 0xCD]) { onZeros 3 with cur := ⟨.obuf, 0, 3, 8⟩ }).obuf = [(1, 0xAB), (2, 0xCD)] ∧
    ended (.writeBytes [1]) { onZeros 3 with cur := ⟨.obuf, 0, 3, 4⟩ } = raised .usageError (.arg (.int 4)) 4 ∧
    ended (.writeBytes [1, 2]) { onZeros 3 with cur := ⟨.obuf, 0, 3, 16⟩ } = raised .truncatedMessage (.bits 16 16) 16 := by
  decide +kernel

/-- R81, R63: a shorter buffer under the cursor: its bytes are read as they are, and OBUF grows back to what is written. -/
theorem test_shorter_buffer :
    ended (.readU 8) { onBytes 2 0xA5C3 0 with slen := 1 } = gave (.nat 0xA5) 8 ∧
    runs (.readU 8) { onBytes 2 0xA5C3 8 with slen := 1 } = true ∧
    (after (.writeU 8 255 .fail) { onZeros 3 with olen := 1, cur := ⟨.obuf, 0, 3, 16⟩ }).obuf = [(2, 0xFF)] ∧
    (after (.writeU 8 255 .fail) { onZeros 3 with olen := 1, cur := ⟨.obuf, 0, 3, 16⟩ }).olen = 3 := by decide +kernel

/-- R105: the sentinel, the scale, the sign. -/
theorem test_readField :
    ended (.readField (sgn .bias 3 (1 / 100))) (onBytes 3 0xA5C3F0 0) = gave (.value (.scaled (-3) (1 / 100))) 3 ∧
    ended (.readField { uns .bias 3 with na := some 5 }) (onBytes 3 0xA5C3F0 0) = gave (.value .na) 3 := by decide +kernel

/-- V47, V47b: a mask of 64 and one of 70 bits. -/
theorem test_readMask :
    ended (.readMask (.other 0) 64 1) (onBytes 8 0xA000000000000000 0) = gave (.indices [1, 3] 2) 64 ∧
    ended (.readMask (.other 0) 70 0) (onBytes 9 0x860000000000000004 0) = gave (.indices [0, 5, 6, 69] 4) 70 := by decide +kernel

/-! ## Satellites, signals, masks (V36 to V46, W1, W2) -/

theorem test_toIndex :
    ([(.gps, 1), (.gps, 5), (.gps, 32), (.qzss, 193), (.gps, 0), (.gps, 33)] : List (Constellation × Nat)).map
      (fun x => ended (.toIndex x.1 x.2) st) =
    [gave (.nat 1) 0, gave (.nat 5) 0, gave (.nat 32) 0, gave (.nat 100) 0, raised .invalidPrn (.prn (some .gps) 0) 0,
      raised .invalidPrn (.prn (some .gps) 33) 0] := by decide +kernel

theorem test_fromIndex :
    ([32, 100, 101, 33, 0] : List Nat).map (fun i => ended (.fromIndex i) st) =
    [gave (.consPrn .gps 32) 0, gave (.consPrn .qzss 193) 0, gave (.consPrn .qzss 194) 0, raised .invalidPrn (.prn none 33) 0,
      raised .invalidPrn (.prn none 0) 0] := by decide +kernel

theorem test_svid :
    ended (.svidOffset .eph .qzss) st = gave (.nat 192) 0 ∧ ended (.svidToSat .eph .qzss 2) st = gave (.nat 101) 0 ∧
    ended (.svidToSat .eph .qzss 12) st = raised .invalidPrn (.prn (some .qzss) 204) 0 ∧
    ended (.satToSvid .eph 101) st = gave (.consPrn .qzss 2) 0 := by decide +kernel

theorem test_sigOf :
    ([(.msmSig, 1), (.ssrSig, 5), (.msmSig, 5)] : List (SigTable × Nat)).map (fun x => ended (.sigOf x.1 .gps x.2) st) =
    [gave (.signal l1c) 0, gave (.signal l2w) 0, raised .invalidSignalCode (.slot .gps 5) 0] := by decide +kernel

theorem test_decodeMask :
    ([(0xA0, 8, 1, .msb), (0xA0, 8, 1, .lsb), (0, 8, 1, .msb), (0xFF, 8, 1, .msb), (0xB, 4, 0, .msb)] :
      List (Nat × Nat × Nat × MaskOrder)).map (fun x => ended (.decodeMask x.1 x.2.1 x.2.2.1 x.2.2.2) st) =
    [gave (.indices [1, 3] 2) 0, gave (.indices [6, 8] 2) 0, gave (.indices [] 0) 0,
      gave (.indices [1, 2, 3, 4, 5, 6, 7, 8] 8) 0, gave (.indices [0, 2, 3] 3) 0] := by decide +kernel

theorem test_encodeMask :
    ([([1, 3], 8, 1), ([0, 2, 3], 4, 0), ([9], 8, 1), ([3, 1], 8, 1), ([2, 2], 8, 1)] : List (List Nat × Nat × Nat)).map
      (fun x => ended (.encodeMask x.1 x.2.1 x.2.2 .msb) st) =
    [gave (.nat 0xA0) 0, gave (.nat 0xB) 0, raised .usageError (.arg (.int 9)) 0, raised .usageError (.arg (.int 1)) 0,
      raised .usageError (.arg (.int 2)) 0] := by decide +kernel

/-! ## Weeks, quality values, caches, lookups (V51, V63, V68 to V75) -/

theorem test_adjustWeek :
    ended (.adjustWeek .qzss 512 (604800 * 2300 + 1000)) st = gave (.int 2560) 0 ∧
    ended (.adjustWeek .qzss 512 (604800 * 1000)) st = gave (.int 512) 0 ∧
    ended (.adjustWeek .gps 512 (604800 * 2300)) st = gave (.int 2560) 0 := by decide +kernel

/-- R36, R223: the host's week starts need not be evenly spaced: week 1536 of GPS is the nearest by each of the host's functions. -/
theorem test_adjustWeek_listed :
    ([{ tCfg with weekRows := [((.gps, 1536), 0)] }, { tCfg with addRows := [((0, 604800 * 1536), 7)] },
      { tCfg with diffRows := [((604800 * 1536, 7), 0)] }] : List Cfg).map (fun c => ended (.adjustWeek .gps 512 7) { st with cfg := c }) =
    List.replicate 3 (gave (.int 1536) 0) := by
  decide +kernel

theorem test_quality :
    ([395 / 10000, 1875 / 1000000, 19 / 10000, 18 / 10000, 100] : List Rat).map (fun q => ended (.quantize q) st) =
      [gave (.quality 3 2) 0, gave (.quality 1 0) 0, gave (.quality 1 0) 0, gave (.quality 0 7) 0, gave (.quality 7 6) 0] ∧
    ended (.decodeUra 3 2) st = gave (.metres (some (395 / 10000))) 0 ∧
    ended (.decodeUra 7 7) st = gave (.metres none) 0 := by decide +kernel

/-- V71 to V74. -/
theorem test_lookup :
    ended (.lookup lookField 0) st = gave (.lookup (.provided (1 / 10))) 0 ∧
    ended (.lookup lookField 14) st = gave (.lookup (.provided (1 / 10 ^ 15))) 0 ∧
    ended (.lookup lookField 15) st = gave (.lookup .notProvided) 0 ∧
    ended (.lookup lookField 3) { st with cfg := { tCfg with integTable := [(.other 20, [none, none, none, some 0])] } } =
      gave (.lookup (.provided 0)) 0 := by decide +kernel

/-- R251: greater, equal, less; a first observation; equal under the other policy. -/
theorem test_lockCheck :
    ([50, 5, 4] : List Nat).map (fun n => ended (.lockCheck 3 l1c n) used) =
      [gave (.flag false) 3, gave (.flag true) 3, gave (.flag true) 3] ∧
    ([50, 5, 4] : List Nat).map (fun n => (after (.lockCheck 3 l1c n) used).lk) =
      [[((3, l1c), 50)], [((3, l1c), 5)], [((3, l1c), 4)]] := by decide +kernel

theorem test_lockCheck_equal :
    ended (.lockCheck 5 l1c 9) used = gave (.flag false) 3 ∧
    ended (.lockCheck 3 l1c 5) { used with cfg := { tCfg with lockEqRaises := false } } = gave (.flag false) 3 := by
  decide +kernel

/-- An entry of the orbit set: satellite `n`, issue of data `iode`, radial part `dr`. -/
def orbitOf (n : Nat) (iode dr : Int) : EntryKey × Record :=
  (.sat n, .vals [(.iode, .scaled iode 1), (.other 1, .scaled dr (1 / 10000))])

/-- The orbit set of the programs: update interval 1, provider 2, solution 1. -/
def orbitSet (st : KindState) (t : Time) (iod : Int) (l : List (EntryKey × Record)) : Entry :=
  ⟨st, some t, some (.code iod), some (.code 1), some (.code 2), some (.code 1), l⟩

/-- A state whose orbit set of network 0 is given. -/
def holding (e : Entry) (s : State) : State := { s with cs := [(0, { NetState.fresh with orbit := e })] }

/-- The orbit set of network 0. -/
def orbitIn (s : State) : Entry := (networkOf s.cs 0).orbit

/-- R283, V68: no mismatch with another epoch or the same issue of data; a mismatch under both policies. -/
theorem test_iodCheck :
    let s := holding (orbitSet .complete 20 4 [orbitOf 9 9 100]) st
    ended (.iodCheck 0 [.clock, .orbit] 20 (some (.code 4))) s = gave (.flag false) 0 ∧
    ended (.iodCheck 0 [.clock, .orbit] 10 (some (.code 5))) s = gave (.flag false) 0 ∧
    ended (.iodCheck 0 [.clock, .orbit] 20 (some (.code 5))) s = gave (.flag true) 0 ∧
    ended (.iodCheck 0 [.clock, .orbit] 20 none) s = gave (.flag true) 0 ∧
    ended (.iodCheck 0 [.clock, .orbit] 20 (some (.code 5))) { s with cfg := { tCfg with iodPolicy := .strict } } =
      raised .inconsistentIssueOfData (.entry 0 .orbit) 0 := by decide +kernel

/-- W5, W6, V69: a newer epoch clears, the same one accumulates, an older one is dropped or replaces. -/
theorem test_cacheUpdate :
    let s := holding (orbitSet .partialSet 10 3 [orbitOf 5 7 (-3)]) st
    let h : CorrHdr := ⟨some (.code 3), some (.code 1), some (.code 2), some (.code 1), false⟩
    orbitIn (after (.cacheUpdate 0 .orbit 10 h [orbitOf 9 8 12]) s) = orbitSet .complete 10 3 [orbitOf 5 7 (-3), orbitOf 9 8 12] ∧
    orbitIn (after (.cacheUpdate 0 .orbit 20 h [orbitOf 9 8 12]) s) = orbitSet .complete 20 3 [orbitOf 9 8 12] ∧
    after (.cacheUpdate 0 .orbit 5 h [orbitOf 9 8 12]) s =
      { s with window := false, ret := .report ⟨.orbit, .partialSet, true⟩, free := 1 } ∧
    orbitIn (after (.cacheUpdate 0 .orbit 5 h [orbitOf 9 8 12]) { s with cfg := { tCfg with oldEpochPolicy := .replace } }) =
      orbitSet .complete 5 3 [orbitOf 9 8 12] := by decide +kernel

/-- A part with one constellation. -/
def part1 : IntegPart := ⟨[], [.gps], [], [], []⟩

/-- V75. -/
theorem test_isUpdate :
    (after (.isUpdate 1 20 ⟨700, none⟩ part1) { st with is := [(1, ⟨some 10, [(⟨701, none⟩, part1)]⟩)] }).is = [(1, ⟨some 20, [(⟨700, none⟩, part1)]⟩)] ∧
    (after (.isUpdate 1 10 ⟨701, none⟩ part1) { st with is := [(1, ⟨some 20, [(⟨700, none⟩, part1)]⟩)] }).is =
      [(1, ⟨some 20, [(⟨700, none⟩, part1)]⟩)] ∧
    (after (.isUpdate 1 20 ⟨701, none⟩ part1) { st with is := [(1, ⟨some 20, [(⟨700, none⟩, part1)]⟩)] }).is =
      [(1, ⟨some 20, [(⟨700, none⟩, part1), (⟨701, none⟩, part1)]⟩)] := by decide +kernel

/-! ## Messages: DECODE_ONE on one frame -/

def m1 : Nat := 0xD300080640A6C91141FFD09221E0

/-- P1: a false preamble, an unhandled frame behind it, a cut frame, an empty stream. -/
theorem test_decodeOne_framing :
    let s := State.withBytes st 34 (0x12D30002ABCD000000 * 256 ^ 25 + s1)
    ended .decodeOne s = raised .checksumMismatch (.pos 1) 0 ∧ (after .decodeOne s).scan = 2 ∧
    ended .decodeOne { s with scan := 2 } =
      gave (.decoded 32 (some (.rawUnhandled 1005 (beBytes 19 (s1 / 2 ^ 24))))) 12 ∧
    (after .decodeOne { s with scan := 2 }).scan = 34 ∧
    ended .decodeOne { s with scan := 34 } = gave (.decoded 0 none) 0 ∧
    (after .decodeOne (State.withBytes st 4 0xD3000806)).scan = 0 ∧
    (after .decodeOne (State.withBytes st 4 0xD3000806)).result = ⟨.truncatedMessage, .pos 0⟩ := by decide +kernel

/-- P1b: the empty frame inside a rejected candidate is too short for a type. -/
theorem test_decodeOne_empty_frame :
    let s := { State.withBytes st 9 0xD30001D3000047EA4B with scan := 1 }
    ended .decodeOne s = raised .truncatedMessage (.bits 0 12) 0 ∧ (after .decodeOne s).scan = 9 ∧
    (after .decodeOne s).f.valid = true ∧ (after .decodeOne s).out = none := by decide +kernel

/-- P3, M1 to M5 with the set each meets: the report, and the set it leaves. -/
theorem test_ssr_orbit :
    ([(m1, Entry.fresh), (0xD300080640A4C9124200C0BD4DBB, orbitSet .partialSet 10 3 [orbitOf 5 7 (-3)]),
      (0xD300080641450912424640B36A28, orbitSet .complete 10 3 [orbitOf 5 7 (-3), orbitOf 9 8 12]),
      (0xD300080640A4C91141FFD0FFF79A, orbitSet .complete 20 4 [orbitOf 9 9 100]),
      (0xD3000806414549130060004FD5CB, orbitSet .complete 20 4 [orbitOf 9 9 100])] : List (Nat × Entry)).map
      (fun x =>
        let t := after .decodeOne (holding x.2 (State.withBytes st 14 x.1))
        (orbitIn t, match t.out with
          | some (.correction u) => some (u.network, u.reports, u.iodMismatch)
          | _ => none)) =
    [(orbitSet .partialSet 10 3 [orbitOf 5 7 (-3)], some (0, [⟨.orbit, .partialSet, false⟩], false)),
      (orbitSet .complete 10 3 [orbitOf 5 7 (-3), orbitOf 9 8 12], some (0, [⟨.orbit, .complete, false⟩], false)),
      (orbitSet .complete 20 4 [orbitOf 9 9 100], some (0, [⟨.orbit, .complete, false⟩], false)),
      (orbitSet .complete 20 4 [orbitOf 9 9 100], some (0, [⟨.orbit, .complete, true⟩], false)),
      (orbitSet .complete 20 5 [orbitOf 9 9 100, orbitOf 12 1 (-512)], some (0, [⟨.orbit, .complete, false⟩], true))] := by
  decide +kernel

/-- P3, M6 and M7; V68's strict policy; V70: conditions leave the caches. -/
theorem test_ssr_conditions :
    let s := holding (orbitSet .complete 20 4 [orbitOf 9 9 100]) st
    ([(0xD300080641E5492141C010A781A6, s), (0xD300080641E5491A01C010B12D68, s),
      (0xD3000806414549130060004FD5CB, { s with cfg := { tCfg with iodPolicy := .strict } }),
      (m1, { s with refTime := none })] : List (Nat × State)).all
      (fun x => decide ((after .decodeOne (State.withBytes x.2 14 x.1)).cs = s.cs ∧
        (after .decodeOne (State.withBytes x.2 14 x.1)).scan = 14)) = true ∧
    ended .decodeOne (State.withBytes s 14 0xD300080641E5492141C010A781A6) = raised .truncatedMessage (.bits 60 6) 60 ∧
    ended .decodeOne (State.withBytes s 14 0xD300080641E5491A01C010B12D68) = raised .invalidPrn (.prn (some .gps) 40) 42 ∧
    ended .decodeOne (State.withBytes { s with cfg := { tCfg with iodPolicy := .strict } } 14 0xD3000806414549130060004FD5CB) =
      raised .inconsistentIssueOfData (.entry 0 .orbit) 60 := by decide +kernel

/-- V60, V61. -/
theorem test_ssr_codebias :
    (networkOf (after .decodeOne (State.withBytes st 17 0xD3000B068284C91160012C5FFB001F20A4)).cs 0).codebias =
      ⟨.complete, some 40, some (.code 3), some (.code 1), some (.code 2), some (.code 1),
        [(.sat 5, .code [(l1c, .scaled 150 (1 / 100)), (l2w, .scaled (-20) (1 / 100))])]⟩ ∧
    ended .decodeOne (State.withBytes st 14 0xD30008068284C91153812C533961) = raised .invalidSignalCode (.slot .gps 7) 49 ∧
    (after .decodeOne (State.withBytes st 14 0xD30008068284C91153812C533961)).cs = [] := by decide +kernel

/-- V62. -/
theorem test_ssr_ura :
    (networkOf (after .decodeOne (State.withBytes st 12 0xD3000606A284C9115A0BEA03)).cs 0).ura =
      ⟨.complete, some 40, some (.code 3), some (.code 1), some (.code 2), some (.code 1),
        [(.sat 5, .vals [(.uraClass, .scaled 3 1), (.uraValue, .scaled 2 1), (.stdev, .exact (395 / 10000))])]⟩ := by
  decide +kernel

/-- V64: both kinds of a combined message. -/
theorem test_ssr_combined :
    let t := after .decodeOne (State.withBytes st 16 0xD3000A066325891242F9C02710D74CE0)
    (networkOf t.cs 0).orbit = orbitSet .complete 50 6 [orbitOf 9 11 (-100)] ∧
    (networkOf t.cs 0).clock =
      ⟨.complete, some 50, some (.code 6), some (.code 1), some (.code 2), some (.code 1), [(.sat 9, .vals [(.other 2, .scaled 2500 (1 / 10000))])]⟩ := by
  decide +kernel

/-- R277, R278: a phase-bias payload after the type: the header with the yaw flag, SVID 5, yaw 3, yaw rate -1, one signal: slot 5,
bias -2, integer 1, discontinuity 2; without the flag there is no yaw pair. Bits: `00101000 01 0 011 0010 01 0001 1 | 000101 0011
1111 01 00101 111110 01 10` and the same with flag 0. -/
theorem test_ssr_phasebias :
    let run := fun v : Nat => match (after .ssrPhasebiasGps (onBytes 8 v 0)).ret with
      | .message (.correction u) => u.recs
      | _ => []
    let p : SignalCode × PhaseBias := (l2w, ⟨.scaled (-2) (1 / 100), .scaled 1 1, .scaled 2 1⟩)
    run (0b00101000010011001001000110001010011111101001011111100110 * 256) =
      [(.sat 5, .phase (.scaled 3 1) (.scaled (-1) 1) [p])] ∧
    run (0b001010000100110010010001000010101001011111100110 * 65536) = [(.sat 5, .phase .na .na [p])] := by decide +kernel

/-- P5: IGS, and the test range, into the same set; an IGS subtype without an entry. -/
theorem test_igs_and_test_range :
    orbitIn (after .decodeOne (State.withBytes st 15 0xD3000919002A50D922283FFA68977B)) =
      orbitSet .partialSet 40 3 [orbitOf 5 7 (-3)] ∧
    orbitIn (after .decodeOne
      (holding (orbitSet .partialSet 40 3 [orbitOf 5 7 (-3)]) (State.withBytes st 14 0xD300081F4284C9124200C0A257F1))) =
      orbitSet .complete 40 3 [orbitOf 5 7 (-3), orbitOf 9 8 12] ∧
    (after .decodeOne (State.withBytes st 15 0xD300091900C650D922283FFAD42D38)).out =
      some (.rawUnhandled 400 (beBytes 9 0x1900C650D922283FFA)) := by decide +kernel

/-- V65 to V67. -/
theorem test_gridTropo :
    let e (m : KindState) (l : List Value) : Entry := ⟨m, some 40, some (.code 3), some (.code 1), some (.code 2), some (.code 1),
      (.model, .vals [(.other 3, .scaled 50 (4 / 1000))]) :: l.zipIdx.map (fun x => (.point x.2, .resid x.1))⟩
    let run (n v : Nat) := ((networkOf (after .decodeOne (State.withBytes st n v)).cs 7).tropo,
      (after .decodeOne (State.withBytes st n v)).cur.off)
    run 16 0xD3000A258284C903B1960BD3E0552BDC =
      (e .complete [.scaled 5 (4 / 1000), .scaled (-6) (4 / 1000), .scaled 31 (4 / 1000)], 75) ∧
    run 14 0xD30008258286C903B19400BF2CAD = (e .partialSet [.na, .na, .na], 57) ∧
    run 13 0xD30007258284C903B19083FD75 = (e .complete [], 54) := by decide +kernel

/-- R200: the message of V67 behind an IGS prefix and the subtype 22. -/
theorem test_gridTropo_by_subtype :
    let t := after .igs (onBytes 7 (22 * 2 ^ 45 + 0x284C903B190 * 2) 0)
    (networkOf t.cs 7).tropo =
      ⟨.complete, some 40, some (.code 3), some (.code 1), some (.code 2), some (.code 1), [(.model, .vals [(.other 3, .scaled 50 (4 / 1000))])]⟩ ∧
    t.cur.off = 53 := by decide +kernel

/-- R280: header with grid 7, two points and one satellite; SVID 5, model 50, residuals present, width 4 bits, scale 0.01, raws 3
and -8 (the sentinel). -/
theorem test_gridIono :
    let v := 0b00101000010011001001000100111010000101000110010101100111000
    let t := after .gridIono (onBytes 8 (v * 32) 0)
    (networkOf t.cs 7).iono = ⟨.complete, some 40, some (.code 3), some (.code 1), some (.code 2), some (.code 1),
      [(.sat 5, .gridSat [(.other 3, .scaled 50 (4 / 1000))] [.scaled 3 (1 / 100), .na])]⟩ ∧ t.cur.off = 59 := by decide +kernel

/-- R199: the test range has a row at the offsets its table defines, 0 and 3, and none between. -/
theorem test_range_with_a_gap :
    runs (.ssrTestGps 3) (onBytes 16 (0x00000106 * 256 ^ 12) 0) = true ∧
    (after (.ssrTestGps 1) (onBytes 16 (0x00000106 * 256 ^ 12) 0)).result.code = .usageError := by decide +kernel

/-- R304, R397: an issue of data that is its field's sentinel stays so in the cache. -/
theorem test_header_na :
    let lay : SsrLayout := { ssrLay .orbit with header := ssrHeader.map fun d => if d.name = .iod then { d with na := some 3 } else d }
    let t := after .ssrOrbitGps { onBytes 8 0x0640A6C91141FFD0 12 with cfg := { tCfg with ssrLayout := [((.gps, .orbit), lay)] } }
    ((networkOf t.cs 0).orbit.iod, (networkOf t.cs 0).orbit.udi) = (some .na, some (.code 1)) := by decide +kernel

/-- R210, R281: residuals of 12 and 6 at scale 1 are sent at their own scale in eight bits, though four hold them at scale 2. -/
theorem test_residual_scale :
    residCodes { residLay with width := [(0, 4), (1, 8)], scale := [(0, 2), (1, 1)] } [.scaled 12 1, .scaled 6 1] =
      some ((1, 8), (1, 1)) := by decide +kernel

/-- R104: a signed satellite count of -1 repeats nothing. -/
theorem test_signed_count :
    let lay : SsrLayout := { ssrLay .orbit with header := ssrHeader.dropLast ++ [sgn .nsat 4 1] }
    let t := after .ssrOrbitGps { onBytes 4 0x0A64991F 0 with cfg := { tCfg with ssrLayout := [((.gps, .orbit), lay)] } }
    t.result.code = .ok ∧ t.cur.off = 24 ∧ (networkOf t.cs 0).orbit.ent = [] := by decide +kernel

/-- V49, V50. -/
theorem test_eph :
    let s := { State.withBytes st 16 0xD3000A12C2800283843FFFFF00C93B65 with refTime := some (604800 * 2300 + 1000) }
    ended .decodeOne s = gave (.decoded 16 (some (.ephemeris ⟨.qzss,
      [(.svid, .scaled 2 1), (.weekRaw, .scaled 512 1), (.iode, .scaled 10 1), (.other 8, .scaled 3600 16),
        (.other 9, .scaled (-1) (1 / 2 ^ 31)), (.health, .scaled 0 1)], 101, some 2560⟩))) 78 ∧
    (after .decodeOne { s with refTime := none }).result.code = .usageError ∧
    (after .decodeOne { s with refTime := none }).scan = 16 ∧
    ended .decodeOne (State.withBytes st 16 0xD3000A12CC800283843FFFFF00386537) = raised .invalidPrn (.prn (some .qzss) 204) 78 := by
  decide +kernel

/-- What an observation gave: the ranges in light-milliseconds, the signal strengths, the loss-of-lock bits. -/
structure Seen where
  prange : List (List (Option Rat))
  cnr : List (List (Option Rat))
  lli : List (List Bool)
deriving DecidableEq

def observed (s : State) : Option Seen :=
  match s.out with
  | some (.observation b) => some ⟨b.prange.map (·.map (·.map (· / rms))), b.cnr, b.lli⟩
  | _ => none

/-- V57's message B with a counter of 50 in LK, and P4's message F. -/
def msmB : State := { State.withBytes st 15 0xD300090C813310459010015AD4491B with lk := [((3, l1c), 50)] }
def msmF : State := { State.withBytes st 23 0xD300110C81379465B2328200F80000028DE8A6A0CCC981 with lk := [((3, l1c), 9)] }

/-- V55, V56, V57 and P4's message F: the arrays. -/
theorem test_msm4 :
    ([State.withBytes st 15 0xD300090C81321045901002DA770EEB, State.withBytes st 15 0xD300090C81351047FC1004DA3161CB, msmB, msmF] :
      List State).map (fun s => observed (after .decodeOne s)) =
    [some ⟨[[some (201 / 2)]], [[some 45]], [[false]]⟩, some ⟨[[none]], [[none]], [[false]]⟩,
      some ⟨[[some (201 / 2)]], [[some 45]], [[true]]⟩,
      some ⟨[[some (201 / 2), none], [some 100, some 101]], [[some 40, none], [some 41, some 42]],
        [[false, false], [false, false]]⟩] := by decide +kernel

/-- The same: the lock-time cache. -/
theorem test_msm4_locks :
    ([State.withBytes st 15 0xD300090C81321045901002DA770EEB, State.withBytes st 15 0xD300090C81351047FC1004DA3161CB, msmB, msmF] :
      List State).map (fun s => (after .decodeOne s).lk) =
    [[((3, l1c), 5)], [], [((3, l1c), 2)], [((3, l1c), 10), ((5, l1c), 3), ((5, l2w), 7)]] := by decide +kernel

/-- V58. -/
theorem test_msm_signal :
    ended .decodeOne { State.withBytes st 15 0xD300090C81381015901000DA133F97 with lk := [((3, l1c), 9)] } =
      raised .invalidSignalCode (.slot .gps 3) 37 ∧
    (after .decodeOne { State.withBytes st 15 0xD300090C81381015901000DA133F97 with lk := [((3, l1c), 9)] }).lk =
      [((3, l1c), 9)] := by decide +kernel

/-! ## Every row completes somewhere -/

/-- The observation rows: one satellite, one signal, every field zero. -/
theorem test_every_msm_row :
    msmWords.all (fun x => runs x.2 (onBytes 16 (0b00000000000001000000010001 * 2 ^ 102) 0)) = true := by decide +kernel

/-- The correction rows: one satellite, SVID 1 (3 behind a yaw flag), zeros after it. -/
theorem test_every_ssr_row : ssrWords.all (fun x => runs x.2 (onBytes 16 (0x00000106 * 256 ^ 12) 0)) = true := by decide +kernel

/-- The test ranges, ephemerides, station and grid messages, IGS, integrity and RAW. -/
theorem test_every_other_row :
    ([.ssrTestGps 0, .ssrTestGlonass 0, .ssrTestGalileo 0, .ssrTestBeidou 0, .ssrTestQzss 0, .ssrTestNavic 0, .ssrTestSbas 0] :
      List Instr).all (fun i => runs i (onBytes 16 (0x00000106 * 256 ^ 12) 0)) = true ∧
    runs .ephGps (onBytes 61 (2 ^ 470) 12) = true ∧
    ([.ephGlonass, .ephGalileo, .ephBeidou, .ephQzss, .ephNavic, .ephSbas, .staAnt, .staPos, .staGlobias, .gridTropo,
      .gridIono, .integ 700] : List Instr).all (fun i => runs i (onBytes 16 (0x10 * 256 ^ 15) 0)) = true ∧
    runs .igs (onBytes 16 (0x02A * 2 ^ 116) 0) = true ∧
    runs (.raw 9) { onBytes 6 0xD3000047EA4B 0 with f := ⟨true, 0, 0, 0, 0⟩ } = true := by decide +kernel

/-- The block of R240 to R249 for MSM7 of GLONASS: rough 100, channel raw 8 (channel 1), rough rate -3; fine 512, phase 1024, lock 5, half-cycle 1,
cnr 45, rate 50 hundredths. -/
def msm7 : Option ObsBlock :=
  match (after .msm7Glonass (onBytes 12 0x1321045923d0400800bb4c80 0)).ret with
  | .message (.observation b) => some { b with epoch := none, hdr := [] }
  | _ => none

theorem test_msm7 :
    msm7 = some ⟨.glonass, .v7, [], none, [202], [l1c], [[some (201 / 2 * rms)]], [[some (10025 / 100 * 1602562500 / 1000)]],
      [[some 45]], [[some (-5 / 2)]], [[1]], [[false]]⟩ := by decide +kernel

/-- R206: a counted string at a bit that is not a byte boundary; of two fields of one name the record has the last. -/
theorem test_staAnt :
    ended .staAnt (onBytes 5 0x7D30241420 0) =
      gave (.message (.station .ant [(.stationId, .num (.scaled 2003 1)), (.other 30, .bytes [0x41, 0x42])])) 36 ∧
    ended .staAnt { onBytes 5 0x7D30241420 0 with
        cfg := { tCfg with staLayout := [(.ant, [.field (uns .stationId 12), .field (uns .stationId 8)])] } } =
      gave (.message (.station .ant [(.stationId, .num (.scaled 2 1))])) 20 := by decide +kernel

/-- R330: provider 2, epoch 40, two constellations, one satellite each; indices 0 and 15. -/
theorem test_integ :
    (after (.integ 700) (onBytes 5 (0b0010001010001110000000010000001111 * 2 ^ 6) 0)).is =
      [(2, ⟨some 40, [(⟨700, none⟩, ⟨[(.provider, .plain (.scaled 2 1)), (.epoch, .plain (.scaled 40 1))], [.gps, .qzss],
        [(.gps, [1]), (.qzss, [101])], [],
        [(.sat .gps 1, [(.other 20, .provided (1 / 10))]), (.sat .qzss 101, [(.other 20, .notProvided)])]⟩)]⟩)] := by
  decide +kernel

/-- A message of the integrity family with a subtype, whose layout reads a record of the message first, then the masks with the
frequencies before the satellites, then a record of the constellation and one of every satellite of a frequency (R330). -/
def integSub : IntegLayout where
  header := [uns .provider 4, uns .epoch 8]
  consMask := ⟨2, 0⟩
  consOf := [(0, .gps), (1, .qzss)]
  satMask := { PerCons.all none with gps := some ⟨8, 1⟩ }
  freqMask := { PerCons.all none with gps := some ⟨⟨3, 1⟩, none⟩ }
  body := [.record [lookField], .consMask,
    .eachCons [.freqMask, .satMask, .record [lookField], .eachFreq [.each [lookField]]]]
  nearest := false

/-- Version 1, subtype 5; provider 2, epoch 40; index 1; GPS; frequencies 2 and 3; satellite 1; indices 0, 2 and 15. -/
theorem test_integ_subtype :
    ended (.integ 700)
      { onBytes 6 0b001010100100010100000011001110000000000000101111 0 with
        cfg := { tCfg with
          integPrefix := [(700, ⟨[uns .version 3], uns .subtype 4⟩)]
          integLayout := [(⟨700, some 5⟩, integSub)] } } =
    gave (.message (.integrity ⟨⟨700, some 5⟩, [(.version, .scaled 1 1)], 2,
      ⟨[(.provider, .plain (.scaled 2 1)), (.epoch, .plain (.scaled 40 1))], [.gps], [(.gps, [1])],
        [(.gps, [.index 2, .index 3])],
        [(.message, [(.other 20, .provided (1 / 100))]), (.cons .gps, [(.other 20, .provided (1 / 10))]),
          (.signal .gps 1 (.index 2), [(.other 20, .provided (1 / 1000))]),
          (.signal .gps 1 (.index 3), [(.other 20, .notProvided)])]⟩⟩)) 48 := by decide +kernel

/-- A layout whose constellation mask has two indices for GPS. -/
def integTwice : IntegLayout where
  header := [uns .provider 4, uns .epoch 8]
  consMask := ⟨4, 0⟩
  consOf := [(1, .gps), (2, .qzss), (3, .gps)]
  satMask := { PerCons.all none with gps := some ⟨3, 1⟩, qzss := some ⟨2, 193⟩ }
  freqMask := PerCons.all none
  body := [.consMask, .eachCons [.satMask, .eachSat [.record [lookField]]]]
  nearest := false

/-- GPS (satellites 1 and 2), QZSS (193) and GPS again (2 and 3); the value of satellite 2 is the later one. -/
def onTwice : State :=
  { onBytes 6 (0b00100010100001111100001001010001101101000101 * 16) 0 with cfg := { tCfg with integLayout := [(⟨700, none⟩, integTwice)] } }

theorem test_integ_twice :
    (match (after (.integ 700) onTwice).ret with
      | .message (.integrity u) => some u.part
      | _ => none) =
    some ⟨[(.provider, .plain (.scaled 2 1)), (.epoch, .plain (.scaled 40 1))], [.gps, .qzss, .gps],
      [(.gps, [1, 2]), (.qzss, [100]), (.gps, [2, 3])], [],
      [(.sat .gps 1, [(.other 20, .provided (1 / 100))]), (.sat .gps 2, [(.other 20, .provided (1 / 100000))]),
        (.sat .qzss 100, [(.other 20, .provided (1 / 10000))]), (.sat .gps 3, [(.other 20, .provided (1 / 1000000))])]⟩ := by
  decide +kernel

/-- D17: a subtype without a layout is an unknown type. -/
theorem test_integ_unknown_subtype :
    ended (.integ 700)
      { onBytes 6 0b001010100100010100000011001110000000000000101111 0 with
        cfg := { tCfg with integPrefix := [(700, ⟨[uns .version 3], uns .subtype 4⟩)] }, f := ⟨true, 0, 2, 0, 0⟩ } =
    gave (.message (.rawUnhandled 700 [0x38, 0x00])) 7 := by decide +kernel

/-- R266, on M1's payload. -/
theorem test_readHeader :
    ended (.readHeader (.ssr .gps .orbit)) (onBytes 8 0x0640A6C91141FFD0 12) =
      gave (.fields [(.epoch, .scaled 10 1), (.udi, .scaled 1 1), (.mm, .scaled 1 1), (.iod, .scaled 3 1), (.provider, .scaled 2 1),
        (.solution, .scaled 1 1), (.nsat, .scaled 1 1)]) 36 := by decide +kernel

/-- V48: a type without a row, the two ranges of SSR, a payload of one byte. -/
theorem test_dispatch :
    let raw := { State.withBytes st 5 0xD300024350 with f := ⟨true, 0, 2, 0, 0⟩, cur := ⟨.stream, 3, 2, 0⟩ }
    ended .dispatch raw = gave (.message (.rawUnhandled 1077 [0x43, 0x50])) 12 ∧ (after .dispatch raw).f.type = 1077 ∧
    orbitIn (after .dispatch (onBytes 8 0x0640A6C91141FFD0 0)) = orbitSet .partialSet 10 3 [orbitOf 5 7 (-3)] ∧
    orbitIn (after .dispatch (onBytes 8 0x1F4284C9124200C0 0)) = orbitSet .complete 40 3 [orbitOf 9 8 12] ∧
    ended .dispatch (onBytes 1 0x43 0) = raised .truncatedMessage (.bits 0 12) 0 := by decide +kernel

/-- R90, R147: a frame arrives and is decoded; with another CRC field it is rejected. -/
theorem test_frame :
    ended (.frame 0 (beBytes 19 (s1 / 2 ^ 24)) 0x360B98) st =
      gave (.decoded 25 (some (.rawUnhandled 1005 (beBytes 19 (s1 / 2 ^ 24))))) 12 ∧
    ended (.frame 0 (beBytes 19 (s1 / 2 ^ 24)) 0x360B99) st = raised .checksumMismatch (.pos 0) 0 := by decide +kernel

/-- The message of a frame. -/
def messageOf (n v : Nat) : Message :=
  match (after .decodeOne { State.withBytes st n v with refTime := some 0 }).out with
  | some m => m
  | none => .rawUnhandled 0 []

/-- R210: encoding the message of a frame gives the frame: M1 (P3), I1 (P5), V60, V62, V64, V65, V66, V67 and `S1`. -/
theorem test_encodeOne :
    ([(14, m1), (15, 0xD3000919002A50D922283FFA68977B), (17, 0xD3000B068284C91160012C5FFB001F20A4),
      (12, 0xD3000606A284C9115A0BEA03), (16, 0xD3000A066325891242F9C02710D74CE0), (16, 0xD3000A258284C903B1960BD3E0552BDC),
      (14, 0xD30008258286C903B19400BF2CAD), (13, 0xD30007258284C903B19083FD75), (25, s1)] : List (Nat × Nat)).all
      (fun x => decide ((after (.encodeOne (messageOf x.1 x.2)) st).ret = .bytes (beBytes x.1 x.2))) = true := by decide +kernel

/-- The message a handler answers. -/
def answered (i : Instr) (s : State) : Message :=
  match (after i s).ret with
  | .message m => m
  | _ => .rawUnhandled 0 []

/-- R233, R262: the ephemeris of V49; the payload of an observation of variant 3. -/
theorem test_encodeOne_payload :
    (after (.encodeOne (answered .ephQzss { onBytes 10 0x12C2800283843FFFFF00 12 with refTime := some (604800 * 2300) })) st).ret =
      .bytes (beBytes 16 0xD3000A12C2800283843FFFFF00C93B65) ∧
    Memory.slice (after (.encodeOne (answered .msm3Gps (onBytes 8 0x0C71321045901000 12))) st).obuf 3 8 =
      beBytes 8 0x0C71321045901000 := by decide +kernel

/-- R262: rough 254 and fine 1024 make 255 light-milliseconds, whose floor is the rough range's sentinel: it is split another
way, and comes back. -/
theorem test_encodeOne_split :
    let m := answered .msm3Gps (onBytes 8 0x0C71321047F82000 12)
    let t := after (.encodeOne m) st
    (match m with
      | .observation b => b.prange
      | _ => []) = [[some (255 * rms)]] ∧ t.olen = 14 ∧
    answered .msm3Gps { onBytes 8 0 12 with stream := Memory.write [] 0 (Memory.slice t.obuf 3 8) } = m := by decide +kernel

/-- R245, R262: of the values a GLONASS channel can be sent as, the one under which the phase has a frequency other than 0; a phase that
is not available, of a field without a sentinel, speaks against a channel with a frequency. -/
theorem test_encodeOne_channel :
    (match answered .msm7Glonass (onBytes 12 0x1321045923d0400800bb4c80 0) with
      | .observation b =>
        some (extRaw { st with cfg := { tCfg with freq := ((.glonass, l1c, some (-7)), 0) :: tCfg.freq } } msmLay msmLay.satFields
          msmLay.sigFields b (uns (.other 10) 4) 0)
      | _ => none) = some 8 ∧
    (match answered .msm7Glonass { onBytes 12 0x1321045923d0400800bb4c80 0 with cfg := { tCfg with freq := [] } } with
      | .observation b =>
        [some 1, none].map (channelRank st msmLay.satFields (msmLay.sigFields.map fun x => (x.1, { x.2 with na := none })) b 0)
      | _ => []) = [1, 0] := by decide +kernel

/-- The payload of an encoded message, and the message a handler answers on it. -/
def sentBytes (cfg : Cfg) (m : Message) : List Byte :=
  let t := after (.encodeOne m) { st with cfg := cfg }
  Memory.slice t.obuf 3 (t.olen - 6)

def resent (i : Instr) (cfg : Cfg) (m : Message) : Message :=
  let b := sentBytes cfg m
  answered i { st with cfg := cfg, stream := Memory.write [] 0 b, slen := b.length, cur := ⟨.stream, 0, b.length, 12⟩ }

/-- The integrity message of test_integ. -/
def onInteg : State := onBytes 5 (0b0010001010001110000000010000001111 * 2 ^ 6) 0

/-- A write as its width and its raw integer. -/
def written : WItem → Nat × Int
  | .field d raw => (d.width, raw)
  | .fail _ => (0, 0)

/-- R210, R330, R338: the bits of test_integ_twice are written again, but for the first value of satellite 2, which the message does
not keep; the message of test_integ_subtype comes back, and so do one whose layout has a step over the constellations too early and
one with a table for the provider, which is read plainly (R331). -/
theorem test_encodeOne_integ :
    (match answered (.integ 700) onTwice with
      | .integrity u => ((integItems onTwice u).eraseIdx 5).map written
      | _ => []) = [(4, 2), (8, 40), (4, 7), (3, 6), (4, 1), (2, 2), (4, 3), (3, 3), (4, 4), (4, 5)] ∧
    (let cfg := { tCfg with integLayout := [(⟨700, none⟩, { integLay with body := .eachCons [.record [lookField]] :: integLay.body })] };
      let m := answered (.integ 700) { onInteg with cfg := cfg };
      resent (.integ 700) cfg m = m ∧ m ≠ .rawUnhandled 0 []) ∧
    (let cfg := { tCfg with integTable := (.provider, List.replicate 16 (some 1)) :: tCfg.integTable };
      let m := answered (.integ 700) { onInteg with cfg := cfg };
      resent (.integ 700) cfg m = m ∧ m = answered (.integ 700) onInteg ∧ m ≠ .rawUnhandled 0 []) ∧
    (let cfg := { tCfg with integPrefix := [(700, ⟨[uns .version 3], uns .subtype 4⟩)], integLayout := [(⟨700, some 5⟩, integSub)] };
      let m := answered (.integ 700) { onBytes 6 0b001010100100010100000011001110000000000000101111 0 with cfg := cfg };
      resent (.integ 700) cfg m = m ∧ m ≠ .rawUnhandled 0 []) := by decide +kernel

/-- R177, R338: the indices of a frequency mask without a table go to ENCODE_MASK as they are: 2 after 3 is out of order, 4 out of
range. -/
theorem test_encodeOne_freq :
    let cfg := { tCfg with integPrefix := [(700, ⟨[uns .version 3], uns .subtype 4⟩)], integLayout := [(⟨700, some 5⟩, integSub)] }
    let m := answered (.integ 700) { onBytes 6 0b001010100100010100000011001110000000000000101111 0 with cfg := cfg }
    ([[.index 3, .index 2], [.index 4]] : List (List FreqItem)).map (fun l =>
      match m with
      | .integrity u =>
        (after (.encodeOne (.integrity { u with part := { u.part with freqs := [(.gps, l)] } })) { st with cfg := cfg }).result
      | _ => ⟨.ok, .zero⟩) = [⟨.usageError, .arg (.int 2)⟩, ⟨.usageError, .arg (.int 4)⟩] := by decide +kernel

/-- R133, R288: a quality class that is not available is written as its sentinel, and the value with it as it is held. -/
theorem test_quality_na :
    [uns .uraValue 3, { uns .uraClass 3 with na := some 7 }].map
        (qualityItem tCfg [(.uraClass, .na), (.uraValue, .scaled 2 1), (.stdev, .exact (395 / 10000))]) =
      [.field (uns .uraValue 3) 2, .field { uns .uraClass 3 with na := some 7 } 7] := by decide +kernel

/-- R262: a signal that two slots stand for, of which the mask holds one; it comes back. -/
theorem test_encodeOne_slot :
    let cfg := { tCfg with
      msmSig := [((.gps, 1), l1c), ((.gps, 3), l1c)], msmLayout := [((.gps, .v3), { msmLay with sigMask := ⟨4, 2⟩ })] }
    sentBytes cfg (answered .msm3Gps { onBytes 8 0x0C71321025901000 12 with cfg := cfg }) = beBytes 8 0x0C71321025901000 := by
  decide +kernel

/-- R220, R233: a raw week that is the sentinel is written as the sentinel; of two fields of one name the record has the last. -/
theorem test_ephemeris_fields :
    let week : FieldDesc := { name := .weekRaw, width := 12, na := some 4095 }
    let cfg (ds : List FieldDesc) : Cfg := { tCfg with ephLayout := PerCons.all (some ⟨ds, some 1024⟩) }
    let s (ds : List FieldDesc) : State := { onBytes 5 0x12C2FFF070 12 with cfg := cfg ds }
    sentBytes (cfg [uns .svid 4, week, uns .iode 8]) (answered .ephQzss (s [uns .svid 4, week, uns .iode 8])) =
      beBytes 5 0x12C2FFF070 ∧
    answered .ephQzss (s [uns .svid 4, uns .iode 12, uns .iode 8]) =
      .ephemeris ⟨.qzss, [(.svid, .scaled 2 1), (.iode, .scaled 7 1)], 101, none⟩ := by decide +kernel

/-- R288: an incremental message sends the cached satellites of its own constellation. -/
theorem test_encodeOne_incremental :
    (match answered .ssrOrbitGps (onBytes 8 0x0640A6C91141FFD0 12) with
      | .correction u =>
        let cached := after (.cacheUpdate 0 .orbit 10 ⟨none, none, none, none, false⟩ (u.recs ++ [(.sat 200, .vals [])])) st
        decide ((after (.encodeOne (.correction { u with recs := [], network := 0 })) cached).ret =
            (after (.encodeOne (.correction u)) st).ret) &&
          decide ((after (.encodeOne (.correction u)) st).ret ≠ .none)
      | _ => false) = true := by decide +kernel

/-- R346: the offending argument of a row, of an encoded message. -/
theorem test_usage_argument :
    (after (.ssrTestGps 9) st).result = ⟨.usageError, .arg (.int 9)⟩ ∧
    (let m := Message.correction ⟨.ssr .gps .orbit, none, 0, [(.nsat, .scaled 1 1)], [(.model, .vals [])], [], false⟩;
      let s := { st with cfg := { tCfg with ssrLayout := [((.gps, .orbit), { ssrLay .orbit with header := [uns .nsat 4] })] } };
      (after (.encodeOne m) s).result = ⟨.usageError, .arg (.message m)⟩) := by decide +kernel

/-- U1, log 20: without a current frame RAW answers some payload no longer than a frame's. -/
theorem test_raw_without_a_frame :
    ∃ b : List Byte, (after (.raw 5) st).ret = .message (.rawUnhandled 5 b) ∧ b.length ≤ 1023 := by
  refine ⟨_, rfl, ?_⟩
  show (List.take 1023 _).length ≤ 1023
  exact List.length_take_le 1023 _

/-! ## Witnesses: states and operands that meet the hypotheses of the statements -/

/-- An operation that does not stop answers `after`. -/
theorem exec_after {i : Instr} {s : State} (h : (match exec i s with | .next _ => true | _ => false) = true) :
    exec i s = .next (after i s) := by
  unfold after
  split at h
  · rename_i t ht
    rw [ht]
  · cases h

theorem st_configured : st.configured = true := rfl

theorem st_accepted : cfgAccepted st.cfg = true := test_config_accepted

theorem witness_HostConfigInstallsOrRefuses :
    State.reset.window = true ∧ cfgAccepted tCfg = true ∧ { st with window := false }.window = false ∧
    cfgAccepted { tCfg with typeTable := [] } = false := by decide +kernel

/-- AcceptedConfigHasTheRequiredRows and AcceptedConfigMeetsTheChecks. -/
theorem witness_AcceptedConfig :
    exec (.hostConfig tCfg) State.reset = .next (after (.hostConfig tCfg) State.reset) ∧
    (after (.hostConfig tCfg) State.reset).result.code = .ok :=
  ⟨exec_after (by decide +kernel), by decide +kernel⟩

theorem witness_HostLoadReplacesTheStream : 2 ≤ ([1, 2] : List Byte).length ∧ ([1, 2] : List Byte).length < 3 := by decide

theorem witness_UnconfiguredRaisesUsageError :
    State.reset.port = [] ∧ State.reset.configured = false ∧ needsNoConfig .decodeOne = false := by decide

/-- ConfigurationWindowRule, EachRegisterHasItsWriters and ConditionsLeaveTheCaches. -/
theorem witness_every_operation :
    exec (.readU 65) used = .next (after (.readU 65) used) ∧ (after (.readU 65) used).result.code ≠ .ok ∧
    { st with window := false }.window = false := ⟨exec_after (by decide +kernel), by decide +kernel, rfl⟩

/-- EachRegisterHasItsWriters: operations that write none of F, CUR, LK, CS and IS. -/
theorem witness_EachRegisterHasItsWriters :
    ([.toIndex .gps 1, .crc24 [], .raw 5, .hostSetRefTime 0] : List Instr).all
      (fun i => !writesF i && !writesCur i && !writesLk i && !writesCs i && !writesIs i) = true ∧
    exec (.toIndex .gps 1) used = .next (after (.toIndex .gps 1) used) := ⟨by decide, exec_after (by decide +kernel)⟩

/-- The stream `S1`. -/
def onS1 : State := State.withBytes st 25 s1

/-- SyncScanFindsTheLeast, and FindFrameOutcomes beyond the stream. -/
theorem witness_SyncScanFindsTheLeast : onS1.configured = true ∧ 25 ≤ onS1.slen ∧ onS1.slen < 26 := by decide +kernel

theorem witness_LengthAndBoundChecks :
    onS1.configured = true ∧ 22 + 3 ≤ onS1.slen ∧ onS1.slen < 23 + 3 ∧ 0 + 19 + 6 ≤ onS1.slen ∧ onS1.slen < 1 + 19 + 6 := by
  decide +kernel

theorem witness_Crc24OfDataAndItsCrcIsZero :
    st.configured = true ∧ st.cfg.crc.reflected = false ∧ st.cfg.crc.init = 0 := by decide +kernel

theorem first_at_0 {s : State} (h0 : 0 < s.slen) (h : Memory.get s.stream 0 = s.cfg.preamble) : FirstCandidate s 0 0 :=
  ⟨Nat.le_refl 0, h0, h, fun _ _ hx => absurd hx (Nat.not_lt_zero _)⟩

theorem s1_frame : FrameAt onS1 0 19 := by unfold FrameAt; decide +kernel

theorem s1_first : FirstCandidate onS1 0 0 := first_at_0 (by decide +kernel) (by decide +kernel)

/-- FindFrameOutcomes and DecodeOneOutcomes: no candidate, a cut header, a cut frame, a mismatch, a frame. -/
theorem witness_FindFrameOutcomes :
    (onS1.configured = true ∧ onS1.cfg.crc.reflected = false ∧ 0 ≤ onS1.slen ∧ onS1.scan ≤ onS1.slen) ∧
    NoCandidate { onS1 with scan := 25 } 25 ∧
    (FirstCandidate (State.withBytes st 2 0xD300) 0 0 ∧ (State.withBytes st 2 0xD300).slen < 0 + 3) ∧
    (FirstCandidate (State.withBytes st 24 (s1 / 256)) 0 0 ∧
      (State.withBytes st 24 (s1 / 256)).slen < 0 + lengthField (State.withBytes st 24 (s1 / 256)) 0 + 6) ∧
    (FirstCandidate (State.withBytes st 25 (s1 ^^^ 1)) 0 0 ∧
      0 + lengthField (State.withBytes st 25 (s1 ^^^ 1)) 0 + 6 ≤ (State.withBytes st 25 (s1 ^^^ 1)).slen ∧
      (frameCrc (State.withBytes st 25 (s1 ^^^ 1)) 0 19).toNat ≠ trailingField (State.withBytes st 25 (s1 ^^^ 1)) 0 19) ∧
    FirstCandidate onS1 0 0 ∧ FrameAt onS1 0 (lengthField onS1 0) ∧ FrameAt onS1 0 19 :=
  ⟨by decide +kernel, fun x h1 h2 => absurd h2 (Nat.not_lt.mpr h1),
    ⟨first_at_0 (by decide +kernel) (by decide +kernel), by decide +kernel⟩,
    ⟨first_at_0 (by decide +kernel) (by decide +kernel), by decide +kernel⟩,
    ⟨first_at_0 (by decide +kernel) (by decide +kernel), by decide +kernel⟩, s1_first,
    by unfold FrameAt; decide +kernel, s1_frame⟩

/-- V27's and V28's changes of `S1`. -/
theorem witness_CrcGateRejectsMutations :
    onS1.configured = true ∧ onS1.cfg.crc.reflected = false ∧ onS1.cfg.crc.poly ≠ 0 ∧ FrameAt onS1 0 19 ∧
    (∀ a, Memory.get (Memory.set onS1.stream 3 0xBE) a =
      if a = 0 + 3 + 0 / 8 then Memory.get onS1.stream a ^^^ (0x80#8 >>> (0 % 8)) else Memory.get onS1.stream a) ∧
    ((∀ a, a < 0 + 3 + 19 → Memory.get (Memory.set onS1.stream 24 0x99) a = Memory.get onS1.stream a) ∧
      ∃ a, 0 + 3 + 19 ≤ a ∧ a < 0 + 6 + 19 ∧ Memory.get (Memory.set onS1.stream 24 0x99) a ≠ Memory.get onS1.stream a) := by
  have hw : Memory.wf onS1.stream = true := by decide +kernel
  refine ⟨rfl, rfl, by decide +kernel, s1_frame, fun a => ?_, fun a ha => ?_, 24, by omega, by omega, by decide +kernel⟩
  · rw [Memory.get_set _ _ _ _ hw]
    by_cases h : a = 3
    · subst h; decide +kernel
    · simp [h]
  · rw [Memory.get_set _ _ _ _ hw, if_neg (by omega)]

theorem witness_FrameEmitWritesAFrameFoundAgain :
    st.configured = true ∧ st.cfg.crc.reflected = false ∧ Memory.wf st.obuf = true ∧
    1023 < (List.replicate 1024 (0 : Byte)).length ∧ (List.replicate 1023 (0 : Byte)).length ≤ 1023 ∧
    ∃ s' : State, s'.configured = true ∧ s'.cfg = st.cfg ∧ s'.slen = (beBytes 25 s1).length ∧
      ∀ a, a < (beBytes 25 s1).length → Memory.get s'.stream a = (beBytes 25 s1).getD a 0 :=
  ⟨rfl, rfl, rfl, by simp, by simp, onS1, rfl, rfl, by decide +kernel, by decide +kernel⟩

theorem witness_FrameDecodeEncode : (List.replicate 1023 (0 : Byte)).length ≤ 1023 := by simp

theorem witness_MessageTypeDecodeEncode :
    cfgAccepted tCfg = true ∧ encode tCfg .msm4Gps = some [0x0C, 0x80] ∧ (∀ pad p c, Instr.msm4Gps ≠ .frame pad p c) ∧
    (0x0F#8).toNat < 16 ∧ tCfg.msmBase.get .gps = some 197 ∧ tCfg.ssrBase.get .gps = some 100 ∧
    tCfg.ssrKindOfOffset[6]? = some .ura ∧ tCfg.typeTable.lookup (1005#12).toNat = none :=
  ⟨by decide +kernel, by decide +kernel, fun _ _ _ h => (by cases h), by decide +kernel, rfl, rfl, rfl, by decide +kernel⟩

theorem witness_CurInitSetsTheCursor : onS1.configured = true ∧ 3 + 22 ≤ onS1.slen ∧ onS1.slen < 3 + 23 := by decide +kernel

theorem fits_of {s : State} {n : Nat} (h : s.cur.off + n ≤ s.cur.bitlen) : Fits s n := h

/-- The widths 0, 65, 1 and 64 of ReadsGiveTheFieldsBits; a read one bit beyond the span. -/
theorem witness_ReadsGiveTheFieldsBits :
    (onBytes 8 0 0).configured = true ∧ Fits (onBytes 8 0 0) 64 ∧ Fits (onBytes 8 0 63) 1 ∧
    (onBytes 8 0 64).cur.bitlen < (onBytes 8 0 64).cur.off + 1 :=
  ⟨rfl, fits_of (by decide +kernel), fits_of (by decide +kernel), by decide +kernel⟩

theorem witness_ByteBlocksAreCopied :
    Memory.wf (onZeros 3).obuf = true ∧ (onBytes 3 0 4).cur.off % 8 ≠ 0 ∧
    ((onBytes 3 0 8).cur.off % 8 = 0 ∧ (onBytes 3 0 8).cur.bitlen < (onBytes 3 0 8).cur.off + 8 * 3) ∧
    Fits (onBytes 3 0 8) (8 * 2) ∧ (onZeros 3).cur.off % 8 = 0 ∧ (onZeros 3).cur.space = .obuf ∧
    Fits (onZeros 3) (8 * ([1, 2, 3] : List Byte).length) :=
  ⟨rfl, by decide +kernel, by decide +kernel, fits_of (by decide +kernel), rfl, rfl, fits_of (by decide +kernel)⟩

/-- WritesMoveExactlyTheirBits and WriteThenReadGivesItBack. -/
theorem witness_WritesMoveExactlyTheirBits :
    (onZeros 8).configured = true ∧ Memory.wf (onZeros 8).obuf = true ∧ (onZeros 8).cur.space = .obuf ∧ Fits (onZeros 8) 64 ∧
    (onZeros 0).cur.bitlen < (onZeros 0).cur.off + 8 ∧ ¬((0 : Int) ≤ 16 ∧ (16 : Int) < 2 ^ 4) ∧ ((0 : Int) ≤ 15 ∧ (15 : Int) < 2 ^ 4) ∧
    (-(2 ^ (4 - 1)) ≤ (-8 : Int) ∧ (-8 : Int) < 2 ^ (4 - 1)) ∧
    exec (.writeU 4 15 .fail) (onZeros 8) = .next (after (.writeU 4 15 .fail) (onZeros 8)) ∧
    (after (.writeU 4 15 .fail) (onZeros 8)).result.code = .ok ∧
    exec (.writeS 4 (-8) .fail) (onZeros 8) = .next (after (.writeS 4 (-8) .fail) (onZeros 8)) ∧
    (after (.writeS 4 (-8) .fail) (onZeros 8)).result.code = .ok :=
  ⟨rfl, rfl, rfl, fits_of (by decide +kernel), by decide +kernel, by decide, by decide, by decide, exec_after (by decide +kernel),
    by decide +kernel, exec_after (by decide +kernel), by decide +kernel⟩

/-- M1's payload after its type. -/
def onM1 : State := onBytes 8 0x0640A6C91141FFD0 12

theorem witness_FieldsAreAssembledInOrder :
    onM1.configured = true ∧ Fits onM1 (uns .epoch 8).width ∧
    corrHeaderOf onM1.cfg (.ssr .gps .orbit) = some ssrHeader ∧ (∀ d ∈ ssrHeader, 1 ≤ d.width ∧ d.width ≤ 64) ∧
    Fits onM1 (widthOf ssrHeader) ∧ ((uns .epoch 0).width < 1 ∧ 64 < (uns .epoch 65).width) ∧
    (let s := onBytes 2 0 0;
      firstStop s.cur.bitlen s.cur.off (fieldEvents [uns .epoch 17]) = some (.truncatedRead 0 17, 0) ∧
      corrHeaderOf s.cfg (.ssr .gps .orbit) = some ssrHeader ∧
      firstStop s.cur.bitlen s.cur.off (fieldEvents ssrHeader) = some (.truncatedRead 14 4, 14)) :=
  ⟨rfl, fits_of (by decide +kernel), by decide +kernel, by decide, fits_of (by decide +kernel), by decide, by decide +kernel⟩

/-- ReadMaskListsTheSetBits: a mask of two chunks, and one whose second chunk does not fit. -/
theorem witness_ReadMaskListsTheSetBits :
    1 ≤ 70 ∧ Fits (onBytes 9 0x860000000000000004 0) 70 ∧
    (let s := onBytes 8 0x8600000000000000 0; firstStop s.cur.bitlen s.cur.off (maskEvents 70)) = some (.truncatedRead 6 64, 6) :=
  ⟨by decide, fits_of (by decide +kernel), by decide +kernel⟩

/-- MaskOperations: the boundary indices 1 and 8; 9 is out of range, and 8 after 8 out of order. -/
theorem witness_MaskOperations :
    ([1, 8] : List Nat).Pairwise (· < ·) ∧ (∀ i ∈ ([1, 8] : List Nat), 1 ≤ i ∧ i < 1 + 8) ∧
    (9 < 1 ∨ 1 + 8 ≤ 9 ∨ ∃ j ∈ ([1, 8] : List Nat), 9 ≤ j) ∧ (8 < 1 ∨ 1 + 8 ≤ 8 ∨ ∃ j ∈ ([1, 8] : List Nat), 8 ≤ j) := by decide

theorem witness_MaskRoundTrips :
    exec (.encodeMask [1, 3] 8 1 .msb) st = .next (after (.encodeMask [1, 3] 8 1 .msb) st) ∧
    (after (.encodeMask [1, 3] 8 1 .msb) st).ret = .nat 0xA0 ∧ 0xA0 < 2 ^ 8 ∧
    exec (.decodeMask 0xA0 8 1 .msb) st = .next (after (.decodeMask 0xA0 8 1 .msb) st) ∧
    (after (.decodeMask 0xA0 8 1 .msb) st).ret = .indices [1, 3] 2 :=
  ⟨exec_after (by decide +kernel), by decide +kernel, by decide, exec_after (by decide +kernel), by decide +kernel⟩

theorem qzss_range : st.cfg.prn.get .qzss = some ⟨193, 202, 100⟩ := rfl

/-- SatelliteIndexing, and the last clause of SvidConversions: the ends of QZSS's ranges; PRN 203 and index 33 belong to none. -/
theorem witness_SatelliteIndexing :
    st.configured = true ∧ cfgAccepted st.cfg = true ∧ st.cfg.prn.get .qzss = some ⟨193, 202, 100⟩ ∧
    InSubrange st.cfg .qzss 100 ∧ InSubrange st.cfg .qzss 109 ∧
    (∀ r, st.cfg.prn.get .qzss = some r → 203 < r.min ∨ r.max < 203) ∧ ∀ c, ¬InSubrange st.cfg c 33 := by
  refine ⟨rfl, st_accepted, rfl, ⟨_, rfl, by decide, by decide⟩, ⟨_, rfl, by decide, by decide⟩, fun r hr => ?_,
    fun c ⟨r, hr, h1, h2⟩ => ?_⟩
  · cases qzss_range.symm.trans hr
    exact .inr (by decide)
  · cases c <;> cases hr <;> simp only at h1 h2 <;> omega

theorem witness_SvidConversions :
    st.cfg.svidOffset.lookup (.eph, .qzss) = some 192 ∧ (193 ≤ 10 + 192 ∧ 10 + 192 ≤ 202) ∧
    (∀ r, st.cfg.prn.get .qzss = some r → 11 + 192 < r.min ∨ r.max < 11 + 192) ∧
    ({ tCfg with svidOffset := [((.eph, .qzss), 194)] } : Cfg).svidOffset.lookup (.eph, .qzss) = some 194 ∧
    193 + (100 - 100) < 194 := by
  refine ⟨by decide +kernel, by decide, fun r hr => ?_, by decide +kernel, by decide⟩
  cases qzss_range.symm.trans hr
  exact .inr (by decide)

theorem witness_SignalOfSlot :
    (sigTable st.cfg .msmSig).lookup (.gps, 1) = some l1c ∧ (sigTable st.cfg .msmSig).lookup (.gps, 5) = none := by
  decide +kernel

theorem witness_AdjustWeekIsNearest : weekModulus st.cfg .gps = some 1024 ∧ weekModulus st.cfg .qzss = some 1024 := by
  decide +kernel

theorem witness_QualityAndIntegrityTables :
    st.cfg.uraTable ≠ [] ∧ st.cfg.uraTable.lookup (7, 6) = some (54665 / 10000) ∧
    (∀ r ∈ st.cfg.uraTable, r.2 = 54665 / 10000 → r.1 = (7, 6)) ∧ (15 : Int) = lookField.na.getD (2 ^ lookField.width - 1) ∧
    (14 : Int) ≠ lookField.na.getD (2 ^ lookField.width - 1) ∧ st.cfg.integTable.lookup lookField.name = some lookTable ∧
    lookTable[14]? = some (some (1 / 10 ^ 15)) ∧ (⟨700, none⟩, integLay) ∈ st.cfg.integLayout ∧ lookField ∈ integLay.records ∧
    15 < 2 ^ lookField.width := by decide +kernel

theorem witness_MissingTableEntriesRaiseUsageError :
    let s : State := { st with cfg := Cfg.default }
    s.configured = true ∧ s.cfg.svidOffset.lookup (.eph, .gps) = none ∧ weekModulus s.cfg .qzss = none ∧ s.cfg.uraTable = [] ∧
    corrHeaderOf s.cfg .gridTropo = none ∧ s.cfg.msmLayout.lookup (.gps, .v4) = none ∧
    s.cfg.ssrLayout.lookup (.gps, .orbit) = none ∧ s.cfg.testKindOfOffset.lookup 0 = none ∧ s.cfg.ephLayout.get .gps = none ∧
    s.cfg.staLayout.lookup .ant = none ∧ s.cfg.igsPrefix = none ∧ s.cfg.tropoLayout = none ∧ s.cfg.ionoLayout = none ∧
    s.cfg.integPrefix.lookup 700 = none ∧ s.cfg.integLayout.lookup ⟨700, none⟩ = none := by
  decide +kernel

theorem witness_LockCheckComparesThenStores :
    used.configured = true ∧ used.lk.lookup (3, l1c) = some 5 ∧ used.lk.lookup (5, l1c) = none := by decide +kernel

/-- Satellite 9's set of P3, at epoch 20 with issue of data 4. -/
def onSet : State := holding (orbitSet .complete 20 4 [orbitOf 9 9 100]) st

theorem witness_IodCheckFollowsThePolicy :
    (∀ k ∈ [CacheKind.orbit], ¬Inconsistent onSet 0 20 (some (.code 4)) k) ∧ (∃ k ∈ [CacheKind.orbit], Inconsistent onSet 0 20 (some (.code 5)) k) ∧
    onSet.cfg.iodPolicy = .lenient ∧ (∀ k ∈ [CacheKind.clock], ¬Inconsistent onSet 0 20 (some (.code 5)) k) ∧
    ({ onSet with cfg := { tCfg with iodPolicy := .strict } }).cfg.iodPolicy = .strict := by
  refine ⟨fun k hk => ?_, ⟨.orbit, by simp, _, 20, rfl, by decide +kernel, by decide +kernel,
    by unfold SameTime Earlier; decide +kernel, by decide +kernel⟩, rfl, fun k hk => ?_, rfl⟩
  · rw [List.mem_singleton] at hk
    subst hk
    rintro ⟨m, e, hm, _, _, _, h⟩
    cases hm
    exact h rfl
  · rw [List.mem_singleton] at hk
    subst hk
    rintro ⟨m, e, hm, h, _⟩
    cases hm
    exact h rfl

/-- CacheUpdateTransitions and TwoMessagesReplaceOrAccumulate: an Empty entry, a newer, an equal and an older epoch. -/
theorem witness_CacheUpdateTransitions :
    ((networkOf st.cs 0).get .orbit).st = .empty ∧ ((networkOf onSet.cs 0).get .orbit).st ≠ .empty ∧
    ((networkOf onSet.cs 0).get .orbit).epoch = some 20 ∧
    (Earlier onSet.cfg 20 21 ∧ SameTime onSet.cfg 20 20 ∧ Earlier onSet.cfg 19 20) ∧ onSet.cfg.oldEpochPolicy = .drop ∧
    let h : CorrHdr := ⟨some (.code 3), some (.code 1), some (.code 2), some (.code 1), true⟩
    let s1 := after (.cacheUpdate 0 .orbit 10 h [orbitOf 5 7 (-3)]) st
    exec (.cacheUpdate 0 .orbit 10 h [orbitOf 5 7 (-3)]) st = .next s1 ∧
    exec (.cacheUpdate 0 .orbit 10 h [orbitOf 9 8 12]) s1 = .next (after (.cacheUpdate 0 .orbit 10 h [orbitOf 9 8 12]) s1) ∧
    exec (.cacheUpdate 0 .orbit 11 h [orbitOf 9 8 12]) s1 = .next (after (.cacheUpdate 0 .orbit 11 h [orbitOf 9 8 12]) s1) :=
  ⟨by decide +kernel, by decide +kernel, by decide +kernel, by unfold SameTime Earlier; decide +kernel, rfl,
    exec_after (by decide +kernel), exec_after (by decide +kernel), exec_after (by decide +kernel)⟩

theorem witness_IsUpdateTransitions :
    used.configured = true ∧ used.is.lookup 1 = some ⟨some 3, []⟩ ∧ used.is.lookup 9 = none ∧
    (Earlier used.cfg 3 4 ∧ SameTime used.cfg 3 3 ∧ Earlier used.cfg 2 3) ∧ used.cfg.oldEpochPolicy = .drop := by
  unfold SameTime Earlier
  decide +kernel

/-- V49's payload after its type. -/
def onEph : State := { onBytes 10 0x12C2800283843FFFFF00 12 with refTime := some (604800 * 2300) }

theorem witness_EphemerisReadsItsBitPositions :
    onEph.configured = true ∧ cfgAccepted onEph.cfg = true ∧ onEph.cfg.ephLayout.get .qzss = some qzssEph ∧
    Fits onEph (widthOf qzssEph.header) ∧ rawOf .svid (fieldsAt onEph 12 qzssEph.header) = some 2 ∧
    satOfSvid onEph.cfg .eph .qzss 2 = .ok 101 ∧ rawOf .weekRaw (fieldsAt onEph 12 qzssEph.header) = some 512 ∧
    onEph.refTime = some (604800 * 2300) ∧ adjustWeekOf onEph.cfg .qzss 512 (604800 * 2300) = .ok 2560 :=
  ⟨rfl, st_accepted, rfl, fits_of (by decide +kernel), by decide +kernel, by decide +kernel, by decide +kernel, rfl,
    by decide +kernel⟩

/-- EphemerisReadsItsBitPositions: no reference time, V50's satellite, a payload of five bytes. -/
theorem witness_EphemerisStops :
    (let s := { onEph with refTime := none }; firstStop s.cur.bitlen 12 (ephEvents s .qzss qzssEph)) = some (.usage none, 78) ∧
    (let s := onBytes 10 0x12CC800283843FFFFF00 12; firstStop s.cur.bitlen 12 (ephEvents s .qzss qzssEph)) =
      some (.invalidPrn (some .qzss) 204, 78) ∧
    (let s := onBytes 5 0x12C2800283 12; firstStop s.cur.bitlen 12 (ephEvents s .qzss qzssEph)) = some (.truncatedRead 34 16, 34) := by
  decide +kernel

/-- EncodeOneReversesAMessage: an ephemeris, a station message and an orbit message. -/
theorem witness_EncodeOneReversesAMessage :
    ((300, .eph .qzss) ∈ st.cfg.typeTable ∧ (qzssEph.header.map (·.name)).Nodup ∧
      (∀ d ∈ qzssEph.header, d.name = .svid → d.signed = false) ∧
      (0 ≤ (512 : Int) ∧ (512 : Int) < 1024 ∧ weekModulus onEph.cfg .qzss = some 1024) ∧
      exec (Instr.ofEph .qzss) onEph = .next (after (Instr.ofEph .qzss) onEph) ∧
      (after (Instr.ofEph .qzss) onEph).ret = .message (answered .ephQzss onEph)) ∧
    ((310, .sta .ant) ∈ st.cfg.typeTable ∧
      exec (Instr.ofSta .ant) (onBytes 5 0x7D30241420 0) = .next (after (Instr.ofSta .ant) (onBytes 5 0x7D30241420 0)) ∧
      (after (Instr.ofSta .ant) (onBytes 5 0x7D30241420 0)).ret = .message (answered .staAnt (onBytes 5 0x7D30241420 0))) ∧
    (100, .ssr .gps .orbit) ∈ st.cfg.typeTable ∧ ((ssrLay .orbit).header.map (·.name)).Nodup ∧
      ((ssrLay .orbit).record.map (·.name)).Nodup ∧ (ssrLay .orbit).svid.signed = false ∧
      exec (Instr.ofSsr .gps .orbit) onM1 = .next (after (Instr.ofSsr .gps .orbit) onM1) ∧
      (after (Instr.ofSsr .gps .orbit) onM1).ret = .message (answered .ssrOrbitGps onM1) :=
  ⟨⟨by decide +kernel, by decide, by decide, by decide +kernel, exec_after (by decide +kernel), by decide +kernel⟩,
    ⟨by decide +kernel, exec_after (by decide +kernel), by decide +kernel⟩, by decide +kernel, by decide, by decide, rfl,
    exec_after (by decide +kernel), by decide +kernel⟩

/-- The premise of EncodeOneReversesAMessage on the quality table. -/
theorem witness_quality_table :
    ∀ x y q, tCfg.uraTable.lookup x = some q → tCfg.uraTable.lookup y = some q → x = y := by
  intro x y q hx hy
  have hmem : ∀ z, tCfg.uraTable.lookup z = some q → (z, q) ∈ tCfg.uraTable := fun z hz => by
    obtain ⟨l1, l2, h, -⟩ := List.lookup_eq_some_iff.mp hz
    rw [h]
    exact List.mem_append_right _ (List.mem_cons_self)
  have key : ∀ a ∈ tCfg.uraTable, ∀ b ∈ tCfg.uraTable, a.2 = b.2 → a.1 = b.1 := by decide +kernel
  exact key _ (hmem x hx) _ (hmem y hy) rfl

/-- StationReadsItsBitPositions: a payload of two bytes. -/
theorem witness_StationStops :
    (let s := onBytes 2 0x7D30 0; firstStop s.cur.bitlen 0 (stationEvents s 0 ((tCfg.staLayout.lookup .ant).getD []))) =
      some (.truncatedRead 12 8, 12) := by decide +kernel

theorem witness_StationReadsItsBitPositions :
    ∃ items, tCfg.staLayout.lookup .ant = some items ∧
      Fits (onBytes 5 0x7D30241420 0) (stationAt (onBytes 5 0x7D30241420 0) 0 items).2 :=
  ⟨_, rfl, fits_of (by decide +kernel)⟩

theorem witness_RawAnswersThePayload : { st with f := ⟨true, 0, 0, 0, 0⟩ }.f.valid = true ∧ st.f.valid = false := ⟨rfl, rfl⟩

/-- P4's message A after its type. -/
def onMsm : State := onBytes 9 0x0C81321045901002DA 12

theorem witness_MsmReadsItsBitPositions :
    onMsm.cfg.msmLayout.lookup (.gps, .v4) = some msmLay ∧
    onMsm.cfg.msmPresent.lookup .v4 = some [.roughRange, .fineRange, .lockTime, .cnr] ∧
    List.Forall₂ (fun svid i => satOfSvid onMsm.cfg .msm .gps svid = .ok i)
      (maskAt onMsm (.msm .gps .v4 .sat) msmLay.satMask (12 + widthOf msmLay.header)) [3] ∧
    List.Forall₂ (fun slot g => onMsm.cfg.msmSig.lookup (.gps, slot) = some g)
      (maskAt onMsm (.msm .gps .v4 .sig) msmLay.sigMask (12 + widthOf msmLay.header + 8)) [l1c] ∧
    Fits onMsm (widthOf msmLay.header + 8 + 4 + (1 + 1 * 8 + 1 * 25)) := by
  refine ⟨by decide +kernel, by decide +kernel, ?_, ?_, fits_of (by decide +kernel)⟩
  · have h : maskAt onMsm (.msm .gps .v4 .sat) msmLay.satMask (12 + widthOf msmLay.header) = [3] := by decide +kernel
    rw [h]
    exact .cons (by decide +kernel) .nil
  · have h : maskAt onMsm (.msm .gps .v4 .sig) msmLay.sigMask (12 + widthOf msmLay.header + 8) = [1] := by decide +kernel
    rw [h]
    exact .cons (by decide +kernel) .nil

/-- The same message in a context without a presence row for its variant. -/
def onMsmAbsent : State := { onMsm with cfg := { tCfg with msmPresent := [] } }

/-- MissingTableEntriesRaiseUsageError: a missing presence row. -/
theorem witness_missing_presence_row :
    cfgAccepted onMsmAbsent.cfg = true ∧ onMsmAbsent.cfg.msmLayout.lookup (.gps, .v4) = some msmLay ∧
    onMsmAbsent.cfg.msmPresent.lookup .v4 = none ∧
    List.Forall₂ (fun (svid : Nat) i => satOfSvid onMsmAbsent.cfg .msm .gps svid = .ok i)
      (maskAt onMsmAbsent (.msm .gps .v4 .sat) msmLay.satMask (12 + widthOf msmLay.header)) [3] ∧
    List.Forall₂ (fun slot g => onMsmAbsent.cfg.msmSig.lookup (.gps, slot) = some g)
      (maskAt onMsmAbsent (.msm .gps .v4 .sig) msmLay.sigMask (12 + (widthOf msmLay.header + 8))) [l1c] ∧
    Fits onMsmAbsent (widthOf msmLay.header + 8 + 4 + 1) := by
  refine ⟨by decide +kernel, by decide +kernel, rfl, ?_, ?_, fits_of (by decide +kernel)⟩
  · have h : maskAt onMsmAbsent (.msm .gps .v4 .sat) msmLay.satMask (12 + widthOf msmLay.header) = [3] := by decide +kernel
    rw [h]
    exact .cons (by decide +kernel) .nil
  · have h : maskAt onMsmAbsent (.msm .gps .v4 .sig) msmLay.sigMask (12 + (widthOf msmLay.header + 8)) = [1] := by decide +kernel
    rw [h]
    exact .cons (by decide +kernel) .nil

/-- MsmReadsItsBitPositions: an unmapped signal, a message cut after its masks and one without a presence row. -/
theorem witness_MsmStops :
    (let s := onBytes 9 0x0C8138101590100000 12; firstStop s.cur.bitlen 12 (msmEvents s .gps .v4 msmLay)) =
      some (.invalidSignal .gps 3, 37) ∧
    (let s := onBytes 5 0x0C81321045 12; firstStop s.cur.bitlen 12 (msmEvents s .gps .v4 msmLay)) =
      some (.truncatedRead 38 8, 38) ∧
    firstStop onMsmAbsent.cur.bitlen 12 (msmEvents onMsmAbsent .gps .v4 msmLay) = some (.usage none, 38) ∧
    firstStop onMsm.cur.bitlen 12 (msmEvents onMsm .gps .v4 msmLay) = none := by decide +kernel

/-- A field as read. -/
def rawF (n : FieldName) (bits : Nat) (v : Value) : RawField := ⟨n, bits, bits, v⟩

/-- What P4's message F holds, with its second rough range not available. -/
def dataF : MsmData :=
  ⟨[], [3, 5], [l1c, l2w], [0, 2, 3], [⟨.roughRange, [rawF (.other 4) 100 (.scaled 100 rms), rawF (.other 4) 255 .na]⟩],
    [⟨.fineRange, List.replicate 3 (rawF (.other 5) 0 (.scaled 0 (rms / 1024)))⟩,
      ⟨.lockTime, [rawF (.other 6) 4 (.scaled 4 1), rawF (.other 6) 3 (.scaled 3 1), rawF (.other 6) 7 (.scaled 7 1)]⟩]⟩

/-- The fields of test_msm7's message: channel 1, a phase and a Doppler. -/
def data7 : MsmData :=
  ⟨[], [202], [l1c], [0],
    [⟨.roughRange, [rawF (.other 4) 100 (.scaled 100 rms)]⟩, ⟨.extInfo, [rawF (.other 10) 8 (.scaled 8 1)]⟩,
      ⟨.doppler, [rawF (.other 11) 61 (.scaled (-3) 1)]⟩],
    [⟨.phase, [rawF (.other 12) 1024 (.scaled 1024 (rms / 4096))]⟩, ⟨.doppler, [rawF (.other 14) 50 (.scaled 50 (1 / 100))]⟩]⟩

/-- ObservationArrays: a present cell, one that is not, a satellite whose range is not available; a phase with a frequency, a signal
without one, a Doppler. -/
theorem witness_ObservationArrays :
    0 < dataF.sats.length ∧ 1 < dataF.sigs.length ∧ 0 * dataF.sigs.length + 1 ∉ dataF.cells ∧
    (∃ x ∈ dataF.satData.filter (fun x => decide (x.block = .roughRange)), ∃ f, x.vals[1]? = some f ∧ f.val = .na) ∧
    dataF.cells[0]? = some (0 * dataF.sigs.length + 0) ∧ dataF.cells.Nodup ∧
    (blockVals dataF.sigData .fineRange)[0]? = some (rawF (.other 5) 0 (.scaled 0 (rms / 1024))) ∧
    data7.cells[0]? = some (0 * data7.sigs.length + 0) ∧ data7.sigs[0]? = some l1c ∧
    (∀ x ∈ data7.satData.filter (fun x => decide (x.block = .roughRange)), ∃ f, x.vals[0]? = some f ∧ f.val ≠ .na) ∧
    (blockVals data7.sigData .phase)[0]? = some (rawF (.other 12) 1024 (.scaled 1024 (rms / 4096))) ∧
    (blockVals data7.satData .extInfo)[0]? = some (rawF (.other 10) 8 (.scaled 8 1)) ∧ msmLay.channelOf.lookup 8 = some 1 ∧
    st.cfg.freq.lookup (.glonass, l1c, some 1) = some 1602562500 ∧ st.cfg.c ≠ 0 ∧
    st.cfg.freq.lookup (.glonass, l2w, some 1) = none ∧
    (blockVals data7.sigData .doppler)[0]? = some (rawF (.other 14) 50 (.scaled 50 (1 / 100))) ∧
    (∀ x ∈ data7.satData.filter (fun x => decide (x.block = .doppler)), ∃ r, x.vals[0]? = some r ∧ r.val ≠ .na) := by
  refine ⟨by decide, by decide, by decide, ⟨_, .head _, _, rfl, rfl⟩, rfl, by decide, by decide +kernel, rfl, rfl, ?_, rfl, rfl, rfl,
    by decide +kernel, by decide +kernel, by decide +kernel, rfl, ?_⟩
  · intro x hx
    rw [show data7.satData.filter (fun x => decide (x.block = .roughRange)) =
      [⟨.roughRange, [rawF (.other 4) 100 (.scaled 100 rms)]⟩] from rfl, List.mem_singleton] at hx
    subst hx
    exact ⟨_, rfl, by decide⟩
  · intro x hx
    rw [show data7.satData.filter (fun x => decide (x.block = .doppler)) =
      [⟨.doppler, [rawF (.other 11) 61 (.scaled (-3) 1)]⟩] from rfl, List.mem_singleton] at hx
    subst hx
    exact ⟨_, rfl, by decide⟩

/-- ObservationArrays: a header with an epoch; a fine range and a phase that are not available; no rough range; no signal blocks. -/
theorem witness_ObservationArrays_absent :
    let rough : List BlockData := [⟨.roughRange, [rawF (.other 4) 100 (.scaled 100 rms)]⟩]
    let d : MsmData := ⟨[rawF .epoch 10 (.scaled 10 1)], [3], [l1c], [0], rough,
      [⟨.fineRange, [rawF (.other 5) 16384 .na]⟩, ⟨.phase, [rawF (.other 12) 2048 .na]⟩]⟩
    rawOf .epoch d.hdr = some 10 ∧ st.refTime = some 0 ∧ rawOf .epoch dataF.hdr = none ∧
    (blockVals d.sigData .fineRange)[0]? = some (rawF (.other 5) 16384 .na) ∧
    (blockVals d.sigData .phase)[0]? = some (rawF (.other 12) 2048 .na) ∧ d.cells[0]? = some (0 * d.sigs.length + 0) ∧
    (([] : List BlockData).filter (fun x => decide (x.block = .roughRange))) = [] ∧
    ∀ x ∈ ([] : List BlockData), x.block ≠ .fineRange ∧ x.block ≠ .lockTime :=
  ⟨by decide +kernel, by decide +kernel, by decide +kernel, rfl, rfl, rfl, rfl, fun _ hx => by cases hx⟩

/-- LockTimesOfAMessage: a cell whose counter is less than the cached one, one of a satellite whose range is not available, and the
counter of the last cell of a key. -/
theorem witness_LockTimesOfAMessage :
    0 < dataF.sats.length ∧ 0 < dataF.sigs.length ∧ lockAt dataF (0 * dataF.sigs.length + 0) = some ((3, l1c), 4) ∧
    used.lk.lookup (3, l1c) = some 5 ∧ lockAt dataF (1 * dataF.sigs.length + 0) = none ∧
    ((dataF.cells.filterMap (lockAt dataF)).filter fun x => decide (x.1 = (3, l1c))).getLast? = some ((3, l1c), 4) := by
  decide +kernel

/-- M1's header and record at their bit positions. -/
def prepM1 : CorrPrep := ⟨fieldsAt onM1 12 ssrHeader, 0, 10, ⟨some (.code 3), some (.code 1), some (.code 2), some (.code 1), true⟩⟩

theorem header_m1 : HeaderAt onM1 (.ssr .gps .orbit) ssrHeader 12 prepM1 :=
  ⟨rfl, by decide +kernel, ⟨10, 0, by decide +kernel, rfl, by decide +kernel⟩, ⟨1, by decide +kernel, by decide +kernel⟩⟩

/-- SsrReadsItsBitPositions: both policies, and the test range's rows. -/
theorem witness_SsrReadsItsBitPositions :
    onM1.cfg.ssrLayout.lookup (.gps, .orbit) = some (ssrLay .orbit) ∧
    CorrectionAt onM1 (.ssr .gps .orbit) .ssr .gps .orbit (ssrLay .orbit) 12 prepM1 [orbitOf 5 7 (-3)] 48 ∧ Fits onM1 48 ∧
    onM1.cfg.testKindOfOffset.lookup 0 = some .orbit ∧ onM1.cfg.testKindOfOffset.lookup 3 = some .clock ∧
    cacheKindsOf .orbit = [.orbit] ∧ iodCheckOf onM1.cfg onM1.cs 0 (cacheKindsOf .orbit) 10 (some (.code 3)) = .ok false ∧
    iodCheckOf { tCfg with iodPolicy := .strict } (holding (orbitSet .complete 10 4 []) onM1).cs 0 (cacheKindsOf .orbit) 10 (some (.code 3)) =
      .error (.inconsistentIod 0 .orbit) :=
  ⟨by decide +kernel, ⟨header_m1, 1, 24, by decide +kernel, by decide +kernel, by decide +kernel⟩, fits_of (by decide +kernel), rfl,
    rfl, rfl, by decide +kernel, by decide +kernel⟩

/-- V64's payload after its type. -/
def onCombined : State := onBytes 10 0x066325891242F9C02710 12

def prepCombined : CorrPrep := ⟨fieldsAt onCombined 12 ssrHeader, 0, 50, ⟨some (.code 6), some (.code 1), some (.code 2), some (.code 1), false⟩⟩

theorem witness_SsrCombined :
    CorrectionAt onCombined (.ssr .gps .combined) .ssr .gps .combined (ssrLay .combined) 12 prepCombined
      [(.sat 9, .combined [(.iode, .scaled 11 1), (.other 1, .scaled (-100) (1 / 10000))] [(.other 2, .scaled 2500 (1 / 10000))])]
      66 ∧ Fits onCombined 66 ∧ iodCheckOf onCombined.cfg onCombined.cs 0 (cacheKindsOf .combined) 50 (some (.code 6)) = .ok false :=
  ⟨⟨⟨rfl, by decide +kernel, ⟨50, 0, by decide +kernel, rfl, by decide +kernel⟩, ⟨0, by decide +kernel, by decide +kernel⟩⟩,
      1, 42, by decide +kernel, by decide +kernel, by decide +kernel⟩, fits_of (by decide +kernel), by decide +kernel⟩

/-- The first condition of an orbit message in a context. -/
def orbitStop (s : State) : Option (Cond × Nat) :=
  firstStop s.cur.bitlen s.cur.off (correctionEvents s (.ssr .gps .orbit) .ssr .gps .orbit (ssrLay .orbit) s.cur.off)

/-- SsrReadsItsBitPositions: P3's M6 and M7, no reference time, V68's strict policy; V61's unmapped slot. -/
theorem witness_SsrStops :
    orbitStop onM1 = none ∧ orbitStop (onBytes 8 0x0641E5492141C010 12) = some (.truncatedRead 60 6, 60) ∧
    orbitStop (onBytes 8 0x0641E5491A01C010 12) = some (.invalidPrn (some .gps) 40, 42) ∧
    orbitStop { onM1 with refTime := none } = some (.usage none, 36) ∧
    orbitStop { onBytes 8 0x0641454913006000 12 with cs := onSet.cs, cfg := { tCfg with iodPolicy := .strict } } =
      some (.inconsistentIod 0 .orbit, 60) ∧
    (let s := onBytes 8 0x068284C91153812C 12;
      firstStop s.cur.bitlen 12 (correctionEvents s (.ssr .gps .codebias) .ssr .gps .codebias (ssrLay .codebias) 12)) =
      some (.invalidSignal .gps 7, 49) := by decide +kernel

/-- P5's I1 after its type. -/
def onIgs : State := onBytes 9 0x19002A50D922283FFA 12

/-- I1's header. -/
def prepI1 : CorrPrep := ⟨fieldsAt onIgs 23 ssrHeader, 0, 40, ⟨some (.code 3), some (.code 1), some (.code 2), some (.code 1), true⟩⟩

theorem witness_IgsDispatchesOnTheSubtype :
    onIgs.cfg.igsPrefix = some ⟨[uns .version 3], uns .subtype 8⟩ ∧ (fieldAt onIgs 15 (uns .subtype 8)).raw = 21 ∧
    onIgs.cfg.igsSubtypeTable.lookup 21 = some (.ssr .gps .orbit) ∧ onIgs.cfg.igsLayout.lookup (.gps, .orbit) = some (ssrLay .orbit) ∧
    CorrectionAt onIgs (.igs .gps .orbit) .igs .gps .orbit (ssrLay .orbit) 23 prepI1 [orbitOf 5 7 (-3)] 48 ∧ Fits onIgs (11 + 48) ∧
    iodCheckOf onIgs.cfg onIgs.cs 0 (cacheKindsOf .orbit) 40 (some (.code 3)) = .ok false ∧
    (fieldAt (onBytes 9 0x1900C650D922283FFA 12) 15 (uns .subtype 8)).raw = 99 ∧ tCfg.igsSubtypeTable.lookup 99 = none ∧
    Fits (onBytes 9 0x1900C650D922283FFA 12) 11 ∧
    { onBytes 9 0x1900C650D922283FFA 12 with f := ⟨true, 0, 0, 400, 0⟩ }.f.valid = true :=
  ⟨rfl, by decide +kernel, by decide +kernel, by decide +kernel,
    ⟨⟨rfl, by decide +kernel, ⟨40, 0, by decide +kernel, rfl, by decide +kernel⟩, ⟨1, by decide +kernel, by decide +kernel⟩⟩,
      1, 24, by decide +kernel, by decide +kernel, by decide +kernel⟩,
    fits_of (by decide +kernel), by decide +kernel, by decide +kernel, by decide +kernel, fits_of (by decide +kernel), rfl⟩

/-- IgsDispatchesOnTheSubtype: the grid message of test_gridTropo_by_subtype; a prefix that is cut; an orbit message with SVID 40. -/
def onIgsGrid : State := onBytes 7 (22 * 2 ^ 45 + 0x284C903B190 * 2) 0

theorem witness_IgsGridAndStops :
    (fieldAt onIgsGrid 3 (uns .subtype 8)).raw = 22 ∧ onIgsGrid.cfg.igsSubtypeTable.lookup 22 = some .gridTropo ∧
    (∃ lay, onIgsGrid.cfg.tropoLayout.map (fun l => { l with perSat := none }) = some lay ∧
      HeaderAt onIgsGrid .gridTropo lay.header 11
        ⟨fieldsAt onIgsGrid 11 lay.header, 7, 40, ⟨some (.code 3), some (.code 1), some (.code 2), some (.code 1), false⟩⟩ ∧
      gridAt onIgsGrid lay 7 (fieldsAt onIgsGrid 11 lay.header) (11 + widthOf lay.header) =
        some ([(.model, .vals [(.other 3, .scaled 50 (4 / 1000))])], 10) ∧
      Fits onIgsGrid (11 + widthOf lay.header + 10)) ∧
    iodCheckOf tCfg [] 7 [.tropo] 40 (some (.code 3)) = .ok false ∧
    (let s := onBytes 2 0x1900 12; firstStop s.cur.bitlen 12 (igsEvents s ⟨[uns .version 3], uns .subtype 8⟩)) =
      some (.truncatedRead 15 8, 15) ∧
    firstStop onIgs.cur.bitlen 12 (igsEvents { onIgs with refTime := none } ⟨[uns .version 3], uns .subtype 8⟩) =
      some (.usage none, 47) :=
  ⟨by decide +kernel, by decide +kernel,
    ⟨_, rfl, ⟨rfl, by decide +kernel, ⟨40, 0, by decide +kernel, rfl, by decide +kernel⟩, ⟨0, by decide +kernel, by decide +kernel⟩⟩,
      by decide +kernel, fits_of (by decide +kernel)⟩, by decide +kernel, by decide +kernel, by decide +kernel⟩

/-- V64's header and record behind an IGS prefix and a subtype of their own. -/
def onIgsCombined : State :=
  { onBytes 10 0x22E64B122485F3804E20 0 with
    cfg := { tCfg with
      igsSubtypeTable := [(23, .ssr .gps .combined)]
      igsLayout := [((.gps, .combined), ssrLay .combined)]
      epochRows := epochs (.corr (.igs .gps .combined)) [50] } }

/-- IgsDispatchesOnTheSubtype: the two kinds of a combined message. -/
theorem witness_IgsCombined :
    (fieldAt onIgsCombined 3 (uns .subtype 8)).raw = 23 ∧ onIgsCombined.cfg.igsSubtypeTable.lookup 23 = some (.ssr .gps .combined) ∧
    onIgsCombined.cfg.igsLayout.lookup (.gps, .combined) = some (ssrLay .combined) ∧
    CorrectionAt onIgsCombined (.igs .gps .combined) .igs .gps .combined (ssrLay .combined) 11
      ⟨fieldsAt onIgsCombined 11 ssrHeader, 0, 50, ⟨some (.code 6), some (.code 1), some (.code 2), some (.code 1), false⟩⟩
      [(.sat 9, .combined [(.iode, .scaled 11 1), (.other 1, .scaled (-100) (1 / 10000))] [(.other 2, .scaled 2500 (1 / 10000))])]
      66 ∧ Fits onIgsCombined (11 + 66) ∧
    iodCheckOf onIgsCombined.cfg onIgsCombined.cs 0 (cacheKindsOf .combined) 50 (some (.code 6)) = .ok false :=
  ⟨by decide +kernel, by decide +kernel, by decide +kernel,
    ⟨⟨rfl, by decide +kernel, ⟨50, 0, by decide +kernel, rfl, by decide +kernel⟩, ⟨0, by decide +kernel, by decide +kernel⟩⟩,
      1, 42, by decide +kernel, by decide +kernel, by decide +kernel⟩, fits_of (by decide +kernel), by decide +kernel⟩

/-- V65's payload after its type, and the ionosphere message of test_gridIono. -/
def onTropo : State := onBytes 10 0x258284C903B1960BD3E0 12
def onIono : State := onBytes 8 (0b00101000010011001001000100111010000101000110010101100111000 * 32) 0

def gridHeader : List FieldDesc := ssrHeader ++ [uns .gridId 5, uns .npts 3]

def prepTropo : CorrPrep := ⟨fieldsAt onTropo 12 gridHeader, 7, 40, ⟨some (.code 3), some (.code 1), some (.code 2), some (.code 1), false⟩⟩
def prepIono : CorrPrep := ⟨fieldsAt onIono 0 gridHeader, 7, 40, ⟨some (.code 3), some (.code 1), some (.code 2), some (.code 1), false⟩⟩

theorem witness_GridReadsItsBitPositions :
    (∃ lay, onTropo.cfg.tropoLayout = some lay ∧ HeaderAt onTropo .gridTropo lay.header 12 prepTropo ∧
      gridAt onTropo { lay with perSat := none } 7 prepTropo.fields (12 + widthOf lay.header) =
        some ((.model, .vals [(.other 3, .scaled 50 (4 / 1000))]) ::
          ([(0, 5), (1, -6), (2, 31)] : List (Nat × Int)).map (fun x => (.point x.1, .resid (.scaled x.2 (4 / 1000)))), 31) ∧
      Fits onTropo (widthOf lay.header + 31)) ∧
    (∃ lay, onIono.cfg.ionoLayout = some lay ∧ HeaderAt onIono .gridIono lay.header 0 prepIono ∧
      gridAt onIono lay 7 prepIono.fields (0 + widthOf lay.header) =
        some ([(.sat 5, .gridSat [(.other 3, .scaled 50 (4 / 1000))] [.scaled 3 (1 / 100), .na])], 27) ∧
      Fits onIono (widthOf lay.header + 27)) ∧
    iodCheckOf tCfg [] 7 [.tropo] 40 (some (.code 3)) = .ok false ∧ iodCheckOf tCfg [] 7 [.iono] 40 (some (.code 3)) = .ok false :=
  ⟨⟨_, rfl, ⟨rfl, by decide +kernel, ⟨40, 0, by decide +kernel, rfl, by decide +kernel⟩, ⟨0, by decide +kernel, by decide +kernel⟩⟩,
      by decide +kernel, fits_of (by decide +kernel)⟩,
    ⟨_, rfl, ⟨rfl, by decide +kernel, ⟨40, 0, by decide +kernel, rfl, by decide +kernel⟩, ⟨0, by decide +kernel, by decide +kernel⟩⟩,
      by decide +kernel, fits_of (by decide +kernel)⟩, by decide +kernel, by decide +kernel⟩

/-- GridReadsItsBitPositions: a residual block that is cut, a satellite that is none of GPS's, the strict policy. -/
theorem witness_GridStops :
    ∃ tropo iono, tCfg.tropoLayout = some tropo ∧ tCfg.ionoLayout = some iono ∧
      (let s := onBytes 9 0x258284C903B1960BD3 12;
        firstStop s.cur.bitlen 12 (gridEvents s .gridTropo .tropo { tropo with perSat := none } 12)) = some (.truncatedRead 69 6, 69) ∧
      (let s := onBytes 8 (0b00101000010011001001000100111010101000000110010101100111000 * 32) 0;
        firstStop s.cur.bitlen 0 (gridEvents s .gridIono .iono iono 0)) = some (.invalidPrn (some .gps) 40, 38) ∧
      (let s := { onIono with
          cfg := { tCfg with iodPolicy := .strict }
          cs := [(7, { NetState.fresh with iono := orbitSet .complete 40 4 [] })] };
        firstStop s.cur.bitlen 0 (gridEvents s .gridIono .iono iono 0)) = some (.inconsistentIod 7 .iono, 59) :=
  ⟨_, _, rfl, rfl, by decide +kernel, by decide +kernel, by decide +kernel⟩

theorem witness_IntegrityUpdatesOneProvider :
    onInteg.cfg.integLayout.lookup ⟨(700#12).toNat, none⟩ = some integLay ∧ onInteg.refTime = some 0 ∧
    rawOf .provider (fieldsAt onInteg 0 integLay.header) = some 2 ∧ rawOf .epoch (fieldsAt onInteg 0 integLay.header) = some 40 ∧
    (let w := integWalk onInteg ⟨700, none⟩ integLay 0;
      w.part = ⟨[(.provider, .plain (.scaled 2 1)), (.epoch, .plain (.scaled 40 1))], [.gps, .qzss],
        [(.gps, [1]), (.qzss, [101])], [],
        [(.sat .gps 1, [(.other 20, .provided (1 / 10))]), (.sat .qzss 101, [(.other 20, .notProvided)])]⟩ ∧
      eventBits w.events = 34 ∧ firstStop 40 0 w.events = none) ∧
    Fits onInteg 34 :=
  ⟨by decide +kernel, rfl, by decide +kernel, by decide +kernel, by decide +kernel, fits_of (by decide +kernel)⟩

/-- IntegrityUpdatesOneProvider: no reference time, a satellite that is none of QZSS's, a cut message; a prefix that is cut, and the
message of test_integ_subtype; a subtype without a layout. -/
theorem witness_IntegrityStops :
    firstStop 40 0 (integWalk { onInteg with refTime := none } ⟨700, none⟩ integLay 0).events = some (.usage none, 12) ∧
    firstStop 40 0 (integWalk { onInteg with cfg := { tCfg with prn := { tCfg.prn with qzss := none } } } ⟨700, none⟩ integLay 0).events =
      some (.invalidPrn (some .qzss) 194, 26) ∧
    firstStop 24 0 (integWalk { onInteg with cur := ⟨.stream, 0, 3, 0⟩ } ⟨700, none⟩ integLay 0).events =
      some (.truncatedRead 22 4, 22) ∧
    firstStop 0 0 (fieldEvents [uns .version 3] ++ [.read 4]) = some (.truncatedRead 0 3, 0) ∧
    (let s := onBytes 6 0b001010100100010100000011001110000000000000101111 0;
      let w := integWalk s ⟨700, some 5⟩ integSub 7;
      (fieldAt s 3 (uns .subtype 4)).raw = 5 ∧ s.cfg.integLayout.lookup ⟨700, some 5⟩ = none ∧ 0 + (3 + 4) ≤ s.cur.bitlen ∧ 7 + eventBits w.events = 48 ∧ firstStop 48 7 w.events = none) := by decide +kernel

theorem witness_DispatchRunsTheTypesRow :
    Fits (onBytes 2 0x4350 0) 12 ∧ tCfg.typeTable.lookup (BitVec.ofNat 12 (bitsAt (onBytes 2 0x4350 0) 0 12)).toNat = none ∧
    (onBytes 1 0x43 0).cur.bitlen < (onBytes 1 0x43 0).cur.off + 12 :=
  ⟨fits_of (by decide +kernel), by decide +kernel, by decide +kernel⟩

theorem witness_EncodeOneWritesTheFields :
    (List.replicate 1023 (0 : Byte)).length ≤ 1023 ∧ typeFor { tCfg with typeTable := [] } (messageOf 14 m1) = none ∧
    (∀ t' b, messageOf 14 m1 ≠ .rawUnhandled t' b) ∧ typeFor st.cfg (messageOf 14 m1) = some 100 ∧
    (∀ i ∈ payloadItems st 100 (messageOf 14 m1), WItem.writable i = true) ∧
    itemBits (payloadItems st 100 (messageOf 14 m1)) ≤ 8 * 1023 := by
  refine ⟨by simp, by decide +kernel, fun t' b h => ?_, by decide +kernel,
    fun i hi => (List.all_eq_true.mp (by decide +kernel) : ∀ i ∈ payloadItems st 100 (messageOf 14 m1), WItem.writable i = true) i hi,
    by decide +kernel⟩
  have h1 : (match messageOf 14 m1 with | .rawUnhandled _ _ => true | _ => false) = false := by decide +kernel
  rw [h] at h1
  cases h1

/-- A station message with a string of 1020 bytes. -/
def longSta : Message := .station .ant [(.stationId, .num (.scaled 1 1)), (.other 30, .bytes (List.replicate 1020 65))]

/-- EncodeOneWritesTheFields: a payload of 1024 bytes; a string whose count does not fit; one of 8196 bits with a count of 12 bits. -/
theorem witness_EncodeOneWritesTheFields_long :
    1023 < (List.replicate 1024 (0 : Byte)).length ∧ (∀ t' b, longSta ≠ .rawUnhandled t' b) ∧ typeFor st.cfg longSta = some 310 ∧
    payloadItems st 310 longSta =
      [.field (plainField 12) 310, .field (uns .stationId 12) 1] ++ .field (uns (.other 31) 8) 1020 ::
        List.replicate 1020 (.field (plainField 8) 65) ∧
    WItem.Refused (.field (uns (.other 31) 8) 1020) (.usage (some (.int 1020))) ∧
    (let t := after (.encodeOne longSta) st;
      t.result = ⟨.usageError, .arg (.int 1020)⟩ ∧ t.olen = 1027 ∧ t.cur.off = 24 ∧
      Memory.slice t.obuf 0 7 = [0, 0, 0, 0x13, 0x60, 0x01, 0]) ∧
    (let s : State := { st with cfg := { tCfg with staLayout := [(.ant, [.field (uns .stationId 12), .str (.other 30) (uns (.other 31) 12)])] } };
      typeFor s.cfg longSta = some 310 ∧ (payloadItems s 310 longSta).all WItem.writable = true ∧
      itemBits (payloadItems s 310 longSta) = 8196) := by
  have hl : ∀ t' b, longSta ≠ .rawUnhandled t' b := fun _ _ h => by
    unfold longSta at h
    cases h
  refine ⟨by simp, hl, by decide +kernel, by decide +kernel, ⟨by decide +kernel, by decide +kernel, rfl, rfl⟩, by decide +kernel, by decide +kernel⟩

/-- EncodeOneWritesTheFields: a range of 255 light-milliseconds can be split; 1/5 and 78/5 can be split so that both come within one
unit of a fine field of four bits, but not with both rounded. -/
theorem witness_chooseSplit :
    (let ds : List FieldDesc := [{ name := .other 4, width := 4, scale := 16 }];
      let ts : List SplitTarget := [⟨1 / 5, uns (.other 5) 4⟩, ⟨78 / 5, uns (.other 5) 4⟩];
      splitFits .oneUnit ds ts [0] = true ∧ findSplit .nearest ds (splitFloor (1 / 5) ds) ⟨1 / 5, uns (.other 5) 4⟩ [⟨78 / 5, uns (.other 5) 4⟩] = none ∧
      ts.map (fun t => nearRaw t.d t.q) = [0, 15]) ∧
    splitFits .nearest [{ name := .other 4, width := 8, scale := rms, na := some 255 }]
      [⟨255 * rms, { name := .other 5, width := 15, signed := true, scale := rms / 1024, na := some (-16384) }⟩] [254] = true := by
  decide +kernel

theorem witness_AnArrivingFrameIsDecoded :
    st.configured = true ∧ st.cfg.crc.reflected = false ∧ Memory.wf st.stream = true ∧ st.scan ≤ st.slen ∧
    (0x47EA4B : BitVec 24) =
      Sys2Proof.Machine.crc24 st.cfg.crc ((encodeFrame st.cfg 0 [] 0x47EA4B).take (([] : List Byte).length + 3)) ∧
    (0 : BitVec 24) ≠ Sys2Proof.Machine.crc24 st.cfg.crc ((encodeFrame st.cfg 0 [] 0).take (([] : List Byte).length + 3)) := by
  decide +kernel

/-- StepRunsTheIssuedOperation and StepRunsTheDecodedMessage: DECODE_ONE issued on M1. -/
theorem witness_StepRunsTheDecodedMessage :
    let s : State := { State.withBytes st 14 m1 with port := [.decodeOne] }
    s.port = .decodeOne :: [] ∧ s.configured = true ∧ cfgAccepted s.cfg = true ∧ s.scan ≤ s.slen ∧
    FirstCandidate s s.scan 0 ∧ FrameAt s 0 8 ∧ decodeMessage s.cfg (Memory.slice s.stream (0 + 3) 8) = .ok .ssrOrbitGps :=
  ⟨rfl, rfl, st_accepted, by decide +kernel, first_at_0 (by decide +kernel) (by decide +kernel),
    by unfold FrameAt; decide +kernel, by decide +kernel⟩

/-- A configured state with bytes under the cursor meets the invariant. -/
theorem onM1_inv : State.Inv { onM1 with port := [.readU 8] } where
  stream_ok := ⟨by decide +kernel, by decide +kernel⟩
  obuf_ok := ⟨rfl, by decide⟩
  scan_le := by decide +kernel
  cur_le := by decide +kernel
  frame_ok := fun h => by cases h
  frame_window := fun h => by cases h
  config_ok := fun _ => st_accepted
  caches_ok := ⟨.nil, .nil, fun _ h => (by cases h), .nil, fun _ h => (by cases h)⟩

/-- EveryOperationEnds and StepKeepsTheInvariant; a write over OBUF. -/
theorem witness_EveryOperationEnds :
    State.Inv { onM1 with port := [.readU 8] } ∧
    (∃ w v o, Instr.writeU 4 15 .fail = .writeU w v o ∨ Instr.writeU 4 15 .fail = .writeS w v o) ∧ (onZeros 8).cur.space = .obuf ∧
    step { onM1 with port := [.readU 8] } = .next (after (.readU 8) onM1) := by
  exact ⟨onM1_inv, ⟨4, 15, .fail, .inl rfl⟩, rfl, exec_after (i := .readU 8) (s := onM1) (by decide +kernel)⟩

/-- A context whose cursor spans STREAM, and a reflected configuration. -/
theorem witness_NamedStops :
    onS1.configured = true ∧ ({ tCfg with crc := { tCfg.crc with refin := true } }).crc.reflected = true ∧
    (onBytes 1 0 0).cur.space = .stream ∧ (onBytes 1 0 0).cur.off + 8 ≤ (onBytes 1 0 0).cur.bitlen ∧
    (-(2 ^ (4 - 1)) ≤ (-8 : Int) ∧ (-8 : Int) < 2 ^ (4 - 1)) ∧ ([1] : List Byte) ≠ [] ∧ (onBytes 1 0 0).cur.off % 8 = 0 ∧
    (match exec (.writeU 8 255 .fail) (onBytes 1 0 0),
        exec (.crc24 []) { st with cfg := { tCfg with crc := { tCfg.crc with refin := true } } } with
      | .fault .writeOnStreamCursor, .refused .reflectedCrc => true
      | _, _ => false) = true := by decide +kernel

end Sys2Proof.Tests
end

/-! SUPPORT and the statements of 00_scope.md: the message rows, how every operation ends, fields and masks that lie in the span,
missing configuration entries. -/

namespace Sys2Proof.Machine

/-! ## The message rows: one reader each (R100, R193) -/

/-- The reader of a message row (R100, log 22): what `exec` runs at the cursor for it; none for an operation and for a frame. -/
def messageReader : WireClass → Option (State → Rd Handled)
  | .operation => none
  | .frame => none
  | .handler h => some fun s => runHandler s h
  | .test c o => some fun s => readTest s c o
  | .integ t => some fun s => readInteg s t
  | .raw t => some fun s => readRaw s t

/-- The meaning of every message row is its reader, run at the cursor. -/
theorem exec_of_messageReader {i : Instr} {r : State → Rd Handled} (h : messageReader i.wireClass = some r) (s : State) :
    exec i s = handlerOp s r := by
  cases i <;> cases h <;> rfl

@[simp] theorem wireClass_ofMsm (c : Constellation) (v : MsmVariant) : (Instr.ofMsm c v).wireClass = .handler (.msm c v) := by
  cases c <;> cases v <;> rfl

@[simp] theorem wireClass_ofSsr (c : Constellation) (k : SsrKind) : (Instr.ofSsr c k).wireClass = .handler (.ssr c k) := by
  cases c <;> cases k <;> rfl

@[simp] theorem wireClass_ofSsrTest (o : Nat) (c : Constellation) : (Instr.ofSsrTest o c).wireClass = .test c o := by
  cases c <;> rfl

@[simp] theorem wireClass_ofEph (c : Constellation) : (Instr.ofEph c).wireClass = .handler (.eph c) := by
  cases c <;> rfl

@[simp] theorem wireClass_ofSta (k : StaKind) : (Instr.ofSta k).wireClass = .handler (.sta k) := by
  cases k <;> rfl

theorem messageReader_ofMsm (c : Constellation) (v : MsmVariant) :
    messageReader (Instr.ofMsm c v).wireClass = some fun s => readMsm s c v := by rw [wireClass_ofMsm]; rfl

theorem messageReader_ofSsr (c : Constellation) (k : SsrKind) :
    messageReader (Instr.ofSsr c k).wireClass = some fun s => readSsr s c k := by rw [wireClass_ofSsr]; rfl

theorem messageReader_ofSsrTest (o : Nat) (c : Constellation) :
    messageReader (Instr.ofSsrTest o c).wireClass = some fun s => readTest s c o := by rw [wireClass_ofSsrTest]; rfl

theorem messageReader_ofEph (c : Constellation) :
    messageReader (Instr.ofEph c).wireClass = some fun s => readEph s c := by rw [wireClass_ofEph]; rfl

theorem messageReader_ofSta (k : StaKind) :
    messageReader (Instr.ofSta k).wireClass = some fun s => readStation s k := by rw [wireClass_ofSta]; rfl

/-! ## One step (R16, R76) -/

/-- Settles O54: an issued operation is the head of the port (R16, R76, log 1). -/
theorem stepRunsTheIssuedOperation : Obligations.StepRunsTheIssuedOperation := by
  unfold Obligations.StepRunsTheIssuedOperation
  intro s i rest hport
  simp only [step, hport]

/-! ## Every operation ends (R16, R355) -/

/-- The end of an operation (R16, R26, R355): a result with a value, or a condition without one. -/
def State.Ended (t : State) : Prop := (t.result = ⟨.ok, .zero⟩ ∧ t.ret ≠ .none) ∨ (t.result.code ≠ .ok ∧ t.ret = .none)

/-- An operation answers a next state, and has ended there. -/
def Ends (o : Out) : Prop := ∃ t, o = .next t ∧ t.Ended

theorem State.raise_ended (s : State) (c : Cond) : (s.raise c).Ended := .inr ⟨c.code_ne_ok, rfl⟩

theorem State.done_ended (s : State) {r : RetVal} (h : r ≠ .none) : (s.done r).Ended := .inl ⟨rfl, h⟩

theorem State.Ended.ends {t : State} (h : t.Ended) : Ends (.next t) := ⟨t, rfl, h⟩

theorem Ends.tick {o : Out} (h : Ends o) : Ends (tick o) := by
  obtain ⟨t, rfl, ht⟩ := h
  exact ⟨_, rfl, ht⟩

/-- A unit operation ends if its body does in a configured block (R382). -/
theorem Ends.unitOp {s : State} {body : State → Out} (h : s.configured = true → Ends (body { s with window := false })) :
    Ends (unitOp s body) := by
  by_cases hc : s.configured = true
  · rw [unitOp_configured body hc]
    exact (h hc).tick
  · rw [unitOp_unconfigured body (by simpa using hc)]
    exact (State.raise_ended _ _).ends.tick

theorem finishPure_ends {α : Type} (s : State) (r : Except Cond α) {ret : α → RetVal} (h : ∀ a, ret a ≠ .none) :
    Ends (finishPure s r ret) := by
  cases r with
  | ok a => exact (s.done_ended (h a)).ends
  | error c => exact (s.raise_ended c).ends

theorem finishRd_ends {α : Type} (s : State) (m : Rd α) {ret : α → RetVal} (h : ∀ a, ret a ≠ .none) :
    Ends (finishRd s m fun a s => s.done (ret a)) := by
  simp only [finishRd]
  split
  · next a _ _ => exact (State.done_ended _ (h a)).ends
  · exact (State.raise_ended _ _).ends

/-- A write ends under a cursor over OBUF; over STREAM it is the host's breach of R14 (log 17). -/
theorem writeOp_ends {s : State} (hs : s.cur.space = .obuf) (w : Memory → Cursor → WrRes) : Ends (writeOp s w) := by
  simp only [writeOp, hs]
  split
  · exact (State.raise_ended _ _).ends
  · split <;> exact (State.done_ended _ (by simp)).ends

theorem finishRun_ends (r : Run) : Ends (finishRun r) := by
  cases r with
  | ok m s => exact (State.done_ended _ (by simp)).ends
  | cond c s => exact (State.raise_ended _ _).ends

theorem handlerOp_ends (s : State) (m : State → Rd Handled) : Ends (handlerOp s m) :=
  Ends.unitOp fun _ => finishRun_ends _

/-- HOST_CONFIG installs no reflected CRC (R145, U15). -/
theorem cfgAccepted_not_reflected {cfg : Cfg} (h : cfgAccepted cfg = true) : cfg.crc.reflected = false := by
  simp only [cfgAccepted, Bool.and_eq_true, Bool.not_eq_true'] at h
  exact h.2

theorem withCrc_ends {s : State} {body : State → Out} (hr : s.cfg.crc.reflected = false) (h : Ends (body s)) :
    Ends (withCrc s body) := by
  rw [withCrc, hr]
  exact h

theorem emitFrame_ended (s : State) (payload : List Byte) : (emitFrame s payload).Ended := by
  simp only [emitFrame]
  split
  · exact State.raise_ended _ _
  · exact State.done_ended _ (by simp)

theorem encodeItems_ended (s : State) (msg : Message) (items : List WItem) : (encodeItems s msg items).Ended := by
  simp only [encodeItems]
  split
  · exact State.raise_ended _ _
  · exact emitFrame_ended _ _

theorem encodeMessage_ended (s : State) (msg : Message) : (encodeMessage s msg).Ended := by
  simp only [encodeMessage]
  split
  · exact emitFrame_ended _ _
  · split
    · exact State.raise_ended _ _
    · exact encodeItems_ended _ _ _

theorem State.found_ended (s : State) (r : FrameRes) : (s.found r).Ended := by
  cases r with
  | noFrame => exact State.done_ended _ (by simp)
  | frame p len crc => exact State.done_ended _ (by simp)
  | cond c => exact State.raise_ended _ _

theorem finishDecode_ends (consumed : Nat) (r : Run) : Ends (finishDecode consumed r) := by
  cases r with
  | ok m s => exact (State.done_ended _ (by simp)).ends
  | cond c s => exact (State.raise_ended _ _).ends

theorem decodeFrom_ends (s : State) : Ends (decodeFrom s) := by
  simp only [decodeFrom]
  split
  · exact (State.done_ended _ (by simp)).ends
  · exact (State.raise_ended _ _).ends
  · exact finishDecode_ends _ _

theorem execCurInit_ends (space : Space) (base n : Nat) (s : State) : Ends (execCurInit space base n s) := by
  refine Ends.unitOp fun _ => ?_
  cases space with
  | stream =>
    dsimp only
    split
    · exact (State.raise_ended _ _).ends
    · exact (State.done_ended _ (by simp)).ends
  | obuf => exact (State.done_ended _ (by simp)).ends

theorem execHostConfig_ends (cfg : Cfg) (s : State) : Ends (execHostConfig cfg s) := by
  simp only [execHostConfig]
  split
  · exact (State.done_ended _ (by simp)).ends
  · exact (State.raise_ended _ _).ends

theorem execHostLoad_ends (bytes : List Byte) (scan : Nat) (s : State) : Ends (execHostLoad bytes scan s) := by
  simp only [execHostLoad]
  split
  · exact (State.raise_ended _ _).ends
  · exact (State.done_ended _ (by simp)).ends

/-- The units that compute a CRC: the configuration is not a reflected one. -/
theorem crcUnit_ends {s : State} {body : State → Out} (hcrc : s.configured = true → s.cfg.crc.reflected = false)
    (h : ∀ t, Ends (body t)) : Ends (unitOp s fun s => withCrc s body) :=
  Ends.unitOp fun hc => withCrc_ends (s := { s with window := false }) (hcrc hc) (h _)

theorem writeUnit_ends {s : State} (hs : s.cur.space = .obuf) (w : Memory → Cursor → WrRes) :
    Ends (unitOp s fun s => writeOp s w) :=
  Ends.unitOp fun _ => writeOp_ends (s := { s with window := false }) hs w

theorem execFrame_ends {s : State} (hcrc : s.configured = true → s.cfg.crc.reflected = false) (pad : BitVec 6)
    (payload : List Byte) (crc : BitVec 24) : Ends (execFrame pad payload crc s) := by
  refine Ends.unitOp fun hc => ?_
  exact withCrc_ends (hcrc hc) (decodeFrom_ends _)

/-- Every message row ends, from any state. -/
theorem exec_message_ends {i : Instr} {r : State → Rd Handled} (h : messageReader i.wireClass = some r) (s : State) :
    Ends (exec i s) := by
  rw [exec_of_messageReader h]
  exact handlerOp_ends s r

/-- The host's one duty (R14, R401): a write operation is issued only under a cursor over OBUF. -/
def WritesToObuf (i : Instr) (s : State) : Prop :=
  (∃ w v o, i = .writeU w v o ∨ i = .writeS w v o) ∨ (∃ b, i = .writeBytes b) → s.cur.space = .obuf

/-- An operation other than a message row ends where the host keeps its duty and no reflected CRC is configured. -/
theorem exec_operation_ends {i : Instr} (h : messageReader i.wireClass = none) {s : State}
    (hcrc : s.configured = true → s.cfg.crc.reflected = false) (hw : WritesToObuf i s) : Ends (exec i s) := by
  unfold exec
  cases i
  case reset | hostSetRefTime | hostEvict | hostEvictProvider | hostRead => exact (State.done_ended _ (by simp)).ends
  case hostConfig cfg => exact execHostConfig_ends cfg s
  case hostLoad bytes scan => exact execHostLoad_ends bytes scan s
  case frame pad payload crc => exact execFrame_ends hcrc pad payload crc
  case decodeOne => exact crcUnit_ends hcrc decodeFrom_ends
  case encodeOne msg => exact crcUnit_ends hcrc fun t => (encodeMessage_ended t msg).ends
  case findFrame start => exact crcUnit_ends hcrc fun t => (t.found_ended _).ends
  case crc24 data => exact crcUnit_ends hcrc fun t => (t.done_ended (by simp)).ends
  case frameEmit payload => exact crcUnit_ends hcrc fun t => (emitFrame_ended t payload).ends
  case curInit space base n => exact execCurInit_ends space base n s
  case writeU w v o => exact writeUnit_ends (hw (.inl ⟨w, v, o, .inl rfl⟩)) _
  case writeS w v o => exact writeUnit_ends (hw (.inl ⟨w, v, o, .inr rfl⟩)) _
  case writeBytes b => exact writeUnit_ends (hw (.inr ⟨b, rfl⟩)) _
  case readU | readS | readBytes | readField | readMask | readHeader =>
    refine Ends.unitOp fun _ => ?_
    exact finishRd_ends _ _ (by simp)
  case lenRead | boundCheck | toIndex | fromIndex | svidOffset | svidToSat | satToSvid | sigOf | encodeMask | adjustWeek | quantize |
      iodCheck | lookup =>
    refine Ends.unitOp fun _ => ?_
    exact finishPure_ends _ _ (by simp)
  case syncScan | decodeMask | lockCheck | decodeUra | cacheUpdate | isUpdate =>
    refine Ends.unitOp fun _ => ?_
    exact (State.done_ended _ (by simp)).ends
  case dispatch =>
    refine Ends.unitOp fun _ => ?_
    exact finishRun_ends _
  all_goals cases h

theorem exec_ends {i : Instr} {s : State} (hcrc : s.configured = true → s.cfg.crc.reflected = false)
    (hw : WritesToObuf i s) : Ends (exec i s) := by
  cases h : messageReader i.wireClass with
  | none => exact exec_operation_ends h hcrc hw
  | some r => exact exec_message_ends h s

/-- Settles O56: the invariant keeps the configuration accepted, so no CRC is reflected (U15), and every operation ends. -/
theorem everyOperationEnds : Obligations.EveryOperationEnds := by
  unfold Obligations.EveryOperationEnds
  intro i s hinv hw
  exact exec_ends (fun hc => cfgAccepted_not_reflected (hinv.config_ok hc)) hw

/-! ## Reading operations that succeed: value and offset of each (R121 to R128, R175 to R180) -/

theorem Rd.bind_ok {α β : Type} {m : Rd α} {a : α} {off off' : Nat} (h : m off = .ok a off') (k : α → Rd β) :
    m.bind k off = k a off' := by simp only [Rd.bind, h]

theorem Rd.bind_stop {α β : Type} {m : Rd α} {c : Cond} {off off' : Nat} (h : m off = .stop c off') (k : α → Rd β) :
    m.bind k off = .stop c off' := by simp only [Rd.bind, h]

theorem Rd.map_ok {α β : Type} {m : Rd α} {a : α} {off off' : Nat} (h : m off = .ok a off') (f : α → β) :
    m.map f off = .ok (f a) off' := Rd.bind_ok h _

theorem Rd.map_stop {α β : Type} {m : Rd α} {c : Cond} {off off' : Nat} (h : m off = .stop c off') (f : α → β) :
    m.map f off = .stop c off' := Rd.bind_stop h _

/-- A field of `a + b` bits is its first `a` bits followed by the other `b` (R13). -/
theorem ubits_add (rd : Nat → Byte) (off a b : Nat) : ubits rd off (a + b) = ubits rd off a * 2 ^ b + ubits rd (off + a) b := by
  induction b with
  | zero => simp [ubits]
  | succ b ih =>
    rw [← Nat.add_assoc, ubits, ih, ubits, pow_succ, Nat.add_assoc off a b]
    ring

/-- Bit `j` of the value of a field, counted from its last bit (R11, R13). -/
theorem ubits_testBit (rd : Nat → Byte) (off : Nat) {w j : Nat} (h : j < w) :
    (ubits rd off w).testBit j = bitAt rd (off + (w - 1 - j)) := by
  induction w generalizing j with
  | zero => omega
  | succ w ih =>
    cases j with
    | zero =>
      simp only [ubits, Nat.testBit_zero, Nat.sub_zero, Nat.add_sub_cancel]
      cases bitAt rd (off + w) <;> simp [Nat.add_mod]
    | succ j =>
      have hhalf : (2 * ubits rd off w + (bitAt rd (off + w)).toNat) / 2 = ubits rd off w := by
        have := Bool.toNat_lt (bitAt rd (off + w))
        omega
      rw [ubits, Nat.testBit_succ, hhalf, ih (by omega)]
      congr 2
      omega

/-- The machine's bit and the statements' bit are the same (R11). -/
theorem curBit_eq (s : State) (k : Nat) : curBit s k = (bitAt s.curByte k).toNat := by
  have hk : k % 8 < 8 := Nat.mod_lt _ (by decide)
  simp only [curBit, bitAt, BitVec.getMsbD, BitVec.getLsbD, hk, decide_true, Bool.true_and, Nat.testBit_eq_decide_div_mod_eq]
  rcases Nat.mod_two_eq_zero_or_one ((s.curByte (k / 8)).toNat / 2 ^ (8 - 1 - k % 8)) with h | h <;> simp [h]

/-- The machine's unsigned value and the statements' are the same (R13). -/
theorem bitsAt_eq (s : State) (off w : Nat) : bitsAt s off w = ubits s.curByte off w := by
  induction w with
  | zero => rfl
  | succ w ih =>
    have hdouble : ((List.range w).map fun j => curBit s (off + j) * 2 ^ (w - j)).sum = 2 * bitsAt s off w := by
      rw [bitsAt, ← List.sum_map_mul_left]
      congr 1
      refine List.map_congr_left fun j hj => ?_
      rw [show w - j = w - 1 - j + 1 by have := List.mem_range.mp hj; omega, pow_succ]
      ring
    rw [bitsAt, List.range_succ]
    simp only [List.map_append, List.sum_append, Nat.add_sub_cancel, hdouble, ih, ubits]
    simp [curBit_eq]

theorem signedValue_eq (w v : Nat) : signedValue w v = sext w v := by
  simp only [signedValue, sext]
  split <;> split <;> omega

section
variable {s : State} {off : Nat}

theorem readBitsU_ok {w : Nat} (h1 : 1 ≤ w) (h2 : w ≤ 64) (hfit : off + w ≤ s.cur.bitlen) :
    readBitsU s w off = .ok (ubits s.curByte off w) (off + w) := by
  simp only [readBitsU]
  rw [if_neg (by omega), if_neg (by omega)]

/-- A field that lies in the span is the field at its place (R105, R113). -/
theorem readRawField_ok {d : FieldDesc} (hd : widthOk d.width = true) (hfit : off + d.width ≤ s.cur.bitlen) :
    readRawField s d off = .ok (fieldAt s off d) (off + d.width) := by
  simp only [widthOk, Bool.and_eq_true, decide_eq_true_eq] at hd
  rw [readRawField, Rd.map_ok (readBitsU_ok hd.1 hd.2 hfit)]
  simp only [fieldAt, bitsAt_eq, signedValue_eq, rawInt, assemble]
  congr 2
  cases d.na with
  | none => rfl
  | some v => simp only [Option.some.injEq, eq_comm]

/-- A list of fields that lies in the span (R104). -/
theorem readFields_ok {ds : List FieldDesc} (hds : ∀ d ∈ ds, widthOk d.width = true) (hfit : off + widthOf ds ≤ s.cur.bitlen) :
    readFields s ds off = .ok (fieldsAt s off ds) (off + widthOf ds) := by
  induction ds generalizing off with
  | nil => rfl
  | cons d ds ih =>
    have hw : widthOf (d :: ds) = d.width + widthOf ds := rfl
    rw [hw] at hfit ⊢
    have hhead : readRawField s d off = _ := readRawField_ok (hds d (by simp)) (by omega)
    have htail : Rd.forEach (readRawField s) ds (off + d.width) = _ := ih (fun d' hd' => hds d' (by simp [hd'])) (by omega)
    rw [readFields, Rd.forEach, Rd.bind_ok hhead, Rd.bind_ok htail, Nat.add_assoc]
    rfl

/-- Chunks of legal widths read their bits as one number (R180). -/
theorem readChunks_ok {ws : List Nat} (hws : ∀ w ∈ ws, 1 ≤ w ∧ w ≤ 64) (hfit : off + ws.sum ≤ s.cur.bitlen) (acc : Nat) :
    readChunks s ws acc off = .ok (acc * 2 ^ ws.sum + ubits s.curByte off ws.sum) (off + ws.sum) := by
  induction ws generalizing off acc with
  | nil => simp [readChunks, Rd.pure, ubits]
  | cons w ws ih =>
    obtain ⟨h1, h2⟩ := hws w (by simp)
    rw [List.sum_cons] at hfit ⊢
    have htail := ih (off := off + w) (fun w' hw' => hws w' (by simp [hw'])) (by omega) (acc * 2 ^ w + ubits s.curByte off w)
    rw [readChunks, Rd.bind_ok (readBitsU_ok h1 h2 (by omega)), htail, ubits_add, pow_add, Nat.add_assoc off]
    congr 1
    ring

theorem maskChunks_sum (w : Nat) : (maskChunks w).sum = w := by
  simp only [maskChunks]
  split
  · simp
  · split <;> simp <;> omega

theorem mem_maskChunks {w x : Nat} (hw : 1 ≤ w) (h : x ∈ maskChunks w) : 1 ≤ x ∧ x ≤ 64 := by
  simp only [maskChunks] at h
  split at h
  · simp only [List.mem_singleton] at h
    omega
  · rcases List.mem_append.mp h with h | h
    · split at h
      · simp at h
      · simp only [List.mem_singleton] at h
        omega
    · have := List.eq_of_mem_replicate h
      omega

theorem readMaskBits_ok {w : Nat} (hw : 1 ≤ w) (hfit : off + w ≤ s.cur.bitlen) :
    readMaskBits s w off = .ok (ubits s.curByte off w) (off + w) := by
  have := readChunks_ok (s := s) (off := off) (ws := maskChunks w) (fun x hx => mem_maskChunks hw hx)
    (by rwa [maskChunks_sum]) 0
  simpa [readMaskBits, maskChunks_sum] using this

/-- The indices decoded from a mask field are those of its set bits in the field's order (R175, R176). -/
theorem maskIndices_ubits (f : MaskId) (m : MaskDesc) :
    maskIndices (ubits s.curByte off m.width) m.width m.offset (maskOrderOf s.cfg f) = maskAt s f m off := by
  simp only [maskIndices, maskAt]
  congr 1
  refine List.filter_congr fun k hk => ?_
  have hk : k < m.width := List.mem_range.mp hk
  cases maskOrderOf s.cfg f with
  | msb =>
    simp only [maskBit]
    rw [ubits_testBit _ _ (by omega), show m.width - 1 - (m.width - 1 - k) = k by omega, curBit_eq]
    cases bitAt s.curByte (off + k) <;> rfl
  | lsb =>
    simp only [maskBit]
    rw [ubits_testBit _ _ hk, curBit_eq]
    cases bitAt s.curByte (off + (m.width - 1 - k)) <;> rfl

/-- A mask of any width that lies in the span (R113, R180). -/
theorem readMaskField_ok (f : MaskId) {m : MaskDesc} (hw : 1 ≤ m.width) (hfit : off + m.width ≤ s.cur.bitlen) :
    readMaskField s f m off = .ok (maskAt s f m off) (off + m.width) := by
  rw [readMaskField, Rd.map_ok (readMaskBits_ok hw hfit), maskIndices_ubits]

end

/-! ## How a unit operation in a configured block stops (R355) -/

/-- A pure operation whose function gives a condition: nothing changes but how it ended. -/
theorem pureUnit_stops {α : Type} {s : State} (hc : s.configured = true) {f : Cfg → Except Cond α} {c : Cond}
    (h : f s.cfg = .error c) (ret : α → RetVal) :
    unitOp s (fun s => finishPure s (f s.cfg) ret) = .next (s.stops c.code (c.info s.free)) := by
  rw [unitOp_configured _ hc]
  simp only [h, finishPure]
  rfl

/-- A reading operation that gives a condition: the cursor stays where it was reached (R356). -/
theorem readUnit_stops {α : Type} {s : State} (hc : s.configured = true) {m : State → Rd α} {c : Cond} {off : Nat}
    (h : m { s with window := false } s.cur.off = .stop c off) (k : α → State → State) :
    unitOp s (fun s => finishRd s (m s) k) = .next (s.stopsAt (c, off)) := by
  rw [unitOp_configured _ hc]
  simp only [finishRd, h]
  rfl

/-- A message row whose reader gives a condition. -/
theorem exec_message_stops {i : Instr} {r : State → Rd Handled} (hi : messageReader i.wireClass = some r) {s : State}
    (hc : s.configured = true) {c : Cond} {off : Nat} (h : r { s with window := false } s.cur.off = .stop c off) :
    exec i s = .next (s.stopsAt (c, off)) := by
  rw [exec_of_messageReader hi, handlerOp, unitOp_configured _ hc]
  simp only [runMessage, h]
  rfl

/-! ## Functions of the configuration without their entry (R8, R353) -/

theorem svidOffsetOf_missing {cfg : Cfg} {fam : Family} {c : Constellation} (h : cfg.svidOffset.lookup (fam, c) = none) :
    svidOffsetOf cfg fam c = .error (.usage (some (.offsetOf fam c))) := by
  simp only [svidOffsetOf, h]

theorem satOfSvid_missing {cfg : Cfg} {fam : Family} {c : Constellation} (h : cfg.svidOffset.lookup (fam, c) = none)
    (svid : Int) : satOfSvid cfg fam c svid = .error (.usage (some (.offsetOf fam c))) := by
  simp only [satOfSvid, svidOffsetOf_missing h]

theorem adjustWeekOf_missing {cfg : Cfg} {c : Constellation} (h : weekModulus cfg c = none) (raw : Int) (ref : Time) :
    adjustWeekOf cfg c raw ref = .error (.usage (some (.constellation c))) := by
  simp only [adjustWeekOf, h]

theorem quantizeUra_empty {cfg : Cfg} (h : cfg.uraTable = []) (q : Rat) :
    quantizeUra cfg q = .error (.usage (some (.metres q))) := by
  simp only [quantizeUra, h]
  rfl

theorem lookupIndex_missing {cfg : Cfg} {d : FieldDesc} {idx : Nat} (hs : (idx : Int) ≠ integSentinel d)
    (h : ∀ tbl q, cfg.integTable.lookup d.name = some tbl → tbl[idx]? ≠ some (some q)) :
    lookupIndex cfg d idx = .error (.usage (some (.int idx))) := by
  have hnone : ((cfg.integTable.lookup d.name).bind fun tbl => tbl[idx]?).join = none := by
    rw [Option.eq_none_iff_forall_ne_some]
    intro q hq
    obtain ⟨tbl, htbl, hget⟩ := Option.bind_eq_some_iff.mp (Option.join_eq_some_iff.mp hq)
    exact h tbl q htbl hget
  simp only [lookupIndex, if_neg hs, hnone]

/-! ## Readers with and without an entry: without it they stop before they read (R8, R353) -/

theorem Rd.lift_ok_bind {α β : Type} {r : Except Cond α} {a : α} (h : r = .ok a) (k : α → Rd β) (off : Nat) :
    (Rd.lift r).bind k off = k a off := by rw [h]; rfl

theorem Rd.entry_some_bind {α β : Type} {o : Option α} {a : α} (h : o = some a) (k : α → Rd β) (off : Nat) :
    (Rd.entry o).bind k off = k a off := by rw [h]; rfl

theorem Rd.entry_none_bind {α β : Type} {o : Option α} (h : o = none) (k : α → Rd β) (off : Nat) :
    (Rd.entry o).bind k off = .stop (.usage none) off := by rw [h]; rfl

theorem Rd.entryFor_none_bind {α β : Type} {o : Option α} (h : o = none) (x : UsageArg) (k : α → Rd β) (off : Nat) :
    (Rd.entryFor x o).bind k off = .stop (.usage (some x)) off := by rw [h]; rfl

theorem readHeader_missing {s : State} {h : CorrHandler} (hl : corrHeaderOf s.cfg h = none) (off : Nat) :
    readHeader s h off = .stop (.usage (some (.handler h))) off := by
  simp only [readHeader, hl]
  rfl

theorem readInteg_missing {s : State} {t : BitVec 12} (hp : s.cfg.integPrefix.lookup t.toNat = none)
    (hl : s.cfg.integLayout.lookup ⟨t.toNat, none⟩ = none) (off : Nat) :
    readInteg s t off = .stop (.usage (some (.int t.toNat))) off := by
  have hkey : readIntegKey s t.toNat off = .ok (⟨t.toNat, none⟩, []) off := by
    simp only [readIntegKey, hp]
    rfl
  rw [readInteg, Rd.bind_ok hkey]
  simp only [hl]
  rfl

/-! ## An observation message without its presence row (R239) -/

theorem convertAll_ok {α β : Type} {f : α → Except Cond β} {as : List α} {bs : List β}
    (h : List.Forall₂ (fun a b => f a = .ok b) as bs) : convertAll f as = .ok bs := by
  induction h with
  | nil => rfl
  | cons hab _ ih => simp only [convertAll, hab, ih]

theorem signalOf_ok {cfg : Cfg} {t : SigTable} {c : Constellation} {slot : Nat} {g : SignalCode}
    (h : (sigTable cfg t).lookup (c, slot) = some g) : signalOf cfg t c slot = .ok g := by
  simp only [signalOf, if_neg (Int.not_lt.mpr (Int.natCast_nonneg slot)), Int.toNat_natCast, h]

/-- HOST_CONFIG has checked every MSM layout (R215). -/
theorem cfgAccepted_msmLayoutOk {cfg : Cfg} (h : cfgAccepted cfg = true) {c : Constellation} {v : MsmVariant} {lay : MsmLayout}
    (hl : cfg.msmLayout.lookup (c, v) = some lay) : msmLayoutOk lay = true := by
  simp only [cfgAccepted, layoutsOk, Bool.and_eq_true, List.all_eq_true, and_assoc] at h
  obtain ⟨rows, rows', heq, _⟩ := List.lookup_eq_some_iff.mp hl
  exact h.1 ((c, v), lay) (by simp [heq])

/-- What the checks say of the part of an MSM layout before the cells. -/
theorem msmLayoutOk_widths {lay : MsmLayout} (h : msmLayoutOk lay = true) :
    (∀ d ∈ lay.header, widthOk d.width = true) ∧ 1 ≤ lay.satMask.width ∧ 1 ≤ lay.sigMask.width := by
  simp only [msmLayoutOk, maskOk, FieldDesc.ok, Bool.and_eq_true, List.all_eq_true, decide_eq_true_eq] at h
  obtain ⟨⟨⟨⟨hhdr, hsat⟩, hsig⟩, _⟩, _⟩ := h
  exact ⟨fun d hd => (hhdr d hd).1.1, hsat, hsig⟩

/-- The bits of an observation message up to the end of its cell mask (R236 to R238). -/
def msmHeadBits (lay : MsmLayout) (nsat nsig : Nat) : Nat :=
  widthOf lay.header + lay.satMask.width + lay.sigMask.width + nsat * nsig

/-- The two masks of an observation message convert to these satellites and signals (R236, R237). -/
structure MsmMasks (s : State) (c : Constellation) (v : MsmVariant) (lay : MsmLayout) (sats : List SatIndex)
    (sigs : List SignalCode) : Prop where
  sats : List.Forall₂ (fun (svid : Nat) i => satOfSvid s.cfg .msm c svid = .ok i)
    (maskAt s (.msm c v .sat) lay.satMask (s.cur.off + widthOf lay.header)) sats
  sigs : List.Forall₂ (fun slot g => s.cfg.msmSig.lookup (c, slot) = some g)
    (maskAt s (.msm c v .sig) lay.sigMask (s.cur.off + (widthOf lay.header + lay.satMask.width))) sigs

/-- The blocks of a message with cells need the presence row of the variant (R239). -/
theorem readMsmBlocks_missing {s : State} {v : MsmVariant} (h : s.cfg.msmPresent.lookup v = none) (lay : MsmLayout)
    (nsat ncell : Nat) {n : Nat} (hn : n ≠ 0) (off : Nat) :
    readMsmBlocks s v lay nsat n ncell off = .stop (.usage none) off := by
  rw [readMsmBlocks, if_neg hn]
  exact Rd.entry_none_bind h _ off

/-- The cell mask of a message with cells (R238). -/
theorem readCells_ok {s : State} (c : Constellation) (v : MsmVariant) {n off : Nat} (hn : n ≠ 0)
    (hfit : off + n ≤ s.cur.bitlen) :
    readCells s c v n off = .ok (maskAt s (.msm c v .cell) ⟨n, 0⟩ off) (off + n) := by
  rw [readCells, if_neg hn]
  exact readMaskField_ok (m := ⟨n, 0⟩) _ (Nat.one_le_iff_ne_zero.mpr hn) hfit

/-- Without the presence row the reading stops after the cell mask. -/
theorem readMsm_noPresence {s : State} {c : Constellation} {v : MsmVariant} {lay : MsmLayout} {sats : List SatIndex}
    {sigs : List SignalCode} (hok : msmLayoutOk lay = true) (hl : s.cfg.msmLayout.lookup (c, v) = some lay)
    (hp : s.cfg.msmPresent.lookup v = none) (hm : MsmMasks s c v lay sats sigs) (hn : sats.length * sigs.length ≠ 0)
    (hfit : Fits s (msmHeadBits lay sats.length sigs.length)) :
    readMsm s c v s.cur.off = .stop (.usage none) (s.cur.off + msmHeadBits lay sats.length sigs.length) := by
  obtain ⟨hhdr, hsat, hsig⟩ := msmLayoutOk_widths hok
  simp only [Fits, msmHeadBits] at hfit
  have hmsats := hm.sats
  have hmsigs := hm.sigs
  rw [← Nat.add_assoc] at hmsigs
  have hsats := convertAll_ok hmsats
  have hsigs : convertAll (fun slot : Nat => signalOf s.cfg .msmSig c slot) _ = _ :=
    convertAll_ok (hmsigs.imp fun _ _ h => signalOf_ok h)
  have hdata : readMsmData s c v lay s.cur.off =
      .stop (.usage none) (s.cur.off + widthOf lay.header + lay.satMask.width + lay.sigMask.width + sats.length * sigs.length) := by
    rw [readMsmData, Rd.bind_ok (readFields_ok hhdr (by omega)), Rd.bind_ok (readMaskField_ok _ hsat (by omega)),
      Rd.bind_ok (readMaskField_ok _ hsig (by omega)), Rd.lift_ok_bind hsats, Rd.lift_ok_bind hsigs,
      Rd.bind_ok (readCells_ok c v hn (by omega))]
    exact Rd.map_stop (readMsmBlocks_missing hp lay _ _ hn _) _
  rw [readMsm, Rd.entry_some_bind hl, Rd.map_stop hdata]
  simp only [msmHeadBits, Nat.add_assoc]

/-! ## The message rows -/

/-- A row whose entry has no argument of an operation to name (log 10). -/
theorem exec_message_missing {i : Instr} {r : State → Rd Handled} (hi : messageReader i.wireClass = some r) {s : State}
    (hc : s.configured = true) (h : r { s with window := false } s.cur.off = .stop (.usage none) s.cur.off) :
    ∃ x, exec i s = .next (s.stops .usageError (.arg x)) :=
  ⟨_, exec_message_stops hi hc h⟩

/-- A row whose entry is missed for the argument `x`. -/
theorem exec_message_missingFor {i : Instr} {r : State → Rd Handled} (hi : messageReader i.wireClass = some r) {s : State}
    (hc : s.configured = true) {x : UsageArg}
    (h : r { s with window := false } s.cur.off = .stop (.usage (some x)) s.cur.off) :
    exec i s = .next (s.stops .usageError (.arg x)) :=
  exec_message_stops hi hc h

/-- A row that needs a layout, or IGS its first fields, where the spec names no argument (log 10). -/
theorem exec_layout_missing {s : State} (hc : s.configured = true) {i : Instr}
    (h : (∃ c v, i = Instr.ofMsm c v ∧ s.cfg.msmLayout.lookup (c, v) = none) ∨
      (∃ c, i = Instr.ofEph c ∧ s.cfg.ephLayout.get c = none) ∨ (∃ k, i = Instr.ofSta k ∧ s.cfg.staLayout.lookup k = none) ∨
      (i = .igs ∧ s.cfg.igsPrefix = none)) :
    ∃ x, exec i s = .next (s.stops .usageError (.arg x)) := by
  rcases h with ⟨c, v, rfl, hl⟩ | ⟨c, rfl, hl⟩ | ⟨k, rfl, hl⟩ | ⟨rfl, hl⟩
  · exact exec_message_missing (messageReader_ofMsm c v) hc (Rd.entry_none_bind hl _ _)
  · exact exec_message_missing (messageReader_ofEph c) hc (Rd.entry_none_bind hl _ _)
  · exact exec_message_missing (messageReader_ofSta k) hc (Rd.entry_none_bind hl _ _)
  · exact exec_message_missing rfl hc (Rd.entry_none_bind hl _ _)

/-- A row that needs an entry for which the model names the argument (log 10). -/
theorem exec_layout_missingFor {s : State} (hc : s.configured = true) {i : Instr} {x : UsageArg}
    (h : (∃ c k, i = Instr.ofSsr c k ∧ x = .handler (.ssr c k) ∧ s.cfg.ssrLayout.lookup (c, k) = none) ∨
      (∃ (c : Constellation) (o : Nat), i = Instr.ofSsrTest o c ∧ x = .int o ∧ s.cfg.testKindOfOffset.lookup o = none) ∨
      (i = .gridTropo ∧ x = .handler .gridTropo ∧ s.cfg.tropoLayout = none) ∨
      (i = .gridIono ∧ x = .handler .gridIono ∧ s.cfg.ionoLayout = none) ∨
      (∃ t : BitVec 12, i = .integ t ∧ x = .int t.toNat ∧ s.cfg.integPrefix.lookup t.toNat = none ∧
        s.cfg.integLayout.lookup ⟨t.toNat, none⟩ = none)) :
    exec i s = .next (s.stops .usageError (.arg x)) := by
  rcases h with ⟨c, k, rfl, rfl, hl⟩ | ⟨c, o, rfl, rfl, hl⟩ | ⟨rfl, rfl, hl⟩ | ⟨rfl, rfl, hl⟩ | ⟨t, rfl, rfl, hp, hl⟩
  · exact exec_message_missingFor (messageReader_ofSsr c k) hc (Rd.entryFor_none_bind hl _ _ _)
  · exact exec_message_missingFor (messageReader_ofSsrTest o c) hc (Rd.entryFor_none_bind hl _ _ _)
  · exact exec_message_missingFor rfl hc (Rd.entryFor_none_bind hl _ _ _)
  · exact exec_message_missingFor rfl hc (Rd.entryFor_none_bind hl _ _ _)
  · exact exec_message_missingFor rfl hc (readInteg_missing (s := { s with window := false }) hp hl _)

/-- An observation message with cells whose variant has no presence row. -/
theorem exec_msm_noPresence {s : State} (hc : s.configured = true) {c : Constellation} {v : MsmVariant} {lay : MsmLayout}
    {sats : List SatIndex} {sigs : List SignalCode} (hacc : cfgAccepted s.cfg = true)
    (hl : s.cfg.msmLayout.lookup (c, v) = some lay) (hp : s.cfg.msmPresent.lookup v = none) (hm : MsmMasks s c v lay sats sigs)
    (hn : sats.length * sigs.length ≠ 0) (hfit : Fits s (msmHeadBits lay sats.length sigs.length)) :
    ∃ x, exec (Instr.ofMsm c v) s =
      .next ((s.past (msmHeadBits lay sats.length sigs.length)).stops .usageError (.arg x)) := by
  have hstop := readMsm_noPresence (s := { s with window := false }) (cfgAccepted_msmLayoutOk hacc hl) hl hp ⟨hm.sats, hm.sigs⟩
    hn hfit
  exact ⟨_, exec_message_stops (messageReader_ofMsm c v) hc hstop⟩

/-- Settles O33: every operation and every message row that needs an entry the configuration lacks. -/
theorem missingTableEntriesRaiseUsageError : Obligations.MissingTableEntriesRaiseUsageError := by
  unfold Obligations.MissingTableEntriesRaiseUsageError
  intro s hc
  refine ⟨fun fam c h svid => ⟨?_, ?_⟩, fun c raw ref h => ?_, fun q h => ?_, fun d idx hs h => ?_, fun h hl => ?_,
    fun i h => exec_layout_missing hc h, fun i x h => exec_layout_missingFor hc h, ?_⟩
  · exact pureUnit_stops hc (f := fun cfg => svidOffsetOf cfg fam c) (svidOffsetOf_missing h) _
  · exact pureUnit_stops hc (f := fun cfg => satOfSvid cfg fam c svid) (satOfSvid_missing h svid) _
  · exact pureUnit_stops hc (f := fun cfg => adjustWeekOf cfg c raw ref) (adjustWeekOf_missing h raw ref) _
  · exact pureUnit_stops hc (f := fun cfg => quantizeUra cfg q) (quantizeUra_empty h q) _
  · exact pureUnit_stops hc (f := fun cfg => lookupIndex cfg d idx) (lookupIndex_missing hs h) _
  · exact readUnit_stops hc (m := fun s => readHeader s h) (readHeader_missing hl _) _
  · intro c v lay sats sigs hacc hl hp o1 o2 o3 hsats hsigs hn hfit
    exact exec_msm_noPresence hc hacc hl hp ⟨hsats, hsigs⟩ hn hfit

end Sys2Proof.Machine

/-! SUPPORT and the statement of 10_state.md: every step keeps the invariant of a decoding context. The rules of
Sys2Proof/Laws/Invariant.lean say what each shared operation keeps; here they are put together for every instruction. -/

namespace Sys2Proof.Machine

/-- The next state of an outcome, if it has one, meets the invariant. -/
def KeepsInv (o : Out) : Prop := ∀ t, o = .next t → t.Inv

theorem State.Inv.keeps {t : State} (h : t.Inv) : KeepsInv (.next t) := fun _ he => Host.Outcome.next.inj he ▸ h

/-- A unit operation may rely on the closed window (R388). -/
theorem unitOp_keepsInv {s : State} (h : s.Inv) {body : State → Out}
    (hb : ∀ s', s'.Inv → s'.window = false → KeepsInv (body s')) : KeepsInv (unitOp s body) :=
  fun _ he => h.unitOp (fun t s' h' _ hw hn => hb s' h' hw t hn) he

theorem withCrc_keepsInv {s : State} {body : State → Out} (h : KeepsInv (body s)) : KeepsInv (withCrc s body) := by
  intro t he
  simp only [withCrc] at he
  split at he
  · cases he
  · exact h t he

/-- A unit operation that computes a CRC. -/
theorem crcUnit_keepsInv {s : State} (h : s.Inv) {body : State → Out}
    (hb : ∀ s', s'.Inv → s'.window = false → KeepsInv (body s')) :
    KeepsInv (unitOp s fun s => withCrc s body) :=
  unitOp_keepsInv h fun s' h' hw => withCrc_keepsInv (hb s' h' hw)

/-! ## The message rows (R100, R193) -/

/-- The reader of a message row stays in the span and stages caches in form. -/
theorem messageReader_within {w : WireClass} {r : State → Rd Handled} (hr : messageReader w = some r) {s : State}
    (hc : CachesOk s.lk s.cs s.is) : Within s.cur.bitlen Handled.ok (r s) := by
  cases w <;> cases hr
  case handler h => exact runHandler_within h hc
  case test c o => exact readTest_within c o hc
  case integ t => exact readInteg_within t hc
  case raw t => exact readRaw_within t hc

theorem exec_message_keepsInv {i : Instr} {r : State → Rd Handled} (hr : messageReader i.wireClass = some r) {s : State}
    (h : s.Inv) : KeepsInv (exec i s) := by
  rw [exec_of_messageReader hr]
  exact fun _ => h.handlerOp fun _ h' => messageReader_within hr h'.caches_ok

/-! ## The host operations (R214 to R216, R317, R318, R380) -/

/-- RESET keeps the host's STREAM, with SCAN at its start and no frame. -/
theorem State.Inv.afterReset {s : State} (h : s.Inv) : s.afterReset.Inv where
  stream_ok := h.stream_ok
  obuf_ok := ⟨rfl, by simp [State.afterReset, State.reset]⟩
  scan_le := Nat.zero_le _
  cur_le := Nat.le_refl _
  frame_ok := fun hv => by cases hv
  frame_window := fun hv => by cases hv
  config_ok := fun hc => by cases hc
  caches_ok := ⟨.nil, .nil, fun _ hx => (by cases hx), .nil, fun _ hx => (by cases hx)⟩

/-- While the window is open no frame is valid, so none depends on the CRC parameters that a record replaces (R388). -/
theorem State.Inv.configure {s : State} (h : s.Inv) (hw : s.window = true) {cfg : Cfg} (hok : cfgAccepted cfg = true) :
    State.Inv { s with cfg := cfg, configured := true } :=
  have noFrame : s.f.valid ≠ true := fun hv => Bool.false_ne_true ((h.frame_window hv).symm.trans hw)
  { stream_ok := h.stream_ok
    obuf_ok := h.obuf_ok
    scan_le := h.scan_le
    cur_le := h.cur_le
    frame_ok := fun hv => absurd hv noFrame
    frame_window := h.frame_window
    config_ok := fun _ => hok
    caches_ok := h.caches_ok }

theorem execHostConfig_keepsInv (cfg : Cfg) {s : State} (h : s.Inv) : KeepsInv (execHostConfig cfg s) := by
  simp only [execHostConfig]
  split
  · next hc => exact ((h.configure hc.1 hc.2).done _).keeps
  · exact (h.raise _).keeps

theorem Memory.write_nil_ok (bytes : List Byte) : MemoryOk (Memory.write [] 0 bytes) bytes.length where
  wf := Memory.write_wf _ _ _ rfl
  inside := fun c hc => by
    rcases Memory.mem_write _ _ _ _ hc with hc | ⟨_, hlt⟩
    · cases hc
    · omega

theorem State.Inv.load {s : State} (h : s.Inv) (bytes : List Byte) {scan : Nat} (hs : scan ≤ bytes.length) :
    State.Inv { s with stream := Memory.write [] 0 bytes, slen := bytes.length, scan := scan, f := { s.f with valid := false } }
    where
  stream_ok := Memory.write_nil_ok bytes
  obuf_ok := h.obuf_ok
  scan_le := hs
  cur_le := h.cur_le
  frame_ok := fun hv => by cases hv
  frame_window := fun hv => by cases hv
  config_ok := h.config_ok
  caches_ok := h.caches_ok

theorem execHostLoad_keepsInv (bytes : List Byte) (scan : Nat) {s : State} (h : s.Inv) :
    KeepsInv (execHostLoad bytes scan s) := by
  simp only [execHostLoad]
  split
  · exact (h.raise _).keeps
  · next hs => exact ((h.load bytes (Nat.le_of_not_lt hs)).done _).keeps

theorem State.Inv.setRefTime {s : State} (h : s.Inv) (t : Option Time) : State.Inv { s with refTime := t } :=
  h.congr rfl rfl rfl rfl rfl rfl rfl rfl rfl (.inl rfl) rfl rfl rfl

/-! ## The caches (R43, R252, R304, R318, R336) -/

theorem CachesOk.lockWrite {lk : LockCache} {cs : CorrState} {is : IntegState} (h : CachesOk lk cs is)
    (k : SatIndex × SignalCode) (n : Nat) : CachesOk (insertKey lockLt k n lk) cs is :=
  { h with lk_sorted := insertKey_sorted lockLt_order k n lk h.lk_sorted }

theorem CachesOk.cacheUpdate {lk : LockCache} {cs : CorrState} {is : IntegState} (h : CachesOk lk cs is) (cfg : Cfg)
    (n : NetworkId) (k : CacheKind) (t : Time) (hdr : CorrHdr) (recs : List (EntryKey × Record)) :
    CachesOk lk (cacheUpdate cfg cs n k t hdr recs).1 is :=
  have hcs := cacheUpdate_ok cfg cs n k t hdr recs h.cs_sorted h.cs_ok
  { h with cs_sorted := hcs.1, cs_ok := hcs.2 }

theorem CachesOk.integUpdate {lk : LockCache} {cs : CorrState} {is : IntegState} (h : CachesOk lk cs is) (cfg : Cfg)
    (p : ProviderId) (t : Time) (key : IntegKey) (part : IntegPart) :
    CachesOk lk cs (integUpdate cfg is p t key part).1 :=
  have his := integUpdate_ok cfg is p t key part h.is_sorted h.is_ok
  { h with is_sorted := his.1, is_ok := his.2 }

theorem CachesOk.evict {lk : LockCache} {cs : CorrState} {is : IntegState} (h : CachesOk lk cs is) (n : NetworkId) :
    CachesOk lk (eraseKey n cs) is :=
  { h with cs_sorted := eraseKey_sorted _ _ _ h.cs_sorted, cs_ok := fun x hx => h.cs_ok x (mem_eraseKey _ _ _ hx) }

theorem CachesOk.evictProvider {lk : LockCache} {cs : CorrState} {is : IntegState} (h : CachesOk lk cs is)
    (p : ProviderId) : CachesOk lk cs (eraseKey p is) :=
  { h with is_sorted := eraseKey_sorted _ _ _ h.is_sorted, is_ok := fun x hx => h.is_ok x (mem_eraseKey _ _ _ hx) }

/-! ## The framer and the cursor (R120, R146, R190) -/

/-- FIND_FRAME leaves F valid only on a frame it has checked (R24, R146). -/
theorem State.Inv.found {s : State} (h : s.Inv) (hw : s.window = false) (start : Nat) :
    (s.found (searchFrame s start)).Inv := by
  cases hr : searchFrame s start with
  | noFrame => exact (h.noFrame s.scan h.scan_le).done _
  | cond c => exact (h.noFrame s.scan h.scan_le).raise c
  | frame p len crc =>
    obtain ⟨hin, hlen, hcrc, htrail⟩ := searchFrame_frame hr
    exact (h.frame hw hlen hin hcrc htrail s.scan h.scan_le).done _

theorem MemoryOk.mono {m : Memory} {len len' : Nat} (h : MemoryOk m len) (hle : len ≤ len') : MemoryOk m len' :=
  ⟨h.wf, fun c hc => Nat.lt_of_lt_of_le (h.inside c hc) hle⟩

theorem execCurInit_keepsInv (space : Space) (base n : Nat) {s : State} (h : s.Inv) :
    KeepsInv (execCurInit space base n s) := by
  refine unitOp_keepsInv h fun s' h' _ => ?_
  cases space with
  | stream =>
    dsimp only
    split
    · exact (h'.raise _).keeps
    · exact ((h'.moveCursor (.over .stream base n) (Nat.zero_le _)).done _).keeps
  | obuf =>
    have extended := h'.withObuf s'.obuf _ (h'.obuf_ok.mono (Nat.le_max_left s'.olen (base + n)))
    exact ((extended.moveCursor (.over .obuf base n) (Nat.zero_le _)).done _).keeps

theorem State.Inv.clearOut {s : State} (h : s.Inv) : State.Inv { s with out := none } :=
  h.congr rfl rfl rfl rfl rfl rfl rfl rfl rfl (.inl rfl) rfl rfl rfl

theorem execDecodeOne_keepsInv {s : State} (h : s.Inv) : KeepsInv (execDecodeOne s) :=
  unitOp_keepsInv h.clearOut fun _ h' hw _ => h'.decodeBody hw

/-- The arriving bytes may overwrite the frame F describes, but the search that follows sets F anew. -/
theorem execFrame_keepsInv (pad : BitVec 6) (payload : List Byte) (crc : BitVec 24) {s : State} (h : s.Inv) :
    KeepsInv (execFrame pad payload crc s) := by
  refine unitOp_keepsInv h.clearOut fun s' h' hw => withCrc_keepsInv ?_
  rw [← decodeFrom_invalid]
  exact fun _ => (h'.arrive _).decodeFrom hw

theorem execDispatch_keepsInv {s : State} (h : s.Inv) : KeepsInv (execDispatch s) := by
  refine unitOp_keepsInv h fun s' h' _ t he => ?_
  rcases finishRun_next he with ⟨m, s1, hr, rfl⟩ | ⟨c, s1, hr, rfl⟩
  · exact (h'.dispatchRun_ok hr).done _
  · exact (h'.dispatchRun_cond hr).raise _

/-! ## Units by their shape -/

theorem pureUnit_keepsInv {s : State} (h : s.Inv) {α : Type} {r : State → Except Cond α} {ret : α → RetVal} :
    KeepsInv (unitOp s fun s => finishPure s (r s) ret) :=
  unitOp_keepsInv h fun _ h' _ _ => h'.finishPure

theorem readUnit_keepsInv {s : State} (h : s.Inv) {α : Type} {m : State → Rd α} {ret : α → RetVal}
    (hm : ∀ s', Within s'.cur.bitlen Any (m s')) :
    KeepsInv (unitOp s fun s => finishRd s (m s) fun a s => s.done (ret a)) :=
  unitOp_keepsInv h fun s' h' _ _ => h'.finishRd (hm s')

theorem writeUnit_keepsInv {s : State} (h : s.Inv) {w : Memory → Cursor → WrRes}
    (hw : ∀ m cur m' off, Memory.wf m = true → w m cur = .ok (m', off) → WriteOk m cur m' off) :
    KeepsInv (unitOp s fun s => writeOp s w) :=
  unitOp_keepsInv h fun _ h' _ _ => h'.writeOp hw

/-! ## One step -/

/-- An operation other than a message row. -/
theorem exec_operation_keepsInv {i : Instr} (hi : messageReader i.wireClass = none) {s : State} (h : s.Inv) :
    KeepsInv (exec i s) := by
  unfold exec
  cases i
  case reset => exact (h.afterReset.done _).keeps
  case hostConfig cfg => exact execHostConfig_keepsInv cfg h
  case hostLoad bytes scan => exact execHostLoad_keepsInv bytes scan h
  case hostSetRefTime t => exact ((h.setRefTime (some t)).done _).keeps
  case hostEvict n => exact ((h.caches _ _ _ (h.caches_ok.evict n)).done _).keeps
  case hostEvictProvider p => exact ((h.caches _ _ _ (h.caches_ok.evictProvider p)).done _).keeps
  case hostRead => exact (h.done _).keeps
  case frame pad payload crc => exact execFrame_keepsInv pad payload crc h
  case decodeOne => exact execDecodeOne_keepsInv h
  case dispatch => exact execDispatch_keepsInv h
  case curInit space base n => exact execCurInit_keepsInv space base n h
  case encodeOne msg => exact crcUnit_keepsInv h fun _ h' _ => (h'.encodeMessage msg).keeps
  case findFrame start => exact crcUnit_keepsInv h fun _ h' hw => (h'.found hw start).keeps
  case crc24 => exact crcUnit_keepsInv h fun _ h' _ => (h'.done _).keeps
  case frameEmit payload => exact crcUnit_keepsInv h fun _ h' _ => (h'.emitFrame payload).keeps
  case lockCheck sat g n =>
    exact unitOp_keepsInv h fun _ h' _ => ((h'.caches _ _ _ (h'.caches_ok.lockWrite (sat, g) n)).done _).keeps
  case cacheUpdate n k t hdr recs =>
    exact unitOp_keepsInv h fun s' h' _ => ((h'.caches _ _ _ (h'.caches_ok.cacheUpdate s'.cfg n k t hdr recs)).done _).keeps
  case isUpdate p t key part =>
    exact unitOp_keepsInv h fun s' h' _ => ((h'.caches _ _ _ (h'.caches_ok.integUpdate s'.cfg p t key part)).done _).keeps
  case writeU => exact writeUnit_keepsInv h fun _ _ _ _ hm he => (putU_ok hm he).1
  case writeS => exact writeUnit_keepsInv h fun _ _ _ _ hm he => (putS_ok hm he).1
  case writeBytes => exact writeUnit_keepsInv h fun _ _ _ _ hm he => (putBytes_ok hm he).1
  case readU w => exact readUnit_keepsInv h fun _ => (readBitsU_within w).weaken fun _ _ => trivial
  case readS w => exact readUnit_keepsInv h fun _ => readBitsS_within w
  case readBytes n => exact readUnit_keepsInv h fun _ => readByteBlock_within n
  case readField d => exact readUnit_keepsInv h fun _ => readRawField_within d
  case readMask f width offset => exact readUnit_keepsInv h fun _ => readMaskField_within f ⟨width, offset⟩
  case readHeader hd => exact readUnit_keepsInv h fun _ => readHeader_within hd
  case syncScan | decodeMask | decodeUra => exact unitOp_keepsInv h fun _ h' _ => (h'.done _).keeps
  case lenRead | boundCheck | toIndex | fromIndex | svidOffset | svidToSat | satToSvid | sigOf | encodeMask | adjustWeek |
      quantize | iodCheck | lookup => exact pureUnit_keepsInv h
  all_goals cases hi

theorem exec_keepsInv (i : Instr) {s : State} (h : s.Inv) : KeepsInv (exec i s) := by
  cases hi : messageReader i.wireClass with
  | none => exact exec_operation_keepsInv hi h
  | some r => exact exec_message_keepsInv hi h

/-- The invariant does not speak of the port (log 1). -/
theorem State.Inv.setPort {s : State} (h : s.Inv) (port : List Instr) : State.Inv { s with port := port } :=
  h.congr rfl rfl rfl rfl rfl rfl rfl rfl rfl (.inl rfl) rfl rfl rfl

/-- Settles O60: an empty port leaves the state as it is, and every instruction keeps the invariant. -/
theorem stepKeepsTheInvariant : Obligations.StepKeepsTheInvariant := by
  unfold Obligations.StepKeepsTheInvariant
  intro s t hinv hstep
  cases hport : s.port with
  | nil =>
    simp only [step, hport] at hstep
    exact hinv.keeps t hstep
  | cons i rest =>
    rw [stepRunsTheIssuedOperation s i rest hport] at hstep
    exact exec_keepsInv i (hinv.setPort rest) t hstep

end Sys2Proof.Machine

/-! SUPPORT and the statement of 20_memory.md: which operations write which register. Every register is named once, an operation is
said to change at most some of them, and each shared ending of an operation passes that on; the instructions are put together
from the endings. -/

namespace Sys2Proof.Machine

/-! ## The registers and their writers (R60) -/

/-- The registers R60 divides among the operations, and the port of issued operations (log 1). -/
inductive Register where
  | cfg | stream | scan | refTime | out | obuf | f | cur | lk | cs | is | port

/-- A register holds in `t` what it holds in `s`. -/
def Register.Same : Register → State → State → Prop
  | .cfg, s, t => t.cfg = s.cfg ∧ t.configured = s.configured
  | .stream, s, t => t.stream = s.stream ∧ t.slen = s.slen
  | .scan, s, t => t.scan = s.scan
  | .refTime, s, t => t.refTime = s.refTime
  | .out, s, t => t.out = s.out
  | .obuf, s, t => t.obuf = s.obuf
  | .f, s, t => t.f = s.f
  | .cur, s, t => t.cur = s.cur
  | .lk, s, t => t.lk = s.lk
  | .cs, s, t => t.cs = s.cs
  | .is, s, t => t.is = s.is
  | .port, s, t => t.port = s.port

/-- The registers an instruction may write, as EachRegisterHasItsWriters lists them. -/
def MayWrite (i : Instr) : Register → Prop
  | .cfg => i = .reset ∨ ∃ cfg, i = .hostConfig cfg
  | .stream => (∃ b n, i = .hostLoad b n) ∨ ∃ p b c, i = .frame p b c
  | .scan => (∃ b n, i = .hostLoad b n) ∨ (∃ p b c, i = .frame p b c) ∨ i = .decodeOne ∨ i = .reset
  | .refTime => (∃ x, i = .hostSetRefTime x) ∨ i = .reset
  | .out => (∃ p b c, i = .frame p b c) ∨ i = .decodeOne ∨ i = .reset
  | .obuf => i = .reset ∨ (∃ m, i = .encodeOne m) ∨ (∃ b, i = .frameEmit b) ∨ (∃ w v o, i = .writeU w v o) ∨
      (∃ w v o, i = .writeS w v o) ∨ ∃ b, i = .writeBytes b
  | .f => writesF i = true
  | .cur => writesCur i = true
  | .lk => writesLk i = true
  | .cs => writesCs i = true
  | .is => writesIs i = true
  | .port => False

/-- Every register outside `P` holds in `t` what it holds in `s`. -/
def ChangesOnly (P : Register → Prop) (s t : State) : Prop := ∀ r, P r ∨ r.Same s t

/-- The next state of an outcome, if it has one, differs from `s` in registers of `P` only. -/
def WritesOnly (P : Register → Prop) (s : State) (o : Out) : Prop := ∀ t, o = .next t → ChangesOnly P s t

/-- The registers that the decode of a whole message writes (R193, R310): F for its type, CUR, and the caches. -/
structure MessageRegisters (P : Register → Prop) : Prop where
  f : P .f
  cur : P .cur
  lk : P .lk
  cs : P .cs
  is : P .is

section
variable {P : Register → Prop} {s t : State}

/-! ## One rule per register -/

theorem ChangesOnly.refl (P : Register → Prop) (s : State) : ChangesOnly P s s := by
  intro r
  cases r
  case cfg | stream => exact .inr ⟨rfl, rfl⟩
  all_goals exact .inr rfl

theorem ChangesOnly.setCfg (h : ChangesOnly P s t) (hp : P .cfg) (cfg : Cfg) (configured : Bool) :
    ChangesOnly P s { t with cfg := cfg, configured := configured } := by
  intro r
  cases r
  case cfg => exact .inl hp
  all_goals exact h _

theorem ChangesOnly.setStream (h : ChangesOnly P s t) (hp : P .stream) (m : Memory) (len : Nat) :
    ChangesOnly P s { t with stream := m, slen := len } := by
  intro r
  cases r
  case stream => exact .inl hp
  all_goals exact h _

/-- The end of a frame search (R146, R192). -/
theorem ChangesOnly.setSearched (h : ChangesOnly P s t) (hf : P .f) (hscan : P .scan) (f : FrameGroup) (scan : Nat) :
    ChangesOnly P s { t with f := f, scan := scan } := by
  intro r
  cases r
  case f => exact .inl hf
  case scan => exact .inl hscan
  all_goals exact h _

theorem ChangesOnly.setRefTime (h : ChangesOnly P s t) (hp : P .refTime) (x : Option Time) :
    ChangesOnly P s { t with refTime := x } := by
  intro r
  cases r
  case refTime => exact .inl hp
  all_goals exact h _

theorem ChangesOnly.setOut (h : ChangesOnly P s t) (hp : P .out) (m : Option Message) :
    ChangesOnly P s { t with out := m } := by
  intro r
  cases r
  case out => exact .inl hp
  all_goals exact h _

theorem ChangesOnly.setObuf (h : ChangesOnly P s t) (hp : P .obuf) (m : Memory) (len : Nat) :
    ChangesOnly P s { t with obuf := m, olen := len } := by
  intro r
  cases r
  case obuf => exact .inl hp
  all_goals exact h _

/-- A write moves the cursor with the bytes (R129). -/
theorem ChangesOnly.setWritten (h : ChangesOnly P s t) (hobuf : P .obuf) (hcur : P .cur) (m : Memory) (len : Nat)
    (cur : Cursor) : ChangesOnly P s { t with obuf := m, olen := len, cur := cur } := by
  intro r
  cases r
  case obuf => exact .inl hobuf
  case cur => exact .inl hcur
  all_goals exact h _

/-- The register of R28 is OBUF's bytes; its length may grow under CUR_INIT (log 16). -/
theorem ChangesOnly.setSpan (h : ChangesOnly P s t) (hcur : P .cur) (len : Nat) (cur : Cursor) :
    ChangesOnly P s { t with olen := len, cur := cur } := by
  intro r
  cases r
  case cur => exact .inl hcur
  all_goals exact h _

theorem ChangesOnly.setF (h : ChangesOnly P s t) (hp : P .f) (f : FrameGroup) : ChangesOnly P s { t with f := f } := by
  intro r
  cases r
  case f => exact .inl hp
  all_goals exact h _

theorem ChangesOnly.setCur (h : ChangesOnly P s t) (hp : P .cur) (cur : Cursor) :
    ChangesOnly P s { t with cur := cur } := by
  intro r
  cases r
  case cur => exact .inl hp
  all_goals exact h _

theorem ChangesOnly.setLk (h : ChangesOnly P s t) (hp : P .lk) (lk : LockCache) : ChangesOnly P s { t with lk := lk } := by
  intro r
  cases r
  case lk => exact .inl hp
  all_goals exact h _

theorem ChangesOnly.setCs (h : ChangesOnly P s t) (hp : P .cs) (cs : CorrState) : ChangesOnly P s { t with cs := cs } := by
  intro r
  cases r
  case cs => exact .inl hp
  all_goals exact h _

theorem ChangesOnly.setIs (h : ChangesOnly P s t) (hp : P .is) (is : IntegState) : ChangesOnly P s { t with is := is } := by
  intro r
  cases r
  case is => exact .inl hp
  all_goals exact h _

/-- RESULT, the returned value, the window and the free counter are none of the registers: every operation may write them. -/
theorem ChangesOnly.ending (h : ChangesOnly P s t) (x : Result) (y : RetVal) (w : Bool) (n : Nat) :
    ChangesOnly P s { t with result := x, ret := y, window := w, free := n } := by
  intro r
  cases r
  all_goals exact h _

theorem ChangesOnly.done (h : ChangesOnly P s t) (x : RetVal) : ChangesOnly P s (t.done x) := h.ending _ _ _ _

theorem ChangesOnly.raise (h : ChangesOnly P s t) (c : Cond) : ChangesOnly P s (t.raise c) := h.ending _ _ _ _

theorem ChangesOnly.writesOnly (h : ChangesOnly P s t) : WritesOnly P s (.next t) := by
  rintro _ ⟨⟩
  exact h

/-! ## The endings of an operation -/

/-- A unit operation changes what its body changes (R382, R388). -/
theorem unitOp_writesOnly (h : ChangesOnly P s t) {body : State → Out}
    (hb : ∀ t', ChangesOnly P s t' → WritesOnly P s (body t')) : WritesOnly P s (unitOp t body) := by
  intro u he
  have hclosed : ChangesOnly P s { t with window := false } := h.ending _ _ _ _
  obtain ⟨u', rfl, ⟨_, rfl⟩ | ⟨_, hu⟩⟩ := unitOp_next he
  · exact (hclosed.raise _).ending _ _ _ _
  · exact (hb _ hclosed u' hu).ending _ _ _ _

theorem withCrc_writesOnly {body : State → Out} (h : WritesOnly P s (body t)) : WritesOnly P s (withCrc t body) := by
  intro u he
  simp only [withCrc] at he
  split at he
  · cases he
  · exact h u he

/-- A unit operation that computes a CRC. -/
theorem crcUnit_writesOnly {body : State → Out} (hb : ∀ t', ChangesOnly P s t' → WritesOnly P s (body t')) :
    WritesOnly P s (unitOp s fun s => withCrc s body) :=
  unitOp_writesOnly (.refl P s) fun t' h' => withCrc_writesOnly (hb t' h')

/-- A pure operation changes no register. -/
theorem pureUnit_writesOnly {α : Type} {r : State → Except Cond α} {ret : α → RetVal} :
    WritesOnly P s (unitOp s fun s => finishPure s (r s) ret) := by
  refine unitOp_writesOnly (.refl P s) fun t' h' u he => ?_
  obtain ⟨a, _, rfl⟩ | ⟨c, _, rfl⟩ := finishPure_next he
  · exact h'.done _
  · exact h'.raise _

/-- A reading operation changes CUR only (R125, R356). -/
theorem readUnit_writesOnly (hcur : P .cur) {α : Type} {m : State → Rd α} {ret : α → RetVal} :
    WritesOnly P s (unitOp s fun s => finishRd s (m s) fun a s => s.done (ret a)) := by
  refine unitOp_writesOnly (.refl P s) fun t' h' u he => ?_
  obtain ⟨a, off, _, rfl⟩ | ⟨c, off, _, rfl⟩ := finishRd_next he
  · exact (h'.setCur hcur _).done _
  · exact (h'.setCur hcur _).raise _

/-- A write operation changes OBUF and CUR only (R129). -/
theorem writeUnit_writesOnly (hobuf : P .obuf) (hcur : P .cur) {w : Memory → Cursor → WrRes} :
    WritesOnly P s (unitOp s fun s => writeOp s w) := by
  refine unitOp_writesOnly (.refl P s) fun t' h' u he => ?_
  obtain ⟨c, _, rfl⟩ | ⟨m, _, rfl⟩ | ⟨m, off, _, _, rfl⟩ := writeOp_next he
  · exact h'.raise _
  · exact h'.done _
  · exact (h'.setWritten hobuf hcur _ _ _).done _

/-! ## The caches a handler stages (R310, R319) -/

/-- Every value that a reading operation answers has `Q`. -/
def Yields {α : Type} (Q : α → Prop) (m : Rd α) : Prop := ∀ off a off', m off = .ok a off' → Q a

theorem Yields.pure {α : Type} {Q : α → Prop} {a : α} (h : Q a) : Yields Q (Rd.pure a) := by
  rintro off _ _ ⟨⟩
  exact h

theorem Yields.raise {α : Type} {Q : α → Prop} (c : Cond) : Yields Q (Rd.raise c) := by
  rintro off _ _ ⟨⟩

theorem Yields.bind {α β : Type} {Q : β → Prop} (m : Rd α) {k : α → Rd β} (h : ∀ a, Yields Q (k a)) :
    Yields Q (m.bind k) := by
  intro off b off' he
  cases hm : m off with
  | ok a off1 => exact h a off1 b off' (by rwa [Rd.bind_ok hm] at he)
  | stop c off1 =>
    rw [Rd.bind_stop hm] at he
    cases he

theorem Yields.map {α β : Type} {Q : β → Prop} (m : Rd α) {f : α → β} (h : ∀ a, Q (f a)) : Yields Q (m.map f) :=
  .bind m fun a => .pure (h a)

/-- What a handler stages differs from the caches it began with in registers of `P` only. -/
structure Stages (P : Register → Prop) (s : State) (r : Handled) : Prop where
  lk : P .lk ∨ r.lk = s.lk
  cs : P .cs ∨ r.cs = s.cs
  is : P .is ∨ r.is = s.is

theorem State.plain_stages (P : Register → Prop) (s : State) (m : Message) : Stages P s (s.plain m) :=
  ⟨.inr rfl, .inr rfl, .inr rfl⟩

theorem Stages.of_messageRegisters (h : MessageRegisters P) (r : Handled) : Stages P s r := ⟨.inl h.lk, .inl h.cs, .inl h.is⟩

theorem readRaw_stages (ty : BitVec 12) : Yields (Stages P s) (readRaw s ty) := .pure (s.plain_stages P _)

theorem readStation_stages (k : StaKind) : Yields (Stages P s) (readStation s k) :=
  .bind _ fun _ => .map _ fun _ => s.plain_stages P _

theorem readEph_stages (c : Constellation) : Yields (Stages P s) (readEph s c) :=
  .bind _ fun _ => .bind _ fun _ => .bind _ fun _ => .bind _ fun _ => .map _ fun _ => s.plain_stages P _

/-- An observation message stages LK only (R252). -/
theorem readMsm_stages (hlk : P .lk) (c : Constellation) (v : MsmVariant) : Yields (Stages P s) (readMsm s c v) :=
  .bind _ fun _ => .map _ fun _ => ⟨.inl hlk, .inr rfl, .inr rfl⟩

/-- A correction message stages CS only (R265). -/
theorem finishCorr_stages (hcs : P .cs) (h : CorrHandler) (pre : Option (List RawField)) (p : CorrPrep) (kinds : List CacheKind)
    (recs : List (EntryKey × Record)) : Yields (Stages P s) (finishCorr s h pre p kinds recs) :=
  .map _ fun _ => ⟨.inr rfl, .inl hcs, .inr rfl⟩

theorem readCorr_stages (hcs : P .cs) (h : CorrHandler) (pre : Option (List RawField)) (fam : Family) (c : Constellation)
    (k : SsrKind) (lay : SsrLayout) : Yields (Stages P s) (readCorr s h pre fam c k lay) :=
  .bind _ fun _ => .bind _ fun _ => .bind _ fun _ => finishCorr_stages hcs _ _ _ _ _

theorem readSsr_stages (hcs : P .cs) (c : Constellation) (k : SsrKind) : Yields (Stages P s) (readSsr s c k) :=
  .bind _ fun _ => readCorr_stages hcs _ _ _ _ _ _

theorem readTest_stages (hcs : P .cs) (c : Constellation) (o : Nat) : Yields (Stages P s) (readTest s c o) :=
  .bind _ fun _ => readSsr_stages hcs _ _

theorem readGrid_stages (hcs : P .cs) (h : CorrHandler) (pre : Option (List RawField)) (k : CacheKind) (lay : GridLayout) :
    Yields (Stages P s) (readGrid s h pre k lay) := by
  refine .bind _ fun p => ?_
  cases lay.perSat with
  | none => exact .bind _ fun _ => finishCorr_stages hcs _ _ _ _ _
  | some g => exact .bind _ fun _ => .bind _ fun _ => finishCorr_stages hcs _ _ _ _ _

theorem readGridTropo_stages (hcs : P .cs) (pre : Option (List RawField)) : Yields (Stages P s) (readGridTropo s pre) :=
  .bind _ fun _ => readGrid_stages hcs _ _ _ _

theorem readGridIono_stages (hcs : P .cs) (pre : Option (List RawField)) : Yields (Stages P s) (readGridIono s pre) :=
  .bind _ fun _ => readGrid_stages hcs _ _ _ _

theorem readSubtype_stages (hcs : P .cs) (pre : List RawField) (x : SubTarget) : Yields (Stages P s) (readSubtype s pre x) := by
  cases x with
  | ssr c k => exact .bind _ fun _ => readCorr_stages hcs _ _ _ _ _ _
  | gridTropo => exact readGridTropo_stages hcs _
  | gridIono => exact readGridIono_stages hcs _

theorem readIgs_stages (hcs : P .cs) : Yields (Stages P s) (readIgs s) := by
  refine .bind _ fun _ => .bind _ fun _ => .bind _ fun sub => ?_
  split
  · exact readRaw_stages _
  · exact readSubtype_stages hcs _ _

/-- An integrity message stages IS only (R336). -/
theorem readInteg_stages (his : P .is) (ty : BitVec 12) : Yields (Stages P s) (readInteg s ty) := by
  refine .bind _ fun key => ?_
  split
  · exact .bind _ fun _ => .bind _ fun _ => .bind _ fun _ => .bind _ fun _ => .map _ fun _ => ⟨.inr rfl, .inr rfl, .inl his⟩
  · exact readRaw_stages _
  · exact .raise _

/-! ## The runs of a message (R193, R310) -/

theorem ChangesOnly.commit (h : ChangesOnly P s t) {r : Handled} (hr : Stages P t r) : ChangesOnly P s (t.commit r) := by
  intro x
  cases x
  case lk => exact hr.lk.elim .inl fun e => (h .lk).imp_right e.trans
  case cs => exact hr.cs.elim .inl fun e => (h .cs).imp_right e.trans
  case is => exact hr.is.elim .inl fun e => (h .is).imp_right e.trans
  all_goals exact h _

/-- The state a run of a message ends in, completed or not. -/
def Run.state : Run → State
  | .ok _ s => s
  | .cond _ s => s

theorem ChangesOnly.runMessage (h : ChangesOnly P s t) (hcur : P .cur) {m : Rd Handled} (hm : Yields (Stages P t) m) :
    ChangesOnly P s (runMessage t m).state := by
  cases hr : Sys2Proof.Machine.runMessage t m with
  | ok msg u =>
    obtain ⟨r, off, hread, _, rfl⟩ := runMessage_ok hr
    obtain ⟨hlk, hcs, his⟩ := hm _ r off hread
    exact (h.setCur hcur _).commit ⟨hlk, hcs, his⟩
  | cond c u =>
    obtain ⟨off, _, rfl⟩ := runMessage_cond hr
    exact h.setCur hcur _

theorem ChangesOnly.typed (h : ChangesOnly P s t) (hp : MessageRegisters P) (ty off : Nat) :
    ChangesOnly P s (t.typed ty off) :=
  (h.setF hp.f { t.f with type := BitVec.ofNat 12 ty }).setCur hp.cur { t.cur with off := off }

theorem ChangesOnly.dispatchRun (h : ChangesOnly P s t) (hp : MessageRegisters P) :
    ChangesOnly P s (dispatchRun t).state := by
  simp only [Sys2Proof.Machine.dispatchRun]
  split
  · exact h
  · next ty off _ =>
    exact (h.typed hp ty off).runMessage hp.cur fun _ r _ _ => .of_messageRegisters hp r

theorem finishRun_writesOnly {r : Run} (h : ChangesOnly P s r.state) : WritesOnly P s (finishRun r) := by
  cases r with
  | ok m u => exact (ChangesOnly.done h _).writesOnly
  | cond c u => exact (ChangesOnly.raise h _).writesOnly

theorem finishDecode_writesOnly (hout : P .out) (consumed : Nat) {r : Run} (h : ChangesOnly P s r.state) :
    WritesOnly P s (finishDecode consumed r) := by
  cases r with
  | ok m u => exact ((ChangesOnly.setOut h hout _).done _).writesOnly
  | cond c u => exact (ChangesOnly.raise h _).writesOnly

theorem handlerOp_writesOnly (hcur : P .cur) {m : State → Rd Handled} (hm : ∀ t, Yields (Stages P t) (m t)) :
    WritesOnly P s (handlerOp s m) :=
  unitOp_writesOnly (.refl P s) fun t' h' => finishRun_writesOnly (h'.runMessage hcur (hm t'))

/-! ## Meanings with an ending of their own -/

/-- RESET leaves STREAM and the port (R381, log 1). -/
theorem State.afterReset_changesOnly (hp : MessageRegisters P) (hcfg : P .cfg) (hscan : P .scan) (href : P .refTime)
    (hout : P .out) (hobuf : P .obuf) : ChangesOnly P s s.afterReset := by
  have hcaches := (((ChangesOnly.refl P s).setLk hp.lk []).setCs hp.cs []).setIs hp.is []
  have hframer := (hcaches.setSearched hp.f hscan State.reset.f 0).setCur hp.cur State.reset.cur
  have hbuffers := (hframer.setOut hout none).setObuf hobuf [] 0
  exact ((hbuffers.setCfg hcfg Cfg.default false).setRefTime href none).ending _ _ _ _

theorem execHostConfig_writesOnly (hcfg : P .cfg) (cfg : Cfg) : WritesOnly P s (execHostConfig cfg s) := by
  simp only [execHostConfig]
  split
  · exact (((ChangesOnly.refl P s).setCfg hcfg _ _).done _).writesOnly
  · exact ((ChangesOnly.refl P s).raise _).writesOnly

theorem execHostLoad_writesOnly (hstream : P .stream) (hscan : P .scan) (hf : P .f) (bytes : List Byte) (scan : Nat) :
    WritesOnly P s (execHostLoad bytes scan s) := by
  have hloaded := (ChangesOnly.refl P s).setStream hstream (Memory.write [] 0 bytes) bytes.length
  simp only [execHostLoad]
  split
  · exact ((ChangesOnly.refl P s).raise _).writesOnly
  · exact ((hloaded.setSearched hf hscan { s.f with valid := false } scan).done _).writesOnly

theorem ChangesOnly.found (h : ChangesOnly P s t) (hf : P .f) (r : FrameRes) : ChangesOnly P s (t.found r) := by
  cases r with
  | noFrame => exact (h.setF hf _).done _
  | frame p len crc => exact (h.setF hf _).done _
  | cond c => exact (h.setF hf _).raise _

theorem ChangesOnly.emitFrame (h : ChangesOnly P s t) (hobuf : P .obuf) (payload : List Byte) :
    ChangesOnly P s (emitFrame t payload) := by
  simp only [Sys2Proof.Machine.emitFrame]
  split
  · exact h.raise _
  · exact (h.setObuf hobuf _ _).done _

theorem ChangesOnly.encodeItems (h : ChangesOnly P s t) (hobuf : P .obuf) (hcur : P .cur) (msg : Message)
    (items : List WItem) : ChangesOnly P s (encodeItems t msg items) := by
  have hwritten : ChangesOnly P s (writtenState t items) := h.setWritten hobuf hcur _ _ _
  simp only [Sys2Proof.Machine.encodeItems]
  split
  · exact hwritten.raise _
  · exact hwritten.emitFrame hobuf _

theorem ChangesOnly.encodeMessage (h : ChangesOnly P s t) (hobuf : P .obuf) (hcur : P .cur) (msg : Message) :
    ChangesOnly P s (encodeMessage t msg) := by
  have hempty := h.setObuf hobuf [] 0
  simp only [Sys2Proof.Machine.encodeMessage]
  split
  · exact hempty.emitFrame hobuf _
  · split
    · exact hempty.raise _
    · exact hempty.encodeItems hobuf hcur _ _

theorem execCurInit_writesOnly (hcur : P .cur) (space : Space) (base n : Nat) : WritesOnly P s (execCurInit space base n s) := by
  refine unitOp_writesOnly (.refl P s) fun t' h' => ?_
  cases space with
  | stream =>
    dsimp only
    split
    · exact (h'.raise _).writesOnly
    · exact ((h'.setCur hcur _).done _).writesOnly
  | obuf => exact ((h'.setSpan hcur _ _).done _).writesOnly

/-- DECODE_ONE's own registers are SCAN and OUT (R190, R191); the rest are the message's. -/
theorem decodeFrom_writesOnly (h : ChangesOnly P s t) (hp : MessageRegisters P) (hscan : P .scan) (hout : P .out) :
    WritesOnly P s (decodeFrom t) := by
  simp only [decodeFrom]
  split
  · exact ((h.setSearched hp.f hscan _ _).done _).writesOnly
  · exact ((h.setSearched hp.f hscan _ _).raise _).writesOnly
  · next p len crc _ =>
    have hentered : ChangesOnly P s (t.enterFrame (.frame p len crc) p len) :=
      (h.setSearched hp.f hscan (t.f.after (.frame p len crc)) (p + len + 6)).setCur hp.cur ⟨.stream, p + 3, len, 0⟩
    exact finishDecode_writesOnly hout _ (hentered.dispatchRun hp)

theorem execDecodeOne_writesOnly (hp : MessageRegisters P) (hscan : P .scan) (hout : P .out) :
    WritesOnly P s (execDecodeOne s) :=
  unitOp_writesOnly ((ChangesOnly.refl P s).setOut hout none) fun _ h' =>
    withCrc_writesOnly (decodeFrom_writesOnly h' hp hscan hout)

/-- An arriving frame writes STREAM before it is decoded (log 15). -/
theorem execFrame_writesOnly (hp : MessageRegisters P) (hstream : P .stream) (hscan : P .scan) (hout : P .out)
    (pad : BitVec 6) (payload : List Byte) (crc : BitVec 24) : WritesOnly P s (execFrame pad payload crc s) :=
  unitOp_writesOnly ((ChangesOnly.refl P s).setOut hout none) fun _ h' =>
    withCrc_writesOnly (decodeFrom_writesOnly (h'.setStream hstream _ _) hp hscan hout)

theorem execDispatch_writesOnly (hp : MessageRegisters P) : WritesOnly P s (execDispatch s) :=
  unitOp_writesOnly (.refl P s) fun _ h' => finishRun_writesOnly (h'.dispatchRun hp)

end

/-! ## The writers of the statement -/

/-- What runs any message it finds may write all that a message writes. -/
theorem mayWrite_of_anyMessage {i : Instr} (h : anyMessage i = true) : MessageRegisters (MayWrite i) := by
  constructor
  · simp [MayWrite, writesF, h]
  · simp [MayWrite, writesCur, h]
  · simp [MayWrite, writesLk, h]
  · simp [MayWrite, writesCs, h]
  · simp [MayWrite, writesIs, h]

/-- A message row moves the cursor, but for RAW (R201). -/
theorem mayWrite_cur_of_message {i : Instr} {r : State → Rd Handled} (hr : messageReader i.wireClass = some r)
    (hraw : ∀ ty, i.wireClass ≠ .raw ty) : MayWrite i .cur := by
  simp only [MayWrite, writesCur]
  cases hw : i.wireClass with
  | operation | frame => simp [hw, messageReader] at hr
  | raw ty => exact absurd hw (hraw ty)
  | handler | test | integ => split <;> simp_all

theorem mayWrite_lk_of_msm {i : Instr} {c : Constellation} {v : MsmVariant} (hw : i.wireClass = .handler (.msm c v)) :
    MayWrite i .lk := by
  simp only [MayWrite, writesLk, hw]
  split <;> simp_all

/-- The wire classes of the correction messages (R265, R279, R285, R286). -/
def isCorrection : WireClass → Bool
  | .handler (.ssr _ _) | .handler .igs | .handler .gridTropo | .handler .gridIono | .test _ _ => true
  | _ => false

theorem mayWrite_cs_of_correction {i : Instr} {w : WireClass} (hw : i.wireClass = w) (h : isCorrection w = true) :
    MayWrite i .cs := by
  simp only [MayWrite, writesCs, hw]
  split <;> simp_all [isCorrection]

theorem mayWrite_is_of_integ {i : Instr} {ty : BitVec 12} (hw : i.wireClass = .integ ty) : MayWrite i .is := by
  simp only [MayWrite, writesIs, hw]
  split <;> simp_all

/-- The integrity rows carry their type: none of them is the handler without one. -/
theorem wireClass_ne_handler_integ (i : Instr) : i.wireClass ≠ .handler .integ := by
  cases i <;> nofun

/-! ## The message rows (R100, R319) -/

/-- The reader of a message row stages no cache but those its row may write. -/
theorem messageReader_stages {i : Instr} {r : State → Rd Handled} (hr : messageReader i.wireClass = some r) (t : State) :
    Yields (Stages (MayWrite i) t) (r t) := by
  cases hw : i.wireClass <;> rw [hw] at hr <;> cases hr
  case handler h =>
    cases h with
    | msm c v => exact readMsm_stages (mayWrite_lk_of_msm hw) c v
    | ssr c k => exact readSsr_stages (mayWrite_cs_of_correction hw rfl) c k
    | gridTropo => exact readGridTropo_stages (mayWrite_cs_of_correction hw rfl) none
    | gridIono => exact readGridIono_stages (mayWrite_cs_of_correction hw rfl) none
    | igs => exact readIgs_stages (mayWrite_cs_of_correction hw rfl)
    | eph c => exact readEph_stages c
    | sta k => exact readStation_stages k
    | integ => exact absurd hw (wireClass_ne_handler_integ i)
  case test c o => exact readTest_stages (mayWrite_cs_of_correction hw rfl) c o
  case integ ty => exact readInteg_stages (mayWrite_is_of_integ hw) ty
  case raw ty => exact readRaw_stages ty

/-- RAW reads nothing, so it leaves the cursor where it is (R201). -/
theorem handlerOp_readRaw_writesOnly (P : Register → Prop) (s : State) (ty : BitVec 12) :
    WritesOnly P s (handlerOp s fun s => readRaw s ty) :=
  unitOp_writesOnly (.refl P s) fun _ h' => (h'.done _).writesOnly

theorem exec_message_writesOnly {i : Instr} {r : State → Rd Handled} (hr : messageReader i.wireClass = some r) (s : State) :
    WritesOnly (MayWrite i) s (exec i s) := by
  rw [exec_of_messageReader hr]
  by_cases hraw : ∃ ty, i.wireClass = .raw ty
  · obtain ⟨ty, hw⟩ := hraw
    rw [hw] at hr
    cases hr
    exact handlerOp_readRaw_writesOnly _ s ty
  · exact handlerOp_writesOnly (mayWrite_cur_of_message hr (not_exists.mp hraw)) (messageReader_stages hr)

/-! ## Every instruction -/

/-- An operation other than a message row. -/
theorem exec_operation_writesOnly {i : Instr} (hi : messageReader i.wireClass = none) (s : State) :
    WritesOnly (MayWrite i) s (exec i s) := by
  have start : ChangesOnly (MayWrite i) s s := .refl _ s
  unfold exec
  cases i
  case reset =>
    refine ((State.afterReset_changesOnly (mayWrite_of_anyMessage rfl) ?_ ?_ ?_ ?_ ?_).done _).writesOnly
    all_goals simp [MayWrite]
  case hostConfig cfg => exact execHostConfig_writesOnly (.inr ⟨cfg, rfl⟩) cfg
  case hostLoad bytes scan =>
    refine execHostLoad_writesOnly ?_ ?_ ?_ bytes scan
    all_goals simp [MayWrite, writesF]
  case hostSetRefTime x => exact ((start.setRefTime (.inl ⟨x, rfl⟩) (some x)).done _).writesOnly
  case hostEvict n => exact ((start.setCs rfl _).done _).writesOnly
  case hostEvictProvider p => exact ((start.setIs rfl _).done _).writesOnly
  case hostRead => exact (start.done _).writesOnly
  case frame pad payload crc =>
    refine execFrame_writesOnly (mayWrite_of_anyMessage rfl) ?_ ?_ ?_ pad payload crc
    all_goals simp [MayWrite]
  case decodeOne =>
    refine execDecodeOne_writesOnly (mayWrite_of_anyMessage rfl) ?_ ?_
    all_goals simp [MayWrite]
  case dispatch => exact execDispatch_writesOnly (mayWrite_of_anyMessage rfl)
  case curInit space base n =>
    refine execCurInit_writesOnly ?_ space base n
    exact rfl
  case encodeOne msg =>
    exact crcUnit_writesOnly fun _ h' => (h'.encodeMessage (by simp [MayWrite]) rfl msg).writesOnly
  case findFrame start => exact crcUnit_writesOnly fun _ h' => (h'.found rfl _).writesOnly
  case crc24 => exact crcUnit_writesOnly fun _ h' => (h'.done _).writesOnly
  case frameEmit payload => exact crcUnit_writesOnly fun _ h' => (h'.emitFrame (by simp [MayWrite]) payload).writesOnly
  case lockCheck => exact unitOp_writesOnly start fun _ h' => ((h'.setLk rfl _).done _).writesOnly
  case cacheUpdate => exact unitOp_writesOnly start fun _ h' => ((h'.setCs rfl _).done _).writesOnly
  case isUpdate => exact unitOp_writesOnly start fun _ h' => ((h'.setIs rfl _).done _).writesOnly
  case writeU | writeS | writeBytes =>
    refine writeUnit_writesOnly ?_ ?_
    all_goals simp [MayWrite, writesCur]
  case readU | readS | readBytes | readField | readMask | readHeader =>
    refine readUnit_writesOnly ?_
    exact rfl
  case syncScan | decodeMask | decodeUra => exact unitOp_writesOnly start fun _ h' => (h'.done _).writesOnly
  case lenRead | boundCheck | toIndex | fromIndex | svidOffset | svidToSat | satToSvid | sigOf | encodeMask | adjustWeek |
      quantize | iodCheck | lookup => exact pureUnit_writesOnly
  all_goals cases hi

/-- Every instruction writes no register but those it may write (R60). -/
theorem exec_writesOnly (i : Instr) (s : State) : WritesOnly (MayWrite i) s (exec i s) := by
  cases hi : messageReader i.wireClass with
  | none => exact exec_operation_writesOnly hi s
  | some r => exact exec_message_writesOnly hi s

/-- Settles O9: a register that the instruction may not write is unchanged. -/
theorem eachRegisterHasItsWriters : Obligations.EachRegisterHasItsWriters := by
  unfold Obligations.EachRegisterHasItsWriters
  intro i s t he
  have keeps (r : Register) (hr : ¬ MayWrite i r) : r.Same s t := (exec_writesOnly i s t he r).resolve_left hr
  refine ⟨fun h1 h2 => keeps .cfg ?_, fun h1 h2 => keeps .stream ?_, fun h1 h2 h3 h4 => keeps .scan ?_,
    fun h1 h2 => keeps .refTime ?_, fun h1 h2 h3 => keeps .out ?_, fun h1 h2 h3 h4 h5 h6 => keeps .obuf ?_,
    fun h => keeps .f ?_, fun h => keeps .cur ?_, fun h => keeps .lk ?_, fun h => keeps .cs ?_, fun h => keeps .is ?_,
    keeps .port id⟩
  all_goals simp_all [MayWrite]

end Sys2Proof.Machine

/-! SUPPORT and the statements of 30_encoding.md: frames and message types are decoded as they were encoded, fields and masks are
read where they stand or end at the read that does not fit, an arriving frame is decoded. -/

namespace Sys2Proof.Machine

/-! ## Frames (R73, R90, R91) -/

/-- The 16 bits after the preamble of a frame (R73): the pad bits, then the length. -/
def frameHeader (pad : BitVec 6) (len : Nat) : BitVec 16 := pad ++ BitVec.ofNat 10 len

/-- A 16-bit value is its two bytes, most significant first (R14). -/
theorem bytes_append_16 (x : BitVec 16) : (x.extractLsb' 8 8 ++ x.extractLsb' 0 8 : BitVec 16) = x := by
  rw [BitVec.extractLsb'_append_extractLsb'_eq_extractLsb' (by decide), BitVec.extractLsb'_eq_self]

/-- A 24-bit value is its three bytes, most significant first (R14). -/
theorem bytes_append_24 (x : BitVec 24) :
    (x.extractLsb' 16 8 ++ x.extractLsb' 8 8 ++ x.extractLsb' 0 8 : BitVec 24) = x := by
  rw [BitVec.extractLsb'_append_extractLsb'_eq_extractLsb' (by decide),
    BitVec.extractLsb'_append_extractLsb'_eq_extractLsb' (by decide), BitVec.extractLsb'_eq_self]

theorem frameHeader_pad (pad : BitVec 6) (len : Nat) : (frameHeader pad len).extractLsb' 10 6 = pad :=
  BitVec.extractLsb'_append_eq_left

/-- The length field holds every length a payload may have (R73). -/
theorem frameHeader_length (pad : BitVec 6) {len : Nat} (h : len ≤ 1023) :
    ((frameHeader pad len).extractLsb' 0 10).toNat = len := by
  rw [frameHeader, BitVec.extractLsb'_append_eq_right, BitVec.toNat_ofNat]
  omega

/-- The bytes of a frame in order (R90): preamble, header, payload, CRC field. -/
theorem encodeFrame_eq (cfg : Cfg) (pad : BitVec 6) (payload : List Byte) (crc : BitVec 24) :
    encodeFrame cfg pad payload crc =
      cfg.preamble :: (frameHeader pad payload.length).extractLsb' 8 8 :: (frameHeader pad payload.length).extractLsb' 0 8 ::
        (payload ++ [crc.extractLsb' 16 8, crc.extractLsb' 8 8, crc.extractLsb' 0 8]) := rfl

/-- Bytes that begin with a preamble, a header and at least the payload and the CRC field it announces are a frame (R91). -/
theorem decodeFrame_of_parts {cfg : Cfg} {hdr : BitVec 16} {payload rest : List Byte} {crc : BitVec 24}
    (hlen : (hdr.extractLsb' 0 10).toNat = payload.length) :
    decodeFrame cfg (cfg.preamble :: hdr.extractLsb' 8 8 :: hdr.extractLsb' 0 8 ::
        (payload ++ (crc.extractLsb' 16 8 :: crc.extractLsb' 8 8 :: crc.extractLsb' 0 8 :: rest))) =
      .ok (.frame (hdr.extractLsb' 10 6) payload crc, rest) := by
  simp only [decodeFrame, ne_eq, not_true_eq_false, if_false, bytes_append_16, hlen, List.take_left, List.drop_left,
    bytes_append_24]

/-- Settles O16: header and CRC field are their bytes put together again, and the length field says where the payload ends. -/
theorem frameDecodeEncode : Obligations.FrameDecodeEncode := by
  unfold Obligations.FrameDecodeEncode
  intro cfg pad payload crc rest hlen
  refine ⟨encodeFrame cfg pad payload crc, by simp only [encode, if_pos hlen], encodeFrame_length .., ?_⟩
  have hsplit : encodeFrame cfg pad payload crc ++ rest =
      cfg.preamble :: (frameHeader pad payload.length).extractLsb' 8 8 :: (frameHeader pad payload.length).extractLsb' 0 8 ::
        (payload ++ (crc.extractLsb' 16 8 :: crc.extractLsb' 8 8 :: crc.extractLsb' 0 8 :: rest)) := by
    simp [encodeFrame_eq]
  rw [hsplit, decodeFrame_of_parts (frameHeader_length pad hlen), frameHeader_pad]

/-! ## Message types (R94 to R99, R199) -/

/-- The message row of a wire class; none for an operation and for a frame. -/
def rowOf : WireClass → Option Instr
  | .operation => none
  | .frame => none
  | .handler h => some (Instr.ofHandler 0 h)
  | .test c o => some (Instr.ofSsrTest o c)
  | .integ t => some (.integ t)
  | .raw t => some (.raw t)

/-- A message row is determined by its wire class. -/
theorem eq_of_rowOf {i j : Instr} (h : rowOf i.wireClass = some j) : i = j := by
  cases i <;> cases h <;> rfl

theorem mem_rowsFrom {base off o : Nat} {hs : List Handler} {h : Handler} (ho : hs[o]? = some h) :
    (base + (off + o), h) ∈ rowsFrom base off hs := by
  induction hs generalizing off o with
  | nil => simp at ho
  | cons h' hs ih =>
    cases o with
    | zero => simp_all [rowsFrom]
    | succ o =>
      have := ih (off := off + 1) (o := o) (by simpa using ho)
      rw [rowsFrom, List.mem_cons, show off + (o + 1) = off + 1 + o by omega]
      exact .inr this

/-- The rows of a constellation are required rows. -/
theorem mem_requiredRows {cfg : Cfg} {c : Constellation} {r : Nat × Handler} (h : r ∈ requiredRowsOf cfg c) :
    r ∈ requiredRows cfg := by
  have hc : c ∈ allConstellations := by cases c <;> decide
  simp only [requiredRows, List.mem_append, List.mem_flatMap]
  exact .inl <| .inl <| .inl <| .inl ⟨c, hc, h⟩

theorem msm_row_required {cfg : Cfg} {c : Constellation} {b : Nat} (hb : cfg.msmBase.get c = some b) (v : MsmVariant) :
    (b + v.offset, .msm c v) ∈ requiredRows cfg := by
  have hv : (allVariants.map (Handler.msm c))[v.offset]? = some (.msm c v) := by cases v <;> rfl
  have hrow := mem_rowsFrom (base := b) (off := 0) hv
  rw [Nat.zero_add] at hrow
  refine mem_requiredRows (c := c) ?_
  simp only [requiredRowsOf, hb, List.mem_append]
  exact .inl <| .inl <| .inl hrow

theorem ssr_row_required {cfg : Cfg} {c : Constellation} {b o : Nat} {k : SsrKind} (hb : cfg.ssrBase.get c = some b)
    (hk : (cfg.ssrKindOfOffset.take 7)[o]? = some k) : (b + o, .ssr c k) ∈ requiredRows cfg := by
  have hrow := mem_rowsFrom (base := b) (off := 0) (o := o) (hs := (cfg.ssrKindOfOffset.take 7).map (Handler.ssr c))
    (h := .ssr c k) (by rw [List.getElem?_map, hk]; rfl)
  rw [Nat.zero_add] at hrow
  refine mem_requiredRows (c := c) ?_
  simp only [requiredRowsOf, hb, List.mem_append]
  exact .inl <| .inl <| .inr hrow

theorem eph_row_required {cfg : Cfg} {c : Constellation} {t : Nat} (ht : cfg.ephType.get c = some t) :
    (t, .eph c) ∈ requiredRows cfg := by
  refine mem_requiredRows (c := c) ?_
  simp only [requiredRowsOf, ht, List.mem_append, List.mem_singleton]
  exact .inl <| .inr trivial

theorem test_row_required {cfg : Cfg} {c : Constellation} {b o : Nat} {k : SsrKind} (hb : cfg.testBase.get c = some b)
    (hk : cfg.testKindOfOffset.lookup o = some k) : (b + o, .ssr c k) ∈ requiredRows cfg := by
  refine mem_requiredRows (c := c) ?_
  simp only [requiredRowsOf, hb, List.mem_append, List.mem_map, List.mem_filter, decide_eq_true_eq]
  exact .inr ⟨(o, k), ⟨mem_of_lookup _ _ _ hk, hk⟩, rfl⟩

/-- Every row R195 to R199 require stands in an accepted type table (R215). -/
theorem lookup_of_required {cfg : Cfg} (hcfg : cfgAccepted cfg = true) {t : Nat} {h : Handler} (hr : (t, h) ∈ requiredRows cfg) :
    cfg.typeTable.lookup t = some h := by
  simp only [cfgAccepted, typeTableOk, Bool.and_eq_true, List.all_eq_true, decide_eq_true_eq] at hcfg
  obtain ⟨⟨_, _, hrows⟩, _⟩ := hcfg
  exact hrows _ hr

/-- The types of an accepted type table have 12 bits (R215). -/
theorem type_lt_of_lookup {cfg : Cfg} (hcfg : cfgAccepted cfg = true) {t : Nat} {h : Handler}
    (hl : cfg.typeTable.lookup t = some h) : t < 4096 := by
  simp only [cfgAccepted, typeTableOk, Bool.and_eq_true, List.all_eq_true, decide_eq_true_eq] at hcfg
  obtain ⟨⟨_, htypes, _⟩, _⟩ := hcfg
  exact (htypes _ (mem_of_lookup _ _ _ hl)).1

theorem getElem?_offsetOf {k : SsrKind} {ks : List SsrKind} {o : Nat} (h : offsetOf k ks = some o) : ks[o]? = some k := by
  induction ks generalizing o with
  | nil => simp [offsetOf] at h
  | cons k' ks ih =>
    rw [offsetOf] at h
    split at h
    · next hk => cases h; simp [hk]
    · obtain ⟨o', ho', rfl⟩ := Option.map_eq_some_iff.mp h
      simpa using ih ho'

theorem offsetOf_isSome {k : SsrKind} {ks : List SsrKind} (h : k ∈ ks) : ∃ o, offsetOf k ks = some o := by
  induction ks with
  | nil => simp at h
  | cons k' ks ih =>
    rw [offsetOf]
    split
    · exact ⟨0, rfl⟩
    · next hk =>
      obtain ⟨o, ho⟩ := ih ((List.mem_cons.mp h).resolve_left fun e => hk e.symm)
      exact ⟨o + 1, by rw [ho]; rfl⟩

/-- The least type of a handler is a type of it (R210). -/
theorem leastTypeIn_lookup {table rows : List (Nat × Handler)} {h : Handler} {t : Nat} (hl : leastTypeIn table h rows = some t) :
    table.lookup t = some h := by
  induction rows generalizing t with
  | nil => simp [leastTypeIn] at hl
  | cons r rows ih =>
    rw [leastTypeIn] at hl
    split at hl
    · split at hl
      · next hrow => cases hl; exact hrow.2
      · cases hl
    · next t' ht' =>
      split at hl
      · next hrow => cases hl; exact hrow.2.1
      · cases hl; exact ih ht'

/-- The type of a row of the standard SSR range lies in it (R196). -/
theorem inSsrRange_of_offset {cfg : Cfg} {c : Constellation} {b o : Nat} {k : SsrKind} (hb : cfg.ssrBase.get c = some b)
    (hk : (cfg.ssrKindOfOffset.take 7)[o]? = some k) : inSsrRange cfg c (b + o) = true := by
  obtain ⟨hlt, _⟩ := List.getElem?_eq_some_iff.mp hk
  simp only [inSsrRange, hb, Bool.and_eq_true, decide_eq_true_eq]
  omega

section
variable {cfg : Cfg} {t : BitVec 12}

theorem decodeType_raw (hl : cfg.typeTable.lookup t.toNat = none) : decodeType cfg t = .raw t := by
  simp only [decodeType, hl]

/-- A type of the table outside the SSR kinds selects the row of its handler (R95). -/
theorem decodeType_handler {h : Handler} (hl : cfg.typeTable.lookup t.toNat = some h) (hne : ∀ c k, h ≠ .ssr c k) :
    decodeType cfg t = Instr.ofHandler t h := by
  cases h
  case ssr c k => exact absurd rfl (hne c k)
  all_goals simp only [decodeType, hl]

/-- A type of the standard SSR range selects the SSR row, whether or not a test range has the type too (R196). -/
theorem decodeType_ssr {c : Constellation} {k : SsrKind} (hl : cfg.typeTable.lookup t.toNat = some (.ssr c k))
    (hr : inSsrRange cfg c t.toNat = true) : decodeType cfg t = Instr.ofSsr c k := by
  simp only [decodeType, hl, hr, if_true]
  split <;> rfl

/-- A type of a test range outside the standard SSR range selects the test row (R199). -/
theorem decodeType_test {c : Constellation} {k : SsrKind} {o : Nat} (hl : cfg.typeTable.lookup t.toNat = some (.ssr c k))
    (ho : testOffset cfg c t.toNat = some o) (hr : inSsrRange cfg c t.toNat = false) :
    decodeType cfg t = Instr.ofSsrTest o c := by
  simp only [decodeType, hl, ho, hr, Bool.false_eq_true, if_false]

theorem testOffset_add {c : Constellation} {b o : Nat} (hb : cfg.testBase.get c = some b)
    (ho : (cfg.testKindOfOffset.lookup o).isSome = true) : testOffset cfg c (b + o) = some o := by
  simp only [testOffset, hb, Nat.add_sub_cancel_left, ho, Nat.le_add_right, and_self, if_true]

end

/-- The type a handler's row is encoded with is a type of the handler, and that of an SSR row lies in the standard range. -/
theorem lookup_of_encodeType {cfg : Cfg} (hcfg : cfgAccepted cfg = true) {i : Instr} {h : Handler} {t : Nat}
    (hw : i.wireClass = .handler h) (ht : encodeType cfg i = some t) :
    cfg.typeTable.lookup t = some h ∧ ∀ c k, h = .ssr c k → inSsrRange cfg c t = true := by
  rw [encodeType, hw] at ht
  cases h with
  | msm c v =>
    obtain ⟨b, hb, rfl⟩ := Option.map_eq_some_iff.mp ht
    exact ⟨lookup_of_required hcfg (msm_row_required hb v), nofun⟩
  | ssr c k =>
    simp only at ht
    split at ht
    · next b o hb ho =>
      cases ht
      have hk := getElem?_offsetOf ho
      refine ⟨lookup_of_required hcfg (ssr_row_required hb hk), ?_⟩
      rintro _ _ ⟨⟩
      exact inSsrRange_of_offset hb hk
    · cases ht
  | eph c => exact ⟨lookup_of_required hcfg (eph_row_required ht), nofun⟩
  | sta k =>
    refine ⟨lookup_of_required hcfg ?_, nofun⟩
    cases k <;> simp only [] at ht <;> simp [requiredRows, ht]
  | igs =>
    refine ⟨lookup_of_required hcfg ?_, nofun⟩
    simp only at ht
    simp [requiredRows, ht]
  | gridTropo => exact ⟨leastTypeIn_lookup ht, nofun⟩
  | gridIono => exact ⟨leastTypeIn_lookup ht, nofun⟩
  | integ => exact ⟨leastTypeIn_lookup ht, nofun⟩

/-- The row a handler's type decodes to is the row that was encoded (R95). -/
theorem decodeType_of_handler {cfg : Cfg} (hcfg : cfgAccepted cfg = true) {i : Instr} {h : Handler} {ty : BitVec 12}
    (hw : i.wireClass = .handler h) (ht : encodeType cfg i = some ty.toNat) : decodeType cfg ty = i := by
  obtain ⟨hl, hrange⟩ := lookup_of_encodeType hcfg hw ht
  have hrow : i = Instr.ofHandler 0 h := eq_of_rowOf (by rw [hw]; rfl)
  cases h with
  | ssr c k => rw [decodeType_ssr hl (hrange c k rfl), hrow]; rfl
  | integ => exact absurd hw (wireClass_ne_handler_integ i)
  | _ => rw [decodeType_handler hl nofun, hrow]; rfl

/-- The row a type of the test range decodes to is the test row that was encoded (R199). -/
theorem decodeType_of_test {cfg : Cfg} (hcfg : cfgAccepted cfg = true) {i : Instr} {c : Constellation} {o : Nat} {ty : BitVec 12}
    (hw : i.wireClass = .test c o) (ht : encodeType cfg i = some ty.toNat) : decodeType cfg ty = i := by
  have hrow : i = Instr.ofSsrTest o c := eq_of_rowOf (by rw [hw]; rfl)
  rw [encodeType, hw] at ht
  simp only at ht
  split at ht
  · cases ht
  · next b hb =>
    split at ht
    · next hcond =>
      obtain ⟨hdef, hrange⟩ := hcond
      obtain ⟨k, hk⟩ := Option.isSome_iff_exists.mp hdef
      have hty : ty.toNat = b + o := (Option.some.inj ht).symm
      rw [decodeType_test (hty ▸ lookup_of_required hcfg (test_row_required hb hk)) (hty ▸ testOffset_add hb hdef)
        (hty ▸ hrange), hrow]
    · cases ht

/-- Under an accepted configuration the type that encodes a message row decodes to that row (R94 to R99, R199). -/
theorem decodeType_of_encodeType {cfg : Cfg} (hcfg : cfgAccepted cfg = true) {i : Instr} {ty : BitVec 12}
    (ht : encodeType cfg i = some ty.toNat) : decodeType cfg ty = i := by
  cases hw : i.wireClass with
  | operation => simp [encodeType, hw] at ht
  | frame => simp [encodeType, hw] at ht
  | handler h => exact decodeType_of_handler hcfg hw ht
  | test c o => exact decodeType_of_test hcfg hw ht
  | integ t' =>
    have hrow : i = .integ t' := eq_of_rowOf (by rw [hw]; rfl)
    rw [encodeType, hw] at ht
    obtain ⟨hl, hty⟩ := Option.ite_none_right_eq_some.mp ht
    obtain rfl : t' = ty := BitVec.eq_of_toNat_eq (Option.some.inj hty)
    rw [decodeType_handler hl nofun, hrow]
    rfl
  | raw t' =>
    have hrow : i = .raw t' := eq_of_rowOf (by rw [hw]; rfl)
    rw [encodeType, hw] at ht
    obtain ⟨hl, hty⟩ := Option.ite_none_right_eq_some.mp ht
    obtain rfl : t' = ty := BitVec.eq_of_toNat_eq (Option.some.inj hty)
    rw [decodeType_raw hl, hrow]

/-! ### The two bytes of a type (R94) -/

theorem ubits_lt (rd : Nat → Byte) (off w : Nat) : ubits rd off w < 2 ^ w := by
  induction w with
  | zero => simp [ubits]
  | succ w ih =>
    have := Bool.toNat_lt (bitAt rd (off + w))
    rw [ubits, pow_succ]
    omega

/-- The first `w` bits of a byte are its high bits (R11). -/
theorem ubits_byte (rd : Nat → Byte) (i : Nat) {w : Nat} (hw : w ≤ 8) : ubits rd (8 * i) w = (rd i).toNat >>> (8 - w) := by
  have hlt : (rd i).toNat < 2 ^ 8 := (rd i).isLt
  refine Nat.eq_of_testBit_eq fun j => ?_
  rw [Nat.testBit_shiftRight]
  by_cases hj : j < w
  · have hbyte : (8 * i + (w - 1 - j)) / 8 = i := by omega
    have hbit : (8 * i + (w - 1 - j)) % 8 = w - 1 - j := by omega
    have hin : w - 1 - j < 8 := by omega
    have hpos : 8 - 1 - (w - 1 - j) = 8 - w + j := by omega
    rw [ubits_testBit _ _ hj, bitAt, hbyte, hbit, BitVec.getMsbD, hpos, BitVec.getLsbD]
    simp only [hin, decide_true, Bool.true_and]
  · have hhigh : ubits rd (8 * i) w < 2 ^ w := ubits_lt rd _ w
    rw [Nat.testBit_lt_two_pow (hhigh.trans_le (Nat.pow_le_pow_right (by decide) (by omega))),
      Nat.testBit_lt_two_pow (hlt.trans_le (Nat.pow_le_pow_right (by decide) (by omega)))]

/-- The type of a payload is its first byte and the high half of its second (R94). -/
theorem decodeMessage_cons (cfg : Cfg) (b0 b1 : Byte) (rest : List Byte) :
    decodeMessage cfg (b0 :: b1 :: rest) = .ok (decodeType cfg (BitVec.ofNat 12 (b0.toNat * 16 + b1.toNat / 16))) := by
  have h0 := ubits_byte (listByte (b0 :: b1 :: rest)) 0 (w := 8) (by decide)
  have h1 := ubits_byte (listByte (b0 :: b1 :: rest)) 1 (w := 4) (by decide)
  have hlen : ¬ (b0 :: b1 :: rest).length < 2 := by simp
  rw [decodeMessage, if_neg hlen, ubits_add _ 0 8 4, h0, h1]
  simp [listByte, Nat.shiftRight_eq_div_pow]

/-- The low four bits of the second byte are no part of the type (R94). -/
theorem type_of_typeBytes {t : Nat} (ht : t < 4096) {x : Byte} (hx : x.toNat < 16) :
    (BitVec.ofNat 8 (t / 16)).toNat * 16 + (BitVec.ofNat 8 (t % 16 * 16) ||| x).toNat / 16 = t := by
  have hhigh : (t % 16 * 16 ||| x.toNat) / 16 = t % 16 := by
    rw [show 16 = 2 ^ 4 from rfl, ← Nat.shiftRight_eq_div_pow, Nat.shiftRight_or_distrib]
    simp [Nat.shiftRight_eq_div_pow, Nat.div_eq_of_lt hx]
  simp only [BitVec.toNat_or, BitVec.toNat_ofNat]
  rw [Nat.mod_eq_of_lt (a := t % 16 * 16) (by omega), hhigh]
  omega

/-- The encoding of an instruction that is no frame: the two bytes of its type, if it has one. -/
theorem encode_message {cfg : Cfg} {i : Instr} (hi : ∀ pad p c, i ≠ .frame pad p c) :
    encode cfg i = (encodeType cfg i).bind fun t => if t < 4096 then some (typeBytes t) else none := by
  cases i
  case frame pad p c => exact absurd rfl (hi pad p c)
  all_goals
    simp only [encode]
    split <;> simp [*]

/-- An instruction that is no frame has an encoding if its type has 12 bits. -/
theorem encode_isSome {cfg : Cfg} {i : Instr} (hi : ∀ pad p c, i ≠ .frame pad p c) {t : Nat} (ht : encodeType cfg i = some t)
    (hlt : t < 4096) : (encode cfg i).isSome = true := by
  rw [encode_message hi, ht, Option.bind_some, if_pos hlt]
  rfl

/-- A row with a wire class of its own is no frame. -/
theorem ne_frame_of_wireClass {i : Instr} {w : WireClass} (hw : i.wireClass = w) (hne : w ≠ .frame) :
    ∀ pad p c, i ≠ .frame pad p c := by
  rintro pad p c rfl
  exact hne hw.symm

/-- Settles O17: the type that encodes a row lies in the type table under the row's handler, and its two bytes are read back. -/
theorem messageTypeDecodeEncode : Obligations.MessageTypeDecodeEncode := by
  unfold Obligations.MessageTypeDecodeEncode
  intro cfg hcfg
  refine ⟨fun i b hb hframe x hx rest => ?_, fun c n v hn => ?_, fun c n k o hn ho hk => ?_, fun t ht => ?_⟩
  · rw [encode_message hframe] at hb
    obtain ⟨t, htype, hbytes⟩ := Option.bind_eq_some_iff.mp hb
    obtain ⟨hlt, hb⟩ := Option.ite_none_right_eq_some.mp hbytes
    have hty : (BitVec.ofNat 12 t).toNat = t := by rw [BitVec.toNat_ofNat, Nat.mod_eq_of_lt hlt]
    refine ⟨_, _, (Option.some.inj hb).symm, ?_⟩
    rw [decodeMessage_cons, type_of_typeBytes hlt hx, decodeType_of_encodeType hcfg (by rw [htype, hty])]
  · have hw : (Instr.ofMsm c v).wireClass = .handler (.msm c v) := wireClass_ofMsm c v
    have htype : encodeType cfg (Instr.ofMsm c v) = some (n + v.offset) := by rw [encodeType, hw]; simp only [hn]; rfl
    exact encode_isSome (ne_frame_of_wireClass hw nofun) htype
      (type_lt_of_lookup hcfg (lookup_of_required hcfg (msm_row_required hn v)))
  · have hw : (Instr.ofSsr c k).wireClass = .handler (.ssr c k) := wireClass_ofSsr c k
    have hmem : k ∈ cfg.ssrKindOfOffset.take 7 := by
      refine List.mem_of_getElem? (i := o) ?_
      rw [List.getElem?_take_of_lt (by omega), hk]
    obtain ⟨o', ho'⟩ := offsetOf_isSome hmem
    have htype : encodeType cfg (Instr.ofSsr c k) = some (n + o') := by rw [encodeType, hw]; simp only [hn, ho']
    exact encode_isSome (ne_frame_of_wireClass hw nofun) htype
      (type_lt_of_lookup hcfg (lookup_of_required hcfg (ssr_row_required hn (getElem?_offsetOf ho'))))
  · have htype : encodeType cfg (.raw t) = some t.toNat := by
      simp only [encodeType, Instr.wireClass, ht, if_true]
    exact encode_isSome nofun htype t.isLt

/-- Settles O18: three of the words' types lie in the rows of their base numbers, three are rows of their own, and `D3` is the
preamble. -/
theorem writtenWordsDecode : Obligations.WrittenWordsDecode := by
  unfold Obligations.WrittenWordsDecode
  decide +kernel

/-! ## Reads that end at the first that does not fit (R123, R356), and the operations that read (R113) -/

section
variable {s : State} {off : Nat}

/-- The first read of some events: it is the first stop if it does not fit, else the first stop comes after it (R123). -/
theorem firstStop_read (len off w : Nat) (es : List Event) :
    firstStop len off (.read w :: es) = if len < off + w then some (.truncatedRead off w, off) else firstStop len (off + w) es :=
  rfl

theorem readBitsU_illegal {w : Nat} (h : w < 1 ∨ 64 < w) : readBitsU s w off = .stop (.usage (some (.int w))) off :=
  if_pos h

theorem readBitsU_truncated {w : Nat} (h1 : 1 ≤ w) (h2 : w ≤ 64) (h : s.cur.bitlen < off + w) :
    readBitsU s w off = .stop (.truncatedRead off w) off := by
  simp only [readBitsU]
  rw [if_neg (by omega), if_pos h]

/-- Fields of legal widths that do not all fit end at the first that does not (R123, R356). -/
theorem readFields_stop {ds : List FieldDesc} (hds : ∀ d ∈ ds, 1 ≤ d.width ∧ d.width ≤ 64) {x : Cond × Nat}
    (hx : firstStop s.cur.bitlen off (fieldEvents ds) = some x) : readFields s ds off = .stop x.1 x.2 := by
  induction ds generalizing off with
  | nil => cases hx
  | cons d ds ih =>
    obtain ⟨h1, h2⟩ := hds d (by simp)
    rw [fieldEvents, List.map_cons, firstStop_read] at hx
    rw [readFields, Rd.forEach]
    split at hx
    · next htrunc =>
      cases hx
      exact Rd.bind_stop (Rd.map_stop (readBitsU_truncated h1 h2 htrunc) _) _
    · next hfit =>
      have hhead : readRawField s d off = _ := readRawField_ok (by simp [widthOk, h1, h2]) (by omega)
      have htail : Rd.forEach (readRawField s) ds (off + d.width) = _ := ih (fun d' hd' => hds d' (by simp [hd'])) hx
      rw [Rd.bind_ok hhead]
      exact Rd.bind_stop htail _

/-- Chunks that do not all fit end at the first that does not (R123, R180, R356). -/
theorem readChunks_stop {ws : List Nat} (hws : ∀ w ∈ ws, 1 ≤ w ∧ w ≤ 64) {x : Cond × Nat}
    (hx : firstStop s.cur.bitlen off (ws.map .read) = some x) (acc : Nat) : readChunks s ws acc off = .stop x.1 x.2 := by
  induction ws generalizing off acc with
  | nil => cases hx
  | cons w ws ih =>
    obtain ⟨h1, h2⟩ := hws w (by simp)
    rw [List.map_cons, firstStop_read] at hx
    rw [readChunks]
    split at hx
    · next htrunc =>
      cases hx
      exact Rd.bind_stop (readBitsU_truncated h1 h2 htrunc) _
    · next hfit =>
      rw [Rd.bind_ok (readBitsU_ok h1 h2 (by omega))]
      exact ih (fun w' hw' => hws w' (by simp [hw'])) hx _

theorem readMaskField_stop (f : MaskId) {m : MaskDesc} (hw : 1 ≤ m.width) {x : Cond × Nat}
    (hx : firstStop s.cur.bitlen off (maskEvents m.width) = some x) : readMaskField s f m off = .stop x.1 x.2 :=
  Rd.map_stop (readChunks_stop (fun _ h => mem_maskChunks hw h) hx 0) _

/-- A mask of no bits is one chunk of no bits (R180), a width no read has. -/
theorem readMaskField_zero (f : MaskId) (offset : Nat) :
    readMaskField s f ⟨0, offset⟩ off = .stop (.usage (some (.int 0))) off :=
  Rd.map_stop (m := readMaskBits s 0)
    (Rd.bind_stop (m := readBitsU s 0) (readBitsU_illegal (.inl Nat.zero_lt_one)) fun v => readChunks s [] (0 * 2 ^ 0 + v)) _

theorem maskAt_pairwise (f : MaskId) (m : MaskDesc) : (maskAt s f m off).Pairwise (· < ·) := by
  rw [maskAt, List.pairwise_map]
  exact (List.pairwise_lt_range.filter _).imp fun h => Nat.add_lt_add_right h _

theorem mem_maskAt (f : MaskId) (m : MaskDesc) (i : Nat) :
    i ∈ maskAt s f m off ↔ ∃ k, k < m.width ∧ i = k + m.offset ∧
      curBit s (match maskOrderOf s.cfg f with | .msb => off + k | .lsb => off + (m.width - 1 - k)) = 1 := by
  simp only [maskAt, List.mem_map, List.mem_filter, List.mem_range, decide_eq_true_eq]
  constructor
  · rintro ⟨k, ⟨hk, hbit⟩, rfl⟩
    exact ⟨k, hk, rfl, hbit⟩
  · rintro ⟨k, hk, rfl, hbit⟩
    exact ⟨k, ⟨hk, hbit⟩, rfl⟩

end

/-- A reading operation that answers a value: the cursor moves by the bits read (R125), and nothing else changes. -/
theorem readUnit_answers {α : Type} {s : State} (hc : s.configured = true) {m : State → Rd α} {a : α} {n : Nat}
    (h : m { s with window := false } s.cur.off = .ok a (s.cur.off + n)) (ret : α → RetVal) :
    unitOp s (fun s => finishRd s (m s) fun a s => s.done (ret a)) = .next ((s.past n).answers (ret a)) := by
  rw [unitOp_configured _ hc]
  simp only [finishRd, h]
  rfl

section
variable {s : State}

theorem exec_readField_ok (hc : s.configured = true) {d : FieldDesc} (hd : widthOk d.width = true) (hfit : Fits s d.width) :
    exec (.readField d) s = .next ((s.past d.width).answers (.value (fieldAt s s.cur.off d).val)) :=
  readUnit_answers hc (m := fun s => readRawField s d) (readRawField_ok (s := s) hd hfit) fun f => .value f.val

theorem exec_readField_stops (hc : s.configured = true) {d : FieldDesc} {x : Cond × Nat}
    (h : readRawField s d s.cur.off = .stop x.1 x.2) : exec (.readField d) s = .next (s.stopsAt x) :=
  readUnit_stops hc (m := fun s => readRawField s d) h _

theorem exec_readHeader_ok (hc : s.configured = true) {h : CorrHandler} {ds : List FieldDesc}
    (hl : corrHeaderOf s.cfg h = some ds) (hds : ∀ d ∈ ds, widthOk d.width = true) (hfit : Fits s (widthOf ds)) :
    exec (.readHeader h) s =
      .next ((s.past (widthOf ds)).answers (.fields (fieldsOf (fieldsAt s s.cur.off ds)))) := by
  refine readUnit_answers hc (m := fun s => readHeader s h) ?_ fun fs => .fields (fieldsOf fs)
  simp only [readHeader, hl]
  exact readFields_ok (s := s) hds hfit

theorem exec_readHeader_stops (hc : s.configured = true) {h : CorrHandler} {ds : List FieldDesc}
    (hl : corrHeaderOf s.cfg h = some ds) {x : Cond × Nat} (hx : readFields s ds s.cur.off = .stop x.1 x.2) :
    exec (.readHeader h) s = .next (s.stopsAt x) := by
  refine readUnit_stops hc (m := fun s => readHeader s h) ?_ _
  simp only [readHeader, hl]
  exact hx

theorem exec_readMask_ok (hc : s.configured = true) (f : MaskId) {width : Nat} (offset : Nat) (hw : 1 ≤ width)
    (hfit : Fits s width) :
    exec (.readMask f width offset) s =
      .next ((s.past width).answers
        (.indices (maskAt s f ⟨width, offset⟩ s.cur.off) (maskAt s f ⟨width, offset⟩ s.cur.off).length)) :=
  readUnit_answers hc (m := fun s => readMaskField s f ⟨width, offset⟩)
    (readMaskField_ok (s := { s with window := false }) f (m := ⟨width, offset⟩) hw hfit)
    fun l => .indices l l.length

theorem exec_readMask_stops (hc : s.configured = true) {f : MaskId} {width offset : Nat} {x : Cond × Nat}
    (hx : readMaskField { s with window := false } f ⟨width, offset⟩ s.cur.off = .stop x.1 x.2) :
    exec (.readMask f width offset) s = .next (s.stopsAt x) :=
  readUnit_stops hc (m := fun s => readMaskField s f ⟨width, offset⟩) hx _

end

/-- Settles O24: the reads of one field and of the fields of a header, where they fit and where the first does not. -/
theorem fieldsAreAssembledInOrder : Obligations.FieldsAreAssembledInOrder := by
  unfold Obligations.FieldsAreAssembledInOrder
  intro s hc
  have legal {w : Nat} (hw : 1 ≤ w ∧ w ≤ 64) : widthOk w = true := by simp [widthOk, hw]
  refine ⟨fun d => ⟨fun hw => ?_, fun h1 h2 => ⟨exec_readField_ok hc (legal ⟨h1, h2⟩), fun x hx => ?_⟩⟩,
    fun h ds hl hds => ⟨exec_readHeader_ok hc hl fun d hd => legal (hds d hd), fun x hx => ?_⟩⟩
  · exact exec_readField_stops hc (x := (.usage (some (.int d.width)), s.cur.off)) (Rd.map_stop (readBitsU_illegal hw) _)
  · have htrunc : s.cur.bitlen < s.cur.off + d.width ∧ (.truncatedRead s.cur.off d.width, s.cur.off) = x := by
      simpa [fieldEvents, firstStop] using hx
    obtain ⟨hlen, rfl⟩ := htrunc
    exact exec_readField_stops hc (Rd.map_stop (readBitsU_truncated h1 h2 hlen) _)
  · exact exec_readHeader_stops hc hl (readFields_stop hds hx)

/-- Settles O25: a mask is read as one number whose set bits are its indices, or ends at the first chunk that does not fit. -/
theorem readMaskListsTheSetBits : Obligations.ReadMaskListsTheSetBits := by
  unfold Obligations.ReadMaskListsTheSetBits
  intro s f width offset hc
  refine ⟨?_, fun hw hfit => ?_, fun x hw hx => ?_⟩
  · rintro rfl
    exact exec_readMask_stops hc (x := (.usage (some (.int 0)), s.cur.off)) (readMaskField_zero f offset)
  · exact ⟨_, exec_readMask_ok hc f offset hw hfit, maskAt_pairwise f _, mem_maskAt f _⟩
  · exact exec_readMask_stops hc (readMaskField_stop (m := ⟨width, offset⟩) f hw hx)

/-! ## A frame that stands in STREAM (R73, R146, R147) -/

/-- Some bytes stand in STREAM at `p`. -/
structure Carries (s : State) (p : Nat) (b : List Byte) : Prop where
  inside : p + b.length ≤ s.slen
  bytes : ∀ i, i < b.length → Memory.get s.stream (p + i) = b.getD i 0

/-- The bytes laid at the stream position stand there (log 15). -/
theorem carries_arrive {s : State} (hwf : Memory.wf s.stream = true) (b : List Byte) : Carries (s.arrive b) s.scan b where
  inside := Nat.le_max_right _ _
  bytes i hi := by
    rw [State.arrive_stream, Memory.get_write _ _ _ _ hwf, if_pos ⟨by omega, by omega⟩, Nat.add_sub_cancel_left]

section
variable {s : State} {p : Nat}

theorem Carries.slice {b : List Byte} (h : Carries s p b) {k n : Nat} (hk : k + n ≤ b.length) :
    Memory.slice s.stream (p + k) n = (b.drop k).take n := by
  refine List.ext_getElem (by simp; omega) fun i hi _ => ?_
  rw [Memory.slice_length] at hi
  have hbyte := h.bytes (k + i) (by omega)
  simp only [Memory.slice, List.getElem_map, List.getElem_range, Nat.add_assoc, hbyte, List.getElem_take, List.getElem_drop]
  exact List.getD_eq_getElem _ _ (by omega)

/-- A scan that starts at a preamble ends there (R141). -/
theorem syncScanFrom_here (hp : p < s.slen) (hpre : Memory.get s.stream p = s.cfg.preamble) : syncScanFrom s p = some p := by
  obtain ⟨k, hk⟩ : ∃ k, s.slen - p = k + 1 := ⟨s.slen - p - 1, by omega⟩
  rw [syncScanFrom, if_neg (by omega), hk, scanPreamble, if_pos hpre]

theorem read16_of_slice {m : Memory} {a : Nat} {b1 b0 : Byte} (h : Memory.slice m a 2 = [b1, b0]) :
    Memory.read16 m a = b1 ++ b0 := by
  obtain ⟨rfl, rfl⟩ : Memory.get m a = b1 ∧ Memory.get m (a + 1) = b0 := by simpa [Memory.slice, List.range_succ] using h
  rfl

theorem read24_of_slice {m : Memory} {a : Nat} {b2 b1 b0 : Byte} (h : Memory.slice m a 3 = [b2, b1, b0]) :
    Memory.read24 m a = b2 ++ b1 ++ b0 := by
  obtain ⟨rfl, rfl, rfl⟩ : Memory.get m a = b2 ∧ Memory.get m (a + 1) = b1 ∧ Memory.get m (a + 2) = b0 := by
    simpa [Memory.slice, List.range_succ] using h
  rfl

section
variable {pad : BitVec 6} {payload : List Byte} {crc : BitVec 24}

theorem Carries.preamble (h : Carries s p (encodeFrame s.cfg pad payload crc)) : Memory.get s.stream p = s.cfg.preamble :=
  h.bytes 0 (by rw [encodeFrame_length]; omega)

theorem Carries.payload_bytes (h : Carries s p (encodeFrame s.cfg pad payload crc)) :
    Memory.slice s.stream (p + 3) payload.length = payload := by
  rw [h.slice (by rw [encodeFrame_length]; omega), encodeFrame_eq]
  simp

theorem Carries.length_field (h : Carries s p (encodeFrame s.cfg pad payload crc)) (hlen : payload.length ≤ 1023) :
    lenReadAt s p = .ok payload.length := by
  have hslice : Memory.slice s.stream (p + 1) 2 =
      [(frameHeader pad payload.length).extractLsb' 8 8, (frameHeader pad payload.length).extractLsb' 0 8] :=
    h.slice (by rw [encodeFrame_length]; omega)
  have hinside := h.inside
  rw [encodeFrame_length] at hinside
  rw [lenReadAt, if_neg (by omega), read16_of_slice hslice, bytes_append_16, frameHeader_length pad hlen]

theorem Carries.in_bounds (h : Carries s p (encodeFrame s.cfg pad payload crc)) :
    boundCheckAt s p payload.length = .ok () := by
  have hinside := h.inside
  rw [encodeFrame_length] at hinside
  exact if_neg (by omega)

theorem Carries.covered_crc (h : Carries s p (encodeFrame s.cfg pad payload crc)) :
    frameCrc s p payload.length =
      Sys2Proof.Machine.crc24 s.cfg.crc ((encodeFrame s.cfg pad payload crc).take (payload.length + 3)) := by
  rw [frameCrc, show p = p + 0 from rfl, h.slice (by rw [encodeFrame_length]; omega), List.drop_zero]

theorem Carries.crc_field (h : Carries s p (encodeFrame s.cfg pad payload crc)) :
    Memory.read24 s.stream (p + 3 + payload.length) = crc := by
  have hslice : Memory.slice s.stream (p + 3 + payload.length) 3 =
      [crc.extractLsb' 16 8, crc.extractLsb' 8 8, crc.extractLsb' 0 8] := by
    rw [Nat.add_assoc, h.slice (by rw [encodeFrame_length]; omega), encodeFrame_eq, ← List.drop_drop]
    simp
  rw [read24_of_slice hslice, bytes_append_24]

/-- The search that starts at a frame accepts it or rejects it by its CRC alone (R146, R147). -/
theorem Carries.search (h : Carries s p (encodeFrame s.cfg pad payload crc)) (hlen : payload.length ≤ 1023) :
    searchFrame s p =
      if crc = Sys2Proof.Machine.crc24 s.cfg.crc ((encodeFrame s.cfg pad payload crc).take (payload.length + 3)) then
        .frame p payload.length crc
      else .cond (.checksum p) := by
  have hinside := h.inside
  rw [encodeFrame_length] at hinside
  have hcand : syncScanFrom s p = some p := syncScanFrom_here (by omega) h.preamble
  simp only [searchFrame, hcand, candidateAt, h.length_field hlen, h.in_bounds, h.covered_crc, h.crc_field, eq_comm]

end

end

/-! ## DECODE_ONE on an accepted frame and on a rejected one (R190, R191) -/

/-- DISPATCH leaves the frame where it is (R193): it writes F's type and no other field, and neither STREAM nor SCAN. -/
theorem dispatchRun_keepsFrame (s : State) :
    (∃ ty, (dispatchRun s).state.f = { s.f with type := ty }) ∧ (dispatchRun s).state.stream = s.stream ∧
      (dispatchRun s).state.scan = s.scan := by
  cases hr : dispatchRun s with
  | ok m t =>
    obtain ⟨ty, off, _, hrun⟩ := dispatchRun_ok hr
    obtain ⟨r, off', _, _, rfl⟩ := runMessage_ok hrun
    exact ⟨⟨_, rfl⟩, rfl, rfl⟩
  | cond c t =>
    obtain rfl | ⟨ty, off, _, hrun⟩ := dispatchRun_cond hr
    · exact ⟨⟨_, rfl⟩, rfl, rfl⟩
    · obtain ⟨off', _, rfl⟩ := runMessage_cond hrun
      exact ⟨⟨_, rfl⟩, rfl, rfl⟩

/-- The end of a decode leaves the run's state but for OUT and how it ended. -/
theorem finishDecode_state (consumed : Nat) (r : Run) :
    ∃ t, finishDecode consumed r = .next t ∧ t.f = r.state.f ∧ t.stream = r.state.stream ∧ t.scan = r.state.scan := by
  cases r <;> exact ⟨_, rfl, rfl, rfl, rfl⟩

theorem exec_decodeOne_configured {s : State} (hc : s.configured = true) (hr : s.cfg.crc.reflected = false) :
    exec .decodeOne s = tick (decodeFrom { s with out := none, window := false }) := by
  show unitOp { s with out := none } decodeBody = _
  rw [unitOp_configured (s := { s with out := none }) _ hc, decodeBody, withCrc, if_neg (by simp [hr])]

/-- A decode of an accepted frame, whether or not its message completes: SCAN is after the frame, and F describes it (R190,
R191). -/
theorem decodeFrom_accepted {s : State} {p len : Nat} {crc : BitVec 24} (hf : searchFrame s s.scan = .frame p len crc) :
    ∃ t ty, decodeFrom s = .next t ∧ t.f = { s.f.after (.frame p len crc) with type := ty } ∧ t.stream = s.stream ∧
      t.scan = p + len + 6 := by
  obtain ⟨⟨ty, hrunf⟩, hrunstream, hrunscan⟩ := dispatchRun_keepsFrame (s.enterFrame (.frame p len crc) p len)
  obtain ⟨t, ht, htf, htstream, htscan⟩ :=
    finishDecode_state (p + len + 6 - s.scan) (dispatchRun (s.enterFrame (.frame p len crc) p len))
  refine ⟨t, ty, ?_, htf.trans hrunf, htstream.trans hrunstream, htscan.trans hrunscan⟩
  rw [decodeFrom, hf]
  exact ht

theorem exec_decodeOne_accepted {s : State} (hc : s.configured = true) (hr : s.cfg.crc.reflected = false) {p len : Nat}
    {crc : BitVec 24} (hf : searchFrame s s.scan = .frame p len crc) :
    ∃ t ty, exec .decodeOne s = .next t ∧ t.f = { s.f.after (.frame p len crc) with type := ty } ∧ t.stream = s.stream ∧
      t.scan = p + len + 6 := by
  obtain ⟨t, ty, ht, htf, htstream, htscan⟩ := decodeFrom_accepted (s := { s with out := none, window := false }) hf
  refine ⟨{ t with free := t.free + 1 }, ty, ?_, htf, htstream, htscan⟩
  rw [exec_decodeOne_configured hc hr, ht, tick_next]

/-- A rejected frame (R191, R192): SCAN is one byte further, and OUT is empty. -/
theorem exec_decodeOne_checksum {s : State} (hc : s.configured = true) (hr : s.cfg.crc.reflected = false) {p : Nat}
    (hf : searchFrame s s.scan = .cond (.checksum p)) :
    exec .decodeOne s = .next { s.stops .checksumMismatch (.pos p) with
      f := { s.f with valid := false }, scan := p + 1, out := none } := by
  have hsearch : searchFrame { s with out := none, window := false } s.scan = .cond (.checksum p) := hf
  rw [exec_decodeOne_configured hc hr, decodeFrom]
  simp only [hsearch]
  rfl

/-- A frame's row is DECODE_ONE on the state with the frame's bytes at SCAN (R90, log 15). -/
theorem exec_frame {s : State} (hc : s.configured = true) (pad : BitVec 6) (payload : List Byte) (crc : BitVec 24) :
    exec (.frame pad payload crc) s = exec .decodeOne (s.arrive (encodeFrame s.cfg pad payload crc)) := by
  have hframe : exec (.frame pad payload crc) s = tick (decodeBody
      (State.arrive { s with out := none, window := false } (encodeFrame s.cfg pad payload crc))) :=
    unitOp_configured (s := { s with out := none }) (fun s => decodeBody (s.arrive (encodeFrame s.cfg pad payload crc))) hc
  have hdecode : exec .decodeOne (s.arrive (encodeFrame s.cfg pad payload crc)) = tick (decodeBody
      { s.arrive (encodeFrame s.cfg pad payload crc) with out := none, window := false }) :=
    unitOp_configured (s := { s.arrive (encodeFrame s.cfg pad payload crc) with out := none }) decodeBody hc
  exact hframe.trans hdecode.symm

/-- The payload of the frame F describes (R24). -/
theorem payload_of_frame {s : State} {p : Nat} {payload : List Byte} (hlen : payload.length ≤ 1023) (hv : s.f.valid = true)
    (hp : s.f.pos = p) (hl : s.f.length = BitVec.ofNat 10 payload.length)
    (hb : Memory.slice s.stream (p + 3) payload.length = payload) : s.payload = payload := by
  have hfield : s.f.length.toNat = payload.length := by rw [hl, BitVec.toNat_ofNat]; omega
  rw [State.payload, if_pos hv, hp, hfield, hb]

/-- Settles O53: the bytes laid at SCAN are the first candidate, whose CRC field alone decides whether it is accepted. -/
theorem anArrivingFrameIsDecoded : Obligations.AnArrivingFrameIsDecoded := by
  unfold Obligations.AnArrivingFrameIsDecoded
  intro s pad payload crc hc hr hwf _ hlen
  have hcarries := carries_arrive hwf (encodeFrame s.cfg pad payload crc)
  have harrive : s.arrive (encodeFrame s.cfg pad payload crc) =
      { s with
        stream := Memory.write s.stream s.scan (encodeFrame s.cfg pad payload crc)
        slen := max s.slen (s.scan + (payload.length + 6)) } := by
    rw [State.arrive, encodeFrame_length]
  have hsearch : searchFrame (s.arrive (encodeFrame s.cfg pad payload crc)) s.scan = _ := hcarries.search hlen
  have hexec := exec_frame hc pad payload crc
  refine ⟨Memory.write s.stream s.scan (encodeFrame s.cfg pad payload crc), fun a => ?_, harrive ▸ hexec, fun hcrc => ?_,
    fun hcrc => ?_⟩
  · rw [Memory.get_write _ _ _ _ hwf, encodeFrame_length]
  · obtain ⟨t, ty, ht, htf, htstream, htscan⟩ := exec_decodeOne_accepted (s := s.arrive _) hc hr (hsearch.trans (if_pos hcrc))
    refine ⟨t, hexec.trans ht, by omega, by rw [htf]; rfl, ?_, htstream⟩
    exact payload_of_frame (p := s.scan) hlen (by rw [htf]; rfl) (by rw [htf]; rfl) (by rw [htf]; rfl)
      (htstream ▸ hcarries.payload_bytes)
  · rw [hexec, exec_decodeOne_checksum (s := s.arrive _) hc hr (hsearch.trans (if_neg hcrc)), harrive]

end Sys2Proof.Machine

/-! SUPPORT and the statements of 40_bitfield.md: how reads and writes at the cursor end in a configured block, which bits and bytes
a write leaves, and that a field is read back as it was written. -/

namespace Sys2Proof.Machine

/-! ## The cursor (R120) -/

section
variable {s : State} {base n : Nat}

theorem exec_curInit (space : Space) :
    exec (.curInit space base n) s = execCurInit space base n s := rfl

theorem exec_curInit_stream (hc : s.configured = true) (h : base + n ≤ s.slen) :
    exec (.curInit .stream base n) s = .next { s.answers .done with cur := ⟨.stream, base, n, 0⟩ } := by
  rw [exec_curInit, execCurInit, unitOp_configured _ hc]
  dsimp only
  rw [if_neg (Nat.not_lt.mpr h)]
  rfl

theorem exec_curInit_beyond (hc : s.configured = true) (h : s.slen < base + n) :
    exec (.curInit .stream base n) s = .next (s.stops .usageError (.arg (.span base n))) := by
  rw [exec_curInit, execCurInit, unitOp_configured _ hc]
  dsimp only
  rw [if_pos h]
  rfl

theorem exec_curInit_obuf (hc : s.configured = true) :
    exec (.curInit .obuf base n) s =
      .next { s.answers .done with cur := ⟨.obuf, base, n, 0⟩, olen := max s.olen (base + n) } := by
  rw [exec_curInit, execCurInit, unitOp_configured _ hc]
  rfl

end

/-- Settles O19: the three ways of CUR_INIT. -/
theorem curInitSetsTheCursor : Obligations.CurInitSetsTheCursor := by
  unfold Obligations.CurInitSetsTheCursor
  exact fun s base n hc => ⟨exec_curInit_stream hc, exec_curInit_beyond hc, exec_curInit_obuf hc⟩

/-! ## Reads (R121 to R128) -/

section
variable {s : State}

/-- A read that stops where it began leaves the cursor (R123). -/
theorem readUnit_stops_here {α : Type} (hc : s.configured = true) {m : State → Rd α} {c : Cond}
    (h : m { s with window := false } s.cur.off = .stop c s.cur.off) (k : α → State → State) :
    unitOp s (fun s => finishRd s (m s) k) = .next (s.stops c.code (c.info s.free)) :=
  readUnit_stops hc h k

/-- READ_U and READ_S stop alike: both read the field first. -/
theorem exec_read_stops (hc : s.configured = true) {w : Nat} {c : Cond}
    (h : readBitsU { s with window := false } w s.cur.off = .stop c s.cur.off) :
    exec (.readU w) s = .next (s.stops c.code (c.info s.free)) ∧
      exec (.readS w) s = .next (s.stops c.code (c.info s.free)) :=
  ⟨readUnit_stops_here hc (m := fun s => readBitsU s w) h _,
    readUnit_stops_here hc (m := fun s => readBitsS s w) (Rd.map_stop h _) _⟩

theorem exec_readU_ok (hc : s.configured = true) {w n : Nat} (h1 : 1 ≤ w) (h2 : w ≤ 64) (hfit : Fits s w)
    (hn : ubits s.curByte s.cur.off w = n) : exec (.readU w) s = .next ((s.past w).answers (.nat n)) := by
  subst hn
  exact readUnit_answers hc (m := fun s => readBitsU s w) (readBitsU_ok (s := { s with window := false }) h1 h2 hfit) .nat

theorem exec_readS_ok (hc : s.configured = true) {w : Nat} {x : Int} (h1 : 1 ≤ w) (h2 : w ≤ 64) (hfit : Fits s w)
    (hx : sext w (ubits s.curByte s.cur.off w) = x) : exec (.readS w) s = .next ((s.past w).answers (.int x)) := by
  subst hx
  exact readUnit_answers hc (m := fun s => readBitsS s w)
    (Rd.map_ok (readBitsU_ok (s := { s with window := false }) h1 h2 hfit) (sext w)) .int

end

/-- Settles O20: both reads stop alike, and answer the bits from the cursor on. -/
theorem readsGiveTheFieldsBits : Obligations.ReadsGiveTheFieldsBits := by
  unfold Obligations.ReadsGiveTheFieldsBits
  intro s w hc
  refine ⟨fun hw => exec_read_stops hc (readBitsU_illegal hw),
    fun h1 h2 hlen => exec_read_stops hc (readBitsU_truncated (s := { s with window := false }) h1 h2 hlen),
    fun h1 h2 hfit => ?_⟩
  rw [bitsAt_eq, signedValue_eq]
  exact ⟨exec_readU_ok hc h1 h2 hfit rfl, ubits_lt _ _ _, exec_readS_ok hc h1 h2 hfit rfl⟩

/-! ## How a write in a configured block ends (R129 to R132) -/

/-- The state after a write of `n` bits at the cursor left `m` in OBUF (log 16). -/
def State.wrote (s : State) (m : Memory) (n : Nat) : State :=
  { (s.past n).answers .done with obuf := m, olen := max s.olen (s.cur.base + (s.cur.off + n + 7) / 8) }

section
variable {s : State} {w : Memory → Cursor → WrRes}

theorem writeUnit_stops (hc : s.configured = true) {c : Cond} (h : w (s.buffer s.cur.space) s.cur = .error c) :
    unitOp s (fun s => writeOp s w) = .next (s.stops c.code (c.info s.free)) := by
  have hw : w (State.buffer { s with window := false } s.cur.space) s.cur = .error c := h
  rw [unitOp_configured _ hc]
  simp only [writeOp, hw]
  rfl

theorem writeUnit_answers (hc : s.configured = true) (hs : s.cur.space = .obuf) {m : Memory} {n : Nat} (hn : 0 < n)
    (h : w s.obuf s.cur = .ok (m, s.cur.off + n)) :
    unitOp s (fun s => writeOp s w) = .next (s.wrote m n) := by
  have hw : w (State.buffer { s with window := false } .obuf) s.cur = .ok (m, s.cur.off + n) := h
  have hmoved : s.cur.off + n ≠ s.cur.off := by omega
  rw [unitOp_configured _ hc]
  simp only [writeOp, hs, hw, if_neg hmoved, State.wrote, State.past]
  rfl

/-- A write that moves no bit changes nothing but how the operation ended, over either buffer. -/
theorem writeUnit_answers_nothing (hc : s.configured = true) {m : Memory}
    (h : w (s.buffer s.cur.space) s.cur = .ok (m, s.cur.off)) :
    unitOp s (fun s => writeOp s w) = .next (s.answers .done) := by
  have hw : w (State.buffer { s with window := false } s.cur.space) s.cur = .ok (m, s.cur.off) := h
  rw [unitOp_configured _ hc]
  simp only [writeOp, hw, if_pos]
  rfl

/-- A write over OBUF that ended in OK did not stop. -/
theorem writeUnit_ok (hc : s.configured = true) (hs : s.cur.space = .obuf) {t : State}
    (h : unitOp s (fun s => writeOp s w) = .next t) (hok : t.result.code = .ok) : ∃ r, w s.obuf s.cur = .ok r := by
  cases hw : w s.obuf s.cur with
  | ok r => exact ⟨r, rfl⟩
  | error c =>
    have hstop := writeUnit_stops hc (w := w) (c := c) (by rw [hs]; exact hw)
    cases h.symm.trans hstop
    exact absurd hok c.code_ne_ok

end

/-! ## Byte blocks (R127, R128, R131) -/

section
variable {s : State}

theorem readByteBlock_misaligned {off : Nat} (h : off % 8 ≠ 0) (n : Nat) :
    readByteBlock s n off = .stop (.usage (some (.int off))) off := if_pos h

theorem readByteBlock_truncated {off n : Nat} (ha : off % 8 = 0) (h : s.cur.bitlen < off + 8 * n) :
    readByteBlock s n off = .stop (.truncatedRead off (8 * n)) off := by
  rw [readByteBlock, if_neg (by omega), if_pos h]

theorem readByteBlock_ok {off n : Nat} (ha : off % 8 = 0) (h : off + 8 * n ≤ s.cur.bitlen) :
    readByteBlock s n off = .ok ((List.range n).map fun i => s.curByte (off / 8 + i)) (off + 8 * n) := by
  rw [readByteBlock, if_neg (by omega), if_neg (by omega)]

theorem putBytes_misaligned {m : Memory} {cur : Cursor} (h : cur.off % 8 ≠ 0) (b : List Byte) :
    putBytes m cur b = .error (.usage (some (.int cur.off))) := if_pos h

theorem putBytes_truncated {m : Memory} {cur : Cursor} {b : List Byte} (ha : cur.off % 8 = 0)
    (h : cur.bitlen < cur.off + 8 * b.length) : putBytes m cur b = .error (.truncatedRead cur.off (8 * b.length)) := by
  rw [putBytes, if_neg (by omega), if_pos h]

theorem putBytes_fits {m : Memory} {cur : Cursor} {b : List Byte} (ha : cur.off % 8 = 0)
    (h : cur.off + 8 * b.length ≤ cur.bitlen) :
    putBytes m cur b = .ok (Memory.write m (cur.base + cur.off / 8) b, cur.off + 8 * b.length) := by
  rw [putBytes, if_neg (by omega), if_neg (by omega)]

theorem exec_readBytes_stops (hc : s.configured = true) {n : Nat} {c : Cond}
    (h : readByteBlock { s with window := false } n s.cur.off = .stop c s.cur.off) :
    exec (.readBytes n) s = .next (s.stops c.code (c.info s.free)) :=
  readUnit_stops_here hc (m := fun s => readByteBlock s n) h _

theorem exec_readBytes_ok (hc : s.configured = true) {n : Nat} (ha : s.cur.off % 8 = 0) (hfit : Fits s (8 * n)) :
    exec (.readBytes n) s =
      .next ((s.past (8 * n)).answers (.bytes ((List.range n).map fun i => s.curByte (s.cur.off / 8 + i)))) :=
  readUnit_answers hc (m := fun s => readByteBlock s n) (readByteBlock_ok (s := { s with window := false }) ha hfit) .bytes

theorem exec_writeBytes_stops (hc : s.configured = true) {b : List Byte} {c : Cond}
    (h : putBytes (s.buffer s.cur.space) s.cur b = .error c) :
    exec (.writeBytes b) s = .next (s.stops c.code (c.info s.free)) :=
  writeUnit_stops hc (w := fun m cur => putBytes m cur b) h

theorem exec_writeBytes_nil (hc : s.configured = true) (ha : s.cur.off % 8 = 0) (hfit : Fits s 0) :
    exec (.writeBytes []) s = .next (s.answers .done) :=
  writeUnit_answers_nothing hc (w := fun m cur => putBytes m cur []) (putBytes_fits (b := []) ha hfit)

/-- The bytes stored at an aligned cursor end at a byte: OBUF grows to that byte (log 16). -/
theorem exec_writeBytes_ok (hc : s.configured = true) {b : List Byte} (ha : s.cur.off % 8 = 0) (hs : s.cur.space = .obuf)
    (hfit : Fits s (8 * b.length)) :
    exec (.writeBytes b) s =
      .next { (s.past (8 * b.length)).answers .done with
        obuf := Memory.write s.obuf (s.cur.base + s.cur.off / 8) b
        olen := if b = [] then s.olen else max s.olen (s.cur.base + (s.cur.off / 8 + b.length)) } := by
  cases b with
  | nil => exact exec_writeBytes_nil hc ha hfit
  | cons x b =>
    have hend : (s.cur.off + 8 * (x :: b).length + 7) / 8 = s.cur.off / 8 + (x :: b).length := by omega
    have hexec : exec (.writeBytes (x :: b)) s = .next (s.wrote _ _) :=
      writeUnit_answers hc hs (w := fun m cur => putBytes m cur (x :: b)) (by simp) (putBytes_fits ha hfit)
    rw [hexec, State.wrote, hend, if_neg (List.cons_ne_nil x b)]

end

/-- Settles O21: both blocks stop alike; the bytes read are the span's, the bytes written are the block's. -/
theorem byteBlocksAreCopied : Obligations.ByteBlocksAreCopied := by
  unfold Obligations.ByteBlocksAreCopied
  intro s n b hc hwf
  refine ⟨fun ha => ⟨exec_readBytes_stops hc (readByteBlock_misaligned ha n),
      exec_writeBytes_stops hc (putBytes_misaligned ha b)⟩,
    fun ha hlen => exec_readBytes_stops hc (readByteBlock_truncated (s := { s with window := false }) ha hlen),
    fun ha hlen => exec_writeBytes_stops hc (putBytes_truncated ha hlen),
    fun ha hfit => ⟨_, exec_readBytes_ok hc ha hfit, by simp, fun i hi => by simp [hi]⟩,
    fun ha hs hfit => ⟨_, exec_writeBytes_ok hc ha hs hfit, fun a => Memory.get_write _ _ _ _ hwf⟩⟩

/-! ## Bit fields (R11, R13, R129, R130) -/

/-- The byte with its top bit alone (R11). -/
theorem topBit_getMsbD (n : Nat) : (0x80#8).getMsbD n = decide (n = 0) := by
  rcases Nat.lt_or_ge n 8 with hn | hn
  · interval_cases n <;> rfl
  · rw [BitVec.getMsbD_of_ge _ _ hn, eq_comm, decide_eq_false_iff_not]
    omega

/-- The mask of bit `i` of a byte has that bit and no other (R11). -/
theorem bitMask_getMsbD {i j : Nat} (hj : j < 8) : (0x80#8 >>> i).getMsbD j = decide (j = i) := by
  rw [BitVec.getMsbD_ushiftRight, topBit_getMsbD, Bool.eq_iff_iff]
  simp only [Bool.and_eq_true, Bool.not_eq_true', decide_eq_true_eq, decide_eq_false_iff_not]
  omega

/-- Setting or clearing one bit of a byte: that bit, and every other as before (R11). -/
theorem setBit_byte_getMsbD (v : Byte) (b : Bool) {i j : Nat} (hj : j < 8) :
    (if b then v ||| 0x80#8 >>> i else v &&& ~~~(0x80#8 >>> i)).getMsbD j = if j = i then b else v.getMsbD j := by
  have hmask := bitMask_getMsbD (i := i) hj
  cases b
  · rw [if_neg Bool.false_ne_true, BitVec.getMsbD_and, BitVec.getMsbD_not, hmask]
    by_cases h : j = i <;> simp [h, hj]
  · rw [if_pos rfl, BitVec.getMsbD_or, hmask]
    by_cases h : j = i <;> simp [h]

/-- Setting bit `k` of the buffer from `base`: that bit of the memory, and every other as before (R11). -/
theorem bitAt_setBit {m : Memory} (hwf : Memory.wf m = true) (base k x : Nat) (b : Bool) :
    bitAt (Memory.get (setBit m base k b)) x = if x = 8 * base + k then b else bitAt (Memory.get m) x := by
  rcases eq_or_ne (x / 8) (base + k / 8) with hbyte | hbyte
  · have hx : x % 8 < 8 := Nat.mod_lt _ (by decide)
    have hbit : x = 8 * base + k ↔ x % 8 = k % 8 := by omega
    simp only [bitAt, setBit, Memory.get_set _ _ _ _ hwf, hbyte, if_true, hbit, setBit_byte_getMsbD _ _ hx]
  · rw [bitAt, setBit_get_ne _ _ _ _ _ hwf hbyte, if_neg (by omega), bitAt]

/-- A field write: the bits of the value in the field, first bit most significant, and every other bit as before (R129). -/
theorem bitAt_writeBits (w : Nat) {m : Memory} (hwf : Memory.wf m = true) (base off v k : Nat) :
    bitAt (Memory.get (writeBits m base off w v)) k =
      if 8 * base + off ≤ k ∧ k < 8 * base + off + w then v.testBit (w - 1 - (k - (8 * base + off)))
      else bitAt (Memory.get m) k := by
  induction w generalizing m off with
  | zero => rw [writeBits, if_neg (by omega)]
  | succ w ih =>
    rw [writeBits, ih (setBit_wf m base off _ hwf), bitAt_setBit hwf]
    by_cases hfirst : k = 8 * base + off
    · subst hfirst
      rw [if_neg (by omega), if_pos rfl, if_pos (by omega)]
      simp
    · rw [if_neg hfirst]
      by_cases hin : 8 * base + (off + 1) ≤ k ∧ k < 8 * base + (off + 1) + w
      · rw [if_pos hin, if_pos (by omega)]
        congr 1
        omega
      · rw [if_neg hin, if_neg (by omega)]

/-- A field whose bits are those of `v` has the value `v` (R13). -/
theorem ubits_of_bits {rd : Nat → Byte} {off w v : Nat} (hv : v < 2 ^ w)
    (h : ∀ j, j < w → bitAt rd (off + j) = v.testBit (w - 1 - j)) : ubits rd off w = v := by
  refine Nat.eq_of_testBit_eq fun i => ?_
  rcases Nat.lt_or_ge i w with hi | hi
  · rw [ubits_testBit _ _ hi, h _ (by omega)]
    congr 1
    omega
  · have hpow : 2 ^ w ≤ 2 ^ i := Nat.pow_le_pow_right (by decide) hi
    rw [Nat.testBit_lt_two_pow ((ubits_lt rd off w).trans_le hpow), Nat.testBit_lt_two_pow (hv.trans_le hpow)]

/-- A bit of a span over OBUF is a bit of OBUF, as far as OBUF reaches (R25). -/
theorem bitAt_curByte_obuf {s : State} (hs : s.cur.space = .obuf) {k : Nat} (hk : s.cur.base + k / 8 < s.olen) :
    bitAt s.curByte k = bitAt (Memory.get s.obuf) (8 * s.cur.base + k) := by
  have hlen : s.cur.base + k / 8 < s.bufLen s.cur.space := by rw [hs]; exact hk
  rw [bitAt, bitAt, State.curByte, if_pos hlen, hs, show (8 * s.cur.base + k) / 8 = s.cur.base + k / 8 by omega,
    Nat.mul_add_mod]
  rfl

theorem emod_two_pow_toNat_lt (v : Int) (w : Nat) : (v % 2 ^ w).toNat < 2 ^ w := by
  have hpos : (0 : Int) < 2 ^ w := by positivity
  have := Int.emod_lt_of_pos v hpos
  zify
  rw [Int.toNat_of_nonneg (Int.emod_nonneg v hpos.ne')]
  exact_mod_cast this

/-- Two's complement of `w` bits represents every value of the signed range (R13, R130). -/
theorem sext_emod {w : Nat} {v : Int} (hw : 1 ≤ w) (hlo : -(2 ^ (w - 1)) ≤ v) (hhi : v < 2 ^ (w - 1)) :
    sext w (v % 2 ^ w).toNat = v := by
  obtain ⟨w, rfl⟩ : ∃ n, w = n + 1 := ⟨w - 1, by omega⟩
  simp only [Nat.add_sub_cancel] at hlo hhi
  have hpow : (2 : Int) ^ (w + 1) = 2 * 2 ^ w := by ring
  have hcast : ((2 ^ w : Nat) : Int) = 2 ^ w := by push_cast; rfl
  rw [sext, Nat.add_sub_cancel, hpow]
  generalize (2 : Int) ^ w = p at *
  generalize 2 ^ w = q at *
  rcases le_or_gt 0 v with hv | hv
  · rw [Int.emod_eq_of_lt hv (by omega), if_pos (by omega)]
    omega
  · rw [← Int.add_mul_emod_self_left v (2 * p) 1, Int.emod_eq_of_lt (by omega) (by omega), if_neg (by omega)]
    omega

/-! ## WRITE_U and WRITE_S (R129, R130, R132) -/

section
variable {m : Memory} {cur : Cursor} {w : Nat} {v : Int} {ovf : Ovf}

theorem putU_illegal (hw : w < 1 ∨ 64 < w) : putU m cur w v ovf = .error (.usage (some (.int w))) := if_pos hw

theorem putU_overflow (h1 : 1 ≤ w) (h2 : w ≤ 64) (hv : ¬(0 ≤ v ∧ v < 2 ^ w)) :
    putU m cur w v .fail = .error (.usage (some (.int v))) := by
  rw [putU, if_neg (by omega), if_pos ⟨by omega, rfl⟩]

/-- A value the field takes: in its range, or truncated to it (R132). -/
theorem putU_taken (h1 : 1 ≤ w) (h2 : w ≤ 64) (hv : (0 ≤ v ∧ v < 2 ^ w) ∨ ovf = .truncate) :
    putU m cur w v ovf =
      if cur.bitlen < cur.off + w then .error (.truncatedRead cur.off w)
      else .ok (writeBits m cur.base cur.off w (v % 2 ^ w).toNat, cur.off + w) := by
  rw [putU, if_neg (by omega), if_neg]
  rintro ⟨hout, rfl⟩
  rcases hv with hv | hv
  · omega
  · cases hv

theorem signedOverflow_iff (hw : 1 ≤ w) : signedOverflow w v = true ↔ ¬(-(2 ^ (w - 1)) ≤ v ∧ v < 2 ^ (w - 1)) := by
  rw [signedOverflow, if_neg (by omega), Bool.or_eq_true, decide_eq_true_eq, decide_eq_true_eq]
  omega

theorem putS_overflow (h : signedOverflow w v = true) : putS m cur w v .fail = .error (.usage (some (.int v))) :=
  if_pos ⟨h, rfl⟩

/-- Without an overflow to refuse, WRITE_S is WRITE_U of the value modulo `2 ^ w` (R130). -/
theorem putS_eq_putU (h : ¬(signedOverflow w v = true ∧ ovf = .fail)) :
    putS m cur w v ovf = putU m cur w (v % 2 ^ w) .truncate := if_neg h

theorem putS_illegal (hw : w < 1 ∨ 64 < w) :
    ∃ x, (x = (w : Int) ∨ (x = v ∧ ovf = .fail)) ∧ putS m cur w v ovf = .error (.usage (some (.int x))) := by
  by_cases h : signedOverflow w v = true ∧ ovf = .fail
  · exact ⟨v, .inr ⟨rfl, h.2⟩, if_pos h⟩
  · exact ⟨w, .inl rfl, (putS_eq_putU h).trans (putU_illegal hw)⟩

theorem putS_taken (h1 : 1 ≤ w) (h2 : w ≤ 64) (hv : (-(2 ^ (w - 1)) ≤ v ∧ v < 2 ^ (w - 1)) ∨ ovf = .truncate) :
    putS m cur w v ovf =
      if cur.bitlen < cur.off + w then .error (.truncatedRead cur.off w)
      else .ok (writeBits m cur.base cur.off w (v % 2 ^ w).toNat, cur.off + w) := by
  rw [putS_eq_putU, putU_taken h1 h2 (.inr rfl), Int.emod_emod_of_dvd _ dvd_rfl]
  rintro ⟨hout, rfl⟩
  rcases hv with hv | hv
  · exact (signedOverflow_iff h1).mp hout hv
  · cases hv

end

/-- The state after a write of the `w` low bits of `v` at the cursor. -/
def State.wroteField (s : State) (w v : Nat) : State := s.wrote (writeBits s.obuf s.cur.base s.cur.off w v) w

section
variable {s : State} {w : Nat} {v : Int} {ovf : Ovf}

theorem exec_writeU_stops (hc : s.configured = true) {c : Cond} (h : putU (s.buffer s.cur.space) s.cur w v ovf = .error c) :
    exec (.writeU w v ovf) s = .next (s.stops c.code (c.info s.free)) :=
  writeUnit_stops hc (w := fun m cur => putU m cur w v ovf) h

theorem exec_writeS_stops (hc : s.configured = true) {c : Cond} (h : putS (s.buffer s.cur.space) s.cur w v ovf = .error c) :
    exec (.writeS w v ovf) s = .next (s.stops c.code (c.info s.free)) :=
  writeUnit_stops hc (w := fun m cur => putS m cur w v ovf) h

theorem exec_writeU_ok (hc : s.configured = true) (hs : s.cur.space = .obuf) (h1 : 1 ≤ w) {n : Nat}
    (h : putU s.obuf s.cur w v ovf = .ok (writeBits s.obuf s.cur.base s.cur.off w n, s.cur.off + w)) :
    exec (.writeU w v ovf) s = .next (s.wroteField w n) :=
  writeUnit_answers hc hs (w := fun m cur => putU m cur w v ovf) h1 h

theorem exec_writeS_ok (hc : s.configured = true) (hs : s.cur.space = .obuf) (h1 : 1 ≤ w) {n : Nat}
    (h : putS s.obuf s.cur w v ovf = .ok (writeBits s.obuf s.cur.base s.cur.off w n, s.cur.off + w)) :
    exec (.writeS w v ovf) s = .next (s.wroteField w n) :=
  writeUnit_answers hc hs (w := fun m cur => putS m cur w v ovf) h1 h

end

/-- Settles O22: the checks in their order, then a field write whose bits `bitAt_writeBits` gives. -/
theorem writesMoveExactlyTheirBits : Obligations.WritesMoveExactlyTheirBits := by
  unfold Obligations.WritesMoveExactlyTheirBits
  intro s w v ovf hc hwf inU inS written
  have hwritten : written (s.wroteField w (v % 2 ^ w).toNat) := ⟨_, rfl, bitAt_writeBits w hwf _ _ _⟩
  refine ⟨fun hw => ⟨exec_writeU_stops hc (putU_illegal hw), ?_⟩, ?_, fun h1 h2 hlen => ⟨fun hv => ?_, fun hv => ?_⟩,
    fun h1 h2 hs hfit => ?_⟩
  · obtain ⟨x, hx, hstop⟩ := putS_illegal (m := s.buffer s.cur.space) (cur := s.cur) (v := v) (ovf := ovf) hw
    exact ⟨x, hx, exec_writeS_stops hc hstop⟩
  · rintro h1 h2 rfl
    exact ⟨fun hv => exec_writeU_stops hc (putU_overflow h1 h2 hv),
      fun hv => exec_writeS_stops hc (putS_overflow ((signedOverflow_iff h1).mpr hv))⟩
  · exact exec_writeU_stops hc ((putU_taken h1 h2 hv).trans (if_pos hlen))
  · exact exec_writeS_stops hc ((putS_taken h1 h2 hv).trans (if_pos hlen))
  · have hroom : ¬s.cur.bitlen < s.cur.off + w := Nat.not_lt.mpr hfit
    exact ⟨fun hv => ⟨_, exec_writeU_ok hc hs h1 ((putU_taken h1 h2 hv).trans (if_neg hroom)), hwritten⟩,
      fun hv => ⟨_, exec_writeS_ok hc hs h1 ((putS_taken h1 h2 hv).trans (if_neg hroom)), hwritten⟩⟩

/-! ## Reading back what was written (R129, R130) -/

section
variable {s t : State} {w n : Nat}

/-- A field write over OBUF that ended in OK had a legal width and wrote its field (R129, R130). -/
theorem writeUnit_wroteField (hc : s.configured = true) (hs : s.cur.space = .obuf) {put : Memory → Cursor → WrRes}
    (hput : ∀ {m off}, put s.obuf s.cur = .ok (m, off) →
      WriteOk s.obuf s.cur m off ∧ 1 ≤ w ∧ w ≤ 64 ∧ off = s.cur.off + w ∧ m = writeBits s.obuf s.cur.base s.cur.off w n)
    (h : unitOp s (fun s => writeOp s put) = .next t) (hok : t.result.code = .ok) :
    1 ≤ w ∧ w ≤ 64 ∧ t = s.wroteField w n := by
  obtain ⟨⟨m, off⟩, hres⟩ := writeUnit_ok hc hs h hok
  obtain ⟨_, h1, h2, rfl, rfl⟩ := hput hres
  exact ⟨h1, h2, Host.Outcome.next.inj (h.symm.trans (writeUnit_answers hc hs h1 hres))⟩

/-- From the offset of a field write the field's value is read: OBUF has grown to hold all its bits (log 16). -/
theorem ubits_wroteField (hwf : Memory.wf s.obuf = true) (hs : s.cur.space = .obuf) (hn : n < 2 ^ w) :
    ubits (State.curByte { s.wroteField w n with cur := s.cur }) s.cur.off w = n := by
  refine ubits_of_bits hn fun j hj => ?_
  have hinside : s.cur.base + (s.cur.off + j) / 8 < (s.wroteField w n).olen := by
    show _ < max s.olen (s.cur.base + (s.cur.off + w + 7) / 8)
    omega
  rw [bitAt_curByte_obuf (s := { s.wroteField w n with cur := s.cur }) hs hinside]
  show bitAt (Memory.get (writeBits s.obuf s.cur.base s.cur.off w n)) (8 * s.cur.base + (s.cur.off + j)) = _
  rw [bitAt_writeBits w hwf, if_pos (by omega)]
  congr 1
  omega

end

/-- Settles O23: a write that ended in OK left its field in OBUF, where the read finds it. -/
theorem writeThenReadGivesItBack : Obligations.WriteThenReadGivesItBack := by
  unfold Obligations.WriteThenReadGivesItBack
  intro s w v ovf t hc hwf hs hfit
  have hback := ubits_wroteField hwf hs (emod_two_pow_toNat_lt v w)
  refine ⟨fun hexec hok => ?_, fun hexec hok hlo hhi => ?_⟩
  · obtain ⟨h1, h2, rfl⟩ := writeUnit_wroteField hc hs (putU_ok hwf) hexec hok
    exact exec_readU_ok (s := { s.wroteField w (v % 2 ^ w).toNat with cur := s.cur }) hc h1 h2 hfit hback
  · obtain ⟨h1, h2, rfl⟩ := writeUnit_wroteField hc hs (putS_ok hwf) hexec hok
    exact exec_readS_ok (s := { s.wroteField w (v % 2 ^ w).toNat with cur := s.cur }) hc h1 h2 hfit
      ((congrArg (sext w) hback).trans (sext_emod h1 hlo hhi))

end Sys2Proof.Machine

/-! SUPPORT and the statements of 41_framesync.md: the frame search in the terms of the statements, the CRC as long division,
changed frames, emitted frames, and the named stops. -/

namespace Sys2Proof.Machine

/-! ## The frame search in the terms of the statements (R141 to R146) -/

section
variable {s : State} {start p len : Nat}

theorem FirstCandidate.not_noCandidate (h : FirstCandidate s start p) : ¬ NoCandidate s start := by
  obtain ⟨h1, h2, hpre, _⟩ := h
  exact fun hnone => hnone p h1 h2 hpre

theorem FirstCandidate.unique {q : Nat} (hp : FirstCandidate s start p) (hq : FirstCandidate s start q) : p = q := by
  obtain ⟨hp1, _, hppre, hpbefore⟩ := hp
  obtain ⟨hq1, _, hqpre, hqbefore⟩ := hq
  have hqp : ¬ q < p := fun hlt => hpbefore q hq1 hlt hqpre
  have hpq : ¬ p < q := fun hlt => hqbefore p hp1 hlt hppre
  omega

/-- What the scan finds is the first candidate (R141). -/
theorem firstCandidate_of_scan (hs : start ≤ s.slen) (h : syncScanFrom s start = some p) : FirstCandidate s start p := by
  rw [syncScanFrom, if_neg (Nat.not_lt.mpr hs)] at h
  obtain ⟨h1, h2, hpre, hbefore⟩ := scanPreamble_some h
  exact ⟨h1, by omega, hpre, hbefore⟩

/-- Where the scan finds nothing there is no candidate (R141). -/
theorem noCandidate_of_scan (hs : start ≤ s.slen) (h : syncScanFrom s start = none) : NoCandidate s start := by
  rw [syncScanFrom, if_neg (Nat.not_lt.mpr hs)] at h
  exact fun x h1 h2 => scanPreamble_none h x h1 (by omega)

theorem syncScanFrom_none (hs : start ≤ s.slen) (h : NoCandidate s start) : syncScanFrom s start = none := by
  cases hscan : syncScanFrom s start with
  | none => rfl
  | some q => exact absurd h (firstCandidate_of_scan hs hscan).not_noCandidate

theorem syncScanFrom_first (h : FirstCandidate s start p) : syncScanFrom s start = some p := by
  obtain ⟨h1, h2, _⟩ := id h
  have hs : start ≤ s.slen := h1.trans h2.le
  cases hscan : syncScanFrom s start with
  | none => exact absurd (noCandidate_of_scan hs hscan) h.not_noCandidate
  | some q => rw [h.unique (firstCandidate_of_scan hs hscan)]

/-- A byte appended to a value is its lowest eight bits (R67). -/
theorem append_byte_toNat {n : Nat} (x : BitVec n) (y : Byte) : (x ++ y).toNat = x.toNat * 256 + y.toNat := by
  rw [BitVec.toNat_append, ← Nat.shiftLeft_add_eq_or_of_lt y.isLt, Nat.shiftLeft_eq]

/-- The length a candidate announces is its length field (R92, R142). -/
theorem lenReadAt_eq (s : State) (p : Nat) :
    lenReadAt s p = if s.slen < p + 3 then .error (.truncatedAt p) else .ok (lengthField s p) := by
  have hlow : ((Memory.read16 s.stream (p + 1)).extractLsb' 0 10).toNat = lengthField s p := by
    have hbyte := (Memory.get s.stream (p + 2)).isLt
    rw [BitVec.extractLsb'_toNat, Nat.shiftRight_zero, Memory.read16, append_byte_toNat, lengthField, Nat.add_assoc p 1 1]
    omega
  rw [lenReadAt, hlow]

/-- The trailing bytes of a candidate as one number (R67). -/
theorem read24_toNat (s : State) (p len : Nat) :
    (Memory.read24 s.stream (p + 3 + len)).toNat = trailingField s p len := by
  rw [Memory.read24, append_byte_toNat, append_byte_toNat, trailingField, show p + 3 + len + 1 = p + 4 + len by omega,
    show p + 3 + len + 2 = p + 5 + len by omega]
  omega

/-- A candidate whose header or whose frame does not fit STREAM (R143, R144). -/
theorem candidateAt_truncated (h : s.slen < p + 3 ∨ s.slen < p + lengthField s p + 6) :
    candidateAt s p = .cond (.truncatedAt p) := by
  by_cases hhead : s.slen < p + 3
  · simp only [candidateAt, lenReadAt_eq, if_pos hhead]
  · have hbound := h.resolve_left hhead
    simp only [candidateAt, lenReadAt_eq, if_neg hhead, boundCheckAt, if_pos hbound]

/-- A candidate that fits STREAM is accepted or rejected by its CRC alone (R146, R147). -/
theorem candidateAt_fits (h : p + lengthField s p + 6 ≤ s.slen) :
    candidateAt s p =
      if (frameCrc s p (lengthField s p)).toNat = trailingField s p (lengthField s p) then
        .frame p (lengthField s p) (frameCrc s p (lengthField s p))
      else .cond (.checksum p) := by
  have hhead : ¬ s.slen < p + 3 := by omega
  simp only [candidateAt, lenReadAt_eq, if_neg hhead, boundCheckAt, if_neg (Nat.not_lt.mpr h), ← read24_toNat,
    BitVec.toNat_inj]
  split
  · next hcrc => rw [hcrc]
  · rfl

theorem searchFrame_first (h : FirstCandidate s start p) : searchFrame s start = candidateAt s p := by
  rw [searchFrame, syncScanFrom_first h]

/-- A unit that computes a CRC, in a block configured for one (R145). -/
theorem crcUnit_configured (hc : s.configured = true) (hr : s.cfg.crc.reflected = false) (body : State → Out) :
    unitOp s (fun s => withCrc s body) = tick (body { s with window := false }) := by
  rw [unitOp_configured _ hc, withCrc, if_neg (ne_true_of_eq_false hr)]

/-- FIND_FRAME in a configured block is its search (R146). -/
theorem exec_findFrame (hc : s.configured = true) (hr : s.cfg.crc.reflected = false) (start : Nat) :
    exec (.findFrame start) s = tick (.next (State.found { s with window := false } (searchFrame s start))) :=
  crcUnit_configured hc hr fun s => .next (s.found (searchFrame s start))

theorem exec_findFrame_noFrame (hc : s.configured = true) (hr : s.cfg.crc.reflected = false)
    (h : searchFrame s start = .noFrame) :
    exec (.findFrame start) s = .next { s.answers .noFrame with f := { s.f with valid := false } } := by
  rw [exec_findFrame hc hr, h]
  rfl

theorem exec_findFrame_cond (hc : s.configured = true) (hr : s.cfg.crc.reflected = false) {c : Cond}
    (h : searchFrame s start = .cond c) :
    exec (.findFrame start) s = .next { s.stops c.code (c.info s.free) with f := { s.f with valid := false } } := by
  rw [exec_findFrame hc hr, h]
  rfl

theorem exec_findFrame_frame (hc : s.configured = true) (hr : s.cfg.crc.reflected = false)
    (h : searchFrame s start = .frame p len (frameCrc s p len)) :
    exec (.findFrame start) s = .next { s.answers (.frame p len) with f := acceptedFrame s p len } := by
  rw [exec_findFrame hc hr, h]
  rfl

end

/-- Settles O10: SYNC_SCAN answers what the scan finds. -/
theorem syncScanFindsTheLeast : Obligations.SyncScanFindsTheLeast := by
  unfold Obligations.SyncScanFindsTheLeast
  intro s start hc
  refine ⟨syncScanFrom s start, ?_, fun hs => ?_⟩
  · show execSyncScan start s = _
    rw [execSyncScan, unitOp_configured _ hc]
    rfl
  · split
    · next h => exact noCandidate_of_scan hs h
    · next p h => exact firstCandidate_of_scan hs h

/-- Settles O11: both checks are pure, and their conditions are the two bounds. -/
theorem lengthAndBoundChecks : Obligations.LengthAndBoundChecks := by
  unfold Obligations.LengthAndBoundChecks
  intro s p len hc
  have hlen : exec (.lenRead p) s = tick (finishPure { s with window := false } (lenReadAt s p) .nat) :=
    unitOp_configured (fun s => finishPure s (lenReadAt s p) .nat) hc
  have hbound : exec (.boundCheck p len) s =
      tick (finishPure { s with window := false } (boundCheckAt s p len) fun _ => .done) :=
    unitOp_configured (fun s => finishPure s (boundCheckAt s p len) fun _ => .done) hc
  refine ⟨fun h => ?_, fun h => ?_, fun h => ?_, fun h => ?_⟩
  · rw [hlen, lenReadAt_eq, if_neg (Nat.not_lt.mpr h)]; rfl
  · rw [hlen, lenReadAt_eq, if_pos h]; rfl
  · rw [hbound, boundCheckAt, if_neg (Nat.not_lt.mpr h)]; rfl
  · rw [hbound, boundCheckAt, if_pos h]; rfl

/-- Settles O13: the search examines one candidate, the first one or an open one (log 18), and F follows its outcome. -/
theorem findFrameOutcomes : Obligations.FindFrameOutcomes := by
  unfold Obligations.FindFrameOutcomes
  intro s start hc hr
  refine ⟨fun hnone hs => ?_, fun _ => ?_, fun p hfirst => ⟨fun h => ?_, fun hfit hcrc => ?_, fun hframe => ?_⟩⟩
  · exact exec_findFrame_noFrame hc hr (by rw [searchFrame, syncScanFrom_none hs hnone])
  · cases hscan : syncScanFrom s start with
    | none => exact .inl (exec_findFrame_noFrame hc hr (by rw [searchFrame, hscan]))
    | some p =>
      have hsearch : searchFrame s start = candidateAt s p := by rw [searchFrame, hscan]
      refine .inr ⟨p, ?_⟩
      by_cases hfit : p + lengthField s p + 6 ≤ s.slen
      · have hcand := hsearch.trans (candidateAt_fits hfit)
        by_cases hcrc : (frameCrc s p (lengthField s p)).toNat = trailingField s p (lengthField s p)
        · exact .inr (.inr ⟨hfit, hcrc, exec_findFrame_frame hc hr (hcand.trans (if_pos hcrc))⟩)
        · exact .inr (.inl ⟨hfit, hcrc, exec_findFrame_cond hc hr (hcand.trans (if_neg hcrc))⟩)
      · have hshort := Nat.lt_of_not_le hfit
        exact .inl ⟨hshort, exec_findFrame_cond hc hr (hsearch.trans (candidateAt_truncated (.inr hshort)))⟩
  · exact exec_findFrame_cond hc hr ((searchFrame_first hfirst).trans (candidateAt_truncated h))
  · exact exec_findFrame_cond hc hr ((searchFrame_first hfirst).trans ((candidateAt_fits hfit).trans (if_neg hcrc)))
  · obtain ⟨_, _, hfit, hcrc⟩ := hframe
    exact exec_findFrame_frame hc hr ((searchFrame_first hfirst).trans ((candidateAt_fits hfit).trans (if_pos hcrc)))

/-! ## The CRC as long division (R145) -/

section
variable (poly : BitVec 24)

/-- One coefficient, as a register whose other bits are zero. -/
def coeff (b : Bool) : BitVec 24 := if b then 1 else 0

theorem coeff_getLsbD (b : Bool) (i : Nat) : (coeff b).getLsbD i = (decide (i = 0) && b) := by
  cases b <;> simp [coeff, BitVec.getLsbD_one]

theorem crcShift_zero : crcShift poly 0 = 0 := by simp [crcShift]

theorem crcShift_eq (c : BitVec 24) : crcShift poly c = c <<< 1 ^^^ (if c.getMsbD 0 then poly else 0) := by
  rw [crcShift]
  split <;> simp

/-- Shifting the register is linear. -/
theorem crcShift_xor (a b : BitVec 24) : crcShift poly (a ^^^ b) = crcShift poly a ^^^ crcShift poly b := by
  have hgen (x y : Bool) :
      (if xor x y then poly else 0) = (if x then poly else 0) ^^^ (if y then poly else 0 : BitVec 24) := by
    cases x <;> cases y <;> simp
  rw [crcShift_eq, crcShift_eq, crcShift_eq, BitVec.getMsbD_xor, hgen, BitVec.shiftLeft_xor_distrib]
  ac_rfl

theorem iterate_crcShift_zero (n : Nat) : (crcShift poly)^[n] 0 = 0 := Function.iterate_fixed (crcShift_zero poly) n

theorem iterate_crcShift_xor (n : Nat) (a b : BitVec 24) :
    (crcShift poly)^[n] (a ^^^ b) = (crcShift poly)^[n] a ^^^ (crcShift poly)^[n] b := by
  induction n generalizing a b with
  | zero => rfl
  | succ n ih => simp only [Function.iterate_succ_apply, crcShift_xor, ih]

/-- A value is shifted as it is while no bit leaves the register. -/
theorem iterate_crcShift_of_lt {n : Nat} {v : BitVec 24} (h : v.toNat * 2 ^ n < 2 ^ 24) :
    (crcShift poly)^[n] v = v <<< n := by
  induction n with
  | zero => simp
  | succ n ih =>
    rw [Nat.pow_succ, ← Nat.mul_assoc] at h
    have hprev : (crcShift poly)^[n] v = v <<< n := ih (by omega)
    have hval : (v <<< n).toNat = v.toNat * 2 ^ n := by
      rw [BitVec.toNat_shiftLeft, Nat.shiftLeft_eq, Nat.mod_eq_of_lt (by omega)]
    have htop : (v <<< n).getMsbD 0 = false := by
      rw [← BitVec.msb_eq_getMsbD_zero, BitVec.msb_eq_false_iff_two_mul_lt, hval]
      omega
    rw [Function.iterate_succ_apply', hprev, crcShift, htop, if_neg Bool.false_ne_true, BitVec.shiftLeft_add]

/-- A step of long division is a shift of the register and the next coefficient. -/
theorem divStep_eq (r : BitVec 24) (b : Bool) : divStep poly r b = crcShift poly r ^^^ coeff b := by
  have hbit : (r <<< 1 ||| coeff b) = r <<< 1 ^^^ coeff b := by
    refine BitVec.eq_of_getLsbD_eq fun i _ => ?_
    cases i <;> simp [coeff_getLsbD]
  rw [divStep, ← coeff, hbit, crcShift_eq]
  ac_rfl

/-- Division goes on from what the register holds: its content shifted, and the coefficients' own remainder. -/
theorem foldl_divStep_xor (bits : List Bool) (a b : BitVec 24) :
    bits.foldl (divStep poly) (a ^^^ b) = (crcShift poly)^[bits.length] a ^^^ bits.foldl (divStep poly) b := by
  induction bits generalizing a b with
  | nil => rfl
  | cons c bits ih =>
    rw [List.foldl_cons, List.foldl_cons, divStep_eq, crcShift_xor, BitVec.xor_assoc, ← divStep_eq, ih, List.length_cons,
      Function.iterate_succ_apply]

theorem remainder_append (xs ys : List Bool) :
    remainder poly (xs ++ ys) = (crcShift poly)^[ys.length] (remainder poly xs) ^^^ remainder poly ys := by
  rw [remainder, List.foldl_append, remainder, remainder, ← foldl_divStep_xor]
  simp

theorem remainder_singleton (b : Bool) : remainder poly [b] = coeff b := by
  rw [remainder, List.foldl_cons, List.foldl_nil, divStep_eq, crcShift_zero]
  exact BitVec.zero_xor

theorem remainder_replicate_false (n : Nat) : remainder poly (List.replicate n false) = 0 := by
  induction n with
  | zero => rfl
  | succ n ih => rw [List.replicate_succ', remainder_append, ih, iterate_crcShift_zero, remainder_singleton]; rfl

theorem divStep_xor (a b : BitVec 24) (x y : Bool) :
    divStep poly (a ^^^ b) (xor x y) = divStep poly a x ^^^ divStep poly b y := by
  have hcoeff : coeff (xor x y) = coeff x ^^^ coeff y := by cases x <;> cases y <;> rfl
  simp only [divStep_eq, crcShift_xor, hcoeff]
  ac_rfl

theorem foldl_divStep_zipWith {xs ys : List Bool} (h : xs.length = ys.length) (a b : BitVec 24) :
    (List.zipWith xor xs ys).foldl (divStep poly) (a ^^^ b) = xs.foldl (divStep poly) a ^^^ ys.foldl (divStep poly) b := by
  induction xs generalizing ys a b with
  | nil =>
    obtain rfl := List.eq_nil_of_length_eq_zero h.symm
    rfl
  | cons x xs ih =>
    obtain ⟨y, ys, rfl⟩ := List.exists_cons_of_length_eq_add_one h.symm
    simp only [List.zipWith_cons_cons, List.foldl_cons, divStep_xor]
    exact ih (Nat.succ.inj h) _ _

/-- The remainder of a sum is the sum of the remainders. -/
theorem remainder_zipWith_xor {xs ys : List Bool} (h : xs.length = ys.length) :
    remainder poly (List.zipWith xor xs ys) = remainder poly xs ^^^ remainder poly ys :=
  foldl_divStep_zipWith poly h 0 0

/-- The bits of a vector, the most significant first. -/
def bitsOf {w : Nat} (x : BitVec w) : List Bool := (List.range w).map x.getMsbD

@[simp] theorem bitsOf_length {w : Nat} (x : BitVec w) : (bitsOf x).length = w := by simp [bitsOf]

theorem bitsOf_append {n m : Nat} (x : BitVec n) (y : BitVec m) : bitsOf (x ++ y) = bitsOf x ++ bitsOf y := by
  rw [bitsOf, List.range_add, List.map_append, List.map_map]
  congr 1
  · refine List.map_congr_left fun i hi => ?_
    rw [BitVec.getMsbD_append, if_neg (Nat.not_le.mpr (List.mem_range.mp hi))]
  · refine List.map_congr_left fun i _ => ?_
    simp [BitVec.getMsbD_append]

theorem bitList_cons (b : Byte) (data : List Byte) : bitList (b :: data) = bitsOf b ++ bitList data := rfl

@[simp] theorem bitList_length (data : List Byte) : (bitList data).length = 8 * data.length := by
  induction data with
  | nil => rfl
  | cons b data ih => rw [bitList_cons, List.length_append, ih, bitsOf_length, List.length_cons]; omega

/-- The next coefficient of a dividend whose coefficients so far fit the register below its top bit. -/
theorem crcShift_next_bit {n j : Nat} (h : n >>> (j + 1) < 2 ^ 23) :
    crcShift poly (BitVec.ofNat 24 (n >>> (j + 1))) ^^^ coeff (n.testBit j) = BitVec.ofNat 24 (n >>> j) := by
  have hshift : crcShift poly (BitVec.ofNat 24 (n >>> (j + 1))) = BitVec.ofNat 24 (n >>> (j + 1)) <<< 1 :=
    iterate_crcShift_of_lt (n := 1) poly (by rw [BitVec.toNat_ofNat, Nat.mod_eq_of_lt (by omega)]; omega)
  rw [hshift]
  refine BitVec.eq_of_getLsbD_eq fun i hi => ?_
  simp only [BitVec.getLsbD_xor, BitVec.getLsbD_shiftLeft, BitVec.getLsbD_ofNat, Nat.testBit_shiftRight, coeff_getLsbD, hi]
  cases i with
  | zero => simp
  | succ i => simp [Nat.add_right_comm, Nat.add_assoc, Nat.lt_of_succ_lt hi]

/-- The first `k` coefficients of a dividend of at most 24 are their own remainder. -/
theorem remainder_first_bits {w : Nat} (x : BitVec w) (hw : w ≤ 24) {k : Nat} (hk : k ≤ w) :
    remainder poly ((List.range k).map x.getMsbD) = BitVec.ofNat 24 (x.toNat >>> (w - k)) := by
  induction k with
  | zero => simp [remainder, Nat.shiftRight_eq_div_pow, Nat.div_eq_of_lt x.isLt]
  | succ k ih =>
    obtain ⟨j, hj⟩ : ∃ j, w = k + 1 + j := ⟨w - (k + 1), by omega⟩
    have hlt : x.toNat >>> (j + 1) < 2 ^ 23 := by
      rw [Nat.shiftRight_eq_div_pow, Nat.div_lt_iff_lt_mul (by positivity), ← Nat.pow_add]
      exact x.isLt.trans_le (Nat.pow_le_pow_right (by omega) (by omega))
    have hbit : x.getMsbD k = x.toNat.testBit j := by
      rw [BitVec.getMsbD_eq_getLsbD, BitVec.getLsbD, decide_eq_true (by omega), Bool.true_and]
      congr 1
      omega
    rw [List.range_succ, List.map_append, remainder_append, ih (by omega), List.map_singleton, remainder_singleton, hbit,
      List.length_singleton, Function.iterate_one, show w - k = j + 1 by omega, show w - (k + 1) = j by omega,
      crcShift_next_bit poly hlt]

/-- A dividend of at most 24 coefficients is its own remainder. -/
theorem remainder_bitsOf {w : Nat} (x : BitVec w) (hw : w ≤ 24) : remainder poly (bitsOf x) = x.setWidth 24 := by
  rw [bitsOf, remainder_first_bits poly x hw le_rfl, Nat.sub_self, Nat.shiftRight_zero, BitVec.ofNat_toNat]

/-- A byte of the register form: the register shifted by eight, and the byte shifted to its top and through. -/
theorem crcByte_eq (c : BitVec 24) (b : Byte) :
    crcByte poly c b = (crcShift poly)^[8] c ^^^ (crcShift poly)^[24] (b.setWidth 24) := by
  have htop : (crcShift poly)^[16] (b.setWidth 24) = b.setWidth 24 <<< 16 :=
    iterate_crcShift_of_lt poly (by have := b.isLt; simp; omega)
  rw [Function.iterate_add_apply _ 8 16, htop, ← iterate_crcShift_xor]
  rfl

/-- The register form and long division agree (R145): what the register held shifted through, and the data's remainder followed
by 24 zero coefficients. -/
theorem foldl_crcByte (data : List Byte) (c : BitVec 24) :
    data.foldl (crcByte poly) c =
      (crcShift poly)^[8 * data.length] c ^^^ (crcShift poly)^[24] (remainder poly (bitList data)) := by
  induction data generalizing c with
  | nil =>
    show c = c ^^^ (crcShift poly)^[24] 0
    rw [iterate_crcShift_zero]
    exact BitVec.xor_zero.symm
  | cons b data ih =>
    rw [List.foldl_cons, ih, crcByte_eq, bitList_cons, remainder_append, remainder_bitsOf poly b (by omega), bitList_length,
      iterate_crcShift_xor, iterate_crcShift_xor, List.length_cons, Nat.mul_succ, Function.iterate_add_apply,
      ← Function.iterate_add_apply _ 24, Nat.add_comm 24, Function.iterate_add_apply, BitVec.xor_assoc]

/-- CRC24 is the remainder of the dividend (R145). -/
theorem foldl_crcByte_eq_remainder (init : BitVec 24) (data : List Byte) :
    data.foldl (crcByte poly) init = remainder poly (dividend init data) := by
  rw [dividend, remainder_zipWith_xor poly (by simp [Nat.add_comm]), remainder_append, remainder_append,
    remainder_replicate_false, remainder_replicate_false, ← bitsOf, remainder_bitsOf poly init le_rfl, foldl_crcByte,
    List.length_replicate, List.length_replicate, BitVec.setWidth_eq, BitVec.xor_comm]
  exact congrArg₂ _ BitVec.xor_zero.symm BitVec.xor_zero.symm

/-- Zero bytes keep a zero register. -/
theorem foldl_crcByte_zeros (n : Nat) : (List.replicate n (0 : Byte)).foldl (crcByte poly) 0 = 0 := by
  induction n with
  | zero => rfl
  | succ n ih =>
    have hbyte : crcByte poly 0 0 = 0 := by
      rw [crcByte_eq, show (0 : Byte).setWidth 24 = 0 from rfl, iterate_crcShift_zero, iterate_crcShift_zero]
      rfl
    rw [List.replicate_succ, List.foldl_cons, hbyte, ih]

end

/-- The byte of a value that ends `k` bits above its lowest (R14). -/
theorem ofNat_div_two_pow {w : Nat} (x : BitVec w) (k : Nat) : BitVec.ofNat 8 (x.toNat / 2 ^ k) = x.extractLsb' k 8 := by
  rw [BitVec.extractLsb', Nat.shiftRight_eq_div_pow]

/-- The three bytes of a 24-bit value (R14). -/
theorem beBytes_three (x : BitVec 24) :
    beBytes 3 x.toNat = [x.extractLsb' 16 8, x.extractLsb' 8 8, x.extractLsb' 0 8] := by
  have hlow := ofNat_div_two_pow x 0
  have hmid := ofNat_div_two_pow x 8
  have hhigh := ofNat_div_two_pow x 16
  norm_num at hlow hmid hhigh
  simp [beBytes, Nat.div_div_eq_div_mul, hlow, hmid, hhigh]

/-- A register followed by its own three bytes is zero (R145). -/
theorem foldl_crcByte_self (poly r : BitVec 24) : (beBytes 3 r.toNat).foldl (crcByte poly) r = 0 := by
  have hbits : bitList (beBytes 3 r.toNat) = bitsOf r := by
    conv_rhs => rw [← bytes_append_24 r, bitsOf_append, bitsOf_append]
    simp [beBytes_three, bitList, bitsOf]
  rw [foldl_crcByte, hbits, remainder_bitsOf poly r le_rfl, BitVec.setWidth_eq, beBytes_three]
  exact BitVec.xor_self

theorem crc24_eq (p : CrcParams) (data : List Byte) :
    crc24 p data = remainder p.poly (dividend p.init data) ^^^ p.xorout := by
  rw [crc24, foldl_crcByte_eq_remainder]

/-- CRC24 in a configured block answers the CRC (R145). -/
theorem exec_crc24 {s : State} (hc : s.configured = true) (hr : s.cfg.crc.reflected = false) (data : List Byte) :
    exec (.crc24 data) s = .next (s.answers (.crc (crc24 s.cfg.crc data))) :=
  crcUnit_configured hc hr fun s => .next (s.done (.crc (crc24 s.cfg.crc data)))

/-- Settles O12: the register form is long division; leading zeros keep a zero register, and a register's own bytes clear it. -/
theorem crc24OfDataAndItsCrcIsZero : Obligations.Crc24OfDataAndItsCrcIsZero := by
  unfold Obligations.Crc24OfDataAndItsCrcIsZero
  intro s data hc hr c
  have hcrc : crc24 s.cfg.crc data = c := crc24_eq _ _
  have hreg : c ^^^ s.cfg.crc.xorout = data.foldl (crcByte s.cfg.crc.poly) s.cfg.crc.init := by
    rw [← hcrc, crc24, BitVec.xor_assoc, BitVec.xor_self, BitVec.xor_zero]
  refine ⟨?_, hcrc, ?_, fun hinit n => ?_, ?_⟩
  · rw [exec_crc24 hc hr, hcrc]
  · rintro rfl
    exact hcrc.symm
  · rw [exec_crc24 hc hr, ← hcrc, crc24, crc24, List.foldl_append, hinit, foldl_crcByte_zeros]
  · have hzero : 0 ^^^ s.cfg.crc.xorout = s.cfg.crc.xorout := BitVec.zero_xor
    rw [exec_crc24 hc hr, hreg, crc24, List.foldl_append, foldl_crcByte_self, hzero]

/-! ## Changed frames (R151) -/

section
variable {poly : BitVec 24}

/-- Multiples of `x^t` that are not zero: what the register holds once a power of `x` has met the generator's lowest term. -/
structure MultipleOfPow (t : Nat) (r : BitVec 24) : Prop where
  low : ∀ i < t, r.getLsbD i = false
  ne_zero : r ≠ 0

/-- The generator's lowest term `x^t` keeps a shifted multiple of `x^t` from vanishing: where the generator is taken away, the
term `x^t` of the register is set. -/
theorem MultipleOfPow.shift {t : Nat} (hlow : ∀ i < t, poly.getLsbD i = false) (ht : poly.getLsbD t = true)
    {r : BitVec 24} (h : MultipleOfPow t r) : MultipleOfPow t (crcShift poly r) where
  low i hi := by
    rw [crcShift_eq, BitVec.getLsbD_xor, BitVec.getLsbD_shiftLeft, h.low _ (by omega)]
    split <;> simp [hlow i hi]
  ne_zero := by
    have htlt : t < 24 := BitVec.lt_of_getLsbD ht
    rw [crcShift_eq]
    split
    · next htop =>
      have hterm : (r <<< 1 ^^^ poly).getLsbD t = true := by
        rw [BitVec.getLsbD_xor, BitVec.getLsbD_shiftLeft, ht]
        cases t with
        | zero => simp
        | succ t => simp [h.low t (by omega)]
      intro hzero
      rw [hzero] at hterm
      simp at hterm
    · next htop =>
      have hsmall : 2 * r.toNat < 2 ^ 24 := by
        rwa [← BitVec.msb_eq_false_iff_two_mul_lt, BitVec.msb_eq_getMsbD_zero, ← Bool.not_eq_true]
      have hpos : r.toNat ≠ 0 := fun h0 => h.ne_zero (BitVec.eq_of_toNat_eq h0)
      intro hzero
      have hval : (r <<< 1).toNat = 0 := congrArg BitVec.toNat (BitVec.xor_zero.symm.trans hzero)
      rw [BitVec.toNat_shiftLeft, Nat.shiftLeft_eq,
        Nat.mod_eq_of_lt (by omega)] at hval
      omega

/-- The lowest term of a generator of more than one term. -/
theorem exists_lowest_term (hpoly : poly ≠ 0) : ∃ t, poly.getLsbD t = true ∧ ∀ i < t, poly.getLsbD i = false := by
  have hterm : ∃ t, poly.getLsbD t = true := by
    by_contra hnone
    refine hpoly (BitVec.eq_of_getLsbD_eq fun i _ => ?_)
    have := not_exists.mp hnone i
    simpa using this
  exact ⟨Nat.find hterm, Nat.find_spec hterm, fun i hi => by simpa using Nat.find_min hterm hi⟩

/-- No power of `x` is divisible by a generator of more than one term. -/
theorem iterate_crcShift_one_ne_zero (hpoly : poly ≠ 0) (n : Nat) : (crcShift poly)^[n] 1 ≠ 0 := by
  obtain ⟨t, ht, hlow⟩ := exists_lowest_term hpoly
  have htlt : t < 24 := BitVec.lt_of_getLsbD ht
  have hsmall : ∀ {k}, k < 24 → (crcShift poly)^[k] 1 = 1#24 <<< k := fun hk =>
    iterate_crcShift_of_lt poly (by
      have := Nat.pow_lt_pow_right (a := 2) (by omega) hk
      simpa using this)
  have hpow : ∀ k < 24, MultipleOfPow k (1#24 <<< k) := fun k hk =>
    ⟨fun i hi => by simp [hi], by revert k; decide⟩
  rcases Nat.lt_or_ge n t with hn | hn
  · rw [hsmall (by omega)]
    exact (hpow n (by omega)).ne_zero
  · obtain ⟨d, rfl⟩ := Nat.exists_eq_add_of_le' hn
    have hmul : MultipleOfPow t ((crcShift poly)^[d + t] 1) := by
      induction d with
      | zero => rw [Nat.zero_add, hsmall htlt]; exact hpow t htlt
      | succ d ih =>
        rw [Nat.succ_add, Function.iterate_succ_apply']
        exact (ih (by omega)).shift hlow ht
    exact hmul.ne_zero

/-- What a change of the register adds to the register after some data. -/
theorem foldl_crcByte_xor (data : List Byte) (c d : BitVec 24) :
    data.foldl (crcByte poly) (c ^^^ d) = data.foldl (crcByte poly) c ^^^ (crcShift poly)^[8 * data.length] d := by
  rw [foldl_crcByte, foldl_crcByte, iterate_crcShift_xor]
  ac_rfl

/-- A flipped bit adds a power of `x` to the register, which the generator does not divide (R151). -/
theorem foldl_crcByte_flip (hpoly : poly ≠ 0) (c : BitVec 24) (xs ys : List Byte) (b : Byte) {j : Nat} (hj : j < 8) :
    (xs ++ (b ^^^ (0x80#8 >>> j)) :: ys).foldl (crcByte poly) c ≠ (xs ++ b :: ys).foldl (crcByte poly) c := by
  have hmask : (0x80#8 >>> j).setWidth 24 = (crcShift poly)^[7 - j] 1 := by
    rw [iterate_crcShift_of_lt]
    · revert j; decide
    · revert j; decide
  have hbyte (r : BitVec 24) : crcByte poly r (b ^^^ (0x80#8 >>> j)) = crcByte poly r b ^^^ (crcShift poly)^[24 + (7 - j)] 1 := by
    rw [crcByte_eq, crcByte_eq, BitVec.setWidth_xor, iterate_crcShift_xor, hmask, Function.iterate_add_apply, BitVec.xor_assoc]
  rw [List.foldl_append, List.foldl_append, List.foldl_cons, List.foldl_cons, hbyte, foldl_crcByte_xor,
    ← Function.iterate_add_apply]
  intro heq
  refine iterate_crcShift_one_ne_zero hpoly _ (((BitVec.xor_right_inj _).mp (heq.trans ?_)))
  exact BitVec.xor_zero.symm

end

theorem Memory.slice_add (m : Memory) (a n k : Nat) :
    Memory.slice m a (n + k) = Memory.slice m a n ++ Memory.slice m (a + n) k := by
  simp [Memory.slice, List.range_add, Nat.add_assoc]

section
variable {s : State} {p len : Nat}

/-- FIND_FRAME at a preamble whose frame fits and whose CRC differs (R146). -/
theorem exec_findFrame_mismatch (hc : s.configured = true) (hr : s.cfg.crc.reflected = false)
    (hpre : Memory.get s.stream p = s.cfg.preamble) (hlen : lengthField s p = len) (hfit : p + len + 6 ≤ s.slen)
    (hcrc : (frameCrc s p len).toNat ≠ trailingField s p len) :
    exec (.findFrame p) s = .next { s.stops .checksumMismatch (.pos p) with f := { s.f with valid := false } } := by
  subst hlen
  have hfirst : FirstCandidate s p p := ⟨le_rfl, by omega, hpre, fun _ h1 h2 => absurd h2 (Nat.not_lt.mpr h1)⟩
  exact exec_findFrame_cond hc hr ((searchFrame_first hfirst).trans ((candidateAt_fits hfit).trans (if_neg hcrc)))

/-- A flipped payload bit changes the computed CRC (R151). -/
theorem frameCrc_flip (hpoly : s.cfg.crc.poly ≠ 0) {m : Memory} {k : Nat} (hk : k < 8 * len)
    (hm : ∀ a, Memory.get m a =
      if a = p + 3 + k / 8 then Memory.get s.stream a ^^^ (0x80#8 >>> (k % 8)) else Memory.get s.stream a) :
    frameCrc { s with stream := m } p len ≠ frameCrc s p len := by
  have hi : 3 + k / 8 < len + 3 := by omega
  rw [Nat.add_assoc] at hm
  generalize 3 + k / 8 = i at hm hi
  obtain ⟨d, hd⟩ := Nat.exists_eq_add_of_lt hi
  have hother (a n : Nat) (h : a + n ≤ p + i ∨ p + i < a) : Memory.slice m a n = Memory.slice s.stream a n :=
    Memory.slice_congr _ _ _ _ fun x h1 h2 => by rw [hm, if_neg (by omega)]
  have hflipped := (hm (p + i)).trans (if_pos rfl)
  have hsplit (m : Memory) : Memory.slice m p (len + 3) =
      Memory.slice m p i ++ Memory.get m (p + i) :: Memory.slice m (p + i + 1) d := by
    rw [hd, Nat.add_assoc, Nat.add_comm d, Memory.slice_add, Memory.slice_add]
    rfl
  simp only [frameCrc, crc24, hsplit]
  rw [hother p i (by omega), hother (p + i + 1) d (by omega), hflipped]
  exact fun heq => foldl_crcByte_flip hpoly _ _ _ _ (Nat.mod_lt _ (by omega)) ((BitVec.xor_left_inj _).mp heq)

/-- The trailing bytes are determined by the number they spell (R67). -/
theorem get_eq_of_trailingField_eq {t : State} (h : trailingField t p len = trailingField s p len) {a : Nat}
    (h1 : p + 3 + len ≤ a) (h2 : a < p + 6 + len) : Memory.get t.stream a = Memory.get s.stream a := by
  have hlt (m : Memory) (a : Nat) : (Memory.get m a).toNat < 256 := (Memory.get m a).isLt
  have := hlt t.stream (p + 4 + len)
  have := hlt t.stream (p + 5 + len)
  have := hlt s.stream (p + 4 + len)
  have := hlt s.stream (p + 5 + len)
  simp only [trailingField] at h
  refine BitVec.eq_of_toNat_eq ?_
  obtain rfl | rfl | rfl : a = p + 3 + len ∨ a = p + 4 + len ∨ a = p + 5 + len := by omega
  all_goals omega

end

/-- Settles O14: a changed frame is still the candidate with the same header; its CRC and its trailing bytes do not both stay. -/
theorem crcGateRejectsMutations : Obligations.CrcGateRejectsMutations := by
  unfold Obligations.CrcGateRejectsMutations
  rintro s p len hc hr hpoly ⟨hpre, hlen, hfit, hcrc⟩ m hm
  have hhead : ∀ a < p + 3, Memory.get m a = Memory.get s.stream a := by
    intro a ha
    rcases hm with ⟨k, _, hm⟩ | ⟨hm, _⟩
    · rw [hm, if_neg (by omega)]
    · exact hm a (by omega)
  have hlen' : lengthField { s with stream := m } p = len := by
    rw [← hlen, lengthField, lengthField, hhead _ (by omega), hhead _ (by omega)]
  refine exec_findFrame_mismatch (s := { s with stream := m }) hc hr ((hhead p (by omega)).trans hpre) hlen' hfit ?_
  rcases hm with ⟨k, hk, hm⟩ | ⟨hm, a, h1, h2, hne⟩
  · have htrail : trailingField { s with stream := m } p len = trailingField s p len := by
      simp only [trailingField]
      rw [hm, hm, hm, if_neg (by omega), if_neg (by omega), if_neg (by omega)]
    rw [htrail, ← hcrc]
    exact fun heq => frameCrc_flip hpoly hk hm (BitVec.eq_of_toNat_eq heq)
  · have hsame : frameCrc { s with stream := m } p len = frameCrc s p len := by
      simp only [frameCrc]
      rw [Memory.slice_congr m s.stream p (len + 3) fun x _ hx => hm x (by omega)]
    rw [hsame, hcrc]
    exact fun heq => hne (get_eq_of_trailingField_eq (s := s) (t := { s with stream := m }) heq.symm h1 h2)

/-! ## FRAME_EMIT (R152) -/

/-- The two bytes of a 16-bit value (R14). -/
theorem beBytes_two (x : BitVec 16) : beBytes 2 x.toNat = [x.extractLsb' 8 8, x.extractLsb' 0 8] := by
  have hlow := ofNat_div_two_pow x 0
  have hhigh := ofNat_div_two_pow x 8
  norm_num at hlow hhigh
  simp [beBytes, hlow, hhigh]

/-- What a frame's CRC covers (R152): preamble, length and payload. -/
def frameHead (cfg : Cfg) (payload : List Byte) : List Byte := cfg.preamble :: (beBytes 2 payload.length ++ payload)

/-- A frame without pad bits is its head and the three bytes of its CRC field (R152). -/
theorem encodeFrame_zero_pad (cfg : Cfg) {payload : List Byte} (h : payload.length ≤ 1023) (crc : BitVec 24) :
    encodeFrame cfg 0 payload crc = frameHead cfg payload ++ beBytes 3 crc.toNat := by
  have hval : (frameHeader 0 payload.length).toNat = payload.length := by
    rw [frameHeader, BitVec.toNat_append, BitVec.toNat_ofNat, Nat.mod_eq_of_lt (by omega)]
    simp
  have hheader := beBytes_two (frameHeader 0 payload.length)
  rw [hval] at hheader
  rw [encodeFrame_eq, frameHead, beBytes_three, hheader]
  rfl

theorem frameHead_length (cfg : Cfg) (payload : List Byte) : (frameHead cfg payload).length = payload.length + 3 := by
  simp [frameHead, beBytes]

theorem encodeFrame_take (cfg : Cfg) {payload : List Byte} (h : payload.length ≤ 1023) (crc : BitVec 24) :
    (encodeFrame cfg 0 payload crc).take (payload.length + 3) = frameHead cfg payload := by
  rw [encodeFrame_zero_pad cfg h, ← frameHead_length cfg, List.take_left]

theorem frameOf_eq (cfg : Cfg) {payload : List Byte} (h : payload.length ≤ 1023) :
    frameOf cfg payload = encodeFrame cfg 0 payload (crc24 cfg.crc (frameHead cfg payload)) := by
  rw [frameOf, encodeFrame_take cfg h]

/-- FRAME_EMIT in a configured block (R152). -/
theorem exec_frameEmit {s : State} (hc : s.configured = true) (hr : s.cfg.crc.reflected = false) (payload : List Byte) :
    exec (.frameEmit payload) s = tick (.next (emitFrame { s with window := false } payload)) :=
  crcUnit_configured hc hr fun s => .next (emitFrame s payload)

/-- An emitted frame that stands in STREAM is found there, and F describes its payload (R146, R152). -/
theorem exec_findFrame_emitted {s : State} (hc : s.configured = true) (hr : s.cfg.crc.reflected = false) {p : Nat}
    {payload : List Byte} (hlen : payload.length ≤ 1023) (h : Carries s p (frameOf s.cfg payload)) :
    ∃ t, exec (.findFrame p) s = .next t ∧ t.ret = .frame p payload.length ∧ t.f.valid = true ∧ t.payload = payload := by
  rw [frameOf_eq s.cfg hlen] at h
  have hcrc : frameCrc s p payload.length = crc24 s.cfg.crc (frameHead s.cfg payload) := by
    rw [h.covered_crc, encodeFrame_take s.cfg hlen]
  have hsearch : searchFrame s p = .frame p payload.length (frameCrc s p payload.length) := by
    rw [h.search hlen, encodeFrame_take s.cfg hlen, if_pos rfl, hcrc]
  exact ⟨_, exec_findFrame_frame hc hr hsearch, rfl, rfl, payload_of_frame hlen rfl rfl rfl h.payload_bytes⟩

/-- Settles O15: the frame is written over the start of OBUF, and wherever STREAM is that frame its own CRC accepts it. -/
theorem frameEmitWritesAFrameFoundAgain : Obligations.FrameEmitWritesAFrameFoundAgain := by
  unfold Obligations.FrameEmitWritesAFrameFoundAgain
  intro s payload hc hr hwf
  refine ⟨fun hlong => ?_, fun hlen => ⟨Memory.write s.obuf 0 (frameOf s.cfg payload), ?_⟩⟩
  · rw [exec_frameEmit hc hr, emitFrame, if_pos hlong]
    rfl
  · intro head b
    have hb : frameOf s.cfg payload = b := (frameOf_eq s.cfg hlen).trans (encodeFrame_zero_pad s.cfg hlen _)
    rw [← hb]
    refine ⟨?_, fun a => ?_, fun s' hc' hcfg hslen hstream => ?_⟩
    · rw [exec_frameEmit hc hr, emitFrame, if_neg (Nat.not_lt.mpr hlen)]
      rfl
    · rw [Memory.get_write _ _ _ _ hwf]
      simp
    · refine exec_findFrame_emitted hc' (hcfg ▸ hr) hlen ⟨by rw [hcfg]; omega, fun i hi => ?_⟩
      rw [hcfg] at hi ⊢
      rw [Nat.zero_add, hstream i hi]

/-! ## The stops (R18, U15, logs 17, 21) -/

/-- The operations that compute a CRC (R145). -/
def ComputesCrc (i : Instr) : Prop :=
  i = .decodeOne ∨ (∃ p b c, i = .frame p b c) ∨ (∃ b, i = .crc24 b ∨ i = .frameEmit b) ∨ (∃ n, i = .findFrame n) ∨
    ∃ m, i = .encodeOne m

/-- The operations that write at the cursor (R129 to R131). -/
def WritesAtCursor (i : Instr) : Prop := (∃ w v o, i = .writeU w v o ∨ i = .writeS w v o) ∨ ∃ b, i = .writeBytes b

theorem Ends.not_fault {o : Out} (h : Ends o) (f : Fault) : o ≠ .fault f := by
  obtain ⟨t, rfl, _⟩ := h
  simp

theorem Ends.not_refused {o : Out} (h : Ends o) (r : Refusal) : o ≠ .refused r := by
  obtain ⟨t, rfl, _⟩ := h
  simp

section
variable {i : Instr} {s : State}

theorem crcUnit_refused (hc : s.configured = true) (hr : s.cfg.crc.reflected = true) (body : State → Out) :
    unitOp s (fun s => withCrc s body) = .refused .reflectedCrc := by
  rw [unitOp_configured _ hc, withCrc, if_pos hr, tick_refused]

/-- Under a reflected CRC every operation that computes one is refused (R145, U15, log 21). -/
theorem exec_refused (hi : ComputesCrc i) (hc : s.configured = true) (hr : s.cfg.crc.reflected = true) :
    exec i s = .refused .reflectedCrc := by
  obtain rfl | ⟨p, b, c, rfl⟩ | ⟨b, rfl | rfl⟩ | ⟨n, rfl⟩ | ⟨m, rfl⟩ := hi
  · exact crcUnit_refused (s := { s with out := none }) hc hr _
  · rw [exec_frame hc]
    exact crcUnit_refused (s := { s.arrive _ with out := none }) hc hr decodeFrom
  · exact crcUnit_refused hc hr _
  · exact crcUnit_refused hc hr _
  · exact crcUnit_refused hc hr _
  · exact crcUnit_refused hc hr _

/-- An operation that computes a CRC ends unless it is refused. -/
theorem exec_computesCrc_ends (hi : ComputesCrc i) (hcrc : s.configured = true → s.cfg.crc.reflected = false) :
    Ends (exec i s) := by
  refine exec_ends hcrc ?_
  obtain rfl | ⟨p, b, c, rfl⟩ | ⟨b, rfl | rfl⟩ | ⟨n, rfl⟩ | ⟨m, rfl⟩ := hi <;> simp [WritesToObuf]

/-- A write at the cursor is a unit operation that writes. -/
theorem exec_writesAtCursor (hi : WritesAtCursor i) : ∃ w, exec i s = unitOp s fun s => writeOp s w := by
  obtain ⟨w, v, o, rfl | rfl⟩ | ⟨b, rfl⟩ := hi <;> exact ⟨_, rfl⟩

/-- The only stop of a write (log 17). -/
theorem writeOp_ends_or_faults (s : State) (w : Memory → Cursor → WrRes) :
    Ends (writeOp s w) ∨ (writeOp s w = .fault .writeOnStreamCursor ∧ s.cur.space = .stream) := by
  cases hs : s.cur.space with
  | obuf => exact .inl (writeOp_ends hs w)
  | stream =>
    simp only [writeOp, hs]
    split
    · exact .inl (State.raise_ended _ _).ends
    · split
      · exact .inl (State.done_ended _ (by simp)).ends
      · exact .inr ⟨rfl, trivial⟩

theorem exec_write_ends_or_faults (hi : WritesAtCursor i) (s : State) :
    Ends (exec i s) ∨
      (exec i s = .fault .writeOnStreamCursor ∧ s.configured = true ∧ s.cur.space = .stream) := by
  obtain ⟨w, hw⟩ := exec_writesAtCursor (s := s) hi
  rw [hw]
  cases hc : s.configured with
  | false => exact .inl (Ends.unitOp fun h => absurd (hc.symm.trans h) Bool.false_ne_true)
  | true =>
    rw [unitOp_configured _ hc]
    obtain h | ⟨h, hs⟩ := writeOp_ends_or_faults { s with window := false } w
    · exact .inl h.tick
    · exact .inr ⟨by rw [h, tick_fault], rfl, hs⟩

/-- Every operation that neither computes a CRC nor writes at the cursor ends, from any state. -/
theorem exec_other_ends (hcrc : ¬ ComputesCrc i) (hw : ¬ WritesAtCursor i) (s : State) : Ends (exec i s) := by
  cases hi : messageReader i.wireClass with
  | some r => exact exec_message_ends hi s
  | none =>
    unfold exec
    cases i
    case reset | hostSetRefTime | hostEvict | hostEvictProvider | hostRead => exact (State.done_ended _ (by simp)).ends
    case hostConfig cfg => exact execHostConfig_ends cfg s
    case hostLoad bytes scan => exact execHostLoad_ends bytes scan s
    case curInit space base n => exact execCurInit_ends space base n s
    case dispatch => exact Ends.unitOp fun _ => finishRun_ends _
    case readU | readS | readBytes | readField | readMask | readHeader =>
      exact Ends.unitOp fun _ => finishRd_ends _ _ (by simp)
    case lenRead | boundCheck | toIndex | fromIndex | svidOffset | svidToSat | satToSvid | sigOf | encodeMask | adjustWeek |
        quantize | iodCheck | lookup =>
      exact Ends.unitOp fun _ => finishPure_ends _ _ (by simp)
    case syncScan | decodeMask | lockCheck | decodeUra | cacheUpdate | isUpdate =>
      exact Ends.unitOp fun _ => (State.done_ended _ (by simp)).ends
    case decodeOne | frame | crc24 | frameEmit | findFrame | encodeOne => simp [ComputesCrc] at hcrc
    case writeU | writeS | writeBytes => simp [WritesAtCursor] at hw
    all_goals cases hi

/-- Every operation ends, or it stops in one of the two named ways. -/
theorem exec_ends_or_stops (i : Instr) (s : State) :
    Ends (exec i s) ∨
      (exec i s = .fault .writeOnStreamCursor ∧ s.configured = true ∧ s.cur.space = .stream ∧ WritesAtCursor i) ∨
      (exec i s = .refused .reflectedCrc ∧ s.configured = true ∧ s.cfg.crc.reflected = true ∧ ComputesCrc i) := by
  by_cases hcrc : ComputesCrc i
  · by_cases h : s.configured = true ∧ s.cfg.crc.reflected = true
    · exact .inr (.inr ⟨exec_refused hcrc h.1 h.2, h.1, h.2, hcrc⟩)
    · exact .inl (exec_computesCrc_ends hcrc fun hc => by simpa [hc] using h)
  · by_cases hw : WritesAtCursor i
    · obtain h | ⟨h, hc, hs⟩ := exec_write_ends_or_faults hw s
      · exact .inl h
      · exact .inr (.inl ⟨h, hc, hs, hw⟩)
    · exact .inl (exec_other_ends hcrc hw s)

/-- A write that would move bits of STREAM (R14, R25, log 17). -/
theorem writeUnit_faults (hc : s.configured = true) (hs : s.cur.space = .stream) {w : Memory → Cursor → WrRes} {m : Memory}
    {n : Nat} (hn : 0 < n) (h : w s.stream s.cur = .ok (m, s.cur.off + n)) :
    unitOp s (fun s => writeOp s w) = .fault .writeOnStreamCursor := by
  have hw : w (State.buffer { s with window := false } .stream) s.cur = .ok (m, s.cur.off + n) := h
  have hmoved : s.cur.off + n ≠ s.cur.off := by omega
  rw [unitOp_configured _ hc]
  simp only [writeOp, hs, hw, if_neg hmoved, tick_fault]

end

/-- Settles O58: the stops that are named occur where they are said to, and every other way to run an operation ends it. -/
theorem namedStops : Obligations.NamedStops := by
  unfold Obligations.NamedStops
  refine ⟨fun s hc => ⟨fun hr => ?_, fun hs => ⟨fun w v ovf h1 h2 hfit => ?_, fun b hb ha hfit => ?_⟩⟩, fun i s => ?_⟩
  · have hrefused (i : Instr) (hi : ComputesCrc i) := exec_refused hi hc hr
    exact ⟨fun b => hrefused _ (.inr (.inr (.inl ⟨b, .inl rfl⟩))), fun n => hrefused _ (.inr (.inr (.inr (.inl ⟨n, rfl⟩)))),
      fun b => hrefused _ (.inr (.inr (.inl ⟨b, .inr rfl⟩))), fun m => hrefused _ (.inr (.inr (.inr (.inr ⟨m, rfl⟩)))),
      hrefused _ (.inl rfl), fun p b c => hrefused _ (.inr (.inl ⟨p, b, c, rfl⟩))⟩
  · have hroom : ¬s.cur.bitlen < s.cur.off + w := Nat.not_lt.mpr hfit
    exact ⟨fun hv => writeUnit_faults hc hs (w := fun m cur => putU m cur w v ovf) h1
        ((putU_taken h1 h2 hv.symm).trans (if_neg hroom)),
      fun hv => writeUnit_faults hc hs (w := fun m cur => putS m cur w v ovf) h1
        ((putS_taken h1 h2 hv.symm).trans (if_neg hroom))⟩
  · have hlen : 0 < 8 * b.length := by
      have := List.length_pos_iff.mpr hb
      omega
    exact writeUnit_faults hc hs (w := fun m cur => putBytes m cur b) hlen (putBytes_fits ha hfit)
  · obtain h | ⟨h, hc, hs, hw⟩ | ⟨h, hc, hr, hcrc⟩ := exec_ends_or_stops i s
    · exact ⟨fun f hf => absurd hf (h.not_fault f), fun r hr => absurd hr (h.not_refused r)⟩
    · rw [h]
      refine ⟨fun f hf => ?_, fun r hr => by cases hr⟩
      cases hf
      exact ⟨hc, rfl, hs, hw⟩
    · rw [h]
      refine ⟨fun f hf => (by cases hf), fun r hr' => ?_⟩
      cases hr'
      exact ⟨hc, rfl, hr, hcrc⟩

end Sys2Proof.Machine

/-! SUPPORT and the statements of 42_satid.md: how a pure operation answers in a configured block, the index sub-ranges of an
accepted configuration and the two conversions between them and the PRN ranges, the SVID offsets, and the signal tables. -/

namespace Sys2Proof.Machine

/-- A pure operation whose function gives a value: nothing changes but how it ended. -/
theorem pureUnit_answers {α : Type} {s : State} (hc : s.configured = true) {f : Cfg → Except Cond α} {a : α}
    (h : f s.cfg = .ok a) (ret : α → RetVal) :
    unitOp s (fun s => finishPure s (f s.cfg) ret) = .next (s.answers (ret a)) := by
  rw [unitOp_configured _ hc]
  simp only [h, finishPure]
  rfl

/-! ## The index sub-ranges (R163) -/

theorem mem_allConstellations (c : Constellation) : c ∈ allConstellations := by
  cases c <;> decide

section
variable {cfg : Cfg} {c c' : Constellation} {r : PrnRange} {i : Nat}

theorem inSubrange_iff (hr : cfg.prn.get c = some r) :
    InSubrange cfg c i ↔ r.base ≤ i ∧ i < r.base + (r.max + 1 - r.min) := by
  simp only [InSubrange, hr, Option.some.injEq, exists_eq_left']

/-- The index of a PRN in range lies in the sub-range (R160, R163). -/
theorem inSubrange_of_prn (hr : cfg.prn.get c = some r) {prn : Nat} (hmin : r.min ≤ prn) (hmax : prn ≤ r.max) :
    InSubrange cfg c (r.base + (prn - r.min)) :=
  (inSubrange_iff hr).mpr ⟨by omega, by omega⟩

/-- An index in two sub-ranges is one where they meet. -/
theorem not_subrangesApart (h : InSubrange cfg c i) (h' : InSubrange cfg c' i) : subrangesApart cfg c c' = false := by
  obtain ⟨a, ha, halo, hahi⟩ := h
  obtain ⟨b, hb, hblo, hbhi⟩ := h'
  simp only [subrangesApart, ha, hb, rangesMeet, Bool.not_eq_false', Bool.and_eq_true, decide_eq_true_eq]
  omega

/-- The sub-ranges of an accepted configuration are disjoint (R163, R215). -/
theorem cfgAccepted_inSubrange_unique (hacc : cfgAccepted cfg = true) (h : InSubrange cfg c i) (h' : InSubrange cfg c' i) :
    c = c' := by
  simp only [cfgAccepted, indexLayoutOk, Bool.and_eq_true, List.all_eq_true, Bool.or_eq_true, decide_eq_true_eq] at hacc
  obtain ⟨⟨⟨_, hapart, _⟩, _⟩, _⟩ := hacc
  refine (hapart c (mem_allConstellations c) c' (mem_allConstellations c')).resolve_right ?_
  simp [not_subrangesApart h h']

/-! ## TO_INDEX (R160) -/

theorem satIndex_ok (hr : cfg.prn.get c = some r) {prn : Nat} (hmin : r.min ≤ prn) (hmax : prn ≤ r.max) :
    satIndex cfg c prn = .ok (r.base + (prn - r.min)) := by
  simp only [satIndex, hr]
  rw [if_neg (by omega), Int.toNat_sub]

/-- A PRN outside the range is invalid, and so is any PRN of a constellation without a range (R8). -/
theorem satIndex_invalid {prn : Nat} (h : ∀ r, cfg.prn.get c = some r → prn < r.min ∨ r.max < prn) :
    satIndex cfg c prn = .error (.invalidPrn (some c) prn) := by
  simp only [satIndex]
  split
  · rfl
  · next r hr => exact if_pos (by simpa using h r hr)

/-- TO_INDEX takes back the PRN of an index in the sub-range (R162). -/
theorem satIndex_of_inSubrange (hr : cfg.prn.get c = some r) (h : InSubrange cfg c i) :
    satIndex cfg c (r.min + (i - r.base) : Nat) = .ok i := by
  obtain ⟨hlo, hhi⟩ := (inSubrange_iff hr).mp h
  rw [satIndex_ok hr (by omega) (by omega), Nat.add_sub_cancel_left, Nat.add_sub_cancel' hlo]

/-! ## FROM_INDEX (R161) -/

theorem indexIn_cons_of_mem (hr : cfg.prn.get c = some r) (h : InSubrange cfg c i) (cs : List Constellation) :
    indexIn cfg i (c :: cs) = .ok (c, r.min + (i - r.base)) := by
  simp only [indexIn, hr]
  exact if_pos ((inSubrange_iff hr).mp h)

theorem indexIn_cons_of_not_mem (h : ¬InSubrange cfg c i) (cs : List Constellation) :
    indexIn cfg i (c :: cs) = indexIn cfg i cs := by
  simp only [indexIn]
  split
  · rfl
  · next r hr => exact if_neg ((inSubrange_iff hr).not.mp h)

/-- The loop passes over every other constellation, because an index lies in one sub-range only. -/
theorem indexIn_of_inSubrange (hacc : cfgAccepted cfg = true) (hr : cfg.prn.get c = some r) (h : InSubrange cfg c i)
    {cs : List Constellation} (hc : c ∈ cs) : indexIn cfg i cs = .ok (c, r.min + (i - r.base)) := by
  induction cs with
  | nil => cases hc
  | cons c' cs ih =>
    by_cases hcc : c = c'
    · subst hcc
      exact indexIn_cons_of_mem hr h cs
    · rw [indexIn_cons_of_not_mem fun h' => hcc (cfgAccepted_inSubrange_unique hacc h h')]
      exact ih (List.mem_of_ne_of_mem hcc hc)

theorem indexIn_of_no_subrange (h : ∀ c, ¬InSubrange cfg c i) (cs : List Constellation) :
    indexIn cfg i cs = .error (.invalidPrn none i) := by
  induction cs with
  | nil => rfl
  | cons c cs ih => rw [indexIn_cons_of_not_mem (h c), ih]

theorem satOfIndex_of_inSubrange (hacc : cfgAccepted cfg = true) (hr : cfg.prn.get c = some r) (h : InSubrange cfg c i) :
    satOfIndex cfg i = .ok (c, r.min + (i - r.base)) :=
  indexIn_of_inSubrange hacc hr h (mem_allConstellations c)

theorem satOfIndex_invalid (h : ∀ c, ¬InSubrange cfg c i) : satOfIndex cfg i = .error (.invalidPrn none i) :=
  indexIn_of_no_subrange h _

/-- FROM_INDEX takes back the index of a PRN in range (R162). -/
theorem satOfIndex_of_prn (hacc : cfgAccepted cfg = true) (hr : cfg.prn.get c = some r) {prn : Nat} (hmin : r.min ≤ prn)
    (hmax : prn ≤ r.max) : satOfIndex cfg (r.base + (prn - r.min)) = .ok (c, prn) := by
  rw [satOfIndex_of_inSubrange hacc hr (inSubrange_of_prn hr hmin hmax), Nat.add_sub_cancel_left, Nat.add_sub_cancel' hmin]

/-! ## The SVID offsets (R165 to R168) -/

variable {fam : Family} {o : Nat}

theorem svidOffsetOf_ok (ho : cfg.svidOffset.lookup (fam, c) = some o) : svidOffsetOf cfg fam c = .ok o := by
  simp only [svidOffsetOf, ho]

/-- An SVID names the satellite whose PRN is the SVID and the offset (R166). -/
theorem satOfSvid_eq (ho : cfg.svidOffset.lookup (fam, c) = some o) (svid : Nat) :
    satOfSvid cfg fam c svid = satIndex cfg c (svid + o : Nat) := by
  simp only [satOfSvid, svidOffsetOf_ok ho, Nat.cast_add]

/-- The SVID of an index is its PRN without the offset, where the PRN is no less (R167). -/
theorem svidOfSat_eq (ho : cfg.svidOffset.lookup (fam, c) = some o) {prn : Nat} (hi : satOfIndex cfg i = .ok (c, prn)) :
    svidOfSat cfg fam i = if prn < o then .error (.usage (some (.int i))) else .ok (c, prn - o) := by
  simp only [svidOfSat, hi, svidOffsetOf_ok ho]

theorem svidOfSat_invalid {e : Cond} (hi : satOfIndex cfg i = .error e) : svidOfSat cfg fam i = .error e := by
  simp only [svidOfSat, hi]

/-- SAT_TO_SVID takes back the SVID (R168). -/
theorem svidOfSat_of_svid (hacc : cfgAccepted cfg = true) (ho : cfg.svidOffset.lookup (fam, c) = some o)
    (hr : cfg.prn.get c = some r) {svid : Nat} (hmin : r.min ≤ svid + o) (hmax : svid + o ≤ r.max) :
    svidOfSat cfg fam (r.base + (svid + o - r.min)) = .ok (c, svid) := by
  rw [svidOfSat_eq ho (satOfIndex_of_prn hacc hr hmin hmax), if_neg (by omega), Nat.add_sub_cancel]

end

/-! ## The signal tables (R169) -/

theorem signalOf_missing {cfg : Cfg} {t : SigTable} {c : Constellation} {slot : Nat}
    (h : (sigTable cfg t).lookup (c, slot) = none) : signalOf cfg t c slot = .error (.invalidSignal c slot) := by
  simp only [signalOf, if_neg (Int.not_lt.mpr (Int.natCast_nonneg slot)), Int.toNat_natCast, h]

/-! ## The operations in a configured block -/

section
variable {s : State} {c : Constellation} {i : Nat}

theorem exec_toIndex_answers (hc : s.configured = true) {prn : Nat} (h : satIndex s.cfg c prn = .ok i) :
    exec (.toIndex c prn) s = .next (s.answers (.nat i)) :=
  pureUnit_answers hc (f := fun cfg => satIndex cfg c prn) h .nat

theorem exec_fromIndex_answers (hc : s.configured = true) {prn : Nat} (h : satOfIndex s.cfg i = .ok (c, prn)) :
    exec (.fromIndex i) s = .next (s.answers (.consPrn c prn)) :=
  pureUnit_answers hc (f := fun cfg => satOfIndex cfg i) h fun x => .consPrn x.1 x.2

theorem exec_satToSvid_answers (hc : s.configured = true) {fam : Family} {svid : Nat}
    (h : svidOfSat s.cfg fam i = .ok (c, svid)) : exec (.satToSvid fam i) s = .next (s.answers (.consPrn c svid)) :=
  pureUnit_answers hc (f := fun cfg => svidOfSat cfg fam i) h fun x => .consPrn x.1 x.2

theorem exec_satToSvid_stops (hc : s.configured = true) {fam : Family} {e : Cond} (h : svidOfSat s.cfg fam i = .error e) :
    exec (.satToSvid fam i) s = .next (s.stops e.code (e.info s.free)) :=
  pureUnit_stops hc (f := fun cfg => svidOfSat cfg fam i) h _

end

/-- Settles O28: the loop of FROM_INDEX ends at the one constellation whose sub-range holds the index, so the two conversions are
inverses. -/
theorem satelliteIndexing : Obligations.SatelliteIndexing := by
  unfold Obligations.SatelliteIndexing
  intro s hc hacc
  refine ⟨fun c prn r hr hmin hmax => ⟨?_, ?_⟩, fun c prn r hr hout => ?_, fun c i r hr hin => ⟨?_, ?_⟩⟩
  · exact exec_toIndex_answers hc (satIndex_ok hr hmin hmax)
  · exact exec_fromIndex_answers hc (satOfIndex_of_prn hacc hr hmin hmax)
  · have hinvalid : ∀ r', s.cfg.prn.get c = some r' → prn < r'.min ∨ r'.max < prn := fun r' hr' => by
      cases hr.symm.trans hr'
      exact hout
    exact pureUnit_stops hc (f := fun cfg => satIndex cfg c prn) (satIndex_invalid hinvalid) _
  · exact exec_fromIndex_answers hc (satOfIndex_of_inSubrange hacc hr hin)
  · exact exec_toIndex_answers hc (satIndex_of_inSubrange hr hin)

/-- Settles O29: the SVID operations are the index operations at the PRN that is the SVID and the family's offset. -/
theorem svidConversions : Obligations.SvidConversions := by
  unfold Obligations.SvidConversions
  intro s fam c o hc hacc ho
  refine ⟨?_, fun svid r hr hmin hmax => ⟨_, rfl, ?_, ?_⟩, fun svid hout => ?_, fun i r hr hin hlt => ?_,
    fun i hnone => ⟨?_, ?_⟩⟩
  · exact pureUnit_answers hc (f := fun cfg => svidOffsetOf cfg fam c) (svidOffsetOf_ok ho) .nat
  · have hsat := (satOfSvid_eq ho svid).trans (satIndex_ok hr hmin hmax)
    exact pureUnit_answers hc (f := fun cfg => satOfSvid cfg fam c svid) hsat .nat
  · exact exec_satToSvid_answers hc (svidOfSat_of_svid hacc ho hr hmin hmax)
  · have hsat := (satOfSvid_eq ho svid).trans (satIndex_invalid hout)
    exact pureUnit_stops hc (f := fun cfg => satOfSvid cfg fam c svid) hsat _
  · have hsvid := (svidOfSat_eq ho (satOfIndex_of_inSubrange hacc hr hin)).trans (if_pos hlt)
    exact exec_satToSvid_stops hc hsvid
  · exact pureUnit_stops hc (f := fun cfg => satOfIndex cfg i) (satOfIndex_invalid hnone) _
  · exact exec_satToSvid_stops hc (svidOfSat_invalid (satOfIndex_invalid hnone))

/-- Settles O30: the entry of the table that is named, or its absence. -/
theorem signalOfSlot : Obligations.SignalOfSlot := by
  unfold Obligations.SignalOfSlot
  intro s tbl c slot hc
  refine ⟨fun g hg => ?_, fun hnone => ?_, rfl, rfl⟩
  · exact pureUnit_answers hc (f := fun cfg => signalOf cfg tbl c slot) (signalOf_ok hg) .signal
  · exact pureUnit_stops hc (f := fun cfg => signalOf cfg tbl c slot) (signalOf_missing hnone) _

end Sys2Proof.Machine

/-! SUPPORT and the statements of 43_mask.md: the place of an index in a mask, the list DECODE_MASK answers, when the loop of
ENCODE_MASK takes a list and where it stops, and the two as inverses. -/

namespace Sys2Proof.Machine

/-! ## The place of an index in a mask (R175) -/

/-- The place, counted from the least significant bit, of the `k`-th index of a mask (R175). -/
def maskPlace (width : Nat) (order : MaskOrder) (k : Nat) : Nat :=
  match order with
  | .msb => width - 1 - k
  | .lsb => k

section
variable {width offset : Nat} {order : MaskOrder}

theorem maskBit_eq_testBit (bits width : Nat) (order : MaskOrder) (k : Nat) :
    maskBit bits width order k = bits.testBit (maskPlace width order k) := by
  cases order <;> rfl

theorem maskPlace_lt (order : MaskOrder) {k : Nat} (hk : k < width) : maskPlace width order k < width := by
  cases order with
  | msb => simp only [maskPlace]; omega
  | lsb => exact hk

/-- Either order places every index where it came from when it is applied again. -/
theorem maskPlace_maskPlace (order : MaskOrder) {k : Nat} (hk : k < width) :
    maskPlace width order (maskPlace width order k) = k := by
  cases order with
  | msb => simp only [maskPlace]; omega
  | lsb => rfl

theorem maskPlace_inj {k k' : Nat} (hk : k < width) (hk' : k' < width) :
    maskPlace width order k = maskPlace width order k' ↔ k = k' :=
  ⟨fun h => by rw [← maskPlace_maskPlace order hk, h, maskPlace_maskPlace order hk'], congrArg _⟩

/-! ## What a list says about a mask (R175, R177) -/

/-- A number of `width` bits whose set bits are the indices of a list. -/
structure IsMaskOf (width offset : Nat) (order : MaskOrder) (l : List Nat) (bits : Nat) : Prop where
  lt : bits < 2 ^ width
  testBit : ∀ k, k < width → (bits.testBit (maskPlace width order k) = true ↔ k + offset ∈ l)

/-- There is one such number, because every place is that of an index. -/
theorem IsMaskOf.unique {l : List Nat} {bits bits' : Nat} (h : IsMaskOf width offset order l bits)
    (h' : IsMaskOf width offset order l bits') : bits = bits' := by
  refine Nat.eq_of_testBit_eq fun n => ?_
  by_cases hn : n < width
  · have hplace := maskPlace_lt order hn
    have hiff := (h.testBit _ hplace).trans (h'.testBit _ hplace).symm
    rwa [maskPlace_maskPlace order hn, ← Bool.eq_iff_iff] at hiff
  · have habove : 2 ^ width ≤ 2 ^ n := Nat.pow_le_pow_right two_pos (not_lt.mp hn)
    rw [Nat.testBit_lt_two_pow (h.lt.trans_le habove), Nat.testBit_lt_two_pow (h'.lt.trans_le habove)]

/-- The indices a mask can hold (R178). -/
def InMask (width offset i : Nat) : Prop := offset ≤ i ∧ i < offset + width

theorem InMask.sub_lt {i : Nat} (h : InMask width offset i) : i - offset < width := Nat.sub_lt_left_of_lt_add h.1 h.2

/-! ## DECODE_MASK (R175) -/

theorem mem_maskIndices {bits i : Nat} :
    i ∈ maskIndices bits width offset order ↔
      ∃ k, k < width ∧ i = k + offset ∧ bits.testBit (maskPlace width order k) = true := by
  simp only [maskIndices, List.mem_map, List.mem_filter, List.mem_range, maskBit_eq_testBit]
  exact ⟨fun ⟨k, ⟨hk, hbit⟩, hi⟩ => ⟨k, hk, hi.symm, hbit⟩, fun ⟨k, hk, hi, hbit⟩ => ⟨k, ⟨hk, hbit⟩, hi.symm⟩⟩

theorem maskIndices_pairwise (bits width offset : Nat) (order : MaskOrder) :
    (maskIndices bits width offset order).Pairwise (· < ·) := by
  rw [maskIndices, List.pairwise_map]
  exact (List.pairwise_lt_range.filter _).imp fun h => Nat.add_lt_add_right h offset

theorem inMask_of_mem_maskIndices {bits i : Nat} (h : i ∈ maskIndices bits width offset order) :
    InMask width offset i := by
  obtain ⟨k, hk, rfl, -⟩ := mem_maskIndices.mp h
  exact ⟨by omega, by omega⟩

/-- An integer of `width` bits is the mask of the list decoded from it. -/
theorem isMaskOf_maskIndices {bits : Nat} (h : bits < 2 ^ width) :
    IsMaskOf width offset order (maskIndices bits width offset order) bits where
  lt := h
  testBit k hk := by
    rw [mem_maskIndices]
    refine ⟨fun hbit => ⟨k, hk, rfl, hbit⟩, fun ⟨k', _, hkk', hbit⟩ => ?_⟩
    rwa [Nat.add_right_cancel hkk']

/-- The mask of an ascending list in range decodes to the list: both are ascending and have the same members. -/
theorem IsMaskOf.maskIndices_eq {l : List Nat} {bits : Nat} (h : IsMaskOf width offset order l bits)
    (hasc : l.Pairwise (· < ·)) (hin : ∀ i ∈ l, InMask width offset i) : maskIndices bits width offset order = l := by
  refine (maskIndices_pairwise bits width offset order).eq_of_mem_iff hasc fun i => ?_
  rw [mem_maskIndices]
  constructor
  · rintro ⟨k, hk, rfl, hbit⟩
    exact (h.testBit k hk).mp hbit
  · intro hi
    have hk : i - offset < width := (hin i hi).sub_lt
    have hback : i - offset + offset = i := Nat.sub_add_cancel (hin i hi).1
    exact ⟨i - offset, hk, hback.symm, (h.testBit _ hk).mpr (hback.symm ▸ hi)⟩

/-! ## One turn of the loop of ENCODE_MASK (R177, R178) -/

theorem encodeMaskFrom_cons_takes {i : Nat} {prev : Option Nat} (hin : InMask width offset i)
    (hprev : ∀ p ∈ prev, p < i) (is : List Nat) (bits : Nat) :
    encodeMaskFrom width offset order (i :: is) prev bits =
      encodeMaskFrom width offset order is (some i) (bits ||| 2 ^ maskPlace width order (i - offset)) := by
  have hrange : ¬(i < offset ∨ offset + width ≤ i) :=
    fun h => h.elim (Nat.not_lt.mpr hin.1) (Nat.not_le.mpr hin.2)
  cases prev with
  | none => exact if_neg hrange
  | some p => exact (if_neg hrange).trans (if_neg (Nat.not_le.mpr (hprev p rfl)))

theorem encodeMaskFrom_cons_refuses {i : Nat} {prev : Option Nat}
    (hbad : i < offset ∨ offset + width ≤ i ∨ ∃ p ∈ prev, i ≤ p) (is : List Nat) (bits : Nat) :
    encodeMaskFrom width offset order (i :: is) prev bits = .error (.usage (some (.int i))) := by
  by_cases hrange : i < offset ∨ offset + width ≤ i
  · exact if_pos hrange
  · obtain ⟨p, hp, hle⟩ := (or_assoc.mpr hbad).resolve_left hrange
    cases hp
    exact (if_neg hrange).trans (if_pos hle)

/-! ## The whole loop -/

/-- The bits so far and those of a list's indices. -/
def withIndices (width offset : Nat) (order : MaskOrder) (l : List Nat) (bits : Nat) : Nat :=
  l.foldl (fun b i => b ||| 2 ^ maskPlace width order (i - offset)) bits

theorem testBit_withIndices (l : List Nat) (bits n : Nat) :
    (withIndices width offset order l bits).testBit n = true ↔
      bits.testBit n = true ∨ ∃ i ∈ l, maskPlace width order (i - offset) = n := by
  induction l generalizing bits with
  | nil => simp [withIndices]
  | cons i is ih =>
    have hstep : withIndices width offset order (i :: is) bits =
        withIndices width offset order is (bits ||| 2 ^ maskPlace width order (i - offset)) := rfl
    simp only [hstep, ih, Nat.testBit_or, Nat.testBit_two_pow, Bool.or_eq_true, decide_eq_true_eq, List.mem_cons,
      exists_eq_or_imp, or_assoc]

/-- The bits of a list in range are a mask of it. -/
theorem isMaskOf_withIndices {l : List Nat} (hin : ∀ i ∈ l, InMask width offset i) :
    IsMaskOf width offset order l (withIndices width offset order l 0) := by
  have hset (n : Nat) : (withIndices width offset order l 0).testBit n = true ↔
      ∃ i ∈ l, maskPlace width order (i - offset) = n := by
    simp [testBit_withIndices]
  have hk {i : Nat} (hi : i ∈ l) : i - offset < width := (hin i hi).sub_lt
  refine ⟨Nat.lt_pow_two_of_testBit _ fun n hn => ?_, fun k hkw => ?_⟩
  · rw [← Bool.not_eq_true, hset]
    rintro ⟨i, hi, rfl⟩
    exact absurd (maskPlace_lt order (hk hi)) (Nat.not_lt.mpr hn)
  · rw [hset]
    constructor
    · rintro ⟨i, hi, hplace⟩
      rwa [← (maskPlace_inj (hk hi) hkw).mp hplace, Nat.sub_add_cancel (hin i hi).1]
    · exact fun hmem => ⟨k + offset, hmem, by rw [Nat.add_sub_cancel]⟩

/-- The loop ends in bits exactly when the indices ascend, from the last one done on, and lie in range (R177, R178). -/
theorem encodeMaskFrom_eq_ok {l : List Nat} {prev : Option Nat} {bits b : Nat} :
    encodeMaskFrom width offset order l prev bits = .ok b ↔
      (prev.toList ++ l).IsChain (· < ·) ∧ (∀ i ∈ l, InMask width offset i) ∧ withIndices width offset order l bits = b := by
  induction l generalizing prev bits with
  | nil => cases prev <;> simp [encodeMaskFrom, withIndices]
  | cons i is ih =>
    have hchain : (prev.toList ++ i :: is).IsChain (· < ·) ↔ (∀ p ∈ prev, p < i) ∧ (i :: is).IsChain (· < ·) := by
      cases prev <;> simp
    rw [hchain, List.forall_mem_cons]
    by_cases htakes : InMask width offset i ∧ ∀ p ∈ prev, p < i
    · obtain ⟨hin, hprev⟩ := htakes
      rw [encodeMaskFrom_cons_takes hin hprev, ih]
      exact ⟨fun ⟨hasc, hrest, hbits⟩ => ⟨⟨hprev, hasc⟩, ⟨hin, hrest⟩, hbits⟩,
        fun ⟨⟨_, hasc⟩, ⟨_, hrest⟩, hbits⟩ => ⟨hasc, hrest, hbits⟩⟩
    · have hbad : i < offset ∨ offset + width ≤ i ∨ ∃ p ∈ prev, i ≤ p := by
        by_contra hgood
        push Not at hgood
        exact htakes ⟨⟨hgood.1, hgood.2.1⟩, hgood.2.2⟩
      rw [encodeMaskFrom_cons_refuses hbad]
      exact ⟨fun h => (nomatch h), fun ⟨⟨hprev, _⟩, ⟨hin, _⟩, _⟩ => absurd ⟨hin, hprev⟩ htakes⟩

/-- The loop stops at the first index that is out of range or not above one before it (R178). -/
theorem encodeMaskFrom_refuses {pre : List Nat} {i : Nat} (hin : ∀ j ∈ pre, InMask width offset j) (post : List Nat)
    {prev : Option Nat} (bits : Nat) (hasc : (prev.toList ++ pre).Pairwise (· < ·))
    (hbad : i < offset ∨ offset + width ≤ i ∨ ∃ j ∈ prev.toList ++ pre, i ≤ j) :
    encodeMaskFrom width offset order (pre ++ i :: post) prev bits = .error (.usage (some (.int i))) := by
  induction pre generalizing prev bits with
  | nil => exact encodeMaskFrom_cons_refuses (by simpa using hbad) post bits
  | cons j js ih =>
    obtain ⟨hj, hjs⟩ := List.forall_mem_cons.mp hin
    obtain ⟨_, hasc', hbelow⟩ := List.pairwise_append.mp hasc
    have hprev : ∀ p ∈ prev, p < j := fun p hp => hbelow p (Option.mem_toList.mpr hp) j List.mem_cons_self
    rw [List.cons_append, encodeMaskFrom_cons_takes hj hprev]
    refine ih hjs _ hasc' (hbad.imp_right fun h => h.imp_right ?_)
    rintro ⟨p, hp, hle⟩
    obtain hp | hp := List.mem_append.mp hp
    · exact ⟨j, List.mem_cons_self, hle.trans (hprev p (Option.mem_toList.mp hp)).le⟩
    · exact ⟨p, hp, hle⟩

/-! ## ENCODE_MASK (R177, R178) and the two as inverses (R181) -/

/-- ENCODE_MASK answers exactly for the ascending lists in range, and what it answers is their mask. -/
theorem maskBits_eq_ok {l : List Nat} {bits : Nat} :
    maskBits l width offset order = .ok bits ↔
      l.Pairwise (· < ·) ∧ (∀ i ∈ l, InMask width offset i) ∧ IsMaskOf width offset order l bits := by
  have hloop : maskBits l width offset order = .ok bits ↔
      l.IsChain (· < ·) ∧ (∀ i ∈ l, InMask width offset i) ∧ withIndices width offset order l 0 = bits :=
    encodeMaskFrom_eq_ok
  rw [hloop, List.isChain_iff_pairwise]
  refine and_congr_right fun _ => and_congr_right fun hin => ⟨?_, fun h => (isMaskOf_withIndices hin).unique h⟩
  rintro rfl
  exact isMaskOf_withIndices hin

theorem maskBits_maskIndices {bits : Nat} (h : bits < 2 ^ width) :
    maskBits (maskIndices bits width offset order) width offset order = .ok bits :=
  maskBits_eq_ok.mpr ⟨maskIndices_pairwise .., fun _ => inMask_of_mem_maskIndices, isMaskOf_maskIndices h⟩

theorem maskIndices_of_maskBits {l : List Nat} {bits : Nat} (h : maskBits l width offset order = .ok bits) :
    maskIndices bits width offset order = l := by
  obtain ⟨hasc, hin, hmask⟩ := maskBits_eq_ok.mp h
  exact hmask.maskIndices_eq hasc hin

end

/-! ## The operations in a configured block -/

section
variable {s : State} {width offset : Nat} {order : MaskOrder}

theorem exec_decodeMask_answers (hc : s.configured = true) (bits : Nat) :
    exec (.decodeMask bits width offset order) s =
      .next (s.answers (.indices (maskIndices bits width offset order) (maskIndices bits width offset order).length)) :=
  unitOp_configured
    (fun s => .next (s.done (.indices (maskIndices bits width offset order) (maskIndices bits width offset order).length))) hc

theorem exec_encodeMask_answers (hc : s.configured = true) {l : List Nat} {bits : Nat}
    (h : maskBits l width offset order = .ok bits) :
    exec (.encodeMask l width offset order) s = .next (s.answers (.nat bits)) :=
  pureUnit_answers hc (f := fun _ => maskBits l width offset order) h .nat

theorem exec_encodeMask_stops (hc : s.configured = true) {l : List Nat} {e : Cond}
    (h : maskBits l width offset order = .error e) :
    exec (.encodeMask l width offset order) s = .next (s.stops e.code (e.info s.free)) :=
  pureUnit_stops hc (f := fun _ => maskBits l width offset order) h _

/-- An ENCODE_MASK that gave a number took its list. -/
theorem maskBits_of_exec_ret (hc : s.configured = true) {l : List Nat} {bits : Nat} {t : State}
    (h : exec (.encodeMask l width offset order) s = .next t) (hret : t.ret = .nat bits) :
    maskBits l width offset order = .ok bits := by
  cases hmask : maskBits l width offset order with
  | ok b =>
    cases h.symm.trans (exec_encodeMask_answers hc hmask)
    cases hret
    rfl
  | error e =>
    cases h.symm.trans (exec_encodeMask_stops hc hmask)
    cases hret

end

/-- Settles O26: ENCODE_MASK answers the one number that is the list's mask, and stops at the first index it does not take. -/
theorem maskOperations : Obligations.MaskOperations := by
  unfold Obligations.MaskOperations
  intro s width offset order hc
  refine ⟨fun bits => ?_, fun l hasc hin => ?_, fun pre i post hasc hin hbad => ?_⟩
  · exact ⟨_, exec_decodeMask_answers hc bits, maskIndices_pairwise .., fun _ => mem_maskIndices⟩
  · have hmask : IsMaskOf width offset order l (withIndices width offset order l 0) := isMaskOf_withIndices hin
    exact ⟨_, exec_encodeMask_answers hc (maskBits_eq_ok.mpr ⟨hasc, hin, hmask⟩), hmask.lt, hmask.testBit⟩
  · exact exec_encodeMask_stops hc (encodeMaskFrom_refuses hin post (prev := none) 0 hasc hbad)

/-- Settles O27: the list is the one ascending list of the mask's bits, and the mask the one number of the list. -/
theorem maskRoundTrips : Obligations.MaskRoundTrips := by
  unfold Obligations.MaskRoundTrips
  intro s width offset order hc
  refine ⟨fun l bits t hexec hret => ?_, fun bits l n t hlt hexec hret => ?_⟩
  · have hlist := maskIndices_of_maskBits (maskBits_of_exec_ret hc hexec hret)
    rw [exec_decodeMask_answers hc, hlist]
  · cases hexec.symm.trans (exec_decodeMask_answers hc bits)
    cases hret
    exact exec_encodeMask_answers hc (maskBits_maskIndices hlt)

end Sys2Proof.Machine

/-! SUPPORT and the statements of 44_dispatch.md: the host operations, the configuration's checks, the station handlers, DISPATCH,
DECODE_ONE and ENCODE_ONE. -/

namespace Sys2Proof.Machine

/-! ## The host operations (R214 to R216, R317, R318) -/

theorem exec_hostConfig (cfg : Cfg) (s : State) : exec (.hostConfig cfg) s = execHostConfig cfg s := rfl

/-- Settles O2: HOST_CONFIG asks for its window and an accepted record, and for nothing else. -/
theorem hostConfigInstallsOrRefuses : Obligations.HostConfigInstallsOrRefuses := by
  unfold Obligations.HostConfigInstallsOrRefuses
  intro s cfg
  rw [exec_hostConfig, execHostConfig]
  refine ⟨fun hw hacc => by rw [if_pos ⟨hw, hacc⟩]; rfl, fun hbad => ?_⟩
  rw [if_neg (by rintro ⟨hw, hacc⟩; simp [hw, hacc] at hbad)]
  rfl

/-- Settles O5: the bytes are laid from address 0 of an empty memory; a position beyond them is refused. -/
theorem hostLoadReplacesTheStream : Obligations.HostLoadReplacesTheStream := by
  unfold Obligations.HostLoadReplacesTheStream
  intro s bytes scan
  have hexec : exec (.hostLoad bytes scan) s = execHostLoad bytes scan s := rfl
  rw [hexec, execHostLoad]
  refine ⟨fun hle => ⟨Memory.write [] 0 bytes, by rw [if_neg (Nat.not_lt.mpr hle)]; rfl, fun i hi => ?_⟩,
    fun hlt => by rw [if_pos hlt]; rfl⟩
  rw [Memory.get_write _ _ _ _ rfl, if_pos ⟨Nat.zero_le _, by omega⟩, Nat.sub_zero, List.getD_eq_getElem _ _ hi,
    List.getElem?_eq_getElem hi]

/-- Settles O6: each operation writes its one register or cache; an eviction erases one key. -/
theorem hostRegisterAndCacheOperations : Obligations.HostRegisterAndCacheOperations := by
  unfold Obligations.HostRegisterAndCacheOperations
  intro s
  refine ⟨fun _ => rfl, fun _ _ => rfl, fun n => ⟨_, rfl, lookup_eraseKey_same n _, fun n' h => lookup_eraseKey_ne n n' _ h⟩,
    fun p => ⟨_, rfl, lookup_eraseKey_same p _, fun p' h => lookup_eraseKey_ne p p' _ h⟩⟩

/-! ## What an accepted configuration is (R215) -/

/-- HOST_CONFIG ends in OK only with an accepted record installed. -/
theorem accepted_of_hostConfig_ok {s t : State} {cfg : Cfg} (h : exec (.hostConfig cfg) s = .next t) (hok : t.result.code = .ok) :
    t.cfg = cfg ∧ cfgAccepted cfg = true := by
  rw [exec_hostConfig, execHostConfig] at h
  split at h
  · next hacc => cases h; exact ⟨rfl, hacc.2⟩
  · cases h; exact absurd hok (Cond.code_ne_ok (.usage (some (.config cfg))))

theorem sta_row_required {cfg : Cfg} {b : Nat} {k : StaKind}
    (h : (match k with | .ant => cfg.antType | .pos => cfg.posType | .globias => cfg.globiasType) = some b) :
    (b, .sta k) ∈ requiredRows cfg := by
  cases k <;> simp only at h <;> simp [requiredRows, h]

theorem igs_row_required {cfg : Cfg} {b : Nat} (h : cfg.igsType = some b) : (b, .igs) ∈ requiredRows cfg := by
  simp [requiredRows, h]

/-- Settles O3: each of the rows is a required one, and an accepted table holds them all. -/
theorem acceptedConfigHasTheRequiredRows : Obligations.AcceptedConfigHasTheRequiredRows := by
  unfold Obligations.AcceptedConfigHasTheRequiredRows
  intro s cfg t hexec hok
  obtain ⟨hcfg, hacc⟩ := accepted_of_hostConfig_ok hexec hok
  have row {x : Nat} {h : Handler} (hr : (x, h) ∈ requiredRows cfg) : cfg.typeTable.lookup x = some h :=
    lookup_of_required hacc hr
  refine ⟨hcfg, fun c b v hb => row (msm_row_required hb v), fun c b o k hb ho hk => row (ssr_row_required hb ?_),
    fun c b hb => row (eph_row_required hb), fun b hb => row (sta_row_required hb), fun b hb => row (sta_row_required hb),
    fun b hb => row (sta_row_required hb), fun b hb => row (igs_row_required hb),
    fun c b o k hb hk => row (test_row_required hb hk)⟩
  rw [List.getElem?_take_of_lt (by omega), hk]

/-- What HOST_CONFIG checks of each kind of layout (R215). -/
structure LayoutChecks (cfg : Cfg) : Prop where
  msm : ∀ x ∈ cfg.msmLayout, msmLayoutOk x.2 = true
  ssr : ∀ x ∈ cfg.ssrLayout, ssrLayoutOk x.2 = true
  igs : ∀ x ∈ cfg.igsLayout, ssrLayoutOk x.2 = true
  igsPrefix : ∀ p, cfg.igsPrefix = some p → prefixOk p = true
  eph : ∀ c l, cfg.ephLayout.get c = some l → ∀ d ∈ l.header, d.ok = true
  sta : ∀ x ∈ cfg.staLayout, ∀ i ∈ x.2, staItemOk i = true
  tropo : ∀ g, cfg.tropoLayout = some g → gridLayoutOk g = true
  iono : ∀ g, cfg.ionoLayout = some g → gridLayoutOk g = true
  integPrefix : ∀ x ∈ cfg.integPrefix, prefixOk x.2 = true
  integ : ∀ x ∈ cfg.integLayout, integLayoutOk cfg x.2 = true
  ephGps : ∀ l, cfg.ephLayout.gps = some l → 12 + widthOf l.header = 488

theorem layoutChecks_of_accepted {cfg : Cfg} (h : cfgAccepted cfg = true) : LayoutChecks cfg := by
  simp only [cfgAccepted, layoutsOk, ephGpsOk, Bool.and_eq_true, List.all_eq_true, Option.all_eq_true,
    decide_eq_true_eq] at h
  obtain ⟨⟨⟨⟨⟨⟨⟨⟨⟨⟨⟨⟨⟨msm, ssr⟩, igs⟩, igsPrefix⟩, eph⟩, sta⟩, tropo⟩, iono⟩, integPrefix⟩, integ⟩, ephGps⟩, _⟩, _⟩, _⟩ := h
  exact {
    msm, ssr, igs, igsPrefix, sta, tropo, iono, integPrefix, integ
    eph := fun c => eph c (mem_allConstellations c)
    ephGps }

theorem ssrLayout_descs_ok {l : SsrLayout} (h : ssrLayoutOk l = true) : ∀ d ∈ SsrLayout.descs l, d.ok = true := by
  simp only [ssrLayoutOk, Bool.and_eq_true, List.all_eq_true, Option.all_eq_true] at h
  obtain ⟨⟨⟨⟨⟨⟨hheader, hsvid⟩, hrecord⟩, hclock⟩, hyaw⟩, hnsig⟩, hsub⟩ := h
  intro d hd
  simp only [SsrLayout.descs, List.mem_append, List.mem_cons, Option.mem_toList] at hd
  obtain ((((hd | rfl | hd) | hd) | hd) | hd) | hd := hd
  · exact hheader d hd
  · exact hsvid
  · exact hrecord d hd
  · exact hclock d hd
  · cases hy : l.yaw with
    | none => simp [hy] at hd
    | some y =>
      have hpair := hyaw y hy
      simp only [hy, Option.elim_some, List.mem_cons, List.not_mem_nil, or_false] at hd
      obtain rfl | rfl := hd
      exacts [hpair.1, hpair.2]
  · exact hnsig d hd
  · exact hsub d hd

theorem gridLayout_descs_ok {l : GridLayout} (h : gridLayoutOk l = true) : ∀ d ∈ GridLayout.descs l, d.ok = true := by
  simp only [gridLayoutOk, Bool.and_eq_true, List.all_eq_true, Option.all_eq_true] at h
  obtain ⟨⟨⟨hheader, hsat⟩, hrecord⟩, hresid⟩ := h
  intro d hd
  simp only [GridLayout.descs, List.mem_append] at hd
  obtain ((hd | hd) | hd) | hd := hd
  · exact hheader d hd
  · cases hg : l.perSat with
    | none => simp [hg] at hd
    | some g =>
      obtain rfl : d = g.svid := by simpa [hg] using hd
      exact hsat g hg
  · exact hrecord d hd
  · cases hr : l.resid with
    | none => simp [hr] at hd
    | some r =>
      have hblock := hresid r hr
      simp only [residLayoutOk, Bool.and_eq_true] at hblock
      obtain ⟨⟨⟨⟨⟨hpresent, hwidth⟩, hscale⟩, _⟩, _⟩, _⟩ := hblock
      simp only [hr, Option.elim_some, List.mem_cons, List.not_mem_nil, or_false] at hd
      obtain rfl | rfl | rfl := hd
      exacts [hpresent, hwidth, hscale]

theorem prefix_descs_ok {p : IgsPrefix} (h : prefixOk p = true) : ∀ d ∈ p.subtype :: p.pre, d.ok = true := by
  simp only [prefixOk, Bool.and_eq_true, List.all_eq_true] at h
  exact List.forall_mem_cons.mpr ⟨h.2, h.1⟩

/-- What the checks say of an integrity layout: its descriptors, and a table for every record field (R215, R331). -/
theorem integLayout_checks {cfg : Cfg} {l : IntegLayout} (h : integLayoutOk cfg l = true) :
    (∀ d ∈ l.header ++ l.records, d.ok = true) ∧ ∀ d ∈ l.records, recordFieldOk cfg d = true := by
  simp only [integLayoutOk, Bool.and_eq_true, List.all_eq_true] at h
  obtain ⟨⟨⟨⟨⟨⟨hheader, _⟩, hrecords⟩, _⟩, _⟩, htables⟩, _⟩ := h
  exact ⟨List.forall_mem_append.mpr ⟨hheader, hrecords⟩, htables⟩

/-- Every field descriptor of an accepted configuration is legal (R104, R133, R215). -/
theorem descriptors_ok {cfg : Cfg} (hacc : cfgAccepted cfg = true) : ∀ d ∈ descriptors cfg, d.ok = true := by
  have h := layoutChecks_of_accepted hacc
  intro d hd
  simp only [descriptors, List.mem_append, List.mem_flatMap] at hd
  obtain ((((((((⟨x, hx, hd⟩ | ⟨x, hx, hd⟩) | ⟨x, hx, hd⟩) | hd) | ⟨x, hx, hd⟩) | ⟨c, _, hd⟩) | ⟨x, hx, hd⟩) | hd) | hd) |
    ⟨x, hx, hd⟩ := hd
  · have hlay := h.msm x hx
    simp only [msmLayoutOk, Bool.and_eq_true, List.all_eq_true] at hlay
    obtain ⟨⟨⟨⟨hheader, _⟩, _⟩, hsat⟩, hsig⟩ := hlay
    simp only [List.mem_map] at hd
    obtain (hd | ⟨y, hy, rfl⟩) | ⟨y, hy, rfl⟩ := hd
    exacts [hheader d hd, hsat y hy, hsig y hy]
  · exact ssrLayout_descs_ok (h.ssr x hx) d hd
  · exact ssrLayout_descs_ok (h.igs x hx) d hd
  · cases hp : cfg.igsPrefix with
    | none => simp [hp] at hd
    | some p => exact prefix_descs_ok (h.igsPrefix p hp) d (by simpa [hp] using hd)
  · exact prefix_descs_ok (h.integPrefix x hx) d hd
  · cases hl : cfg.ephLayout.get c with
    | none => simp [hl] at hd
    | some l => exact h.eph c l hl d (by simpa [hl] using hd)
  · obtain ⟨i, hi, rfl⟩ := List.mem_map.mp hd
    have hitem := h.sta x hx i hi
    cases i <;> exact hitem
  · cases hg : cfg.tropoLayout with
    | none => simp [hg] at hd
    | some g => exact gridLayout_descs_ok (h.tropo g hg) d (by simpa [hg] using hd)
  · cases hg : cfg.ionoLayout with
    | none => simp [hg] at hd
    | some g => exact gridLayout_descs_ok (h.iono g hg) d (by simpa [hg] using hd)
  · exact (integLayout_checks (h.integ x hx)).1 d (by simpa using hd)

theorem widthOk_iff {w : Nat} : widthOk w = true ↔ 1 ≤ w ∧ w ≤ 64 := by simp [widthOk]

/-- The range of a field as its bounds (R13, R133). -/
theorem inFieldRange_iff {w : Nat} {signed : Bool} {v : Int} :
    inFieldRange w signed v = true ↔
      if signed then -(2 ^ (w - 1) : Int) ≤ v ∧ v < 2 ^ (w - 1) else 0 ≤ v ∧ v < 2 ^ w := by
  cases signed <;> simp [inFieldRange]

theorem FieldDesc.ok_iff {d : FieldDesc} :
    d.ok = true ↔ widthOk d.width = true ∧ 0 < d.scale ∧ ∀ v, d.na = some v → inFieldRange d.width d.signed v = true := by
  cases h : d.na <;> simp [FieldDesc.ok, h, and_assoc]

/-- The residual block of a grid layout (R281): its widths, and its sentinel in the range of each of them. -/
theorem residLayout_checks {r : ResidLayout} (h : residLayoutOk r = true) {x : Int × Nat} (hx : x ∈ r.width) :
    x.2 ≤ 64 ∧ ∀ v, r.na = .value v → x.2 ≠ 0 → -(2 ^ (x.2 - 1) : Int) ≤ v ∧ v < 2 ^ (x.2 - 1) := by
  simp only [residLayoutOk, Bool.and_eq_true, List.all_eq_true, decide_eq_true_eq] at h
  obtain ⟨⟨⟨_, hwidth⟩, _⟩, hna⟩ := h
  refine ⟨hwidth x hx, fun v hv hne => ?_⟩
  simp only [residNaOk, hv, List.all_eq_true, Bool.or_eq_true, decide_eq_true_eq] at hna
  simpa using inFieldRange_iff.mp ((hna x hx).resolve_left hne)

/-- A table that covers a field gives every index but the sentinel's a value (R331). -/
theorem covered_index {cfg : Cfg} {d : FieldDesc} (h : recordFieldOk cfg d = true) {idx : Nat} (hlt : idx < 2 ^ d.width)
    (hne : (idx : Int) ≠ d.na.getD (2 ^ d.width - 1) % 2 ^ d.width) :
    ∃ tbl q, cfg.integTable.lookup d.name = some tbl ∧ tbl[idx]? = some (some q) := by
  rw [recordFieldOk, Option.any_eq_true] at h
  obtain ⟨tbl, htbl, hcov⟩ := h
  simp only [tableCovers, Bool.and_eq_true, List.all_eq_true, List.mem_range, Bool.or_eq_true, decide_eq_true_eq] at hcov
  obtain ⟨q, hq⟩ := Option.isSome_iff_exists.mp ((hcov.2 idx hlt).resolve_left hne)
  exact ⟨tbl, q, htbl, Option.join_eq_some_iff.mp hq⟩

/-- Settles O4: each check of R215 as what it says of the record. -/
theorem acceptedConfigMeetsTheChecks : Obligations.AcceptedConfigMeetsTheChecks := by
  unfold Obligations.AcceptedConfigMeetsTheChecks
  intro s cfg t hexec hok
  obtain ⟨-, hacc⟩ := accepted_of_hostConfig_ok hexec hok
  have hlay := layoutChecks_of_accepted hacc
  have hgrid {g : GridLayout} (hg : cfg.tropoLayout = some g ∨ cfg.ionoLayout = some g) : gridLayoutOk g = true :=
    hg.elim (hlay.tropo g) (hlay.iono g)
  refine ⟨fun d hd => ?_, fun g r hg hr x hx => ?_, fun c c' i hc hc' => cfgAccepted_inSubrange_unique hacc hc hc',
    fun r hr => ?_, hlay.ephGps, fun x hx d hd idx hlt hne => ?_, fun x h hx => ?_, ?_⟩
  · obtain ⟨hw, hscale, hna⟩ := FieldDesc.ok_iff.mp (descriptors_ok hacc d hd)
    obtain ⟨h1, h2⟩ := widthOk_iff.mp hw
    exact ⟨h1, h2, hscale, fun v hv => inFieldRange_iff.mp (hna v hv)⟩
  · have hok := hgrid hg
    simp only [gridLayoutOk, Bool.and_eq_true, Option.all_eq_true] at hok
    exact residLayout_checks (hok.2 r hr) hx
  · simp only [cfgAccepted, indexLayoutOk, Bool.and_eq_true, Option.all_eq_true, decide_eq_true_eq] at hacc
    exact hacc.1.1.2.2 r hr
  · exact covered_index ((integLayout_checks (hlay.integ x hx)).2 d hd) hlt hne
  · simp only [cfgAccepted, typeTableOk, Bool.and_eq_true, List.all_eq_true, decide_eq_true_eq] at hacc
    exact hacc.1.2.1 (x, h) hx
  · simpa [CrcParams.reflected] using cfgAccepted_not_reflected hacc

end Sys2Proof.Machine

/-! SUPPORT and the statements of 44_dispatch.md: RAW, DISPATCH and DECODE_ONE. -/

namespace Sys2Proof.Machine

/-! ## A message row in a configured block -/

section
variable {s : State} {i : Instr} {r : State → Rd Handled}

theorem exec_message (hi : messageReader i.wireClass = some r) (hc : s.configured = true) :
    exec i s = tick (finishRun (runMessage { s with window := false } (r { s with window := false }))) := by
  rw [exec_of_messageReader hi, handlerOp, unitOp_configured _ hc]

/-- A message row that completes (R203, R310): the cursor is where the reading ended, and the staged caches are written. -/
theorem exec_message_ok (hi : messageReader i.wireClass = some r) (hc : s.configured = true) {x : Handled} {off : Nat}
    (h : r { s with window := false } s.cur.off = .ok x off) :
    exec i s =
      .next { s.answers (.message x.msg) with cur := { s.cur with off := off }, lk := x.lk, cs := x.cs, is := x.is } := by
  rw [exec_message hi hc, runMessage]
  simp only [h]
  rfl

/-- A message row that leaves the caches as they are. -/
theorem exec_message_plain (hi : messageReader i.wireClass = some r) (hc : s.configured = true) {m : Message} {n : Nat}
    (h : r { s with window := false } s.cur.off = .ok (s.plain m) (s.cur.off + n)) :
    exec i s = .next ((s.past n).answers (.message m)) :=
  exec_message_ok hi hc h

theorem exec_message_stopsAt (hi : messageReader i.wireClass = some r) (hc : s.configured = true) {x : Cond × Nat}
    (h : r { s with window := false } s.cur.off = .stop x.1 x.2) : exec i s = .next (s.stopsAt x) := by
  rw [exec_message hi hc, runMessage]
  simp only [h]
  rfl

end

/-! ## RAW (R201) -/

theorem payload_valid {s : State} (h : s.f.valid = true) :
    s.payload = Memory.slice s.stream (s.f.pos + 3) s.f.length.toNat := if_pos h

theorem exec_raw {s : State} (hc : s.configured = true) (t : BitVec 12) :
    exec (.raw t) s = .next (s.answers (.message (.rawUnhandled t s.payload))) :=
  exec_message_plain (n := 0) (i := .raw t) (r := fun s => readRaw s t) rfl hc rfl

/-- Settles O41: the payload of a valid frame is its slice of STREAM, and any other is cut to 1023 bytes. -/
theorem rawAnswersThePayload : Obligations.RawAnswersThePayload := by
  unfold Obligations.RawAnswersThePayload
  intro s t hc
  refine ⟨s.payload, exec_raw hc t, fun hv => ?_, fun hv => ?_⟩
  · rw [payload_valid hv]
    refine ⟨Memory.slice_length .., fun i hi => ?_⟩
    rw [Memory.slice_length] at hi
    simp [Memory.slice, hi]
  · rw [State.payload, if_neg (by simp [hv])]
    exact List.length_take_le _ _

/-! ## The row of a type and its reader (R193, R194, R199) -/

/-- An offset of the test range has the kind of its row in an accepted type table (R199). -/
theorem testKind_of_testOffset {cfg : Cfg} (hacc : cfgAccepted cfg = true) {c : Constellation} {k : SsrKind} {t o : Nat}
    (hl : cfg.typeTable.lookup t = some (.ssr c k)) (ho : testOffset cfg c t = some o) :
    cfg.testKindOfOffset.lookup o = some k := by
  cases hb : cfg.testBase.get c with
  | none => simp [testOffset, hb] at ho
  | some b =>
    simp only [testOffset, hb, Option.ite_none_right_eq_some, Option.some.injEq] at ho
    obtain ⟨⟨hle, hsome⟩, rfl⟩ := ho
    obtain ⟨k', hk'⟩ := Option.isSome_iff_exists.mp hsome
    have hrow := lookup_of_required hacc (test_row_required hb hk')
    rw [Nat.add_sub_cancel' hle, hl] at hrow
    cases hrow
    exact hk'

/-- A row's reader is the handler the type table gives its type (R193, R199). -/
theorem reader_of_decodeType {cfg : Cfg} (hacc : cfgAccepted cfg = true) (t : BitVec 12) :
    ∃ r, messageReader (decodeType cfg t).wireClass = some r ∧
      ∀ s : State, s.cfg = cfg → s.f.type = t → r s = selectHandler s t := by
  cases hl : cfg.typeTable.lookup t.toNat with
  | none =>
    refine ⟨fun s => readRaw s t, by rw [decodeType_raw hl]; rfl, fun s hs _ => ?_⟩
    simp only [selectHandler, hs, hl]
  | some h =>
    have hselect {s : State} (hs : s.cfg = cfg) : selectHandler s t = runHandler s h := by
      simp only [selectHandler, hs, hl]
    cases h with
    | ssr c k =>
      have hssr : ∃ r, messageReader (Instr.ofSsr c k).wireClass = some r ∧
          ∀ s : State, s.cfg = cfg → s.f.type = t → r s = selectHandler s t :=
        ⟨_, messageReader_ofSsr c k, fun s hs _ => (hselect hs).symm⟩
      simp only [decodeType, hl]
      split
      · exact hssr
      · next o ho =>
        split
        · exact hssr
        · refine ⟨_, messageReader_ofSsrTest o c, fun s hs _ => ?_⟩
          have hk : s.cfg.testKindOfOffset.lookup o = some k := hs ▸ testKind_of_testOffset hacc hl ho
          rw [hselect hs, readTest, hk]
          rfl
    | msm c v =>
      rw [decodeType_handler hl (by simp)]
      exact ⟨_, messageReader_ofMsm c v, fun s hs _ => (hselect hs).symm⟩
    | eph c =>
      rw [decodeType_handler hl (by simp)]
      exact ⟨_, messageReader_ofEph c, fun s hs _ => (hselect hs).symm⟩
    | sta k =>
      rw [decodeType_handler hl (by simp)]
      exact ⟨_, messageReader_ofSta k, fun s hs _ => (hselect hs).symm⟩
    | integ =>
      rw [decodeType_handler hl (by simp)]
      exact ⟨_, rfl, fun s hs ht => by rw [hselect hs, runHandler, ht]⟩
    | gridTropo | gridIono | igs =>
      rw [decodeType_handler hl (by simp)]
      exact ⟨_, rfl, fun s hs _ => (hselect hs).symm⟩

/-- The row of a type, run after the type, is the run of the handler DISPATCH selects (R193). -/
theorem exec_decodeType {s : State} (hc : s.configured = true) (hacc : cfgAccepted s.cfg = true) :
    exec (decodeType s.cfg s.f.type) s =
      tick (finishRun (runMessage { s with window := false } (selectHandler { s with window := false } s.f.type))) := by
  obtain ⟨r, hr, hsel⟩ := reader_of_decodeType hacc s.f.type
  rw [exec_message hr hc, hsel { s with window := false } rfl rfl]

/-! ## DISPATCH (R193, R194, R202) -/

section
variable {s : State}

/-- DISPATCH where the type fits in the payload. -/
theorem dispatchRun_fits (h : Fits s 12) :
    dispatchRun s =
      runMessage (s.typed (ubits s.curByte s.cur.off 12) (s.cur.off + 12))
        (selectHandler (s.typed (ubits s.curByte s.cur.off 12) (s.cur.off + 12))
          (BitVec.ofNat 12 (ubits s.curByte s.cur.off 12))) := by
  simp only [dispatchRun, readBitsU_ok (s := s) (by omega : 1 ≤ 12) (by omega) h]

theorem dispatchRun_truncated (h : s.cur.bitlen < s.cur.off + 12) :
    dispatchRun s = .cond (.truncatedRead s.cur.off 12) s := by
  simp only [dispatchRun, readBitsU_truncated (s := s) (by omega : 1 ≤ 12) (by omega) h]

theorem exec_dispatch (hc : s.configured = true) :
    exec .dispatch s = tick (finishRun (dispatchRun { s with window := false })) :=
  unitOp_configured (fun s => finishRun (dispatchRun s)) hc

end

/-- Behind the type, DISPATCH and the type's row run the same handler at the same cursor (R193). -/
theorem exec_dispatch_fits {s : State} (hc : s.configured = true) (hacc : cfgAccepted s.cfg = true) (hfit : Fits s 12)
    {t : BitVec 12} (ht : BitVec.ofNat 12 (bitsAt s s.cur.off 12) = t) :
    exec .dispatch s = exec (decodeType s.cfg t) { s.past 12 with f := { s.f with type := t } } := by
  rw [bitsAt_eq] at ht
  rw [exec_dispatch hc, dispatchRun_fits (s := { s with window := false }) hfit, ← ht]
  exact (exec_decodeType (s := s.typed (ubits s.curByte s.cur.off 12) (s.cur.off + 12)) hc hacc).symm

/-- Settles O49: DISPATCH is the run of the type's row; without a row that is RAW, and without a type it stops before it. -/
theorem dispatchRunsTheTypesRow : Obligations.DispatchRunsTheTypesRow := by
  unfold Obligations.DispatchRunsTheTypesRow
  intro s hc hacc t s1
  have hrow (hfit : Fits s 12) : exec .dispatch s = exec (decodeType s.cfg t) s1 := exec_dispatch_fits hc hacc hfit rfl
  refine ⟨hrow, fun hfit hl => ⟨s1.payload, ?_, fun hv => ?_⟩, fun hshort => ?_⟩
  · rw [hrow hfit, decodeType_raw hl]
    exact exec_raw (s := s1) hc t
  · exact (payload_valid (s := s1) hv).trans (payload_valid hv).symm
  · rw [exec_dispatch hc, dispatchRun_truncated (s := { s with window := false }) hshort]
    rfl

/-! ## DECODE_ONE (R190 to R192) -/

/-- What a decode of a payload leaves as it was: everything but F's type, the cursor's offset and the staged caches (R193, R310). -/
structure DecodeKeeps (s t : State) : Prop where
  f : t.f = { s.f with type := t.f.type }
  space : t.cur.space = s.cur.space
  base : t.cur.base = s.cur.base
  len : t.cur.len = s.cur.len
  stream : t.stream = s.stream ∧ t.slen = s.slen
  obuf : t.obuf = s.obuf ∧ t.olen = s.olen
  cfg : t.cfg = s.cfg
  refTime : t.refTime = s.refTime
  scan : t.scan = s.scan
  out : t.out = s.out

theorem dispatchRun_keeps (s : State) : DecodeKeeps s (dispatchRun s).state := by
  cases hr : dispatchRun s with
  | ok m t =>
    obtain ⟨ty, off, _, hrun⟩ := dispatchRun_ok hr
    obtain ⟨r, off', _, _, rfl⟩ := runMessage_ok hrun
    exact ⟨rfl, rfl, rfl, rfl, ⟨rfl, rfl⟩, ⟨rfl, rfl⟩, rfl, rfl, rfl, rfl⟩
  | cond c t =>
    obtain rfl | ⟨ty, off, _, hrun⟩ := dispatchRun_cond hr
    · exact ⟨rfl, rfl, rfl, rfl, ⟨rfl, rfl⟩, ⟨rfl, rfl⟩, rfl, rfl, rfl, rfl⟩
    · obtain ⟨off', _, rfl⟩ := runMessage_cond hrun
      exact ⟨rfl, rfl, rfl, rfl, ⟨rfl, rfl⟩, ⟨rfl, rfl⟩, rfl, rfl, rfl, rfl⟩

/-- A decode that ends in a condition has written no cache (R310). -/
theorem dispatchRun_cond_caches {s t : State} {c : Cond} (hr : dispatchRun s = .cond c t) :
    t.lk = s.lk ∧ t.cs = s.cs ∧ t.is = s.is := by
  obtain rfl | ⟨ty, off, _, hrun⟩ := dispatchRun_cond hr
  · exact ⟨rfl, rfl, rfl⟩
  · obtain ⟨off', _, rfl⟩ := runMessage_cond hrun
    exact ⟨rfl, rfl, rfl⟩

section
variable {s : State} {p len : Nat}

/-- The search accepts the frame that stands at the first candidate (R146). -/
theorem searchFrame_frameAt (hfirst : FirstCandidate s s.scan p) (hframe : FrameAt s p len) :
    searchFrame s s.scan = .frame p len (frameCrc s p len) := by
  obtain ⟨_, rfl, hfit, hcrc⟩ := hframe
  rw [searchFrame_first hfirst, candidateAt_fits hfit, if_pos hcrc]

theorem exec_decodeOne_noFrame (hc : s.configured = true) (hr : s.cfg.crc.reflected = false)
    (hf : searchFrame s s.scan = .noFrame) :
    exec .decodeOne s = .next { s.answers (.decoded (s.slen - s.scan) none) with
      f := { s.f with valid := false }, scan := s.slen, out := none } := by
  have hsearch : searchFrame { s with out := none, window := false } s.scan = .noFrame := hf
  rw [exec_decodeOne_configured hc hr, decodeFrom]
  simp only [hsearch]
  rfl

/-- A candidate whose frame has not arrived whole (R191): SCAN is on it. -/
theorem exec_decodeOne_truncated (hc : s.configured = true) (hr : s.cfg.crc.reflected = false)
    (hf : searchFrame s s.scan = .cond (.truncatedAt p)) :
    exec .decodeOne s = .next { s.stops .truncatedMessage (.pos p) with
      f := { s.f with valid := false }, scan := p, out := none } := by
  have hsearch : searchFrame { s with out := none, window := false } s.scan = .cond (.truncatedAt p) := hf
  rw [exec_decodeOne_configured hc hr, decodeFrom]
  simp only [hsearch]
  rfl

/-- The state in which DECODE_ONE dispatches an accepted frame (R190). -/
def State.entered (s : State) (p len : Nat) : State :=
  State.enterFrame { s with out := none, window := false } (.frame p len (frameCrc s p len)) p len

theorem exec_decodeOne_frame (hc : s.configured = true) (hr : s.cfg.crc.reflected = false)
    (hf : searchFrame s s.scan = .frame p len (frameCrc s p len)) :
    exec .decodeOne s = tick (finishDecode (p + len + 6 - s.scan) (dispatchRun (s.entered p len))) := by
  have hsearch : searchFrame { s with out := none, window := false } s.scan = .frame p len (frameCrc s p len) := hf
  rw [exec_decodeOne_configured hc hr, decodeFrom]
  simp only [hsearch]
  rfl

end

/-- Settles O50: the search has the outcomes of R191, and behind an accepted frame the decode keeps all but what it stages. -/
theorem decodeOneOutcomes : Obligations.DecodeOneOutcomes := by
  unfold Obligations.DecodeOneOutcomes
  intro s hc hr hscan
  refine ⟨fun hnone => ?_, fun p hfirst => ⟨fun hshort => ?_, fun hfit hcrc => ?_, fun len hframe => ?_⟩⟩
  · exact exec_decodeOne_noFrame hc hr (by rw [searchFrame, syncScanFrom_none hscan hnone])
  · exact exec_decodeOne_truncated hc hr ((searchFrame_first hfirst).trans (candidateAt_truncated hshort))
  · exact exec_decodeOne_checksum hc hr ((searchFrame_first hfirst).trans ((candidateAt_fits hfit).trans (if_neg hcrc)))
  · have hexec := exec_decodeOne_frame hc hr (searchFrame_frameAt hfirst hframe)
    have hkeeps := dispatchRun_keeps (s.entered p len)
    cases hrun : dispatchRun (s.entered p len) with
    | ok m t =>
      rw [hrun] at hexec hkeeps
      exact ⟨_, hexec, hkeeps.scan, hkeeps.f, hkeeps.space, hkeeps.base, hkeeps.len, hkeeps.stream.1, hkeeps.stream.2,
        hkeeps.obuf.1, hkeeps.obuf.2, hkeeps.cfg, hkeeps.refTime, .inl ⟨rfl, m, rfl, rfl⟩⟩
    | cond c t =>
      have hcaches := dispatchRun_cond_caches hrun
      rw [hrun] at hexec hkeeps
      exact ⟨_, hexec, hkeeps.scan, hkeeps.f, hkeeps.space, hkeeps.base, hkeeps.len, hkeeps.stream.1, hkeeps.stream.2,
        hkeeps.obuf.1, hkeeps.obuf.2, hkeeps.cfg, hkeeps.refTime, .inr ⟨c.code_ne_ok, hkeeps.out, rfl, hcaches⟩⟩

/-! ## A step at a stored frame (R113, R190, R193) -/

/-- A field of bits reads only the bytes it lies in. -/
theorem ubits_congr {rd rd' : Nat → Byte} {off w : Nat} (h : ∀ i, 8 * i < off + w → rd i = rd' i) :
    ubits rd off w = ubits rd' off w := by
  induction w with
  | zero => rfl
  | succ w ih => rw [ubits, ubits, ih fun i hi => h i (by omega), bitAt, bitAt, h _ (by omega)]

/-- The cursor's bytes inside the payload of an entered frame are the payload's. -/
theorem curByte_entered {s : State} {p len i : Nat} (hfit : p + len + 6 ≤ s.slen) (hi : i < len) :
    (s.entered p len).curByte i = listByte (Memory.slice s.stream (p + 3) len) i := by
  have hinside : p + 3 + i < s.slen := by omega
  have hbyte : (s.entered p len).curByte i = Memory.get s.stream (p + 3 + i) := if_pos hinside
  rw [hbyte, listByte, List.getD_eq_getElem _ _ (by rw [Memory.slice_length]; exact hi)]
  simp [Memory.slice]

/-- What DECODE_ONE makes of the end of a row: a message goes to OUT as well, with the bytes consumed (R190). -/
def putOut (consumed : Nat) : Out → Out
  | .next t =>
    match t.ret with
    | .message m => .next { t with out := some m, ret := .decoded consumed (some m) }
    | _ => .next t
  | o => o

theorem finishDecode_eq (consumed : Nat) (r : Run) :
    tick (finishDecode consumed r) = putOut consumed (tick (finishRun r)) := by
  cases r <;> rfl

/-- DECODE_ONE at a frame whose payload holds a type (R193): it runs the type's row behind the type. -/
theorem exec_decodeOne_row {s : State} {p len : Nat} (hc : s.configured = true) (hacc : cfgAccepted s.cfg = true)
    (hfirst : FirstCandidate s s.scan p) (hframe : FrameAt s p len) (hlen : 2 ≤ len) {ty : Nat}
    (hty : ubits (listByte (Memory.slice s.stream (p + 3) len)) 0 12 = ty) :
    exec .decodeOne s =
      putOut (p + len + 6 - s.scan) (exec (decodeType s.cfg (BitVec.ofNat 12 ty)) ((s.entered p len).typed ty 12)) := by
  have hfit : p + len + 6 ≤ s.slen := hframe.2.2.1
  have hbits : ubits (s.entered p len).curByte (s.entered p len).cur.off 12 = ty :=
    (ubits_congr fun j hj => curByte_entered hfit (by change 8 * j < 0 + 12 at hj; omega)).trans hty
  have hspan : Fits (s.entered p len) 12 := by
    show 0 + 12 ≤ 8 * len
    omega
  have hrow := exec_decodeType (s := (s.entered p len).typed ty 12) hc hacc
  rw [exec_decodeOne_frame hc (cfgAccepted_not_reflected hacc) (searchFrame_frameAt hfirst hframe), finishDecode_eq,
    dispatchRun_fits hspan, hbits]
  exact congrArg (putOut _) hrow.symm

/-- Settles O55: DECODE_ONE reads the type of the payload itself, so it runs the row the payload decodes to. -/
theorem stepRunsTheDecodedMessage : Obligations.StepRunsTheDecodedMessage := by
  unfold Obligations.StepRunsTheDecodedMessage
  intro s rest p len i hport hc hacc hscan hfirst hframe payload hdec
  simp only [decodeMessage, payload, Memory.slice_length] at hdec
  split at hdec
  · cases hdec
  next hlen =>
    cases hdec
    rw [stepRunsTheIssuedOperation s .decodeOne rest hport]
    exact exec_decodeOne_row (s := { s with port := rest }) hc hacc hfirst hframe (by omega) rfl

end Sys2Proof.Machine

/-! SUPPORT and the statements of 44_dispatch.md: the station handlers. -/

namespace Sys2Proof.Machine

/-! ## Repeated reads and the events of a reading (R123, R356) -/

/-- Reads of one width each, one after another. -/
theorem times_ok {α : Type} {m : Rd α} {f : Nat → α} {w n off : Nat}
    (h : ∀ i, i < n → m (off + w * i) = .ok (f (off + w * i)) (off + w * i + w)) :
    Rd.times m n off = .ok ((List.range n).map fun i => f (off + w * i)) (off + w * n) := by
  induction n generalizing off with
  | zero => rfl
  | succ n ih =>
    have hstep (i : Nat) : off + w + w * i = off + w * (i + 1) := by rw [Nat.mul_succ]; omega
    have htail : Rd.times m n (off + w) = _ := ih fun i hi => by rw [hstep]; exact h (i + 1) (by omega)
    have hhead : m off = .ok (f off) (off + w) := by simpa using h 0 (by omega)
    rw [Rd.times, Rd.bind_ok hhead, Rd.bind_ok htail, List.range_succ_eq_map]
    simp [Rd.pure, hstep, Function.comp_def]

@[simp] theorem eventBits_read (w : Nat) : eventBits [.read w] = w := rfl

@[simp] theorem eventBits_replicate (n w : Nat) : eventBits (List.replicate n (.read w)) = n * w := by
  simp [eventBits]

/-- The first condition of two parts is the first part's, or the second part's behind the bits of the first. -/
theorem firstStop_append (len off : Nat) (es fs : List Event) :
    firstStop len off (es ++ fs) = (firstStop len off es).or (firstStop len (off + eventBits es) fs) := by
  induction es generalizing off with
  | nil => rfl
  | cons e es ih =>
    match e with
    | .read w =>
      have hbits : off + eventBits (.read w :: es) = off + w + eventBits es := by simp [eventBits, Nat.add_assoc]
      rw [List.cons_append, firstStop_read, firstStop_read, hbits]
      split
      · rfl
      · exact ih _
    | .need (.error c) => rfl
    | .need (.ok ()) =>
      have hbits : eventBits (.need (.ok ()) :: es) = eventBits es := by simp [eventBits]
      rw [hbits]
      exact ih off

section
variable {s : State} {off : Nat}

theorem readRawField_stop {d : FieldDesc} (hd : widthOk d.width = true) (h : s.cur.bitlen < off + d.width) :
    readRawField s d off = .stop (.truncatedRead off d.width) off := by
  obtain ⟨h1, h2⟩ := widthOk_iff.mp hd
  exact Rd.map_stop (readBitsU_truncated h1 h2 h) _

/-- Equal reads that do not all fit end at the first that does not. -/
theorem times_readBitsU_stop {w n : Nat} (h1 : 1 ≤ w) (h2 : w ≤ 64) {x : Cond × Nat}
    (hx : firstStop s.cur.bitlen off (List.replicate n (.read w)) = some x) :
    Rd.times (readBitsU s w) n off = .stop x.1 x.2 := by
  induction n generalizing off with
  | zero => cases hx
  | succ n ih =>
    rw [List.replicate_succ, firstStop_read] at hx
    rw [Rd.times]
    split at hx
    · next htrunc =>
      cases hx
      exact Rd.bind_stop (readBitsU_truncated h1 h2 htrunc) _
    · next hfit =>
      rw [Rd.bind_ok (readBitsU_ok h1 h2 (by omega))]
      exact Rd.bind_stop (ih hx) _

theorem firstStop_replicate_none {w n : Nat} (hoff : off ≤ s.cur.bitlen)
    (h : firstStop s.cur.bitlen off (List.replicate n (.read w)) = none) : off + n * w ≤ s.cur.bitlen := by
  induction n generalizing off with
  | zero => simpa using hoff
  | succ n ih =>
    rw [List.replicate_succ, firstStop_read] at h
    split at h
    · cases h
    · next hfit =>
      have := ih (off := off + w) (by omega) h
      rw [Nat.succ_mul]
      omega

/-! ## Counted strings (R128, R206) -/

/-- The reads of the bytes of a string at a bit (R128): one block where it is aligned, else a read for each byte. -/
def stringEvents (off n : Nat) : List Event := if off % 8 = 0 then [.read (8 * n)] else List.replicate n (.read 8)

/-- The bytes of a string at a bit. -/
def stringAt (s : State) (off n : Nat) : List Byte := (List.range n).map fun i => BitVec.ofNat 8 (bitsAt s (off + 8 * i) 8)

theorem eventBits_stringEvents (off n : Nat) : eventBits (stringEvents off n) = 8 * n := by
  rw [stringEvents]
  split
  · rfl
  · rw [eventBits_replicate, Nat.mul_comm]

theorem ofNat_bitsAt_aligned (ha : off % 8 = 0) (i : Nat) :
    BitVec.ofNat 8 (bitsAt s (off + 8 * i) 8) = s.curByte (off / 8 + i) := by
  have hoff : off + 8 * i = 8 * (off / 8 + i) := by omega
  rw [bitsAt_eq, hoff, ubits_byte _ _ (Nat.le_refl 8)]
  simp

theorem readString_ok {n : Nat} (hfit : off + 8 * n ≤ s.cur.bitlen) :
    readString s n off = .ok (stringAt s off n) (off + 8 * n) := by
  rw [readString, stringAt]
  split
  · next ha => simp only [readByteBlock_ok ha hfit, ofNat_bitsAt_aligned ha]
  · have hreads : Rd.times (readBitsU s 8) n off = _ :=
      times_ok (f := fun o => bitsAt s o 8) (w := 8) fun i hi => by
        rw [readBitsU_ok (by omega) (by omega) (by omega), bitsAt_eq]
    rw [Rd.map_ok hreads, List.map_map]
    rfl

theorem readString_stop {n : Nat} {x : Cond × Nat} (hx : firstStop s.cur.bitlen off (stringEvents off n) = some x) :
    readString s n off = .stop x.1 x.2 := by
  rw [stringEvents] at hx
  rw [readString]
  split at hx
  · next ha =>
    rw [firstStop_read] at hx
    split at hx
    · next htrunc =>
      cases hx
      rw [if_pos ha, readByteBlock_truncated ha htrunc]
    · cases hx
  · next ha =>
    rw [if_neg ha]
    exact Rd.map_stop (times_readBitsU_stop (by omega) (by omega) hx) _

theorem firstStop_stringEvents_none {n : Nat} (hoff : off ≤ s.cur.bitlen)
    (h : firstStop s.cur.bitlen off (stringEvents off n) = none) : off + 8 * n ≤ s.cur.bitlen := by
  rw [stringEvents] at h
  split at h
  · rw [firstStop_read] at h
    split at h
    · cases h
    · omega
  · have := firstStop_replicate_none hoff h
    omega

/-! ## The items of a station record (R206 to R208) -/

/-- The descriptor an item begins with: the field itself, or the count of a string. -/
def itemDesc : StaItem → FieldDesc
  | .field d => d
  | .str _ c => c

theorem stationAt_str (s : State) (off : Nat) (name : FieldName) (c : FieldDesc) (is : List StaItem) :
    stationAt s off (.str name c :: is) =
      ((name, .bytes (stringAt s (off + c.width) (fieldAt s off c).raw.toNat)) ::
          (stationAt s (off + (c.width + 8 * (fieldAt s off c).raw.toNat)) is).1,
        c.width + 8 * (fieldAt s off c).raw.toNat +
          (stationAt s (off + (c.width + 8 * (fieldAt s off c).raw.toNat)) is).2) := rfl

theorem stationEvents_str (s : State) (off : Nat) (name : FieldName) (c : FieldDesc) (is : List StaItem) :
    stationEvents s off (.str name c :: is) =
      .read c.width :: (stringEvents (off + c.width) (fieldAt s off c).raw.toNat ++
        stationEvents s (off + (c.width + 8 * (fieldAt s off c).raw.toNat)) is) := rfl

/-- Items that lie in the span are read where they stand (R206). -/
theorem readStaItems_ok {items : List StaItem} (hw : ∀ i ∈ items, widthOk (itemDesc i).width = true)
    (hfit : off + (stationAt s off items).2 ≤ s.cur.bitlen) :
    Rd.forEach (readStaItem s) items off = .ok (stationAt s off items).1 (off + (stationAt s off items).2) := by
  induction items generalizing off with
  | nil => rfl
  | cons i is ih =>
    have hwcs : ∀ j ∈ is, widthOk (itemDesc j).width = true := fun j hj => hw j (by simp [hj])
    rw [Rd.forEach]
    cases i with
    | field d =>
      have hwd : widthOk d.width = true := hw (.field d) (by simp)
      have hbits : (stationAt s off (.field d :: is)).2 = d.width + (stationAt s (off + d.width) is).2 := rfl
      rw [hbits] at hfit ⊢
      have hitem : readStaItem s (.field d) off = _ := Rd.map_ok (readRawField_ok hwd (by omega)) _
      rw [Rd.bind_ok hitem, Rd.bind_ok (ih hwcs (off := off + d.width) (by omega)), Nat.add_assoc]
      rfl
    | str name c =>
      have hwc : widthOk c.width = true := hw (.str name c) (by simp)
      rw [stationAt_str] at hfit ⊢
      have hitem : readStaItem s (.str name c) off = _ :=
        (Rd.bind_ok (readRawField_ok hwc (by omega)) _).trans (Rd.map_ok (readString_ok (by omega)) _)
      rw [Rd.bind_ok hitem, Nat.add_assoc off, Rd.bind_ok (ih hwcs (by omega)), Nat.add_assoc off]
      rfl

/-- Items that do not all fit end at the first field, byte or block that does not (R123, R347, R356). -/
theorem readStaItems_stop {items : List StaItem} (hw : ∀ i ∈ items, widthOk (itemDesc i).width = true) {x : Cond × Nat}
    (hx : firstStop s.cur.bitlen off (stationEvents s off items) = some x) :
    Rd.forEach (readStaItem s) items off = .stop x.1 x.2 := by
  induction items generalizing off with
  | nil => cases hx
  | cons i is ih =>
    have hwcs : ∀ j ∈ is, widthOk (itemDesc j).width = true := fun j hj => hw j (by simp [hj])
    rw [Rd.forEach]
    cases i with
    | field d =>
      have hwd : widthOk d.width = true := hw (.field d) (by simp)
      rw [stationEvents, firstStop_read] at hx
      split at hx
      · next htrunc =>
        cases hx
        exact Rd.bind_stop (Rd.map_stop (readRawField_stop hwd htrunc) _) _
      · next hfit =>
        have hitem : readStaItem s (.field d) off = _ := Rd.map_ok (readRawField_ok hwd (Nat.le_of_not_lt hfit)) _
        rw [Rd.bind_ok hitem]
        exact Rd.bind_stop (ih hwcs hx) _
    | str name c =>
      have hwc : widthOk c.width = true := hw (.str name c) (by simp)
      rw [stationEvents_str, firstStop_read] at hx
      split at hx
      · next htrunc =>
        cases hx
        exact Rd.bind_stop (Rd.bind_stop (readRawField_stop hwc htrunc) _) _
      · next hfit =>
        have hcount : readRawField s c off = _ := readRawField_ok hwc (Nat.le_of_not_lt hfit)
        rw [firstStop_append, eventBits_stringEvents] at hx
        cases hstr : firstStop s.cur.bitlen (off + c.width) (stringEvents (off + c.width) (fieldAt s off c).raw.toNat) with
        | some y =>
          rw [hstr] at hx
          cases hx
          exact Rd.bind_stop ((Rd.bind_ok hcount _).trans (Rd.map_stop (readString_stop hstr) _)) _
        | none =>
          rw [hstr, Option.none_or, Nat.add_assoc] at hx
          have hitem : readStaItem s (.str name c) off = _ :=
            (Rd.bind_ok hcount _).trans
              (Rd.map_ok (readString_ok (firstStop_stringEvents_none (Nat.le_of_not_lt hfit) hstr)) _)
          rw [Rd.bind_ok hitem, Nat.add_assoc off]
          exact Rd.bind_stop (ih hwcs hx) _

end

/-- The items of a station layout of an accepted configuration have legal widths (R215). -/
theorem staLayout_widths {cfg : Cfg} (hacc : cfgAccepted cfg = true) {k : StaKind} {items : List StaItem}
    (hl : cfg.staLayout.lookup k = some items) : ∀ i ∈ items, widthOk (itemDesc i).width = true := by
  intro i hi
  have hok := (layoutChecks_of_accepted hacc).sta _ (mem_of_lookup _ _ _ hl) i hi
  cases i <;> exact (FieldDesc.ok_iff.mp hok).1

/-- Settles O40: the handler reads the items one after another, and ends where one of them ends. -/
theorem stationReadsItsBitPositions : Obligations.StationReadsItsBitPositions := by
  unfold Obligations.StationReadsItsBitPositions
  intro s k items hc hacc hl
  have hw := staLayout_widths hacc hl
  have hread : readStation { s with window := false } k s.cur.off =
      (Rd.forEach (readStaItem s) items).map (fun fs => s.plain (.station k (lastOf fs))) s.cur.off :=
    Rd.entry_some_bind hl _ _
  refine ⟨fun hfit => ?_, fun x hx => ?_⟩
  · exact exec_message_plain (messageReader_ofSta k) hc (hread.trans (Rd.map_ok (readStaItems_ok hw hfit) _))
  · exact exec_message_stopsAt (messageReader_ofSta k) hc (hread.trans (Rd.map_stop (readStaItems_stop hw hx) _))

end Sys2Proof.Machine

/-! SUPPORT and the statements of 44_dispatch.md: the writes of the reverse path, and what ENCODE_ONE makes of them. -/

namespace Sys2Proof.Machine

/-! ## The writes of a message do not depend on the configuration window (R210, R388) -/

section
variable (s : State)

theorem layoutItems_closed : layoutItems { s with window := false } = layoutItems s := by
  funext place write ds
  induction ds with
  | nil => rfl
  | cons d ds ih => rw [layoutItems, layoutItems, ih]; rfl

theorem staItems_closed : staItems { s with window := false } = staItems s := by
  funext fs items
  induction items with
  | nil => rfl
  | cons i is ih =>
    unfold staItems
    rw [ih]
    rfl

theorem subItems_closed : subItems { s with window := false } = subItems s := by
  funext c place g fs ds
  induction ds with
  | nil => rfl
  | cons d ds ih => rw [subItems, subItems, ih]; rfl

theorem integWriteItems_closed : integWriteItems { s with window := false } = integWriteItems s := by
  funext lay p ws
  induction ws with
  | nil => rfl
  | cons w ws ih =>
    cases w with
    | item i => rw [integWriteItems, integWriteItems, ih]
    | value e d => rw [integWriteItems, integWriteItems, ih]; rfl

theorem ephItems_closed : ephItems { s with window := false } = ephItems s := by
  unfold ephItems
  rw [layoutItems_closed]

theorem obsItems_closed : obsItems { s with window := false } = obsItems s := by
  unfold obsItems fieldItems
  rw [layoutItems_closed]
  rfl

theorem ssrRecordItems_closed : ssrRecordItems { s with window := false } = ssrRecordItems s := by
  unfold ssrRecordItems recordItems subsItems
  rw [layoutItems_closed, subItems_closed]

theorem ssrItems_closed : ssrItems { s with window := false } = ssrItems s := by
  unfold ssrItems satRecordItems headerItems
  rw [ssrRecordItems_closed, layoutItems_closed]
  rfl

theorem gridItems_closed : gridItems { s with window := false } = gridItems s := by
  unfold gridItems gridModelItems gridSatItems headerItems recordItems fieldItems
  rw [layoutItems_closed]

theorem corrItems_closed : corrItems { s with window := false } = corrItems s := by
  unfold corrItems gridMessageItems subtypeItems fieldItems
  rw [layoutItems_closed, ssrItems_closed, gridItems_closed]

theorem integItems_closed : integItems { s with window := false } = integItems s := by
  unfold integItems integKeyItems fieldItems
  rw [layoutItems_closed, integWriteItems_closed]
  rfl

theorem payloadItems_closed : payloadItems { s with window := false } = payloadItems s := by
  unfold payloadItems messageItems
  rw [ephItems_closed, obsItems_closed, corrItems_closed, integItems_closed, staItems_closed]

end

/-! ## One write (R129, R130, R132) -/

section
variable {m : Memory} {cur : Cursor}

/-- A write that fits its field, or is truncated, moves its bits and nothing else. -/
theorem putItem_writable {d : FieldDesc} {raw : Int} (hw : WItem.writable (.field d raw) = true)
    (hfit : cur.off + d.width ≤ cur.bitlen) :
    putItem m cur (.field d raw) =
      .ok (writeBits m cur.base cur.off d.width (raw % 2 ^ d.width).toNat, cur.off + d.width) := by
  simp only [WItem.writable, Bool.and_eq_true, Bool.or_eq_true, decide_eq_true_eq] at hw
  obtain ⟨hwidth, hval⟩ := hw
  obtain ⟨h1, h2⟩ := widthOk_iff.mp hwidth
  rw [inFieldRange_iff] at hval
  have hroom : ¬cur.bitlen < cur.off + d.width := Nat.not_lt.mpr hfit
  rw [putItem]
  split
  · next hs => rw [putS_taken h1 h2 (by simpa [hs] using hval), if_neg hroom]
  · next hs => rw [putU_taken h1 h2 (by simpa [hs] using hval), if_neg hroom]

theorem putItem_refused {i : WItem} {c : Cond} (h : WItem.Refused i c) : putItem m cur i = .error c := by
  cases i with
  | fail c' => exact congrArg Except.error (Eq.symm h)
  | field d raw =>
    obtain ⟨hwidth, hrange, hovf, rfl⟩ := h
    obtain ⟨h1, h2⟩ := widthOk_iff.mp hwidth
    rw [← Bool.not_eq_true, inFieldRange_iff] at hrange
    rw [putItem, hovf]
    split
    · next hs => exact putS_overflow ((signedOverflow_iff h1).mpr (by simpa [hs] using hrange))
    · next hs => exact putU_overflow h1 h2 (by simpa [hs] using hrange)

end

/-! ## The writes of a list (R210) -/

/-- The memory after some writes from bit `off` of the buffer at `base` on, each with the bits of its raw integer. -/
def writeItems (base : Nat) : Memory → Nat → List WItem → Memory
  | m, _, [] => m
  | m, off, .fail _ :: is => writeItems base m off is
  | m, off, .field d raw :: is =>
    writeItems base (writeBits m base off d.width (raw % 2 ^ d.width).toNat) (off + d.width) is

@[simp] theorem itemBits_nil : itemBits [] = 0 := rfl

@[simp] theorem itemBits_cons (i : WItem) (is : List WItem) : itemBits (i :: is) = i.bits + itemBits is := by
  simp [itemBits]

@[simp] theorem itemBits_append (is js : List WItem) : itemBits (is ++ js) = itemBits is + itemBits js := by
  simp [itemBits]

/-- Writes that succeed go before the rest (R132). -/
theorem putItems_append {m : Memory} {cur : Cursor} {done : List WItem} (hw : ∀ i ∈ done, WItem.writable i = true)
    (hfit : cur.off + itemBits done ≤ cur.bitlen) (rest : List WItem) :
    putItems m cur (done ++ rest) =
      putItems (writeItems cur.base m cur.off done) { cur with off := cur.off + itemBits done } rest := by
  induction done generalizing m cur with
  | nil => rfl
  | cons i is ih =>
    cases i with
    | fail c => exact absurd (hw (.fail c) (by simp)) (by simp [WItem.writable])
    | field d raw =>
      rw [itemBits_cons, WItem.bits, ← Nat.add_assoc] at hfit
      rw [List.cons_append, putItems, putItem_writable (hw _ (by simp)) (by omega), itemBits_cons, WItem.bits, ← Nat.add_assoc]
      exact ih (fun j hj => hw j (by simp [hj])) hfit

theorem putItems_writable {m : Memory} {cur : Cursor} {items : List WItem} (hw : ∀ i ∈ items, WItem.writable i = true)
    (hfit : cur.off + itemBits items ≤ cur.bitlen) :
    putItems m cur items = (writeItems cur.base m cur.off items, cur.off + itemBits items, none) := by
  simpa [putItems] using putItems_append (m := m) hw hfit []

theorem putItems_refused {m : Memory} {cur : Cursor} {done rest : List WItem} {i : WItem} {c : Cond}
    (hw : ∀ i ∈ done, WItem.writable i = true) (hfit : cur.off + itemBits done ≤ cur.bitlen) (hi : WItem.Refused i c) :
    putItems m cur (done ++ i :: rest) = (writeItems cur.base m cur.off done, cur.off + itemBits done, some c) := by
  rw [putItems_append hw hfit, putItems, putItem_refused hi]

section
variable {m : Memory} {base off : Nat}

theorem writeItems_wf (items : List WItem) (hwf : Memory.wf m = true) : Memory.wf (writeItems base m off items) = true := by
  induction items generalizing m off with
  | nil => exact hwf
  | cons i is ih =>
    cases i with
    | fail c => exact ih hwf
    | field d raw => exact ih (writeBits_wf _ _ _ _ _ hwf)

/-- Some writes move their own bits only. -/
theorem bitAt_writeItems_outside (items : List WItem) (hwf : Memory.wf m = true) {k : Nat}
    (hk : k < 8 * base + off ∨ 8 * base + off + itemBits items ≤ k) :
    bitAt (Memory.get (writeItems base m off items)) k = bitAt (Memory.get m) k := by
  induction items generalizing m off with
  | nil => rfl
  | cons i is ih =>
    cases i with
    | fail c => exact ih hwf (by simpa [WItem.bits] using hk)
    | field d raw =>
      rw [itemBits_cons, WItem.bits] at hk
      rw [writeItems, ih (writeBits_wf _ _ _ _ _ hwf) (by omega), bitAt_writeBits _ hwf, if_neg (by omega)]

/-- Some writes move bytes only where they have bits. -/
theorem get_writeItems_outside (items : List WItem) (hwf : Memory.wf m = true) {a : Nat}
    (ha : a < base + off / 8 ∨ base + (off + itemBits items + 7) / 8 ≤ a) :
    Memory.get (writeItems base m off items) a = Memory.get m a := by
  induction items generalizing m off with
  | nil => rfl
  | cons i is ih =>
    cases i with
    | fail c => exact ih hwf (by simpa [WItem.bits] using ha)
    | field d raw =>
      rw [itemBits_cons, WItem.bits] at ha
      rw [writeItems, ih (writeBits_wf _ _ _ _ _ hwf) (by omega), writeBits_get_ne _ _ _ _ _ _ hwf (by omega)]

/-- Bytes with the bits of the memory after some writes hold these writes. -/
theorem holds_writeItems {items : List WItem} (hwf : Memory.wf m = true) {b : List Byte}
    (hb : ∀ k, off ≤ k → k < off + itemBits items →
      bitAt (listByte b) k = bitAt (Memory.get (writeItems base m off items)) (8 * base + k)) :
    Holds b off items := by
  induction items generalizing m off with
  | nil => trivial
  | cons i is ih =>
    cases i with
    | fail c => exact ih hwf (by simpa [WItem.bits, writeItems] using hb)
    | field d raw =>
      rw [itemBits_cons, WItem.bits] at hb
      have hmem := writeBits_wf d.width m base off (raw % 2 ^ d.width).toNat hwf
      refine ⟨?_, ih hmem fun k hk1 hk2 => hb k (by omega) (by omega)⟩
      have hbits : ubits (listByte b) off d.width = (raw % 2 ^ d.width).toNat :=
        ubits_of_bits (emod_two_pow_toNat_lt raw d.width) fun j hj => by
          rw [hb _ (by omega) (by omega), writeItems, bitAt_writeItems_outside is hmem (by omega), bitAt_writeBits _ hwf,
            if_pos (by omega)]
          congr 1
          omega
      rw [hbits, Int.toNat_of_nonneg (Int.emod_nonneg _ (by positivity))]

end

/-! ## The payload span (R210, R28) -/

/-- The bits of the bytes at an address. -/
theorem bitAt_listByte_slice (m : Memory) (a n k : Nat) :
    bitAt (listByte (Memory.slice m a n)) k = if k < 8 * n then bitAt (Memory.get m) (8 * a + k) else false := by
  have hdiv : (8 * a + k) / 8 = a + k / 8 := by omega
  have hmod : (8 * a + k) % 8 = k % 8 := by omega
  rw [bitAt, bitAt, hdiv, hmod, listByte]
  split
  · rw [List.getD_eq_getElem _ _ (by rw [Memory.slice_length]; omega)]
    simp [Memory.slice]
  · rw [List.getD_eq_default _ _ (by rw [Memory.slice_length]; omega)]
    simp

/-- The memory of the writes that were done in the emptied OBUF, and the payload of the span. -/
def payloadMemory (done : List WItem) : Memory := writeItems 3 [] 0 done

/-- The bytes of the payload span after some writes. -/
def payloadBytes (len : Nat) (done : List WItem) : List Byte := Memory.slice (payloadMemory done) 3 len

@[simp] theorem payloadBytes_length (len : Nat) (done : List WItem) : (payloadBytes len done).length = len :=
  Memory.slice_length ..

section
variable {len : Nat} {done : List WItem}

theorem payloadBytes_holds (h : itemBits done ≤ 8 * len) : Holds (payloadBytes len done) 0 done :=
  holds_writeItems (base := 3) (m := []) rfl fun k _ hk => by
    rw [payloadBytes, bitAt_listByte_slice, if_pos (by omega)]
    rfl

/-- Behind the writes the payload has zero bits. -/
theorem payloadBytes_padding {k : Nat} (hk : itemBits done ≤ k) : bitAt (listByte (payloadBytes len done)) k = false := by
  rw [payloadBytes, bitAt_listByte_slice]
  split
  · rw [payloadMemory, bitAt_writeItems_outside done rfl (by omega)]
    simp [bitAt]
  · rfl

theorem payloadMemory_get_above {a : Nat} (h : itemBits done ≤ 8 * len) (ha : 3 + len ≤ a) :
    Memory.get (payloadMemory done) a = 0 := by
  rw [payloadMemory, get_writeItems_outside done rfl (by omega), Memory.get_nil]

/-- OBUF with the writes that were done and no frame (log 38). -/
theorem payloadMemory_unframed (h : itemBits done ≤ 8 * len) : Unframed (payloadMemory done) len done := by
  refine ⟨payloadBytes len done, payloadBytes_length .., payloadBytes_holds h, fun k hk => payloadBytes_padding hk, fun a => ?_⟩
  split
  · rw [payloadMemory, get_writeItems_outside done rfl (by omega), Memory.get_nil]
  · by_cases ha : a - 3 < len
    · rw [List.getD_eq_getElem _ _ (by rw [payloadBytes_length]; exact ha)]
      simp only [payloadBytes, Memory.slice, List.getElem_map, List.getElem_range]
      congr 1
      omega
    · rw [List.getD_eq_default _ _ (by rw [payloadBytes_length]; omega)]
      exact payloadMemory_get_above h (by omega)

end

/-! ## ENCODE_ONE (R210) -/

theorem exec_encodeOne {s : State} (hc : s.configured = true) (hr : s.cfg.crc.reflected = false) (msg : Message) :
    exec (.encodeOne msg) s = tick (.next (encodeMessage { s with window := false } msg)) :=
  crcUnit_configured hc hr fun s => .next (encodeMessage s msg)

/-- A message of a type: its writes decide (R210). -/
theorem exec_encodeOne_items {s : State} (hc : s.configured = true) (hr : s.cfg.crc.reflected = false) {msg : Message} {t : Nat}
    (hne : ∀ t' b, msg ≠ .rawUnhandled t' b) (ht : typeFor s.cfg msg = some t) :
    exec (.encodeOne msg) s =
      tick (.next (encodeItems { s with window := false, obuf := [], olen := 0 } msg (payloadItems s t msg))) := by
  have hitems := congrFun (congrFun (payloadItems_closed s) t) msg
  rw [exec_encodeOne hc hr, ← hitems]
  cases msg with
  | rawUnhandled t' b => exact absurd rfl (hne t' b)
  | ephemeris | observation | correction | integrity | station => simp only [encodeMessage, ht]

section
variable {s : State} {payload : List Byte}

theorem emitFrame_tooLong (h : 1023 < payload.length) :
    emitFrame s payload = s.raise (.usage (some (.int payload.length))) := if_pos h

theorem emitFrame_fits (h : payload.length ≤ 1023) :
    emitFrame s payload =
      State.done { s with obuf := Memory.write s.obuf 0 (frameOf s.cfg payload), olen := max s.olen (payload.length + 6) }
        (.bytes (frameOf s.cfg payload)) := if_neg (Nat.not_lt.mpr h)

/-- A frame written over bytes that end before it is all that OBUF holds. -/
theorem get_write_frame {cfg : Cfg} {m : Memory} (hwf : Memory.wf m = true)
    (hm : ∀ a, payload.length + 6 ≤ a → Memory.get m a = 0) (a : Nat) :
    Memory.get (Memory.write m 0 (frameOf cfg payload)) a = (frameOf cfg payload).getD a 0 := by
  rw [Memory.get_write _ _ _ _ hwf, frameOf_length, Nat.sub_zero]
  split
  · rfl
  · rw [hm a (by omega), List.getD_eq_default _ _ (by rw [frameOf_length]; omega)]

end

section
variable {s : State} {msg : Message} {items : List WItem}

/-- The state behind the writes that were done in a payload span of `len` bytes. -/
def State.writing (s : State) (len : Nat) (done : List WItem) : State :=
  { s with obuf := payloadMemory done, olen := 3 + len, cur := ⟨.obuf, 3, len, itemBits done⟩ }

theorem payloadCursor_bitlen (items : List WItem) : itemBits items ≤ (payloadCursor items).bitlen := by
  simp only [payloadCursor, Cursor.bitlen]
  omega

/-- Writes that all succeed: their payload is framed (R210). -/
theorem encodeItems_writable (hw : ∀ i ∈ items, WItem.writable i = true) :
    encodeItems s msg items =
      emitFrame (s.writing ((itemBits items + 7) / 8) items) (payloadBytes ((itemBits items + 7) / 8) items) := by
  have hput : putItems [] (payloadCursor items) items = _ :=
    putItems_writable hw (by simpa [payloadCursor] using payloadCursor_bitlen items)
  simp only [encodeItems, writtenState, hput]
  simp only [payloadCursor, Nat.zero_add]
  rfl

/-- A write that is refused ends the message in its condition (R132); the writes before it stay (log 38). -/
theorem encodeItems_refused {done rest : List WItem} {i : WItem} {c : Cond} (hitems : items = done ++ i :: rest)
    (hw : ∀ i ∈ done, WItem.writable i = true) (hi : WItem.Refused i c) :
    encodeItems s msg items =
      (s.writing ((itemBits items + 7) / 8) done).raise (c.ofOperand (.message msg)) := by
  have hroom : (payloadCursor items).off + itemBits done ≤ (payloadCursor items).bitlen := by
    have := payloadCursor_bitlen items
    rw [hitems, itemBits_append] at this
    rw [hitems]
    exact (Nat.zero_add _).le.trans (Nat.le_of_add_right_le this)
  have hput : putItems [] (payloadCursor items) items = _ :=
    (congrArg (putItems [] (payloadCursor items)) hitems).trans (putItems_refused hw hroom hi)
  simp only [encodeItems, writtenState, hput]
  simp only [payloadCursor, Nat.zero_add]
  rfl

end

end Sys2Proof.Machine

/-! SUPPORT and the statements of 44_dispatch.md: the split of a range (R262), and the outcomes of ENCODE_ONE. -/

namespace Sys2Proof.Machine

/-! ## Rounding (R134, R233) -/

/-- A rational is rounded to a neighbour at most a half away. -/
theorem roundNearest_bounds (q : Rat) : q - 1 / 2 ≤ roundNearest q ∧ (roundNearest q : Rat) ≤ q + 1 / 2 := by
  have hle : (((q + 1 / 2).floor : Int) : Rat) ≤ q + 1 / 2 := Rat.floor_le _
  have hlt : q + 1 / 2 < (((q + 1 / 2).floor + 1 : Int) : Rat) := Rat.lt_floor_add_one _
  push_cast at hlt
  simp only [roundNearest]
  split
  · next htie =>
    split
    · constructor <;> linarith
    · push_cast
      constructor <;> linarith
  · constructor <;> linarith

theorem roundNearest_intCast (n : Int) : roundNearest (n : Rat) = n := by
  obtain ⟨hlow, hhigh⟩ := roundNearest_bounds (n : Rat)
  have h1 : ((n : Rat)) < roundNearest (n : Rat) + 1 := by linarith
  have h2 : (roundNearest (n : Rat) : Rat) < n + 1 := by linarith
  have h1' : n < roundNearest (n : Rat) + 1 := by exact_mod_cast h1
  have h2' : roundNearest (n : Rat) < n + 1 := by exact_mod_cast h2
  omega

/-! ## What a field holds as a value (R133) -/

theorem holdsRaw_iff {d : FieldDesc} {raw : Int} :
    holdsRaw d raw = true ↔ (rawLow d ≤ raw ∧ raw ≤ rawHigh d) ∧ d.na ≠ some raw := by
  simp only [holdsRaw, Bool.and_eq_true, decide_eq_true_eq, inFieldRange_iff, rawLow, rawHigh]
  split <;> simp only [Int.le_sub_one_iff]

/-- Of 0, 1 and -1 a field holds one if it holds any integer at all. -/
theorem holdsRaw_plainRaw {d : FieldDesc} {raw : Int} (h : holdsRaw d raw = true) : holdsRaw d (plainRaw d) = true := by
  rw [plainRaw]
  split
  · assumption
  split
  · assumption
  next h0 h1 =>
  rw [holdsRaw_iff] at *
  obtain ⟨⟨hlow, hhigh⟩, hna⟩ := h
  have hzero : rawLow d ≤ 0 ∧ 0 ≤ rawHigh d := by
    have hpos : (0 : Int) < 2 ^ (d.width - 1) := by positivity
    have hpos' : (0 : Int) < 2 ^ d.width := by positivity
    simp only [rawLow, rawHigh]
    split <;> constructor <;> omega
  have hsentinel : d.na = some 0 := by
    by_contra hne
    exact h0 ⟨hzero, hne⟩
  have hraw : raw ≠ 0 := by
    rintro rfl
    exact hna hsentinel
  have hhigh0 : rawHigh d < 1 := by
    by_contra hle
    exact h1 ⟨⟨by omega, by omega⟩, by simp [hsentinel]⟩
  exact ⟨⟨by omega, by omega⟩, by simp [hsentinel]⟩

/-- What is sent within one unit is held only if it lies within one unit (R262). -/
theorem nearRaw_within {d : FieldDesc} {q : Rat} (h : holdsRaw d (nearRaw d q) = true) :
    q / d.scale - 1 ≤ nearRaw d q ∧ (nearRaw d q : Rat) ≤ q / d.scale + 1 := by
  obtain ⟨hlow, hhigh⟩ := roundNearest_bounds (q / d.scale)
  simp only [nearRaw] at h ⊢
  split at h
  · next hn =>
    rw [if_pos hn]
    constructor <;> linarith
  · next hn =>
    rw [if_neg hn]
    cases hfind : [roundNearest (q / d.scale) - 1, roundNearest (q / d.scale) + 1].find?
        (fun (r : Int) => holdsRaw d r && decide (distance r (q / d.scale) ≤ 1)) with
    | none =>
      rw [hfind] at h
      exact absurd h hn
    | some r =>
      have hr := List.find?_some hfind
      rw [Bool.and_eq_true, decide_eq_true_eq, distance] at hr
      obtain ⟨-, hdist⟩ := hr
      rw [Option.getD_some]
      split at hdist <;> constructor <;> linarith

/-! ## A split that fits is found (R262) -/

/-- The raw integer a signal-level field is sent as, beside a satellite-level part of a value. -/
def sentRaw (near : Nearness) (t : SplitTarget) (v : Rat) : Int :=
  match near with
  | .nearest => roundNearest ((t.q - v) / t.d.scale)
  | .oneUnit => nearRaw t.d (t.q - v)

/-- A split that fits: the satellite-level fields hold their integers, and the signal-level fields the rest. -/
structure SplitOk (near : Nearness) (ds : List FieldDesc) (targets : List SplitTarget) (raws : List Int) : Prop where
  length : raws.length = ds.length
  holds : ∀ x ∈ ds.zip raws, holdsRaw x.1 x.2 = true
  sent : ∀ t ∈ targets, holdsRaw t.d (sentRaw near t (splitValue ds raws)) = true

theorem splitFits_iff {near : Nearness} {ds : List FieldDesc} {targets : List SplitTarget} {raws : List Int} :
    splitFits near ds targets raws = true ↔ SplitOk near ds targets raws := by
  simp only [splitFits, Bool.and_eq_true, decide_eq_true_eq, List.all_eq_true]
  exact ⟨fun ⟨⟨h1, h2⟩, h3⟩ => ⟨h1, h2, h3⟩, fun h => ⟨⟨h.length, h.holds⟩, h.sent⟩⟩

/-- Every field rounded is every field within one unit. -/
theorem SplitOk.oneUnit {ds : List FieldDesc} {targets : List SplitTarget} {raws : List Int}
    (h : SplitOk .nearest ds targets raws) : SplitOk .oneUnit ds targets raws :=
  ⟨h.length, h.holds, fun t ht => by
    have hn : holdsRaw t.d (roundNearest ((t.q - splitValue ds raws) / t.d.scale)) = true := h.sent t ht
    rw [sentRaw, nearRaw]
    simp only [hn, if_true]⟩

/-- A signal-level field that holds the rest bounds the satellite-level part. -/
theorem target_bounds {near : Nearness} {t : SplitTarget} {v : Rat} (hscale : 0 < t.d.scale)
    (h : holdsRaw t.d (sentRaw near t v) = true) : targetLow t ≤ v ∧ v ≤ targetHigh t := by
  obtain ⟨hwithin, hwithin'⟩ : (t.q - v) / t.d.scale - 1 ≤ sentRaw near t v ∧
      (sentRaw near t v : Rat) ≤ (t.q - v) / t.d.scale + 1 := by
    cases near with
    | nearest =>
      obtain ⟨h1, h2⟩ := roundNearest_bounds ((t.q - v) / t.d.scale)
      simp only [sentRaw]
      constructor <;> linarith
    | oneUnit => exact nearRaw_within h
  obtain ⟨⟨hlow, hhigh⟩, -⟩ := holdsRaw_iff.mp h
  have hlow' : (rawLow t.d : Rat) ≤ sentRaw near t v := by exact_mod_cast hlow
  have hhigh' : (sentRaw near t v : Rat) ≤ rawHigh t.d := by exact_mod_cast hhigh
  have h1 : (t.q - v) / t.d.scale ≤ rawHigh t.d + 1 := by linarith
  have h2 : (rawLow t.d : Rat) - 1 ≤ (t.q - v) / t.d.scale := by linarith
  rw [div_le_iff₀ hscale] at h1
  rw [le_div_iff₀ hscale] at h2
  rw [targetLow, targetHigh]
  constructor <;> linarith

@[simp] theorem splitValue_cons (d : FieldDesc) (ds : List FieldDesc) (r : Int) (rs : List Int) :
    splitValue (d :: ds) (r :: rs) = r * d.scale + splitValue ds rs := by simp [splitValue]

@[simp] theorem splitLow_cons (d : FieldDesc) (ds : List FieldDesc) : splitLow (d :: ds) = rawLow d * d.scale + splitLow ds := by
  simp [splitLow]

@[simp] theorem splitHigh_cons (d : FieldDesc) (ds : List FieldDesc) :
    splitHigh (d :: ds) = rawHigh d * d.scale + splitHigh ds := by simp [splitHigh]

section
variable {ds : List FieldDesc} {raws : List Int}

/-- What some fields hold lies between the least and the greatest they can add up to. -/
theorem splitValue_bounds (hscale : ∀ d ∈ ds, 0 < d.scale) (hlen : raws.length = ds.length)
    (hholds : ∀ x ∈ ds.zip raws, holdsRaw x.1 x.2 = true) : splitLow ds ≤ splitValue ds raws ∧ splitValue ds raws ≤ splitHigh ds := by
  induction ds generalizing raws with
  | nil => simp [splitLow, splitHigh, splitValue]
  | cons d ds ih =>
    cases raws with
    | nil => simp at hlen
    | cons r rs =>
      have hd : 0 < d.scale := hscale d (by simp)
      obtain ⟨ihlow, ihhigh⟩ := ih (fun d' hd' => hscale d' (by simp [hd'])) (by simpa using hlen)
        (fun x hx => hholds x (by simp [hx]))
      obtain ⟨⟨hlow, hhigh⟩, -⟩ := holdsRaw_iff.mp (hholds (d, r) (by simp))
      have hlow' : (rawLow d : Rat) * d.scale ≤ r * d.scale := mul_le_mul_of_nonneg_right (by exact_mod_cast hlow) hd.le
      have hhigh' : (r : Rat) * d.scale ≤ rawHigh d * d.scale := mul_le_mul_of_nonneg_right (by exact_mod_cast hhigh) hd.le
      rw [splitValue_cons, splitLow_cons, splitHigh_cons]
      constructor <;> linarith

theorem mem_intsFrom {lo hi r : Int} (h1 : lo ≤ r) (h2 : r ≤ hi) : r ∈ intsFrom lo hi := by
  simp only [intsFrom, List.mem_map, List.mem_range]
  exact ⟨(r - lo).toNat, by omega, by omega⟩

/-- The list of splits between two values leaves none out. -/
theorem mem_splitsWithin {a b : Rat} (hscale : ∀ d ∈ ds, 0 < d.scale) (hlen : raws.length = ds.length)
    (hholds : ∀ x ∈ ds.zip raws, holdsRaw x.1 x.2 = true) (ha : a ≤ splitValue ds raws) (hb : splitValue ds raws ≤ b) :
    raws ∈ splitsWithin ds a b := by
  induction ds generalizing raws a b with
  | nil =>
    obtain rfl : raws = [] := List.length_eq_zero_iff.mp hlen
    have hbetween : a ≤ 0 ∧ 0 ≤ b := by simpa [splitValue] using And.intro ha hb
    simp [splitsWithin, hbetween]
  | cons d ds ih =>
    cases raws with
    | nil => simp at hlen
    | cons r rs =>
      have hd : 0 < d.scale := hscale d (by simp)
      have hscale' : ∀ d' ∈ ds, 0 < d'.scale := fun d' hd' => hscale d' (by simp [hd'])
      have hlen' : rs.length = ds.length := by simpa using hlen
      have hholds' : ∀ x ∈ ds.zip rs, holdsRaw x.1 x.2 = true := fun x hx => hholds x (by simp [hx])
      have hr : holdsRaw d r = true := hholds (d, r) (by simp)
      obtain ⟨⟨hlow, hhigh⟩, -⟩ := holdsRaw_iff.mp hr
      obtain ⟨hrest, hrest'⟩ := splitValue_bounds hscale' hlen' hholds'
      rw [splitValue_cons] at ha hb
      have hceil : ((a - splitHigh ds) / d.scale).ceil ≤ r :=
        Rat.ceil_le_iff.mpr ((div_le_iff₀ hd).mpr (by linarith))
      have hfloor : r ≤ ((b - splitLow ds) / d.scale).floor :=
        Rat.le_floor_iff.mpr ((le_div_iff₀ hd).mpr (by linarith))
      simp only [splitsWithin, List.mem_flatMap, List.mem_filter, List.mem_map]
      exact ⟨r, ⟨mem_intsFrom (max_le hlow hceil) (le_min hhigh hfloor), hr⟩, rs,
        ih hscale' hlen' hholds' (by linarith) (by linarith), rfl⟩

end

theorem foldl_max_le {α : Type} {f : α → Rat} {v : Rat} (l : List α) {a : Rat} (ha : a ≤ v) (h : ∀ x ∈ l, f x ≤ v) :
    l.foldl (fun a x => max a (f x)) a ≤ v := by
  induction l generalizing a with
  | nil => exact ha
  | cons x xs ih => exact ih (max_le ha (h x (by simp))) fun y hy => h y (by simp [hy])

theorem le_foldl_min {α : Type} {f : α → Rat} {v : Rat} (l : List α) {b : Rat} (hb : v ≤ b) (h : ∀ x ∈ l, v ≤ f x) :
    v ≤ l.foldl (fun b x => min b (f x)) b := by
  induction l generalizing b with
  | nil => exact hb
  | cons x xs ih => exact ih (le_min hb (h x (by simp))) fun y hy => h y (by simp [hy])

section
variable {near : Nearness} {ds : List FieldDesc} {first : List Int} {t : SplitTarget} {ts : List SplitTarget}

/-- A found split fits. -/
theorem findSplit_fits {raws : List Int} (h : findSplit near ds first t ts = some raws) : SplitOk near ds (t :: ts) raws := by
  rw [findSplit] at h
  split at h
  · next hfirst =>
    cases h
    exact splitFits_iff.mp hfirst
  · exact splitFits_iff.mp (List.find?_some h)

/-- Where some split fits, one is found: it lies between the bounds of the signal-level fields. -/
theorem findSplit_isSome {raws : List Int} (hds : ∀ d ∈ ds, 0 < d.scale) (hts : ∀ x ∈ t :: ts, 0 < x.d.scale)
    (h : SplitOk near ds (t :: ts) raws) : (findSplit near ds first t ts).isSome = true := by
  have hbound : ∀ x ∈ t :: ts, targetLow x ≤ splitValue ds raws ∧ splitValue ds raws ≤ targetHigh x :=
    fun x hx => target_bounds (hts x hx) (h.sent x hx)
  have hmem : raws ∈ splitsWithin ds (ts.foldl (fun a t => max a (targetLow t)) (targetLow t))
      (ts.foldl (fun b t => min b (targetHigh t)) (targetHigh t)) :=
    mem_splitsWithin hds h.length h.holds
      (foldl_max_le ts (hbound t (by simp)).1 fun x hx => (hbound x (by simp [hx])).1)
      (le_foldl_min ts (hbound t (by simp)).2 fun x hx => (hbound x (by simp [hx])).2)
  rw [findSplit]
  split
  · rfl
  · exact List.find?_isSome.mpr ⟨raws, hmem, splitFits_iff.mpr h⟩

end

/-- Without a value to be sent, any integers the fields hold fit. -/
theorem plainSplit_ok {near : Nearness} {ds : List FieldDesc} {raws : List Int} (h : SplitOk near ds [] raws) :
    SplitOk near ds [] (ds.map plainRaw) := by
  refine ⟨List.length_map .., fun x hx => ?_, fun t ht => absurd ht (List.not_mem_nil)⟩
  have hmem : ∃ raw, (x.1, raw) ∈ ds.zip raws ∧ x.2 = plainRaw x.1 := by
    obtain ⟨i, hi, rfl⟩ := List.getElem_of_mem hx
    simp only [List.length_zip, List.length_map, Nat.min_self] at hi
    have hlen := h.length
    refine ⟨raws[i], ?_, by simp⟩
    rw [List.mem_iff_getElem]
    exact ⟨i, by simp; omega, by simp⟩
  obtain ⟨raw, hraw, hplain⟩ := hmem
  rw [hplain]
  exact holdsRaw_plainRaw (h.holds (x.1, raw) hraw)

/-- R262: the chosen split fits wherever some split does, with every field rounded or with every field within one unit. -/
theorem chooseSplit_fits {ds : List FieldDesc} {bias : Rat} {targets : List SplitTarget} {raws : List Int} {near : Nearness}
    (hds : ∀ d ∈ ds, 0 < d.scale) (hts : ∀ x ∈ targets, 0 < x.d.scale) (h : SplitOk near ds targets raws) :
    SplitOk near ds targets (chooseSplit ds bias targets) := by
  cases targets with
  | nil => exact plainSplit_ok h
  | cons t ts =>
    have hfound (near' : Nearness) (h' : SplitOk near' ds (t :: ts) raws) :=
      Option.isSome_iff_exists.mp (findSplit_isSome (first := splitFloor (t.q + bias) ds) hds hts h')
    simp only [chooseSplit]
    cases hnearest : findSplit .nearest ds (splitFloor (t.q + bias) ds) t ts with
    | some r =>
      have hr : SplitOk .nearest ds (t :: ts) r := findSplit_fits hnearest
      cases near with
      | nearest => exact hr
      | oneUnit => exact hr.oneUnit
    | none =>
      cases near with
      | nearest =>
        obtain ⟨r, hr⟩ := hfound .nearest h
        rw [hnearest] at hr
        cases hr
      | oneUnit =>
        obtain ⟨r, hr⟩ := hfound .oneUnit h
        rw [Option.none_or, hr]
        exact findSplit_fits hr

/-! ## The outcomes of ENCODE_ONE (R210, R132, R152) -/

section
variable {s : State} {msg : Message} {t : Nat}

/-- A RawUnhandled message is its own payload (R210). -/
theorem exec_encodeOne_raw (hc : s.configured = true) (hr : s.cfg.crc.reflected = false) (t : BitVec 12) {payload : List Byte}
    (h : payload.length ≤ 1023) :
    exec (.encodeOne (.rawUnhandled t payload)) s =
      .next { s.answers (.bytes (frameOf s.cfg payload)) with
        obuf := Memory.write [] 0 (frameOf s.cfg payload), olen := payload.length + 6 } := by
  rw [exec_encodeOne hc hr, encodeMessage, emitFrame_fits h, tick_next]
  simp only [Nat.zero_max]
  rfl

/-- Writes that succeed and take at most 1023 bytes: the frame of their payload is answered, and OBUF is that frame (R210). -/
theorem exec_encodeOne_frame (hc : s.configured = true) (hr : s.cfg.crc.reflected = false)
    (hne : ∀ t' b, msg ≠ .rawUnhandled t' b) (ht : typeFor s.cfg msg = some t) {items : List WItem}
    (hitems : payloadItems s t msg = items) (hw : ∀ i ∈ items, WItem.writable i = true) (hbits : itemBits items ≤ 8 * 1023)
    {payload : List Byte} (hp : payloadBytes ((itemBits items + 7) / 8) items = payload) :
    exec (.encodeOne msg) s =
      .next { s.answers (.bytes (frameOf s.cfg payload)) with
        obuf := Memory.write (payloadMemory items) 0 (frameOf s.cfg payload)
        olen := payload.length + 6
        cur := ⟨.obuf, 3, payload.length, itemBits items⟩ } := by
  have hlen : payload.length = (itemBits items + 7) / 8 := by rw [← hp, payloadBytes_length]
  have holen : max (3 + payload.length) (payload.length + 6) = payload.length + 6 := by omega
  rw [exec_encodeOne_items hc hr hne ht, hitems, encodeItems_writable hw, hp, ← hlen, emitFrame_fits (by omega), tick_next]
  simp only [State.writing, holen]
  rfl

/-- Writes that succeed and take more than 1023 bytes (R152). -/
theorem exec_encodeOne_tooLong (hc : s.configured = true) (hr : s.cfg.crc.reflected = false)
    (hne : ∀ t' b, msg ≠ .rawUnhandled t' b) (ht : typeFor s.cfg msg = some t) {items : List WItem}
    (hitems : payloadItems s t msg = items) (hw : ∀ i ∈ items, WItem.writable i = true) (hbits : 8 * 1023 < itemBits items)
    {len : Nat} (hlen : (itemBits items + 7) / 8 = len) :
    exec (.encodeOne msg) s =
      .next { s.stops .usageError (.arg (.int len)) with
        obuf := payloadMemory items, olen := 3 + len, cur := ⟨.obuf, 3, len, itemBits items⟩ } := by
  have hlong : 1023 < (payloadBytes len items).length := by rw [payloadBytes_length]; omega
  rw [exec_encodeOne_items hc hr hne ht, hitems, encodeItems_writable hw, hlen, emitFrame_tooLong hlong, payloadBytes_length]
  rfl

/-- The first write that is refused ends the message (R132). -/
theorem exec_encodeOne_refused (hc : s.configured = true) (hr : s.cfg.crc.reflected = false)
    (hne : ∀ t' b, msg ≠ .rawUnhandled t' b) (ht : typeFor s.cfg msg = some t) {items : List WItem}
    (hitems : payloadItems s t msg = items) {len : Nat} (hlen : (itemBits items + 7) / 8 = len) {done rest : List WItem}
    {i : WItem} {c : Cond} (hsplit : items = done ++ i :: rest) (hw : ∀ i ∈ done, WItem.writable i = true)
    (hi : WItem.Refused i c) :
    exec (.encodeOne msg) s =
      .next { s.stops (c.ofOperand (.message msg)).code ((c.ofOperand (.message msg)).info s.free) with
        obuf := payloadMemory done, olen := 3 + len, cur := ⟨.obuf, 3, len, itemBits done⟩ } := by
  rw [exec_encodeOne_items hc hr hne ht, hitems, encodeItems_refused hsplit hw hi, hlen]
  rfl

end

/-- Settles O51: the writes before the first refused one stand in the emptied OBUF; all of them, framed, are the answer. -/
theorem encodeOneWritesTheFields : Obligations.EncodeOneWritesTheFields := by
  unfold Obligations.EncodeOneWritesTheFields
  refine ⟨fun s hc hr => ⟨fun t payload hlen => ?_, fun t payload hlen => ?_, fun msg hnone => ?_, fun msg t hne ht => ?_,
    fun msg t hne ht => ?_⟩, fun ds bias targets raws hds hts => ⟨fun h => ?_, fun h => ?_⟩⟩
  · exact ⟨_, exec_encodeOne_raw hc hr t hlen, get_write_frame rfl fun _ _ => Memory.get_nil _⟩
  · rw [exec_encodeOne hc hr, encodeMessage, emitFrame_tooLong hlen]
    rfl
  · rw [exec_encodeOne hc hr]
    cases msg with
    | rawUnhandled t' b => cases hnone
    | ephemeris | observation | correction | integrity | station => simp only [encodeMessage, hnone]; rfl
  · intro items hw hbits
    have hspan : itemBits items ≤ 8 * ((itemBits items + 7) / 8) := by omega
    have hlen := payloadBytes_length ((itemBits items + 7) / 8) items
    refine ⟨payloadBytes ((itemBits items + 7) / 8) items, _, exec_encodeOne_frame hc hr hne ht rfl hw hbits rfl,
      get_write_frame (writeItems_wf items rfl) fun a ha => payloadMemory_get_above hspan (by omega), hlen,
      payloadBytes_holds hspan, fun k hk => payloadBytes_padding hk⟩
  · intro items len
    have hspan : itemBits items ≤ 8 * len := by simp only [len]; omega
    refine ⟨fun hw hbits => ⟨_, exec_encodeOne_tooLong hc hr hne ht rfl hw hbits rfl, payloadMemory_unframed hspan⟩,
      fun done i rest c hsplit hw hi => ⟨_, exec_encodeOne_refused hc hr hne ht rfl rfl hsplit hw hi, payloadMemory_unframed ?_⟩⟩
    have hdone : itemBits done ≤ itemBits items := by rw [hsplit, itemBits_append]; omega
    exact hdone.trans hspan
  · exact splitFits_iff.mpr (chooseSplit_fits hds hts (splitFits_iff.mp h))
  · exact splitFits_iff.mpr (chooseSplit_fits hds hts (splitFits_iff.mp h))

end Sys2Proof.Machine

/-! SUPPORT and the statements of 44_dispatch.md: the reverse path gives back the bits a handler read (R210, R233, R206, R288). -/

namespace Sys2Proof.Machine

/-! ## Writes that repeat the bits under the cursor -/

/-- Some writes repeat the bits from `off` to `off'` of the cursor's span: each succeeds, with the value its bits have there. -/
inductive Copied (s : State) : Nat → List WItem → Nat → Prop where
  | nil (off : Nat) : Copied s off [] off
  | cons {off off' : Nat} {d : FieldDesc} {raw : Int} {is : List WItem} (writable : WItem.writable (.field d raw) = true)
      (bits : (ubits s.curByte off d.width : Int) = raw % 2 ^ d.width) (rest : Copied s (off + d.width) is off') :
      Copied s off (.field d raw :: is) off'

section
variable {s : State} {off mid off' : Nat} {is js : List WItem}

theorem Copied.append (h : Copied s off is mid) (h' : Copied s mid js off') : Copied s off (is ++ js) off' := by
  induction h with
  | nil off => exact h'
  | cons hw hb _ ih => exact .cons hw hb (ih h')

theorem Copied.off_eq (h : Copied s off is off') : off' = off + itemBits is := by
  induction h with
  | nil off => rfl
  | cons _ _ _ ih => rw [ih, itemBits_cons, WItem.bits, Nat.add_assoc]

theorem Copied.writable (h : Copied s off is off') : ∀ i ∈ is, WItem.writable i = true := by
  induction h with
  | nil off => simp
  | cons hw _ _ ih => exact List.forall_mem_cons.mpr ⟨hw, ih⟩

/-- Bytes that hold such writes have the bits that were read. -/
theorem Copied.bitAt_eq (h : Copied s off is off') {b : List Byte} {o : Nat} (hb : Holds b o is) {j : Nat} (hj : j < itemBits is) :
    bitAt (listByte b) (o + j) = bitAt s.curByte (off + j) := by
  induction h generalizing o j with
  | nil off => simp at hj
  | @cons off off' d raw is hw hbits _ ih =>
    obtain ⟨hhead, htail⟩ := hb
    rw [itemBits_cons, WItem.bits] at hj
    by_cases hlt : j < d.width
    · have heq : ubits (listByte b) o d.width = ubits s.curByte off d.width := by exact_mod_cast hhead.trans hbits.symm
      have hj' : d.width - 1 - j < d.width := by omega
      have hback : d.width - 1 - (d.width - 1 - j) = j := by omega
      have h1 := ubits_testBit (listByte b) o hj'
      rw [heq, ubits_testBit s.curByte off hj', hback] at h1
      exact h1.symm
    · have := ih htail (j := j - d.width) (by omega)
      rwa [show o + d.width + (j - d.width) = o + j by omega, show off + d.width + (j - d.width) = off + j by omega] at this

end

/-! ## The field at a bit as a write (R105, R133) -/

section
variable {s : State} {off : Nat} {d : FieldDesc}

theorem fieldAt_name (s : State) (off : Nat) (d : FieldDesc) : (fieldAt s off d).name = d.name := rfl

theorem fieldAt_val (s : State) (off : Nat) (d : FieldDesc) :
    (fieldAt s off d).val = if d.na = some (fieldAt s off d).raw then .na else .scaled (fieldAt s off d).raw d.scale := rfl

theorem fieldAt_raw (s : State) (off : Nat) (d : FieldDesc) :
    (fieldAt s off d).raw = if d.signed then sext d.width (ubits s.curByte off d.width) else ubits s.curByte off d.width := by
  simp only [fieldAt, bitsAt_eq, signedValue_eq]

/-- The raw integer of an unsigned field is no negative one. -/
theorem fieldAt_raw_nonneg (hd : d.signed = false) : 0 ≤ (fieldAt s off d).raw := by
  simp [fieldAt_raw, hd]

theorem fieldAt_inFieldRange (hw : 1 ≤ d.width) : inFieldRange d.width d.signed (fieldAt s off d).raw = true := by
  have hlt : (ubits s.curByte off d.width : Int) < 2 ^ d.width := by exact_mod_cast ubits_lt s.curByte off d.width
  have hpow : (2 : Int) ^ d.width = 2 * 2 ^ (d.width - 1) := by
    rw [← pow_succ', Nat.sub_add_cancel hw]
  rw [inFieldRange_iff, fieldAt_raw]
  split
  · simp only [sext]
    split
    · next h =>
      have : (ubits s.curByte off d.width : Int) < 2 ^ (d.width - 1) := by exact_mod_cast h
      constructor <;> omega
    · next h =>
      have : (2 : Int) ^ (d.width - 1) ≤ ubits s.curByte off d.width := by exact_mod_cast Nat.le_of_not_lt h
      constructor <;> omega
  · constructor <;> omega

theorem fieldAt_raw_emod (s : State) (off : Nat) (d : FieldDesc) :
    (ubits s.curByte off d.width : Int) = (fieldAt s off d).raw % 2 ^ d.width := by
  have hlt : (ubits s.curByte off d.width : Int) < 2 ^ d.width := by exact_mod_cast ubits_lt s.curByte off d.width
  have hmod : (ubits s.curByte off d.width : Int) % 2 ^ d.width = ubits s.curByte off d.width :=
    Int.emod_eq_of_lt (by positivity) hlt
  rw [fieldAt_raw]
  split
  · rw [sext]
    split
    · exact hmod.symm
    · rw [Int.sub_emod_right, hmod]
  · exact hmod.symm

/-- Writing the raw integer of the field at a bit repeats its bits. -/
theorem copied_fieldAt {off' : Nat} {is : List WItem} (hw : widthOk d.width = true) (h : Copied s (off + d.width) is off') :
    Copied s off (.field d (fieldAt s off d).raw :: is) off' :=
  .cons (by simp [WItem.writable, hw, fieldAt_inFieldRange (widthOk_iff.mp hw).1]) (fieldAt_raw_emod s off d) h

/-- A field's value is written as the raw integer it was read from (R134, R233). -/
theorem valueItem_fieldAt (hscale : 0 < d.scale) : valueItem d (fieldAt s off d).val = .field d (fieldAt s off d).raw := by
  rw [fieldAt_val]
  split
  · next h => simp only [valueItem, rawFor, numOf, h]
  · have hq : ((fieldAt s off d).raw : Rat) * d.scale / d.scale = (fieldAt s off d).raw :=
      mul_div_cancel_right₀ _ hscale.ne'
    simp only [valueItem, rawFor, numOf, hq, roundNearest_intCast]

theorem readRawField_inv {f : RawField} {off' : Nat} (h : readRawField s d off = .ok f off') :
    widthOk d.width = true ∧ off + d.width ≤ s.cur.bitlen ∧ f = fieldAt s off d ∧ off' = off + d.width := by
  by_cases hw : widthOk d.width = true
  · by_cases hfit : off + d.width ≤ s.cur.bitlen
    · rw [readRawField_ok hw hfit] at h
      cases h
      exact ⟨hw, hfit, rfl, rfl⟩
    · rw [readRawField_stop hw (by omega)] at h
      cases h
  · have hillegal : readBitsU s d.width off = _ := readBitsU_illegal (by rw [widthOk_iff] at hw; omega)
    rw [readRawField, Rd.map_stop hillegal] at h
    cases h

end

/-! ## What a reading that completed was (R203) -/

section
variable {α β : Type} {off off' : Nat}

theorem Rd.bind_inv {m : Rd α} {k : α → Rd β} {b : β} (h : m.bind k off = .ok b off') :
    ∃ a mid, m off = .ok a mid ∧ k a mid = .ok b off' := by
  cases hm : m off with
  | ok a mid => exact ⟨a, mid, rfl, by rw [← h, Rd.bind_ok hm]⟩
  | stop c mid => rw [Rd.bind_stop hm] at h; cases h

theorem Rd.map_inv {m : Rd α} {f : α → β} {b : β} (h : m.map f off = .ok b off') : ∃ a, m off = .ok a off' ∧ b = f a := by
  obtain ⟨a, mid, hm, hp⟩ := Rd.bind_inv h
  cases hp
  exact ⟨a, hm, rfl⟩

theorem Rd.entry_inv {o : Option α} {a : α} (h : Rd.entry o off = .ok a off') : o = some a ∧ off' = off := by
  cases o with
  | none => cases h
  | some b => cases h; exact ⟨rfl, rfl⟩

theorem Rd.entryFor_inv {x : UsageArg} {o : Option α} {a : α} (h : Rd.entryFor x o off = .ok a off') :
    o = some a ∧ off' = off := by
  cases o with
  | none => cases h
  | some b => cases h; exact ⟨rfl, rfl⟩

theorem Rd.lift_inv {r : Except Cond α} {a : α} (h : Rd.lift r off = .ok a off') : r = .ok a ∧ off' = off := by
  cases r with
  | error c => cases h
  | ok b => cases h; exact ⟨rfl, rfl⟩

end

section
variable {s : State} {off off' : Nat}

theorem readFields_inv {ds : List FieldDesc} {fs : List RawField} (h : readFields s ds off = .ok fs off') :
    (∀ d ∈ ds, widthOk d.width = true) ∧ fs = fieldsAt s off ds ∧ off' = off + widthOf ds := by
  induction ds generalizing off fs with
  | nil => cases h; exact ⟨by simp, rfl, rfl⟩
  | cons d ds ih =>
    obtain ⟨f, mid, hf, hrest⟩ := Rd.bind_inv h
    obtain ⟨fs', hfs, rfl⟩ := Rd.map_inv hrest
    obtain ⟨hw, _, rfl, rfl⟩ := readRawField_inv hf
    obtain ⟨hws, rfl, rfl⟩ := ih hfs
    exact ⟨List.forall_mem_cons.mpr ⟨hw, hws⟩, rfl, by simp [widthOf, Nat.add_assoc]⟩

/-- A repeated reading whose values are written as they were read. -/
theorem copied_times {α : Type} {m : Rd α} {g : α → Nat → List WItem}
    (hm : ∀ {a off off'}, m off = .ok a off' → ∀ k, Copied s off (g a k) off') {n : Nat} {l : List α}
    (h : Rd.times m n off = .ok l off') (k : Nat) :
    l.length = n ∧ Copied s off ((l.zipIdx k).flatMap fun x => g x.1 x.2) off' := by
  induction n generalizing off l k with
  | zero => cases h; exact ⟨rfl, .nil _⟩
  | succ n ih =>
    obtain ⟨a, mid, ha, hrest⟩ := Rd.bind_inv h
    obtain ⟨l', hl', rfl⟩ := Rd.map_inv hrest
    obtain ⟨hlen, hcopied⟩ := ih hl' (k + 1)
    exact ⟨by rw [List.length_cons, hlen], (hm ha k).append hcopied⟩

end

/-! ## Records with one field for each name (R220) -/

theorem lastOf_of_nodup {α : Type} {l : List (FieldName × α)} (h : (l.map Prod.fst).Nodup) : lastOf l = l := by
  induction l with
  | nil => rfl
  | cons x xs ih =>
    obtain ⟨hx, hxs⟩ := List.nodup_cons.mp h
    have hnone : xs.any (fun y => decide (y.1 = x.1)) = false := by
      simp only [List.any_eq_false, decide_eq_true_eq]
      exact fun y hy heq => hx (heq ▸ List.mem_map_of_mem hy)
    rw [lastOf, hnone, ih hxs]
    rfl

theorem lookup_of_mem_nodup {α β : Type} [DecidableEq α] {l : List (α × β)} (h : (l.map Prod.fst).Nodup) {x : α × β} (hx : x ∈ l) :
    l.lookup x.1 = some x.2 := by
  induction l with
  | nil => cases hx
  | cons y ys ih =>
    obtain ⟨hy, hys⟩ := List.nodup_cons.mp h
    obtain rfl | hmem := List.mem_cons.mp hx
    · exact List.lookup_cons_self
    · have hne : x.1 ≠ y.1 := fun heq => hy (heq ▸ List.mem_map_of_mem hmem)
      rw [List.lookup_cons, beq_false_of_ne hne]
      exact ih hys hmem

section
variable {s : State} {off : Nat} {ds : List FieldDesc}

theorem map_name_fieldsAt (s : State) (off : Nat) (ds : List FieldDesc) :
    (fieldsAt s off ds).map (·.name) = ds.map (·.name) := by
  induction ds generalizing off with
  | nil => rfl
  | cons d ds ih => rw [fieldsAt, List.map_cons, List.map_cons, ih, fieldAt_name]

/-- The fields of a list, each with its descriptor. -/
theorem mem_zip_fieldsAt {x : FieldDesc × RawField} (hx : x ∈ ds.zip (fieldsAt s off ds)) :
    x.1 ∈ ds ∧ x.2 ∈ fieldsAt s off ds ∧ ∃ o, x.2 = fieldAt s o x.1 := by
  refine ⟨(List.of_mem_zip hx).1, (List.of_mem_zip hx).2, ?_⟩
  induction ds generalizing off with
  | nil => cases hx
  | cons d ds ih =>
    rw [fieldsAt, List.zip_cons_cons] at hx
    obtain rfl | hmem := List.mem_cons.mp hx
    · exact ⟨off, rfl⟩
    · exact ih hmem

theorem fieldsOf_of_nodup {fs : List RawField} (h : (fs.map (·.name)).Nodup) : fieldsOf fs = fs.map fun f => (f.name, f.val) :=
  lastOf_of_nodup (by simpa [Function.comp_def] using h)

theorem lookup_fieldsOf {fs : List RawField} (h : (fs.map (·.name)).Nodup) {f : RawField} (hf : f ∈ fs) :
    (fieldsOf fs).lookup f.name = some f.val := by
  rw [fieldsOf_of_nodup h]
  exact lookup_of_mem_nodup (x := (f.name, f.val)) (by simpa [Function.comp_def] using h) (List.mem_map_of_mem hf)

theorem rawOf_eq_none {fs : List RawField} {n : FieldName} (h : n ∉ fs.map (·.name)) : rawOf n fs = none := by
  induction fs with
  | nil => rfl
  | cons f fs ih =>
    simp only [List.map_cons, List.mem_cons, not_or] at h
    rw [rawOf, ih h.2, if_neg (Ne.symm h.1)]
    rfl

theorem rawOf_of_mem {fs : List RawField} (h : (fs.map (·.name)).Nodup) {f : RawField} (hf : f ∈ fs) :
    rawOf f.name fs = some f.raw := by
  induction fs with
  | nil => cases hf
  | cons g gs ih =>
    obtain ⟨hg, hgs⟩ := List.nodup_cons.mp h
    obtain rfl | hmem := List.mem_cons.mp hf
    · rw [rawOf, rawOf_eq_none hg, if_pos rfl]
      rfl
    · rw [rawOf, ih hgs hmem]
      rfl

theorem exists_of_rawOf {n : FieldName} {raw : Int} (h : rawOf n (fieldsAt s off ds) = some raw) :
    ∃ x ∈ ds.zip (fieldsAt s off ds), x.1.name = n ∧ x.2.raw = raw := by
  induction ds generalizing off with
  | nil => cases h
  | cons d ds ih =>
    rw [fieldsAt, rawOf, Option.or_eq_some_iff] at h
    obtain h | ⟨-, h⟩ := h
    · obtain ⟨x, hx, hname⟩ := ih h
      exact ⟨x, List.mem_cons_of_mem _ hx, hname⟩
    · simp only [Option.ite_none_right_eq_some, Option.some.injEq] at h
      exact ⟨(d, fieldAt s off d), List.mem_cons_self .., h.1, h.2⟩

/-- Where every name stands once, no field of a layout is free (R220, log 44). -/
theorem layoutItems_of_nodup (u : State) (place : List Nat) (write : FieldDesc → WItem) (h : (ds.map (·.name)).Nodup) :
    layoutItems u place write ds = ds.map write := by
  induction ds generalizing place with
  | nil => rfl
  | cons d ds ih =>
    obtain ⟨hd, hds⟩ := List.nodup_cons.mp h
    have hnone : ds.any (fun d' => decide (d'.name = d.name)) = false := by
      simp only [List.any_eq_false, decide_eq_true_eq]
      exact fun d' hd' heq => hd (List.mem_map.mpr ⟨d', hd', heq⟩)
    rw [layoutItems, hnone, ih _ hds]
    rfl

/-- Fields that are written with the raw integers they were read with. -/
theorem copied_map_fields {write : FieldDesc → WItem} (hw : ∀ d ∈ ds, widthOk d.width = true)
    (h : ∀ x ∈ ds.zip (fieldsAt s off ds), write x.1 = .field x.1 x.2.raw) :
    Copied s off (ds.map write) (off + widthOf ds) := by
  induction ds generalizing off with
  | nil => exact .nil _
  | cons d ds ih =>
    have hwidth : off + widthOf (d :: ds) = off + d.width + widthOf ds := by simp [widthOf, Nat.add_assoc]
    have hhead : write d = .field d (fieldAt s off d).raw := h (d, fieldAt s off d) (List.mem_cons_self ..)
    rw [List.map_cons, hhead, hwidth]
    exact copied_fieldAt (hw d (by simp)) (ih (fun d' hd' => hw d' (by simp [hd'])) fun x hx => h x (List.mem_cons_of_mem _ hx))

end

/-! ## Satellite ids (R166 to R168) -/

/-- A satellite is written as the unsigned SVID it was converted from. -/
theorem satItem_of_svid {cfg : Cfg} (hacc : cfgAccepted cfg = true) {fam : Family} {c : Constellation} {d : FieldDesc} {svid : Int}
    {sat : SatIndex} (hsvid : 0 ≤ svid) (hrange : inFieldRange d.width d.signed svid = true)
    (h : satOfSvid cfg fam c svid = .ok sat) : satItem cfg fam c d sat = .field d svid := by
  obtain ⟨n, rfl⟩ := Int.eq_ofNat_of_zero_le hsvid
  cases ho : cfg.svidOffset.lookup (fam, c) with
  | none => rw [satOfSvid_missing ho] at h; cases h
  | some o =>
    rw [satOfSvid_eq ho, Nat.cast_add] at h
    obtain ⟨r, hr, hmin, hmax⟩ : ∃ r, cfg.prn.get c = some r ∧ r.min ≤ n + o ∧ n + o ≤ r.max := by
      by_contra hnot
      have hout : ∀ r, cfg.prn.get c = some r → n + o < r.min ∨ r.max < n + o := fun r hr => by
        by_contra hin
        exact hnot ⟨r, hr, by omega, by omega⟩
      have hbad := satIndex_invalid hout
      rw [Nat.cast_add] at hbad
      rw [hbad] at h
      cases h
    have hsat := satIndex_ok (c := c) hr hmin hmax
    rw [Nat.cast_add, h] at hsat
    cases hsat
    rw [satItem, svidOfSat_of_svid hacc ho hr hmin hmax]
    exact if_pos ⟨rfl, hrange⟩

end Sys2Proof.Machine

/-! SUPPORT and the statements of 44_dispatch.md: an ephemeris and a station message are written as they were read (R233, R206). -/

namespace Sys2Proof.Machine

/-! ## A field and the record that keeps it -/

section
variable {s : State} {off : Nat} {ds : List FieldDesc} {x : FieldDesc × RawField}

theorem nodup_names_fieldsAt (s : State) (off : Nat) (hnd : (ds.map (·.name)).Nodup) :
    ((fieldsAt s off ds).map (·.name)).Nodup := by
  rwa [map_name_fieldsAt]

theorem name_of_mem_zip (hx : x ∈ ds.zip (fieldsAt s off ds)) : x.2.name = x.1.name := by
  obtain ⟨-, -, o, ho⟩ := mem_zip_fieldsAt hx
  rw [ho, fieldAt_name]

theorem val_of_mem_zip (hx : x ∈ ds.zip (fieldsAt s off ds)) :
    x.2.val = if x.1.na = some x.2.raw then .na else .scaled x.2.raw x.1.scale := by
  obtain ⟨-, -, o, ho⟩ := mem_zip_fieldsAt hx
  rw [ho, fieldAt_val]

theorem valueItem_of_mem_zip (hx : x ∈ ds.zip (fieldsAt s off ds)) (hscale : 0 < x.1.scale) :
    valueItem x.1 x.2.val = .field x.1 x.2.raw := by
  obtain ⟨-, -, o, ho⟩ := mem_zip_fieldsAt hx
  rw [ho, valueItem_fieldAt hscale]

theorem lookup_fieldsOf_of_mem_zip (hnd : (ds.map (·.name)).Nodup) (hx : x ∈ ds.zip (fieldsAt s off ds)) :
    (fieldsOf (fieldsAt s off ds)).lookup x.1.name = some x.2.val := by
  rw [← name_of_mem_zip hx]
  exact lookup_fieldsOf (nodup_names_fieldsAt s off hnd) (mem_zip_fieldsAt hx).2.1

theorem valueOf_fieldsOf_of_mem_zip (hnd : (ds.map (·.name)).Nodup) (hx : x ∈ ds.zip (fieldsAt s off ds)) :
    valueOf x.1.name (fieldsOf (fieldsAt s off ds)) = x.2.val := by
  rw [valueOf, lookup_fieldsOf_of_mem_zip hnd hx, Option.getD_some]

theorem rawOf_of_mem_zip (hnd : (ds.map (·.name)).Nodup) (hx : x ∈ ds.zip (fieldsAt s off ds)) :
    rawOf x.1.name (fieldsAt s off ds) = some x.2.raw := by
  rw [← name_of_mem_zip hx]
  exact rawOf_of_mem (nodup_names_fieldsAt s off hnd) (mem_zip_fieldsAt hx).2.1

theorem inFieldRange_of_mem_zip (hw : ∀ d ∈ ds, widthOk d.width = true) (hx : x ∈ ds.zip (fieldsAt s off ds)) :
    inFieldRange x.1.width x.1.signed x.2.raw = true := by
  obtain ⟨hd, -, o, ho⟩ := mem_zip_fieldsAt hx
  rw [ho]
  exact fieldAt_inFieldRange (widthOk_iff.mp (hw _ hd)).1

end

/-! ## The week of an ephemeris (R223, R233) -/

section
variable {cfg : Cfg} {c : Constellation} {m : Nat} {raw : Int} {ref : Time}

theorem sub_emod_of_mem_weekCandidates {w : Int} (hw : w ∈ weekCandidates cfg c m raw ref) : (w - raw) % m = 0 := by
  simp only [weekCandidates, List.mem_dedup, List.mem_append, List.mem_map, List.mem_filter, decide_eq_true_eq] at hw
  obtain ⟨i, -, rfl⟩ | ⟨-, h⟩ := hw
  · rw [add_sub_cancel_left]
    exact Int.mul_emod_left _ _
  · exact h

/-- The nearest week is congruent to the raw week. -/
theorem nearestWeek_emod : nearestWeek cfg c m raw ref % m = raw % m := by
  refine Int.emod_eq_emod_iff_emod_sub_eq_zero.mpr ?_
  rw [nearestWeek]
  split
  · simp
  · dsimp only
    split
    · simp
    · next w h =>
      exact sub_emod_of_mem_weekCandidates (List.mem_of_mem_filter (h ▸ List.mem_cons_self ..))
    · next w w' more h =>
      have hall : ∀ v ∈ w :: w' :: more, (v - raw) % m = 0 := fun v hv =>
        sub_emod_of_mem_weekCandidates (List.mem_of_mem_filter (h ▸ hv))
      cases hget : (w :: w' :: more)[Config.weekTie raw m ref % (more.length + 2)]? with
      | none => exact hall w (List.mem_cons_self ..)
      | some v => exact hall v (List.mem_of_getElem? hget)

theorem weekItem_of_emod {r : EphRecord} {d : FieldDesc} {w : Int} (hm : weekModulus cfg r.cons = some m) (hw : w % m = raw)
    (hrange : inFieldRange d.width d.signed raw = true)
    (hval : r.fields.lookup .weekRaw = some (if d.na = some raw then .na else .scaled raw d.scale)) :
    weekItem cfg r d w = .field d raw := by
  have hfield : weekField d w m = raw := by
    rw [weekField, hw, if_neg (by simp [hrange])]
  by_cases hna : d.na = some raw
  · rw [weekItem, hval, if_pos hna, hna]
  · rw [weekItem, hval, if_neg hna, hm]
    simp only [hfield]

end

section
variable {s : State} {c : Constellation} {fs : List RawField} {week : Option Int} {off off' : Nat}

theorem readWeek_inv (h : readWeek s c fs off = .ok week off') :
    off' = off ∧ ∀ raw, rawOf .weekRaw fs = some raw →
      ∃ m ref, weekModulus s.cfg c = some m ∧ week = some (nearestWeek s.cfg c m raw ref) := by
  cases hsome : rawOf .weekRaw fs with
  | none =>
    simp only [readWeek, hsome] at h
    cases h
    exact ⟨rfl, fun raw hraw => by cases hraw⟩
  | some raw =>
    simp only [readWeek, hsome] at h
    obtain ⟨ref, mid, href, hrest⟩ := Rd.bind_inv h
    obtain ⟨-, rfl⟩ := Rd.entry_inv href
    obtain ⟨w, hw, rfl⟩ := Rd.map_inv hrest
    obtain ⟨hadj, rfl⟩ := Rd.lift_inv hw
    refine ⟨rfl, fun raw' hraw' => ?_⟩
    cases hraw'
    cases hm : weekModulus s.cfg c with
    | none => simp [adjustWeekOf, hm] at hadj
    | some m =>
      simp only [adjustWeekOf, hm] at hadj
      cases hadj
      exact ⟨m, ref, rfl, rfl⟩

end

/-! ## Ephemerides (R220, R233) -/

theorem ephItem_svid {cfg : Cfg} {r : EphRecord} {d : FieldDesc} (h : d.name = .svid) :
    ephItem cfg r d = satItem cfg .eph r.cons d r.sat := by
  rw [ephItem, h]

theorem ephItem_week {cfg : Cfg} {r : EphRecord} {d : FieldDesc} {w : Int} (h : d.name = .weekRaw) (hw : r.week = some w) :
    ephItem cfg r d = weekItem cfg r d w := by
  rw [ephItem, h, hw]

theorem ephItem_value {cfg : Cfg} {r : EphRecord} {d : FieldDesc} (hsvid : d.name ≠ .svid) (hweek : d.name ≠ .weekRaw) :
    ephItem cfg r d = valueItem d (valueOf d.name r.fields) := by
  rw [ephItem]
  split
  · next h => exact absurd h hsvid
  · next h _ => exact absurd h hweek
  · rfl

/-- An ephemeris is written as it was read. -/
theorem copied_ephemeris {s u : State} (hacc : cfgAccepted s.cfg = true) (hcfg : u.cfg = s.cfg) {c : Constellation} {lay : EphLayout}
    (hl : s.cfg.ephLayout.get c = some lay) (hnd : (lay.header.map (·.name)).Nodup)
    (hsigned : ∀ d ∈ lay.header, d.name = .svid → d.signed = false) {off off' : Nat}
    (hmod : ∀ raw modulus, rawOf .weekRaw (fieldsAt s off lay.header) = some raw → weekModulus s.cfg c = some modulus →
      0 ≤ raw ∧ raw < modulus)
    {x : Handled} (h : readEph s c off = .ok x off') :
    ∃ r, x.msg = .ephemeris r ∧ r.cons = c ∧ Copied s off (ephItems u r) off' := by
  obtain ⟨lay', mid, hentry, hafterLay⟩ := Rd.bind_inv h
  obtain ⟨hlay, rfl⟩ := Rd.entry_inv hentry
  cases hl.symm.trans hlay
  obtain ⟨fs, mid, hfields, hafterFields⟩ := Rd.bind_inv hafterLay
  obtain ⟨hw, rfl, rfl⟩ := readFields_inv hfields
  obtain ⟨svid, mid', hsvidEntry, hafterSvid⟩ := Rd.bind_inv hafterFields
  obtain ⟨hsvid, rfl⟩ := Rd.entry_inv hsvidEntry
  obtain ⟨sat, mid', hconvert, hafterSat⟩ := Rd.bind_inv hafterSvid
  obtain ⟨hsat, rfl⟩ := Rd.lift_inv hconvert
  obtain ⟨week, hreadWeek, rfl⟩ := Rd.map_inv hafterSat
  obtain ⟨rfl, hweek⟩ := readWeek_inv hreadWeek
  refine ⟨_, rfl, rfl, ?_⟩
  rw [ephItems, hcfg, hl, withEntry, layoutItems_of_nodup _ _ _ hnd]
  refine copied_map_fields hw fun y hy => ?_
  obtain ⟨hmem, hmem', o, ho⟩ := mem_zip_fieldsAt hy
  have hraw := rawOf_of_mem_zip hnd hy
  have hrange := inFieldRange_of_mem_zip hw hy
  by_cases hname : y.1.name = .svid
  · rw [hname, hsvid] at hraw
    cases hraw
    have hnonneg : 0 ≤ y.2.raw := by rw [ho]; exact fieldAt_raw_nonneg (hsigned _ hmem hname)
    rw [ephItem_svid hname]
    exact satItem_of_svid hacc hnonneg hrange hsat
  by_cases hname' : y.1.name = .weekRaw
  · rw [hname'] at hraw
    obtain ⟨m, ref, hm, rfl⟩ := hweek _ hraw
    obtain ⟨hnonneg, hlt⟩ := hmod _ _ hraw hm
    rw [ephItem_week hname' rfl]
    refine weekItem_of_emod hm (nearestWeek_emod.trans (Int.emod_eq_of_lt hnonneg hlt)) hrange ?_
    rw [← hname', lookup_fieldsOf_of_mem_zip hnd hy, val_of_mem_zip hy]
  · rw [ephItem_value hname hname', valueOf_fieldsOf_of_mem_zip hnd hy]
    exact valueItem_of_mem_zip hy (FieldDesc.ok_iff.mp ((layoutChecks_of_accepted hacc).eph c lay hl _ hmem)).2.1

/-! ## Strings of a station message (R206) -/

section
variable {s : State} {off off' n : Nat}

theorem readString_inv (hoff : off ≤ s.cur.bitlen) {b : List Byte} (h : readString s n off = .ok b off') :
    b = stringAt s off n ∧ off' = off + 8 * n := by
  cases hx : firstStop s.cur.bitlen off (stringEvents off n) with
  | none =>
    rw [readString_ok (firstStop_stringEvents_none hoff hx)] at h
    cases h
    exact ⟨rfl, rfl⟩
  | some x => rw [readString_stop hx] at h; cases h

theorem stringAt_length (s : State) (off n : Nat) : (stringAt s off n).length = n := by
  simp [stringAt]

theorem stringAt_succ (s : State) (off n : Nat) :
    stringAt s off (n + 1) = BitVec.ofNat 8 (bitsAt s off 8) :: stringAt s (off + 8) n := by
  have hoff (i : Nat) : off + 8 * (i + 1) = off + 8 + 8 * i := by omega
  simp [stringAt, List.range_succ_eq_map, hoff, Function.comp_def]

/-- The bytes of a string are written as they were read. -/
theorem copied_stringAt (s : State) (off n : Nat) :
    Copied s off ((stringAt s off n).map fun x => .field (plainField 8) x.toNat) (off + 8 * n) := by
  induction n generalizing off with
  | zero => exact .nil _
  | succ n ih =>
    have hlt : ubits s.curByte off 8 < 256 := ubits_lt s.curByte off 8
    have hbyte : (BitVec.ofNat 8 (bitsAt s off 8)).toNat = ubits s.curByte off 8 := by
      rw [bitsAt_eq, BitVec.toNat_ofNat, Nat.mod_eq_of_lt hlt]
    rw [stringAt_succ, List.map_cons, hbyte, show off + 8 * (n + 1) = off + 8 + 8 * n by omega]
    refine .cons ?_ ?_ (ih (off + 8))
    · simp only [WItem.writable, plainField, inFieldRange, widthOk]
      simp
      omega
    · simp only [plainField]
      omega

end

/-! ## Station messages (R206, R210) -/

/-- An item of a station message is written as it was read, from a record that keeps its value. -/
theorem copied_staItem {s : State} {i : StaItem} (hscale : 0 < (itemDesc i).scale)
    (hsigned : ∀ n c, i = .str n c → c.signed = false) {off off' : Nat} {x : FieldName × StaVal}
    (h : readStaItem s i off = .ok x off') {fs : List (FieldName × StaVal)} (hfs : fs.lookup x.1 = some x.2) :
    Copied s off (staItem fs i) off' := by
  cases i with
  | field d =>
    obtain ⟨f, hf, rfl⟩ := Rd.map_inv h
    obtain ⟨hw, -, rfl, rfl⟩ := readRawField_inv hf
    have hitem : staItem fs (.field d) = [.field d (fieldAt s off d).raw] := by
      simp only [staItem, hfs]
      rw [valueItem_fieldAt (d := d) hscale]
    rw [hitem]
    exact copied_fieldAt hw (.nil _)
  | str name c =>
    obtain ⟨f, mid, hf, h⟩ := Rd.bind_inv h
    obtain ⟨hw, hfit, rfl, rfl⟩ := readRawField_inv hf
    obtain ⟨b, hb, rfl⟩ := Rd.map_inv h
    obtain ⟨rfl, rfl⟩ := readString_inv hfit hb
    have hcount : (((fieldAt s off c).raw.toNat : Nat) : Int) = (fieldAt s off c).raw :=
      Int.toNat_of_nonneg (fieldAt_raw_nonneg (hsigned name c rfl))
    simp only [staItem, hfs, stringItems, stringAt_length, hcount]
    exact copied_fieldAt hw (copied_stringAt ..)

theorem readStaItem_name {s : State} {i : StaItem} {off off' : Nat} {x : FieldName × StaVal}
    (h : readStaItem s i off = .ok x off') : x.1 = i.name := by
  cases i with
  | field d =>
    obtain ⟨f, -, rfl⟩ := Rd.map_inv h
    rfl
  | str name c =>
    obtain ⟨f, mid, -, h⟩ := Rd.bind_inv h
    obtain ⟨b, -, rfl⟩ := Rd.map_inv h
    rfl

theorem readStaItems_names {s : State} {items : List StaItem} {off off' : Nat} {l : List (FieldName × StaVal)}
    (h : Rd.forEach (readStaItem s) items off = .ok l off') : l.map Prod.fst = items.map (·.name) := by
  induction items generalizing off l with
  | nil => cases h; rfl
  | cons i is ih =>
    obtain ⟨x, mid, hx, h⟩ := Rd.bind_inv h
    obtain ⟨l', hl', rfl⟩ := Rd.map_inv h
    rw [List.map_cons, List.map_cons, ih hl', readStaItem_name hx]

theorem copied_staItems {s : State} {items : List StaItem} (hscale : ∀ i ∈ items, 0 < (itemDesc i).scale)
    (hsigned : ∀ n c, .str n c ∈ items → c.signed = false) {off off' : Nat} {l : List (FieldName × StaVal)}
    (h : Rd.forEach (readStaItem s) items off = .ok l off') {fs : List (FieldName × StaVal)}
    (hfs : ∀ x ∈ l, fs.lookup x.1 = some x.2) : Copied s off (items.flatMap (staItem fs)) off' := by
  induction items generalizing off l with
  | nil => cases h; exact .nil _
  | cons i is ih =>
    obtain ⟨x, mid, hx, h⟩ := Rd.bind_inv h
    obtain ⟨l', hl', rfl⟩ := Rd.map_inv h
    obtain ⟨hfsx, hfsl⟩ := List.forall_mem_cons.mp hfs
    have hhead : Copied s off (staItem fs i) mid :=
      copied_staItem (hscale i (by simp)) (fun n c hi => hsigned n c (by simp [hi])) hx hfsx
    exact hhead.append (ih (fun j hj => hscale j (by simp [hj])) (fun n c hj => hsigned n c (by simp [hj])) hl' hfsl)

theorem staItems_of_nodup (u : State) (fs : List (FieldName × StaVal)) {items : List StaItem}
    (hnd : (items.map (·.name)).Nodup) : staItems u fs items = items.flatMap (staItem fs) := by
  induction items with
  | nil => rfl
  | cons i is ih =>
    obtain ⟨hi, his⟩ := List.nodup_cons.mp hnd
    have hnone : is.any (fun x => decide (x.name = i.name)) = false := by
      simp only [List.any_eq_false, decide_eq_true_eq]
      exact fun x hx heq => hi (List.mem_map.mpr ⟨x, hx, heq⟩)
    rw [staItems.eq_def u fs (i :: is)]
    simp only [hnone, ih his]
    rfl

theorem staItem_scale_pos {i : StaItem} (h : staItemOk i = true) : 0 < (itemDesc i).scale := by
  cases i with
  | field d => exact (FieldDesc.ok_iff.mp h).2.1
  | str n c => exact (FieldDesc.ok_iff.mp h).2.1

/-- A station message is written as it was read. -/
theorem copied_station {s u : State} (hacc : cfgAccepted s.cfg = true) (hcfg : u.cfg = s.cfg) {k : StaKind} {items : List StaItem}
    (hl : s.cfg.staLayout.lookup k = some items) (hnd : (items.map (·.name)).Nodup)
    (hsigned : ∀ n c, .str n c ∈ items → c.signed = false) {off off' : Nat} {x : Handled}
    (h : readStation s k off = .ok x off') :
    ∃ fs, x.msg = .station k fs ∧ Copied s off (messageItems u (.station k fs)) off' := by
  obtain ⟨items', mid, hentry, hafterLay⟩ := Rd.bind_inv h
  obtain ⟨hitems, rfl⟩ := Rd.entry_inv hentry
  cases hl.symm.trans hitems
  obtain ⟨l, hread, rfl⟩ := Rd.map_inv hafterLay
  have hnames : (l.map Prod.fst).Nodup := by rwa [readStaItems_names hread]
  refine ⟨_, rfl, ?_⟩
  rw [messageItems, hcfg, hl, withEntry, staItems_of_nodup u _ hnd, lastOf_of_nodup hnames]
  have hok := (layoutChecks_of_accepted hacc).sta _ (mem_of_lookup _ _ _ hl)
  exact copied_staItems (fun i hi => staItem_scale_pos (hok i hi)) hsigned hread fun x hx => lookup_of_mem_nodup hnames hx

end Sys2Proof.Machine

/-! SUPPORT and the statements of 44_dispatch.md: an SSR message with one record per satellite is written as it was read (R288, R284). -/

namespace Sys2Proof.Machine

/-- A looked-up row is one of the table's, for the test of equality of pairs too. -/
theorem mem_of_lookup_pair {α β : Type} [BEq α] [LawfulBEq α] {l : List (α × β)} {a : α} {b : β} (h : l.lookup a = some b) :
    (a, b) ∈ l := by
  obtain ⟨front, back, rfl, -⟩ := List.lookup_eq_some_iff.mp h
  simp

/-! ## The quality of a record (R282, R284) -/

theorem distance_eq_zero {a b : Rat} (h : distance a b = 0) : a = b := by
  rw [distance] at h
  split at h <;> linarith

theorem distance_nonneg (a b : Rat) : 0 ≤ distance a b := by
  rw [distance]
  split <;> linarith

theorem distance_self (a : Rat) : distance a a = 0 := by
  simp [distance]

/-- An entry is preferred only where it is no farther. -/
theorem distance_le_of_uraBetter {q : Rat} {a b : (Int × Int) × Rat} (h : uraBetter q a b = true) :
    distance a.2 q ≤ distance b.2 q := by
  simp only [uraBetter, Bool.or_eq_true, Bool.and_eq_true, decide_eq_true_eq] at h
  obtain h | h := h
  · exact h.le
  · exact h.1.le

theorem distance_le_of_not_uraBetter {q : Rat} {a b : (Int × Int) × Rat} (h : uraBetter q a b = false) :
    distance b.2 q ≤ distance a.2 q := by
  simp only [uraBetter, Bool.or_eq_false_iff, decide_eq_false_iff_not, not_lt] at h
  exact h.1

theorem uraNearest_mem {q : Rat} {rows : List ((Int × Int) × Rat)} {r : (Int × Int) × Rat} (h : uraNearest q rows = some r) :
    r ∈ rows := by
  induction rows generalizing r with
  | nil => cases h
  | cons r₀ rs ih =>
    cases hrs : uraNearest q rs with
    | none =>
      simp only [uraNearest, hrs, Option.some.injEq] at h
      simp [h]
    | some b =>
      simp only [uraNearest, hrs] at h
      split at h
      · cases h; simp
      · cases h; exact List.mem_cons_of_mem _ (ih hrs)

/-- The preferred entry is no farther than any. -/
theorem uraNearest_le {q : Rat} {rows : List ((Int × Int) × Rat)} {r : (Int × Int) × Rat} (hr : r ∈ rows) :
    ∃ b, uraNearest q rows = some b ∧ distance b.2 q ≤ distance r.2 q := by
  induction rows with
  | nil => cases hr
  | cons r₀ rs ih =>
    cases hrs : uraNearest q rs with
    | none =>
      obtain rfl | hmem := List.mem_cons.mp hr
      · exact ⟨r, by simp only [uraNearest, hrs], le_rfl⟩
      · obtain ⟨b, hb, -⟩ := ih hmem
        rw [hrs] at hb
        cases hb
    | some b =>
      have htail (hmem : r ∈ rs) : distance b.2 q ≤ distance r.2 q := by
        obtain ⟨b', hb', hle⟩ := ih hmem
        cases hrs.symm.trans hb'
        exact hle
      cases hbetter : uraBetter q r₀ b with
      | true =>
        refine ⟨r₀, by simp only [uraNearest, hrs, hbetter, if_true], ?_⟩
        obtain rfl | hmem := List.mem_cons.mp hr
        · exact le_rfl
        · exact (distance_le_of_uraBetter hbetter).trans (htail hmem)
      | false =>
        refine ⟨b, by simp [uraNearest, hrs, hbetter], ?_⟩
        obtain rfl | hmem := List.mem_cons.mp hr
        · exact distance_le_of_not_uraBetter hbetter
        · exact htail hmem

/-- Where no two entries share a value, QUANTIZE gives back the entry a standard deviation was decoded from (R284). -/
theorem quantizeUra_of_uraMetres {cfg : Cfg}
    (huniq : ∀ x y q, cfg.uraTable.lookup x = some q → cfg.uraTable.lookup y = some q → x = y) {cls v : Int} {q : Rat}
    (h : uraMetres cfg cls v = some q) : quantizeUra cfg q = .ok (cls, v) := by
  have hmem : ((cls, v), q) ∈ effectiveRows cfg.uraTable :=
    List.mem_filter.mpr ⟨mem_of_lookup_pair h, decide_eq_true h⟩
  obtain ⟨b, hb, hle⟩ := uraNearest_le (q := q) hmem
  have hvalue : b.2 = q := distance_eq_zero (le_antisymm (hle.trans_eq (distance_self q)) (distance_nonneg _ _))
  have hlookup : cfg.uraTable.lookup b.1 = some b.2 := of_decide_eq_true (List.mem_filter.mp (uraNearest_mem hb)).2
  have hkey : b.1 = (cls, v) := huniq b.1 (cls, v) q (hvalue ▸ hlookup) h
  simp only [quantizeUra, hb, hkey]

/-! ## The records of a satellite message (R271 to R275, R288) -/

section
variable {s : State} {off : Nat} {ds : List FieldDesc}

theorem val_fieldsAt_not_exact {f : RawField} (hf : f ∈ fieldsAt s off ds) (q : Rat) : f.val ≠ .exact q := by
  induction ds generalizing off with
  | nil => cases hf
  | cons d ds ih =>
    obtain rfl | hmem := List.mem_cons.mp hf
    · rw [fieldAt_val]
      split <;> simp
    · exact ih hmem

/-- A standard deviation stands in a record's fields only where it was added to them (R282). -/
theorem lookup_fieldsOf_not_exact (hnd : (ds.map (·.name)).Nodup) (n : FieldName) (q : Rat) :
    (fieldsOf (fieldsAt s off ds)).lookup n ≠ some (.exact q) := by
  intro h
  have hmem := mem_of_lookup _ _ _ h
  rw [fieldsOf_of_nodup (nodup_names_fieldsAt s off hnd), List.mem_map] at hmem
  obtain ⟨f, hf, hval⟩ := hmem
  exact val_fieldsAt_not_exact hf q (congrArg Prod.snd hval)

theorem valueOf_withQuality_of_mem_zip (hnd : (ds.map (·.name)).Nodup) {x : FieldDesc × RawField}
    (hx : x ∈ ds.zip (fieldsAt s off ds)) : valueOf x.1.name (withQuality s.cfg (fieldsAt s off ds)) = x.2.val := by
  have hlookup := lookup_fieldsOf_of_mem_zip hnd hx
  simp only [withQuality]
  split
  · rw [valueOf, List.lookup_append, hlookup]
    rfl
  · rw [valueOf, hlookup]
    rfl

/-- The quality fields a record's standard deviation was decoded from (R282). -/
theorem quality_of_stdev (hnd : (ds.map (·.name)).Nodup) {cfg : Cfg} {q : Rat}
    (h : valueOf .stdev (withQuality cfg (fieldsAt s off ds)) = .exact q) :
    ∃ cls v, rawOf .uraClass (fieldsAt s off ds) = some cls ∧ rawOf .uraValue (fieldsAt s off ds) = some v ∧
      uraMetres cfg cls v = some q := by
  have hnot := lookup_fieldsOf_not_exact (s := s) (off := off) hnd .stdev
  simp only [withQuality] at h
  split at h
  · next cls v hcls hv _ =>
    refine ⟨cls, v, hcls, hv, ?_⟩
    rw [valueOf, List.lookup_append] at h
    cases hl : (fieldsOf (fieldsAt s off ds)).lookup .stdev with
    | some w =>
      rw [hl] at h
      exact absurd (hl.trans (congrArg some h)) (hnot q)
    | none =>
      rw [hl] at h
      cases hm : uraMetres cfg cls v with
      | none => simp [hm] at h
      | some q' => simpa [hm] using h
  · rw [valueOf] at h
    cases hl : (fieldsOf (fieldsAt s off ds)).lookup .stdev with
    | some w =>
      rw [hl] at h
      exact absurd (hl.trans (congrArg some h)) (hnot q)
    | none => rw [hl] at h; cases h

/-- A field of a record is written as it was read, its quality fields through QUANTIZE (R288). -/
theorem qualityItem_of_mem_zip (hnd : (ds.map (·.name)).Nodup)
    (huniq : ∀ x y q, s.cfg.uraTable.lookup x = some q → s.cfg.uraTable.lookup y = some q → x = y)
    {x : FieldDesc × RawField} (hx : x ∈ ds.zip (fieldsAt s off ds)) (hscale : 0 < x.1.scale) :
    qualityItem s.cfg (withQuality s.cfg (fieldsAt s off ds)) x.1 = .field x.1 x.2.raw := by
  have hvalue : valueItem x.1 (valueOf x.1.name (withQuality s.cfg (fieldsAt s off ds))) = .field x.1 x.2.raw := by
    rw [valueOf_withQuality_of_mem_zip hnd hx, valueItem_of_mem_zip hx hscale]
  have hraw := rawOf_of_mem_zip hnd hx
  rw [qualityItem]
  split
  · next q hstdev _ =>
    obtain ⟨cls, v, hcls, hv, hmetres⟩ := quality_of_stdev hnd hstdev
    rw [quantizeUra_of_uraMetres huniq hmetres]
    by_cases hnameCls : x.1.name = .uraClass
    · rw [hnameCls, hcls] at hraw
      cases hraw
      simp only [hnameCls]
    · by_cases hnameVal : x.1.name = .uraValue
      · rw [hnameVal, hv] at hraw
        cases hraw
        simp only [hnameVal]
      · split <;> simp_all
  · exact hvalue

/-- The fields of a record are written as they were read. -/
theorem copied_recordItems {u : State} (hcfg : u.cfg = s.cfg) (place : List Nat) (hnd : (ds.map (·.name)).Nodup)
    (hok : ∀ d ∈ ds, d.ok = true)
    (huniq : ∀ x y q, s.cfg.uraTable.lookup x = some q → s.cfg.uraTable.lookup y = some q → x = y) {off' : Nat} {fs : List RawField}
    (h : readFields s ds off = .ok fs off') : Copied s off (recordItems u place ds (withQuality s.cfg fs)) off' := by
  obtain ⟨hw, rfl, rfl⟩ := readFields_inv h
  rw [recordItems, hcfg, layoutItems_of_nodup _ _ _ hnd]
  exact copied_map_fields hw fun x hx =>
    qualityItem_of_mem_zip hnd huniq hx (FieldDesc.ok_iff.mp (hok _ (mem_zip_fieldsAt hx).1)).2.1

end

/-- What O52 asks of an SSR layout: its fields are legal, of one name each in their list, its satellite ids unsigned, and the
entries of the quality table tell their values apart. -/
structure Reversible (cfg : Cfg) (lay : SsrLayout) : Prop where
  ok : ∀ d ∈ SsrLayout.descs lay, d.ok = true
  header : (lay.header.map (·.name)).Nodup
  record : (lay.record.map (·.name)).Nodup
  clock : (lay.clockRecord.map (·.name)).Nodup
  svid : lay.svid.signed = false
  quality : ∀ x y q, cfg.uraTable.lookup x = some q → cfg.uraTable.lookup y = some q → x = y

section
variable {s u : State} {lay : SsrLayout} {c : Constellation} {k : SsrKind} {off off' : Nat}

theorem Reversible.record_ok {cfg : Cfg} (hlay : Reversible cfg lay) : ∀ d ∈ lay.record, d.ok = true :=
  fun d hd => hlay.ok d (by simp [SsrLayout.descs, hd])

theorem Reversible.clock_ok {cfg : Cfg} (hlay : Reversible cfg lay) : ∀ d ∈ lay.clockRecord, d.ok = true :=
  fun d hd => hlay.ok d (by simp [SsrLayout.descs, hd])

theorem Reversible.header_ok {cfg : Cfg} (hlay : Reversible cfg lay) : ∀ d ∈ lay.header, d.ok = true :=
  fun d hd => hlay.ok d (by simp [SsrLayout.descs, hd])

/-- A record of one list of fields is written as it was read. -/
theorem copied_vals (hcfg : u.cfg = s.cfg) (hlay : Reversible s.cfg lay) (place : List Nat) {r : Record}
    (h : (readFields s lay.record).map (fun fs => Record.vals (withQuality s.cfg fs)) off = .ok r off') :
    ∃ fs, r = .vals fs ∧ Copied s off (recordItems u place lay.record fs) off' := by
  obtain ⟨fs, hfs, rfl⟩ := Rd.map_inv h
  exact ⟨_, rfl, copied_recordItems hcfg place hlay.record hlay.record_ok hlay.quality hfs⟩

/-- A record of a kind without sub-records is written as it was read. -/
theorem copied_ssrRecordItems (hcfg : u.cfg = s.cfg) (hlay : Reversible s.cfg lay) (hcode : k ≠ .codebias) (hphase : k ≠ .phasebias)
    (yaw yaw' : Bool) (place : List Nat) {r : Record} (h : readRecord s c lay yaw k off = .ok r off') :
    Copied s off (ssrRecordItems u c lay yaw' place k r) off' := by
  cases k with
  | codebias => exact absurd rfl hcode
  | phasebias => exact absurd rfl hphase
  | combined =>
    obtain ⟨fs, mid, hfs, hrest⟩ := Rd.bind_inv h
    obtain ⟨gs, hgs, rfl⟩ := Rd.map_inv hrest
    exact (copied_recordItems hcfg _ hlay.record hlay.record_ok hlay.quality hfs).append
      (copied_recordItems hcfg _ hlay.clock hlay.clock_ok hlay.quality hgs)
  | orbit => obtain ⟨fs, rfl, hfs⟩ := copied_vals hcfg hlay place h; exact hfs
  | clock => obtain ⟨fs, rfl, hfs⟩ := copied_vals hcfg hlay place h; exact hfs
  | hrclock => obtain ⟨fs, rfl, hfs⟩ := copied_vals hcfg hlay place h; exact hfs
  | ura => obtain ⟨fs, rfl, hfs⟩ := copied_vals hcfg hlay place h; exact hfs

/-- One satellite's record is written as it was read, whatever its place in the message. -/
theorem copied_satRecordItems (hacc : cfgAccepted s.cfg = true) (hcfg : u.cfg = s.cfg) (hlay : Reversible s.cfg lay)
    (hcode : k ≠ .codebias) (hphase : k ≠ .phasebias) (yaw yaw' : Bool) {fam : Family} {x : EntryKey × Record}
    (h : readSatRecord s fam c k lay yaw off = .ok x off') (n : Nat) :
    Copied s off (satRecordItems u fam c lay yaw' k n x) off' := by
  obtain ⟨f, mid, hf, hafterSvid⟩ := Rd.bind_inv h
  obtain ⟨hw, -, rfl, rfl⟩ := readRawField_inv hf
  obtain ⟨sat, mid, hconvert, hafterSat⟩ := Rd.bind_inv hafterSvid
  obtain ⟨hsat, rfl⟩ := Rd.lift_inv hconvert
  obtain ⟨r, hr, rfl⟩ := Rd.map_inv hafterSat
  have hitem : satItem s.cfg fam c lay.svid sat = .field lay.svid (fieldAt s off lay.svid).raw :=
    satItem_of_svid hacc (fieldAt_raw_nonneg hlay.svid) (fieldAt_inFieldRange (widthOk_iff.mp hw).1) hsat
  simp only [satRecordItems, hcfg, hitem]
  exact copied_fieldAt hw (copied_ssrRecordItems hcfg hlay hcode hphase yaw yaw' _ hr)

end

/-! ## The header of a satellite message (R266, R288) -/

section
variable {s : State} {off : Nat} {ds : List FieldDesc} {x : FieldDesc × RawField}

theorem descOf_of_mem (hnd : (ds.map (·.name)).Nodup) {d : FieldDesc} (hd : d ∈ ds) : descOf d.name ds = some d := by
  rw [descOf]
  cases hfind : ds.reverse.find? fun d' => decide (d'.name = d.name) with
  | none => exact absurd (List.find?_eq_none.mp hfind d (List.mem_reverse.mpr hd)) (by simp)
  | some d' =>
    have hname : d'.name = d.name := by simpa using List.find?_some hfind
    have hmem : d' ∈ ds := List.mem_reverse.mp (List.mem_of_find?_eq_some hfind)
    rw [List.inj_on_of_nodup_map hnd hmem hd hname]

/-- The raw integer of a header field is taken back from the value the message holds. -/
theorem fieldRaw_of_mem_zip (hnd : (ds.map (·.name)).Nodup) (hx : x ∈ ds.zip (fieldsAt s off ds)) :
    fieldRaw ds (fieldsOf (fieldsAt s off ds)) x.1.name = some x.2.raw := by
  rw [fieldRaw, descOf_of_mem hnd (mem_zip_fieldsAt hx).1, valueOf_fieldsOf_of_mem_zip hnd hx, val_of_mem_zip hx]
  by_cases hna : x.1.na = some x.2.raw
  · rw [if_pos hna]
    exact hna
  · rw [if_neg hna]

theorem countOf_eq_some_iff {n : FieldName} {fs : List RawField} {m : Nat} :
    countOf n fs = some m ↔ ∃ raw, rawOf n fs = some raw ∧ raw.toNat = m := by
  simp [countOf]

/-- The raw integer of the satellite count. -/
theorem fieldRaw_of_rawOf (hnd : (ds.map (·.name)).Nodup) {n : FieldName} {raw : Int}
    (h : rawOf n (fieldsAt s off ds) = some raw) : fieldRaw ds (fieldsOf (fieldsAt s off ds)) n = some raw := by
  obtain ⟨x, hx, rfl, rfl⟩ := exists_of_rawOf h
  exact fieldRaw_of_mem_zip hnd hx

/-- A header whose count is the number of records is written as it was read. -/
theorem copied_headerItems (u : State) (hnd : (ds.map (·.name)).Nodup) (hok : ∀ d ∈ ds, d.ok = true) {raw : Int}
    (hraw : rawOf .nsat (fieldsAt s off ds) = some raw) :
    Copied s off (headerItems u ds (fieldsOf (fieldsAt s off ds)) raw.toNat) (off + widthOf ds) := by
  rw [headerItems, layoutItems_of_nodup _ _ _ hnd]
  refine copied_map_fields (fun d hd => (FieldDesc.ok_iff.mp (hok d hd)).1) fun x hx => ?_
  split
  · next hname =>
    have hx' := rawOf_of_mem_zip hnd hx
    rw [hname, hraw] at hx'
    cases hx'
    rw [fieldRaw_of_rawOf hnd hraw, countItem]
    exact congrArg _ (if_pos rfl)
  · rw [valueOf_fieldsOf_of_mem_zip hnd hx, valueItem_of_mem_zip hx (FieldDesc.ok_iff.mp (hok _ (mem_zip_fieldsAt hx).1)).2.1]

end

/-! ## SSR messages (R265, R288) -/

section
variable {s u : State} {off off' : Nat}

theorem readPrep_inv {h : CorrHandler} {p : CorrPrep} (hread : readPrep s h off = .ok p off') :
    ∃ ds, corrHeaderOf s.cfg h = some ds ∧ p.fields = fieldsAt s off ds ∧ off' = off + widthOf ds := by
  obtain ⟨fs, mid, hheader, hafterHeader⟩ := Rd.bind_inv hread
  obtain ⟨raw, mid', hepoch, hafterEpoch⟩ := Rd.bind_inv hafterHeader
  obtain ⟨-, rfl⟩ := Rd.entry_inv hepoch
  obtain ⟨mm, mid', hmm, hafterMm⟩ := Rd.bind_inv hafterEpoch
  obtain ⟨-, rfl⟩ := Rd.entry_inv hmm
  obtain ⟨ref, href, rfl⟩ := Rd.map_inv hafterMm
  obtain ⟨-, rfl⟩ := Rd.entry_inv href
  cases hds : corrHeaderOf s.cfg h with
  | none => simp only [readHeader, hds] at hheader; cases hheader
  | some ds =>
    simp only [readHeader, hds] at hheader
    obtain ⟨-, rfl, rfl⟩ := readFields_inv hheader
    exact ⟨ds, rfl, rfl, rfl⟩

/-- The update a correction handler reports holds what was read (R265, R287). -/
theorem finishCorr_inv {h : CorrHandler} {pre : Option (List RawField)} {p : CorrPrep} {kinds : List CacheKind}
    {recs : List (EntryKey × Record)} {x : Handled} (hfin : finishCorr s h pre p kinds recs off = .ok x off') :
    off' = off ∧ ∃ reports flag,
      x.msg = .correction ⟨h, pre.map fieldsOf, p.network, fieldsOf p.fields, recs, reports, flag⟩ := by
  obtain ⟨flag, hflag, rfl⟩ := Rd.map_inv hfin
  obtain ⟨-, rfl⟩ := Rd.lift_inv hflag
  exact ⟨rfl, _, _, rfl⟩

/-- A message sends the records it carries where its count says how many (log 30). -/
theorem recordsToSend_of_length {ds : List FieldDesc} {m : CorrUpdate} {raw : Int} (hraw : fieldRaw ds m.hdr .nsat = some raw)
    (hlen : m.recs.length = raw.toNat) (cached : List (EntryKey × Record)) : recordsToSend ds m cached = m.recs := by
  refine if_neg fun ⟨hnil, hne⟩ => hne ?_
  rw [hraw, Option.map_some, ← hlen, hnil]
  rfl

/-- An SSR message without sub-records is written as it was read. -/
theorem copied_ssr (hacc : cfgAccepted s.cfg = true) (hcfg : u.cfg = s.cfg) {c : Constellation} {k : SsrKind} {lay : SsrLayout}
    (hcode : k ≠ .codebias) (hphase : k ≠ .phasebias) (hl : s.cfg.ssrLayout.lookup (c, k) = some lay)
    (hlay : Reversible s.cfg lay) {x : Handled} (h : readSsr s c k off = .ok x off') :
    ∃ m, x.msg = .correction m ∧ wireHandler m = .ssr c k ∧ Copied s off (corrItems u m) off' := by
  obtain ⟨lay', mid, hentry, hafterLay⟩ := Rd.bind_inv h
  obtain ⟨hlay', rfl⟩ := Rd.entryFor_inv hentry
  cases hl.symm.trans hlay'
  obtain ⟨p, mid, hprep, hafterPrep⟩ := Rd.bind_inv hafterLay
  obtain ⟨ds, hds, hfields, rfl⟩ := readPrep_inv hprep
  obtain rfl : lay.header = ds := by simpa [corrHeaderOf, hl] using hds
  obtain ⟨nsat, mid', hcount, hafterCount⟩ := Rd.bind_inv hafterPrep
  obtain ⟨hnsat, rfl⟩ := Rd.entry_inv hcount
  obtain ⟨recs, mid', hrecs, hfin⟩ := Rd.bind_inv hafterCount
  obtain ⟨rfl, reports, flag, hmsg⟩ := finishCorr_inv hfin
  refine ⟨_, hmsg, rfl, ?_⟩
  rw [hfields] at hnsat ⊢
  obtain ⟨raw, hraw, rfl⟩ := countOf_eq_some_iff.mp hnsat
  obtain ⟨hlen, hcopied⟩ := copied_times (fun hx n => copied_satRecordItems hacc hcfg hlay hcode hphase _
    (decide (fieldRaw lay.header (fieldsOf (fieldsAt s mid lay.header)) .yawFlag = some 1)) hx n) hrecs 0
  have hheader := copied_headerItems u hlay.header hlay.header_ok hraw
  rw [← hlen] at hheader
  simp only [corrItems, hcfg, hl, withEntry, ssrItems]
  rw [recordsToSend_of_length (fieldRaw_of_rawOf hlay.header hraw) hlen]
  exact hheader.append hcopied

end

end Sys2Proof.Machine

/-! STATEMENTS of 44_dispatch.md: ENCODE_ONE of a message a handler read (O52). -/

namespace Sys2Proof.Machine

/-! ## The type of an encoded message (R210) -/

/-- Where a row of the table has a handler and its type selects it, there is a least such type. -/
theorem leastTypeIn_of_mem {table rows : List (Nat × Handler)} {h : Handler} {x : Nat} (hx : (x, h) ∈ rows)
    (hl : table.lookup x = some h) : ∃ t, leastTypeIn table h rows = some t := by
  induction rows with
  | nil => cases hx
  | cons r rows ih =>
    cases hrows : leastTypeIn table h rows with
    | some t' =>
      simp only [leastTypeIn, hrows]
      split <;> exact ⟨_, rfl⟩
    | none =>
      obtain rfl | hmem := List.mem_cons.mp hx
      · exact ⟨x, by simp only [leastTypeIn, hrows, hl, and_self, if_true]⟩
      · obtain ⟨t, ht⟩ := ih hmem
        cases hrows.symm.trans ht

theorem leastType_of_mem {cfg : Cfg} (hacc : cfgAccepted cfg = true) {h : Handler} {x : Nat} (hx : (x, h) ∈ cfg.typeTable) :
    ∃ t, leastType cfg h = some t ∧ cfg.typeTable.lookup t = some h ∧ t < 4096 := by
  have hrows := hacc
  simp only [cfgAccepted, typeTableOk, Bool.and_eq_true, List.all_eq_true, decide_eq_true_eq] at hrows
  obtain ⟨⟨-, hrows, -⟩, -⟩ := hrows
  obtain ⟨t, ht⟩ := leastTypeIn_of_mem hx (hrows _ hx).2
  have hl := leastTypeIn_lookup ht
  exact ⟨t, ht, hl, type_lt_of_lookup hacc hl⟩

/-- A type of an SSR handler decodes to its row, or to the test-range row of its kind. -/
theorem decodeType_ssr_or_test {cfg : Cfg} (hacc : cfgAccepted cfg = true) {t : BitVec 12} {c : Constellation} {k : SsrKind}
    (hl : cfg.typeTable.lookup t.toNat = some (.ssr c k)) :
    decodeType cfg t = Instr.ofSsr c k ∨
      ∃ o, decodeType cfg t = Instr.ofSsrTest o c ∧ cfg.testKindOfOffset.lookup o = some k := by
  cases hr : inSsrRange cfg c t.toNat with
  | true => exact .inl (decodeType_ssr hl hr)
  | false =>
    cases ho : testOffset cfg c t.toNat with
    | none => exact .inl (by simp only [decodeType, hl, ho])
    | some o => exact .inr ⟨o, decodeType_test hl ho hr, testKind_of_testOffset hacc hl ho⟩

/-! ## What a message row read, and what ENCODE_ONE writes of it -/

/-- A message row that answered a message read it up to where the cursor stands (R203). -/
theorem read_of_message {i : Instr} {r : State → Rd Handled} (hi : messageReader i.wireClass = some r) {s t : State}
    (hc : s.configured = true) (h : exec i s = .next t) {m : Message} (hm : t.ret = .message m) :
    ∃ x, r { s with window := false } s.cur.off = .ok x t.cur.off ∧ x.msg = m := by
  cases hr : r { s with window := false } s.cur.off with
  | ok x off =>
    rw [exec_message_ok hi hc hr] at h
    cases h
    cases hm
    exact ⟨x, rfl, rfl⟩
  | stop c off =>
    rw [exec_message_stopsAt (x := (c, off)) hi hc hr] at h
    cases h
    cases hm

/-- The fields at a bit do not depend on the configuration window. -/
theorem fieldsAt_window (s : State) (off : Nat) (ds : List FieldDesc) :
    fieldsAt { s with window := false } off ds = fieldsAt s off ds := by
  induction ds generalizing off with
  | nil => rfl
  | cons d ds ih =>
    rw [fieldsAt, fieldsAt, ih]
    rfl

/-- A message that is written as it was read is encoded to a payload with its type and the bits it was read from. -/
theorem exec_encodeOne_of_copied {s u : State} (hacc : cfgAccepted s.cfg = true) (huc : u.configured = true) (hcfg : u.cfg = s.cfg)
    {m : Message} (hne : ∀ t' b, m ≠ .rawUnhandled t' b) {h : Handler} (hh : typeFor u.cfg m = leastType u.cfg h) {x : Nat}
    (hx : (x, h) ∈ s.cfg.typeTable) {off off' : Nat} (hcopied : Copied s off (messageItems u m) off')
    (hbits : 12 + (off' - off) ≤ 8 * 1023) :
    ∃ t' payload, ∃ ty : BitVec 12, exec (.encodeOne m) u = .next t' ∧ t'.ret = .bytes (frameOf s.cfg payload) ∧
      payload.length = (12 + (off' - off) + 7) / 8 ∧ s.cfg.typeTable.lookup ty.toNat = some h ∧
      decodeMessage s.cfg payload = .ok (decodeType s.cfg ty) ∧
      ∀ j, j < off' - off → (bitAt (listByte payload) (12 + j)).toNat = curBit s (off + j) := by
  obtain ⟨t, ht, hl, hlt⟩ := leastType_of_mem hacc hx
  have htoNat : (BitVec.ofNat 12 t).toNat = t := Nat.mod_eq_of_lt hlt
  have htype : typeFor u.cfg m = some t := by rw [hh, hcfg, ht]
  have hmsgBits : itemBits (messageItems u m) = off' - off := by rw [hcopied.off_eq]; omega
  have hsize : itemBits (payloadItems u t m) = 12 + (off' - off) := by
    rw [payloadItems, itemBits_cons, hmsgBits]
    rfl
  have hwritable : ∀ i ∈ payloadItems u t m, WItem.writable i = true := by
    refine List.forall_mem_cons.mpr ⟨?_, hcopied.writable⟩
    simp only [WItem.writable, plainField, inFieldRange, widthOk]
    simp
    omega
  obtain ⟨payload, hpayload⟩ : ∃ b, payloadBytes ((itemBits (payloadItems u t m) + 7) / 8) (payloadItems u t m) = b := ⟨_, rfl⟩
  have hlen : payload.length = (12 + (off' - off) + 7) / 8 := by rw [← hpayload, payloadBytes_length, hsize]
  have hholds : Holds payload 0 (payloadItems u t m) := hpayload ▸ payloadBytes_holds (by omega)
  obtain ⟨hhead, hrest : Holds _ 12 _⟩ := hholds
  have hbitsType : ubits (listByte payload) 0 12 = t := by
    have hmod : (t : Int) % 2 ^ 12 = t := Int.emod_eq_of_lt (by omega) (by omega)
    exact_mod_cast hhead.trans hmod
  have hexec := exec_encodeOne_frame huc (hcfg ▸ cfgAccepted_not_reflected hacc) hne htype rfl hwritable (hsize.trans_le hbits)
    hpayload
  refine ⟨_, payload, BitVec.ofNat 12 t, hexec, by rw [hcfg]; rfl, hlen, by rwa [htoNat], ?_, fun j hj => ?_⟩
  · rw [decodeMessage, hbitsType, if_neg (by omega)]
  · rw [curBit_eq, hcopied.bitAt_eq hrest (hmsgBits ▸ hj)]

/-- What O52 says of the row a type of the handler `h` decodes to: it is the row of the message, or the test-range row of its kind. -/
def SameRow (cfg : Cfg) (i : Instr) (h : Handler) (i' : Instr) : Prop :=
  i' = i ∨ ∃ c k o, h = .ssr c k ∧ i' = Instr.ofSsrTest o c ∧ cfg.testKindOfOffset.lookup o = some k

/-- Settles O52: what a handler read is written item by item as it was read, so the payload holds the same bits behind a type of
that handler. -/
theorem encodeOneReversesAMessage : Obligations.EncodeOneReversesAMessage := by
  intro s i t m h hc hacc hexec hm ⟨x, hx⟩ hcases n hn u huc hcfg
  let s0 : State := { s with window := false }
  obtain ⟨hcopied, htype, hne, hrow⟩ : Copied s0 s.cur.off (messageItems u m) t.cur.off ∧ typeFor u.cfg m = leastType u.cfg h ∧
      (∀ t' b, m ≠ .rawUnhandled t' b) ∧
      ∀ ty : BitVec 12, s.cfg.typeTable.lookup ty.toNat = some h → SameRow s.cfg i h (decodeType s.cfg ty) := by
    obtain ⟨c, lay, rfl, rfl, hl, hnd, hsigned, hweek⟩ | ⟨k, items, rfl, rfl, hl, hnd, hsigned⟩ |
      ⟨c, k, lay, rfl, rfl, hcode, hphase, hl, hheader, hrecord, hclock, hsvid, hquality⟩ := hcases
    · obtain ⟨y, hread, rfl⟩ := read_of_message (r := fun s => readEph s c) (by rw [wireClass_ofEph]; rfl) hc hexec hm
      rw [← fieldsAt_window] at hweek
      obtain ⟨r, hmsg, rfl, hcopied⟩ := copied_ephemeris (s := s0) (off := s.cur.off) hacc hcfg hl hnd hsigned hweek hread
      rw [hmsg]
      exact ⟨hcopied, rfl, by simp, fun ty hlookup => .inl (decodeType_handler hlookup (by simp))⟩
    · obtain ⟨y, hread, rfl⟩ := read_of_message (r := fun s => readStation s k) (by rw [wireClass_ofSta]; rfl) hc hexec hm
      obtain ⟨fs, hmsg, hcopied⟩ := copied_station (s := s0) hacc hcfg hl hnd hsigned hread
      rw [hmsg]
      exact ⟨hcopied, rfl, by simp, fun ty hlookup => .inl (decodeType_handler hlookup (by simp))⟩
    · obtain ⟨y, hread, rfl⟩ := read_of_message (r := fun s => readSsr s c k) (by rw [wireClass_ofSsr]; rfl) hc hexec hm
      have hok := ssrLayout_descs_ok ((layoutChecks_of_accepted hacc).ssr _ (mem_of_lookup_pair hl))
      obtain ⟨w, hmsg, hwire, hcopied⟩ := copied_ssr (s := s0) hacc hcfg hcode hphase hl
        ⟨hok, hheader, hrecord, hclock, hsvid, hquality⟩ hread
      rw [hmsg]
      refine ⟨hcopied, congrArg (leastType u.cfg) hwire, by simp, fun ty hlookup => ?_⟩
      obtain heq | ⟨o, heq, ho⟩ := decodeType_ssr_or_test hacc hlookup
      · exact .inl heq
      · exact .inr ⟨c, k, o, rfl, heq, ho⟩
  obtain ⟨t', payload, ty, hrun, hret, hlen, hlookup, hdecode, hbits⟩ :=
    exec_encodeOne_of_copied (s := s0) hacc huc hcfg hne htype hx hcopied hn
  exact ⟨t', payload, _, hrun, hret, hlen, hdecode, hrow ty hlookup, hbits⟩

end Sys2Proof.Machine

/-! SUPPORT and the statements of 45_ephemeris.md: the events of an ephemeris against its handler (O39), and the week nearest to a
reference time (O31). -/

namespace Sys2Proof.Machine

/-! ## Events of a reading (R123, R356) -/

section
variable {s : State} {off : Nat}

@[simp] theorem eventBits_fieldEvents (ds : List FieldDesc) : eventBits (fieldEvents ds) = widthOf ds := by
  simp [eventBits, fieldEvents, widthOf, Function.comp_def]

/-- Fields of which none is the first stop are all read at their places (R104, R123). -/
theorem readFields_of_firstStop_none {ds : List FieldDesc} (hds : ∀ d ∈ ds, widthOk d.width = true)
    (h : firstStop s.cur.bitlen off (fieldEvents ds) = none) :
    readFields s ds off = .ok (fieldsAt s off ds) (off + widthOf ds) := by
  induction ds generalizing off with
  | nil => rfl
  | cons d ds ih =>
    rw [fieldEvents, List.map_cons, firstStop_read] at h
    split at h
    · cases h
    · next hfit =>
      have hhead : readRawField s d off = _ := readRawField_ok (hds d (by simp)) (by omega)
      have htail : Rd.forEach (readRawField s) ds (off + d.width) = _ := ih (fun d' hd' => hds d' (by simp [hd'])) h
      rw [readFields, Rd.forEach, Rd.bind_ok hhead, Rd.bind_ok htail, Nat.add_assoc]
      rfl

section
variable {α : Type} {len : Nat} {es : List Event}

/-- An entry that is missing is the first stop, at the bit the reading has come to (R8, R356). -/
theorem firstStop_mustHave_none {o : Option α} (h : o = none) :
    firstStop len off (mustHave o :: es) = some (.usage none, off) := by rw [h]; rfl

theorem firstStop_mustHave_some {o : Option α} {a : α} (h : o = some a) :
    firstStop len off (mustHave o :: es) = firstStop len off es := by rw [h]; rfl

/-- A conversion that raises is the first stop, at the bit the reading has come to (R356). -/
theorem firstStop_mustBe_error {r : Except Cond α} {c : Cond} (h : r = .error c) :
    firstStop len off (mustBe r :: es) = some (c, off) := by rw [h]; rfl

theorem firstStop_mustBe_ok {r : Except Cond α} {a : α} (h : r = .ok a) :
    firstStop len off (mustBe r :: es) = firstStop len off es := by rw [h]; rfl

end

theorem Rd.lift_error_bind {α β : Type} {r : Except Cond α} {c : Cond} (h : r = .error c) (k : α → Rd β) (off : Nat) :
    (Rd.lift r).bind k off = .stop c off := by rw [h]; rfl

theorem Rd.lift_error_map {α β : Type} {r : Except Cond α} {c : Cond} (h : r = .error c) (f : α → β) (off : Nat) :
    (Rd.lift r).map f off = .stop c off := Rd.lift_error_bind h _ off

end

/-! ## The week of an ephemeris as it is read (R31, R220, R223) -/

/-- The needs of the week of an ephemeris: what `ephEvents` lists after the satellite. -/
def weekEvents (s : State) (c : Constellation) (fs : List RawField) : List Event :=
  match rawOf .weekRaw fs with
  | none => []
  | some raw => [mustHave s.refTime, mustBe (adjustWeekOf s.cfg c raw (s.refTime.getD 0))]

/-- The week O39 says an ephemeris answers: none without a week field, else the raw week adjusted to the reference time. -/
def WeekAnswered (s : State) (c : Constellation) (fs : List RawField) (week : Option Int) : Prop :=
  match rawOf .weekRaw fs with
  | none => week = none
  | some raw => ∃ ref w, s.refTime = some ref ∧ adjustWeekOf s.cfg c raw ref = .ok w ∧ week = some w

section
variable {s : State} {c : Constellation} {fs : List RawField} {off : Nat}

theorem readWeek_ok {week : Option Int} (h : WeekAnswered s c fs week) : readWeek s c fs off = .ok week off := by
  cases hraw : rawOf .weekRaw fs with
  | none =>
    simp only [WeekAnswered, hraw] at h
    simp only [readWeek, hraw, h]
    rfl
  | some raw =>
    simp only [WeekAnswered, hraw] at h
    obtain ⟨ref, w, href, hw, rfl⟩ := h
    simp only [readWeek, hraw, needRefTime]
    rw [Rd.entry_some_bind href, hw]
    rfl

theorem readWeek_stop {len : Nat} {x : Cond × Nat} (hx : firstStop len off (weekEvents s c fs) = some x) :
    readWeek s c fs off = .stop x.1 x.2 := by
  cases hraw : rawOf .weekRaw fs with
  | none =>
    simp only [weekEvents, hraw] at hx
    cases hx
  | some raw =>
    simp only [weekEvents, hraw] at hx
    simp only [readWeek, hraw, needRefTime]
    cases href : s.refTime with
    | none =>
      rw [firstStop_mustHave_none href] at hx
      cases hx
      exact Rd.entry_none_bind rfl _ off
    | some ref =>
      rw [firstStop_mustHave_some href, href, Option.getD_some] at hx
      rw [Rd.entry_some_bind rfl]
      cases hw : adjustWeekOf s.cfg c raw ref with
      | error e =>
        rw [firstStop_mustBe_error hw] at hx
        cases hx
        exact Rd.lift_error_map rfl _ off
      | ok w =>
        rw [firstStop_mustBe_ok hw] at hx
        cases hx

end

/-! ## The ephemeris handlers (R220, R222) -/

section
variable {s : State} {c : Constellation} {lay : EphLayout}

theorem ephEvents_eq (s : State) (c : Constellation) (lay : EphLayout) :
    ephEvents s c lay = fieldEvents lay.header ++
      mustHave (rawOf .svid (fieldsAt s s.cur.off lay.header)) ::
        mustBe (satOfSvid s.cfg .eph c ((rawOf .svid (fieldsAt s s.cur.off lay.header)).getD 0)) ::
          weekEvents s c (fieldsAt s s.cur.off lay.header) :=
  List.append_assoc _ _ _

/-- The handler does not look at the configuration window. -/
theorem readEph_window (s : State) (c : Constellation) : readEph { s with window := false } c = readEph s c := rfl

/-- The fields of an ephemeris layout of an accepted configuration have legal widths (R215). -/
theorem ephLayout_widths {cfg : Cfg} (hacc : cfgAccepted cfg = true) (hl : cfg.ephLayout.get c = some lay) :
    ∀ d ∈ lay.header, widthOk d.width = true := fun d hd =>
  (FieldDesc.ok_iff.mp ((layoutChecks_of_accepted hacc).eph c lay hl d hd)).1

theorem readEph_ok (hl : s.cfg.ephLayout.get c = some lay) (hw : ∀ d ∈ lay.header, widthOk d.width = true)
    (hfit : Fits s (widthOf lay.header)) {svid : Int} {sat : SatIndex} {week : Option Int}
    (hsvid : rawOf .svid (fieldsAt s s.cur.off lay.header) = some svid) (hsat : satOfSvid s.cfg .eph c svid = .ok sat)
    (hweek : WeekAnswered s c (fieldsAt s s.cur.off lay.header) week) :
    readEph s c s.cur.off = .ok (s.plain (.ephemeris ⟨c, fieldsOf (fieldsAt s s.cur.off lay.header), sat, week⟩))
      (s.cur.off + widthOf lay.header) := by
  rw [readEph, Rd.entry_some_bind hl, Rd.bind_ok (readFields_ok hw hfit), Rd.entry_some_bind hsvid, Rd.lift_ok_bind hsat]
  exact Rd.map_ok (readWeek_ok hweek) _

/-- The handler ends in the first condition of its events: a field that does not fit, a missing SVID field, an SVID that does not
convert, or the week's (R347, R356). -/
theorem readEph_stop (hl : s.cfg.ephLayout.get c = some lay) (hw : ∀ d ∈ lay.header, widthOk d.width = true) {x : Cond × Nat}
    (hx : firstStop s.cur.bitlen s.cur.off (ephEvents s c lay) = some x) : readEph s c s.cur.off = .stop x.1 x.2 := by
  rw [ephEvents_eq, firstStop_append, eventBits_fieldEvents] at hx
  rw [readEph, Rd.entry_some_bind hl]
  cases hfields : firstStop s.cur.bitlen s.cur.off (fieldEvents lay.header) with
  | some y =>
    rw [hfields] at hx
    cases hx
    exact Rd.bind_stop (readFields_stop (fun d hd => widthOk_iff.mp (hw d hd)) hfields) _
  | none =>
    rw [hfields, Option.none_or] at hx
    rw [Rd.bind_ok (readFields_of_firstStop_none hw hfields)]
    cases hsvid : rawOf .svid (fieldsAt s s.cur.off lay.header) with
    | none =>
      rw [firstStop_mustHave_none hsvid] at hx
      cases hx
      exact Rd.entry_none_bind rfl _ _
    | some svid =>
      rw [firstStop_mustHave_some hsvid, hsvid, Option.getD_some] at hx
      rw [Rd.entry_some_bind rfl]
      cases hsat : satOfSvid s.cfg .eph c svid with
      | error e =>
        rw [firstStop_mustBe_error hsat] at hx
        cases hx
        exact Rd.lift_error_bind rfl _ _
      | ok sat =>
        rw [firstStop_mustBe_ok hsat] at hx
        rw [Rd.lift_ok_bind rfl]
        exact Rd.map_stop (readWeek_stop hx) _

end

/-- Settles O39: the handler reads its fields, the satellite and the week in that order, and ends where one of them ends. -/
theorem ephemerisReadsItsBitPositions : Obligations.EphemerisReadsItsBitPositions := by
  unfold Obligations.EphemerisReadsItsBitPositions
  intro s c lay hc hacc hl
  have hw := ephLayout_widths hacc hl
  refine ⟨fun svid sat week hfit hsvid hsat hweek => ?_, fun x hx => ?_⟩
  · exact exec_message_plain (messageReader_ofEph c) hc
      ((congrFun (readEph_window s c) _).trans (readEph_ok hl hw hfit hsvid hsat hweek))
  · exact exec_message_stopsAt (messageReader_ofEph c) hc ((congrFun (readEph_window s c) _).trans (readEph_stop hl hw hx))

/-! ## The starts of the weeks (R36, R223) -/

theorem distance_zero_right (a : Rat) : distance a 0 = |a| := by
  rw [distance]
  split
  · next h => rw [abs_of_nonpos h, zero_sub]
  · next h => rw [abs_of_pos (not_le.mp h), sub_zero]

theorem weekDistance_eq_abs (cfg : Cfg) (c : Constellation) (w : Int) (ref : Time) :
    weekDistance cfg c w ref = |diffSeconds cfg (weekStart cfg c w) ref| := distance_zero_right _

/-- How many points of the host's functions the configuration lists for the starts of weeks. -/
def weekRowCount (cfg : Cfg) : Nat := cfg.weekRows.length + cfg.addRows.length + cfg.diffRows.length

/-- How far the evenly spaced start of week `w` is from `ref`, the sign kept: the difference of a week no listed point is about. -/
def evenGap (cfg : Cfg) (c : Constellation) (ref : Time) (w : Int) : Rat :=
  cfg.weekZero.get c + cfg.weekLength.get c * w - ref

section
variable {cfg : Cfg} {c : Constellation} {ref : Time} {w w' : Int}

theorem mem_listedWeeks_of_weekRow {t : Time} (h : ((c, w), t) ∈ cfg.weekRows) : w ∈ listedWeeks cfg c ref :=
  List.mem_append_left _ (List.mem_append_left _ (List.mem_map.mpr ⟨_, List.mem_filter.mpr ⟨h, decide_eq_true rfl⟩, rfl⟩))

theorem mem_listedWeeks_of_addRow {x : Rat} {t : Time} (h : ((cfg.weekZero.get c, x), t) ∈ cfg.addRows)
    (hx : (x / cfg.weekLength.get c).floor = w) : w ∈ listedWeeks cfg c ref :=
  List.mem_append_left _ (List.mem_append_right _ (List.mem_map.mpr ⟨_, List.mem_filter.mpr ⟨h, decide_eq_true rfl⟩, hx⟩))

theorem mem_listedWeeks_of_diffRow {t : Time} {x : Rat} (h : ((t, ref), x) ∈ cfg.diffRows)
    (ht : Rat.floor ((t - cfg.weekZero.get c) / cfg.weekLength.get c) = w) : w ∈ listedWeeks cfg c ref :=
  List.mem_append_right _ (List.mem_map.mpr ⟨_, List.mem_filter.mpr ⟨h, decide_eq_true rfl⟩, ht⟩)

theorem length_listedWeeks_le (cfg : Cfg) (c : Constellation) (ref : Time) :
    (listedWeeks cfg c ref).length ≤ weekRowCount cfg := by
  simp only [listedWeeks, weekRowCount, List.length_append, List.length_map]
  exact Nat.add_le_add (Nat.add_le_add (List.length_filter_le ..) (List.length_filter_le ..)) (List.length_filter_le ..)

/-- The host's rows do not move the start of an unlisted week. -/
theorem weekStart_of_unlisted (hw : w ∉ listedWeeks cfg c ref) :
    weekStart cfg c w = addSeconds cfg (cfg.weekZero.get c) (cfg.weekLength.get c * w) := by
  cases h : cfg.weekRows.lookup (c, w) with
  | none => rw [weekStart, h, Option.getD_none]
  | some t => exact absurd (mem_listedWeeks_of_weekRow (mem_of_lookup_pair h)) hw

theorem floor_mul_div_cancel {l : Rat} (hl : l ≠ 0) (w : Int) : (l * w / l).floor = w := by
  rw [mul_div_cancel_left₀ _ hl]
  exact Rat.floor_intCast w

/-- Where weeks have a length, an unlisted week starts at its evenly spaced point, and its difference to `ref` is that of the
names. -/
theorem weekDistance_of_unlisted (hl : cfg.weekLength.get c ≠ 0) (hw : w ∉ listedWeeks cfg c ref) :
    weekDistance cfg c w ref = |evenGap cfg c ref w| := by
  have hadd : cfg.addRows.lookup (cfg.weekZero.get c, cfg.weekLength.get c * w) = none :=
    Option.eq_none_iff_forall_ne_some.mpr fun t h =>
      hw (mem_listedWeeks_of_addRow (mem_of_lookup_pair h) (floor_mul_div_cancel hl w))
  have hdiff : cfg.diffRows.lookup (cfg.weekZero.get c + cfg.weekLength.get c * w, ref) = none :=
    Option.eq_none_iff_forall_ne_some.mpr fun x h =>
      hw (mem_listedWeeks_of_diffRow (mem_of_lookup_pair h) (by rw [add_sub_cancel_left, floor_mul_div_cancel hl]))
  rw [weekDistance_eq_abs, weekStart_of_unlisted hw, addSeconds, hadd, Option.getD_none, diffSeconds, hdiff, Option.getD_none,
    evenGap]

/-- Two unlisted weeks compare as their evenly spaced starts do; where a week has no length, they start together. -/
theorem weekDistance_le_of_unlisted (hw : w ∉ listedWeeks cfg c ref) (hw' : w' ∉ listedWeeks cfg c ref)
    (h : |evenGap cfg c ref w| ≤ |evenGap cfg c ref w'|) : weekDistance cfg c w ref ≤ weekDistance cfg c w' ref := by
  by_cases hl : cfg.weekLength.get c = 0
  · have hstart : weekStart cfg c w = weekStart cfg c w' := by
      rw [weekStart_of_unlisted hw, weekStart_of_unlisted hw', hl, zero_mul, zero_mul]
    rw [weekDistance, weekDistance, hstart]
  · rwa [weekDistance_of_unlisted hl hw, weekDistance_of_unlisted hl hw']

end

/-! ## The congruent weeks (R223) -/

/-- Where `ref` stands among the evenly spaced weeks congruent to `raw`: between this one and the next, counted from `raw` in steps
of `m`. -/
def refStep (cfg : Cfg) (c : Constellation) (m : Nat) (raw : Int) (ref : Time) : Int :=
  ((ref - (cfg.weekZero.get c + cfg.weekLength.get c * raw)) / (cfg.weekLength.get c * m)).floor

section
variable {cfg : Cfg} {c : Constellation} {m : Nat} {raw : Int} {ref : Time}

theorem mem_weekCandidates_of_step {j : Int} (hlo : refStep cfg c m raw ref - weekRowCount cfg ≤ j)
    (hhi : j ≤ refStep cfg c m raw ref + weekRowCount cfg + 1) : raw + j * m ∈ weekCandidates cfg c m raw ref := by
  obtain ⟨i, rfl⟩ : ∃ i : Nat, j = refStep cfg c m raw ref - weekRowCount cfg + i :=
    ⟨(j - (refStep cfg c m raw ref - weekRowCount cfg)).toNat, by omega⟩
  have hi : i < 2 * weekRowCount cfg + 2 := by omega
  refine List.mem_dedup.mpr (List.mem_append_left _ (List.mem_map.mpr ⟨i, ?_, rfl⟩))
  simpa [weekRowCount] using hi

theorem mem_weekCandidates_of_listed {w : Int} (hw : w ∈ listedWeeks cfg c ref) (hm : (m : Int) ∣ w - raw) :
    w ∈ weekCandidates cfg c m raw ref :=
  List.mem_dedup.mpr (List.mem_append_right _ (List.mem_filter.mpr ⟨hw, decide_eq_true (Int.emod_eq_zero_of_dvd hm)⟩))

/-- Evenly spaced weeks on one side of `ref` lie the nearer, the fewer steps they are from it. -/
theorem evenGap_le_of_between (hm : 0 < m) {j j' : Int}
    (h : refStep cfg c m raw ref < j ∧ j ≤ j' ∨ j' ≤ j ∧ j ≤ refStep cfg c m raw ref) :
    |evenGap cfg c ref (raw + j * m)| ≤ |evenGap cfg c ref (raw + j' * m)| := by
  by_cases hl : cfg.weekLength.get c = 0
  · simp only [evenGap, hl, zero_mul, le_refl]
  obtain ⟨x, hx⟩ : ∃ x, (ref - (cfg.weekZero.get c + cfg.weekLength.get c * raw)) / (cfg.weekLength.get c * m) = x := ⟨_, rfl⟩
  have hstep : refStep cfg c m raw ref = ⌊x⌋ := by rw [← hx]; rfl
  have hlm : cfg.weekLength.get c * (m : Rat) ≠ 0 := mul_ne_zero hl (by exact_mod_cast hm.ne')
  have hgap (i : Int) : |evenGap cfg c ref (raw + i * m)| = |cfg.weekLength.get c * m| * |i - x| := by
    have := (div_eq_iff hlm).mp hx
    rw [← abs_mul]
    congr 1
    push_cast [evenGap]
    linear_combination -this
  rw [hgap, hgap]
  refine mul_le_mul_of_nonneg_left ?_ (abs_nonneg _)
  obtain ⟨hj, hjj'⟩ | ⟨hjj', hj⟩ := h
  · have hxj : x < j := Int.floor_lt.mp (hstep ▸ hj)
    have hjj' : (j : Rat) ≤ j' := by exact_mod_cast hjj'
    rw [abs_of_pos (by linarith), abs_of_pos (by linarith)]
    linarith
  · have hjx : (j : Rat) ≤ x := Int.le_floor.mp (hstep ▸ hj)
    have hjj' : (j' : Rat) ≤ j := by exact_mod_cast hjj'
    rw [abs_of_nonpos (by linarith), abs_of_nonpos (by linarith)]
    linarith

variable (cfg c raw ref) in
/-- Of one more congruent week than the configuration has rows, one is not listed. -/
theorem exists_unlisted (hm : 0 < m) (a : Int) :
    ∃ j, a ≤ j ∧ j ≤ a + weekRowCount cfg ∧ raw + j * m ∉ listedWeeks cfg c ref := by
  by_contra hall
  push Not at hall
  have hinj : Function.Injective fun i : Nat => raw + (a + i) * (m : Int) := fun i i' h => by
    have := mul_right_cancel₀ (by exact_mod_cast hm.ne') (add_left_cancel h)
    omega
  have hsub : (List.range (weekRowCount cfg + 1)).map (fun i : Nat => raw + (a + i) * (m : Int)) ⊆ listedWeeks cfg c ref := by
    intro w hw
    obtain ⟨i, hi, rfl⟩ := List.mem_map.mp hw
    have hi := List.mem_range.mp hi
    exact hall (a + i) (by omega) (by omega)
  have hlen := ((List.nodup_range.map hinj).subperm hsub).length_le
  have := length_listedWeeks_le cfg c ref
  simp only [List.length_map, List.length_range] at hlen
  omega

/-- Some candidate is as near as any congruent week. -/
theorem exists_candidate_le (hm : 0 < m) {w' : Int} (hw' : (m : Int) ∣ w' - raw) :
    ∃ w ∈ weekCandidates cfg c m raw ref, weekDistance cfg c w ref ≤ weekDistance cfg c w' ref := by
  by_cases hcand : w' ∈ weekCandidates cfg c m raw ref
  · exact ⟨w', hcand, le_rfl⟩
  have hunlisted : w' ∉ listedWeeks cfg c ref := fun h => hcand (mem_weekCandidates_of_listed h hw')
  obtain ⟨j', rfl⟩ : ∃ j' : Int, w' = raw + j' * m := hw'.imp fun j' h => by linear_combination h
  have houtside : j' < refStep cfg c m raw ref - weekRowCount cfg ∨ refStep cfg c m raw ref + weekRowCount cfg + 1 < j' := by
    by_contra hin
    push Not at hin
    exact hcand (mem_weekCandidates_of_step hin.1 hin.2)
  obtain hbefore | hafter := houtside
  · obtain ⟨j, hlo, hhi, hfree⟩ := exists_unlisted cfg c raw ref hm (refStep cfg c m raw ref - weekRowCount cfg)
    exact ⟨_, mem_weekCandidates_of_step hlo (by omega), weekDistance_le_of_unlisted hfree hunlisted
      (evenGap_le_of_between hm (.inr ⟨by omega, by omega⟩))⟩
  · obtain ⟨j, hlo, hhi, hfree⟩ := exists_unlisted cfg c raw ref hm (refStep cfg c m raw ref + 1)
    exact ⟨_, mem_weekCandidates_of_step (by omega) (by omega), weekDistance_le_of_unlisted hfree hunlisted
      (evenGap_le_of_between hm (.inl ⟨by omega, by omega⟩))⟩

/-- The nearest week is one of the nearest candidates, whichever a tie takes. -/
theorem nearestWeek_mem (hm : 0 < m) :
    nearestWeek cfg c m raw ref ∈ (weekCandidates cfg c m raw ref).filter fun w =>
      (weekCandidates cfg c m raw ref).all fun w' => decide (weekDistance cfg c w ref ≤ weekDistance cfg c w' ref) := by
  rw [nearestWeek, if_neg hm.ne']
  dsimp only
  split
  · next hnone =>
    have hself : (m : Int) ∣ raw - raw := by simp
    obtain ⟨w₀, hw₀, -⟩ := exists_candidate_le (cfg := cfg) (c := c) (ref := ref) hm hself
    obtain ⟨w, hw, hmin⟩ := (weekCandidates cfg c m raw ref).toFinset.exists_min_image (weekDistance cfg c · ref)
      ⟨w₀, List.mem_toFinset.mpr hw₀⟩
    refine absurd hnone (List.ne_nil_of_mem (a := w) (List.mem_filter.mpr ⟨List.mem_toFinset.mp hw, ?_⟩))
    simpa using hmin
  · next w h => rw [h]; exact List.mem_singleton_self w
  · next w w' more h =>
    have hlt : Config.weekTie raw m ref % (more.length + 2) < (w :: w' :: more).length := Nat.mod_lt _ (by omega)
    rw [h, List.getElem?_eq_getElem hlt, Option.getD_some]
    exact List.getElem_mem hlt

/-- The week ADJUST_WEEK answers is as near as any congruent week. -/
theorem nearestWeek_le (hm : 0 < m) {w' : Int} (hw' : (m : Int) ∣ w' - raw) :
    weekDistance cfg c (nearestWeek cfg c m raw ref) ref ≤ weekDistance cfg c w' ref := by
  obtain ⟨w, hw, hle⟩ := exists_candidate_le (cfg := cfg) (c := c) (ref := ref) hm hw'
  have hmin := List.all_eq_true.mp (List.mem_filter.mp (nearestWeek_mem hm)).2 w hw
  exact (of_decide_eq_true hmin).trans hle

theorem adjustWeekOf_ok (hm : weekModulus cfg c = some m) : adjustWeekOf cfg c raw ref = .ok (nearestWeek cfg c m raw ref) := by
  simp only [adjustWeekOf, hm]

end

/-- Settles O31: a congruent week outside the candidates is evenly spaced, and an evenly spaced candidate on its side of the
reference time is as near. -/
theorem adjustWeekIsNearest : Obligations.AdjustWeekIsNearest := by
  unfold Obligations.AdjustWeekIsNearest
  intro s c raw ref m hc hm hpos
  refine ⟨nearestWeek s.cfg c m raw ref,
    pureUnit_answers hc (f := fun cfg => adjustWeekOf cfg c raw ref) (adjustWeekOf_ok hm) .int,
    Int.ModEq.dvd nearestWeek_emod.symm, fun w' hw' => ?_⟩
  rw [← weekDistance_eq_abs, ← weekDistance_eq_abs]
  exact nearestWeek_le hpos hw'

end Sys2Proof.Machine

/-! SUPPORT and the statements of 46_observation_msm.md: the lock-time cache (O34, O44). -/

namespace Sys2Proof.Machine

/-! ## The loss-of-lock bit and the stored counter (R251, R252) -/

/-- What LK holds after one counter is stored (R252), read with the test of equality of pairs. -/
theorem lookup_storeCounter (lk : LockCache) (key x : SatIndex × SignalCode) (n : Nat) :
    (insertKey lockLt key n lk).lookup x = if x = key then some n else lk.lookup x := by
  have htest : (instBEqProd : BEq (SatIndex × SignalCode)) = instBEqOfDecidableEq := lawful_beq_subsingleton _ _
  rw [htest]
  split
  · next h => rw [h, lookup_insertKey_same]
  · next h => rw [lookup_insertKey_ne _ _ _ _ _ h]

theorem lossOfLock_eq_true_iff {eqRaises : Bool} {prev : Option Nat} {n : Nat} :
    lossOfLock eqRaises prev n = true ↔ ∃ p, prev = some p ∧ (n < p ∨ (n = p ∧ eqRaises = true)) := by
  cases prev <;> simp [lossOfLock]

theorem lossOfLock_equal (eqRaises : Bool) (n : Nat) : lossOfLock eqRaises (some n) n = eqRaises := by
  simp [lossOfLock]

theorem lossOfLock_above {eqRaises : Bool} {p n : Nat} (h : p < n) : lossOfLock eqRaises (some p) n = false := by
  simp only [lossOfLock, Bool.or_eq_false_iff, Bool.and_eq_false_iff, decide_eq_false_iff_not]
  omega

/-- LOCK_CHECK in a configured block answers the bit and stores the counter. -/
theorem exec_lockCheck {s : State} (hc : s.configured = true) (sat : SatIndex) (g : SignalCode) (n : Nat) :
    exec (.lockCheck sat g n) s =
      .next { s.answers (.flag (lossOfLock s.cfg.lockEqRaises (s.lk.lookup (sat, g)) n)) with
        lk := insertKey lockLt (sat, g) n s.lk } := by
  change execLockCheck sat g n s = _
  rw [execLockCheck, unitOp_configured _ hc]
  rfl

/-- Settles O34: the bit is the comparison with the old entry, and the counter is inserted whatever the bit is. -/
theorem lockCheckComparesThenStores : Obligations.LockCheckComparesThenStores := by
  unfold Obligations.LockCheckComparesThenStores
  intro s sat g n hc
  refine ⟨lossOfLock s.cfg.lockEqRaises (s.lk.lookup (sat, g)) n, insertKey lockLt (sat, g) n s.lk, ?_, fun hnone => ?_,
    fun prev hprev => ⟨fun hlt => ?_, ?_, fun hgt => ?_⟩, ?_, fun key hkey => ?_⟩
  · exact exec_lockCheck hc sat g n
  · rw [hnone]
    rfl
  · exact lossOfLock_eq_true_iff.mpr ⟨prev, hprev, .inl hlt⟩
  · rintro rfl
    rw [hprev, lossOfLock_equal]
  · rw [hprev, lossOfLock_above hgt]
  · rw [lookup_storeCounter, if_pos rfl]
  · rw [lookup_storeCounter, if_neg hkey]

/-! ## A sum of satellite-level fields (R240, R247) -/

theorem numOf_eq_none_iff {x : Value} : numOf x = none ↔ x = .na := by
  cases x <;> simp [numOf]

theorem partOf_eq_na_iff {f : RawField} : partOf f = .na ↔ f.val = .na := by
  rw [← numOf_eq_none_iff, partOf]
  cases numOf f.val <;> simp

theorem Part.add_eq_na_iff {p q : Part} : p.add q = .na ↔ p = .na ∨ q = .na := by
  cases p <;> cases q <;> simp [Part.add]

/-- What one field of a satellite-level block adds to the sum of satellite `i`. -/
def satPart (i : Nat) (x : BlockData) : Part := (x.vals[i]?).elim .absent partOf

/-- One step of that sum. -/
def addSatPart (i : Nat) (acc : Part) (x : BlockData) : Part := acc.add (satPart i x)

/-- The fields of a block, as the statements pick them out. -/
def fieldsOfBlock (data : List BlockData) (b : MsmBlock) : List BlockData := data.filter fun x => decide (x.block = b)

theorem mem_fieldsOfBlock {data : List BlockData} {b : MsmBlock} {x : BlockData} :
    x ∈ fieldsOfBlock data b ↔ x ∈ data ∧ x.block = b := by
  simp [fieldsOfBlock]

theorem satSum_eq (data : List BlockData) (b : MsmBlock) (i : Nat) :
    satSum data b i = (fieldsOfBlock data b).foldl (addSatPart i) .absent := by
  simp only [fieldsOfBlock, List.foldl_filter, decide_eq_true_eq]
  rfl

theorem satPart_eq_na_iff {i : Nat} {x : BlockData} : satPart i x = .na ↔ ∃ f, x.vals[i]? = some f ∧ f.val = .na := by
  rw [satPart]
  cases x.vals[i]? <;> simp [partOf_eq_na_iff]

theorem foldl_addSatPart_eq_na_iff {i : Nat} {l : List BlockData} {p : Part} :
    l.foldl (addSatPart i) p = .na ↔ p = .na ∨ ∃ x ∈ l, satPart i x = .na := by
  induction l generalizing p with
  | nil => simp
  | cons x l ih => simp [ih, addSatPart, Part.add_eq_na_iff, or_assoc]

/-- One field that is its sentinel makes the whole sum not available (R240, R243). -/
theorem satSum_eq_na_iff {data : List BlockData} {b : MsmBlock} {i : Nat} :
    satSum data b i = .na ↔ ∃ x ∈ fieldsOfBlock data b, ∃ f, x.vals[i]? = some f ∧ f.val = .na := by
  simp only [satSum_eq, foldl_addSatPart_eq_na_iff, satPart_eq_na_iff, reduceCtorEq, false_or]

theorem available_eq_false_iff {d : MsmData} {i : Nat} :
    available d i = false ↔ ∃ x ∈ fieldsOfBlock d.satData .roughRange, ∃ f, x.vals[i]? = some f ∧ f.val = .na := by
  rw [available, decide_eq_false_iff_not, not_not, roughOf, satSum_eq_na_iff]

/-! ## Cells (R238, R249) -/

theorem cellOf_cellArray {α : Type} (d : MsmData) (f : Nat → Nat → α) {i j : Nat} (hi : i < d.sats.length)
    (hj : j < d.sigs.length) : cellOf (cellArray d f) i j = some (f i j) := by
  simp [cellOf, cellArray, hi, hj]

/-- The satellite and the signal of a cell from its place in the product (R238). -/
theorem cell_index {d : MsmData} {i j : Nat} (hj : j < d.sigs.length) :
    (i * d.sigs.length + j) / d.sigs.length = i ∧ (i * d.sigs.length + j) % d.sigs.length = j := by
  rw [Nat.add_comm, Nat.add_mul_div_right _ _ (by omega), Nat.div_eq_of_lt hj, Nat.zero_add, Nat.add_mul_mod_self_right,
    Nat.mod_eq_of_lt hj]
  exact ⟨rfl, rfl⟩

/-! ## The lock times of a message (R250 to R252) -/

/-- The statement's test for a rough range that is its sentinel is the model's `available`. -/
theorem any_roughRange_na (d : MsmData) (i : Nat) :
    d.satData.any (fun x => decide (x.block = .roughRange) && decide ((x.vals[i]?).map (·.val) = some .na)) = !available d i := by
  rw [Bool.eq_iff_iff, Bool.not_eq_true', available_eq_false_iff]
  simp [mem_fieldsOfBlock, and_assoc]

/-- The counter the rule runs for in cell `(i, j)`, with the key it is compared with and stored under (R251, R252). -/
def cellLock (d : MsmData) (i j : Nat) : Option ((SatIndex × SignalCode) × Nat) :=
  (lockOf d i j).bind fun n => (d.sats[i]?).bind fun sat => (d.sigs[j]?).map fun g => ((sat, g), n)

theorem lockAt_eq_cellLock (d : MsmData) (q : Nat) : lockAt d q = cellLock d (q / d.sigs.length) (q % d.sigs.length) := by
  simp only [lockAt, any_roughRange_na, cellLock, lockOf, cellField, cellPlace, Nat.mul_comm _ d.sigs.length, Nat.div_add_mod]
  cases (d.cells.idxOf? q).bind fun p => (blockVals d.sigData .lockTime)[p]? <;>
    cases d.sats[q / d.sigs.length]? <;> cases d.sigs[q % d.sigs.length]? <;>
    cases available d (q / d.sigs.length) <;> rfl

theorem lliOf_eq (cfg : Cfg) (lk : LockCache) (d : MsmData) (i j : Nat) :
    lliOf cfg lk d i j = (cellLock d i j).elim false fun x => lossOfLock cfg.lockEqRaises (lk.lookup x.1) x.2 := by
  rw [lliOf, cellLock]
  cases lockOf d i j <;> cases d.sats[i]? <;> cases d.sigs[j]? <;> rfl

theorem lockWrite_eq (d : MsmData) (lk : LockCache) (q : Nat) :
    lockWrite d lk q = (lockAt d q).elim lk fun x => insertKey lockLt x.1 x.2 lk := by
  rw [lockAt_eq_cellLock, lockWrite, cellLock]
  cases lockOf d (q / d.sigs.length) (q % d.sigs.length) <;> cases d.sats[q / d.sigs.length]? <;>
    cases d.sigs[q % d.sigs.length]? <;> rfl

theorem lliOf_eq_true_iff {cfg : Cfg} {lk : LockCache} {d : MsmData} {i j : Nat} (hj : j < d.sigs.length) :
    lliOf cfg lk d i j = true ↔ ∃ key n prev, lockAt d (i * d.sigs.length + j) = some (key, n) ∧ lk.lookup key = some prev ∧
      (n < prev ∨ (n = prev ∧ cfg.lockEqRaises = true)) := by
  obtain ⟨hdiv, hmod⟩ := cell_index (i := i) hj
  rw [lockAt_eq_cellLock, hdiv, hmod, lliOf_eq]
  cases cellLock d i j with
  | none => simp
  | some x => simp [lossOfLock_eq_true_iff, Prod.ext_iff]

/-- What LK holds after the counters of some cells: for each key the last of them, else what it held before (R252). -/
theorem lookup_foldl_lockWrite (d : MsmData) (cells : List Nat) (lk : LockCache) (key : SatIndex × SignalCode) :
    (cells.foldl (lockWrite d) lk).lookup key =
      ((((cells.filterMap (lockAt d)).filter fun x => decide (x.1 = key)).getLast?).map Prod.snd).or (lk.lookup key) := by
  induction cells generalizing lk with
  | nil => rfl
  | cons q cells ih =>
    rw [List.foldl_cons, ih, lockWrite_eq]
    cases hq : lockAt d q with
    | none => rw [List.filterMap_cons_none hq]; rfl
    | some x =>
      rw [List.filterMap_cons_some hq, Option.elim_some, lookup_storeCounter]
      by_cases hkey : x.1 = key
      · rw [if_pos hkey.symm, List.filter_cons_of_pos (by simpa using hkey), List.getLast?_cons]
        cases ((cells.filterMap (lockAt d)).filter fun x => decide (x.1 = key)).getLast? <;> rfl
      · rw [if_neg (Ne.symm hkey), List.filter_cons_of_neg (by simpa using hkey)]

/-- Settles O44: the bit of a cell and the write of a cell both take the counter `lockAt` gives it. -/
theorem lockTimesOfAMessage : Obligations.LockTimesOfAMessage := by
  unfold Obligations.LockTimesOfAMessage
  intro s c v lay d
  refine ⟨fun i j hi hj => ?_, lookup_foldl_lockWrite d d.cells s.lk⟩
  have hcell : cellOf (obsBlock s c v lay d).lli i j = some (lliOf s.cfg s.lk d i j) := cellOf_cellArray d _ hi hj
  rw [hcell, Option.some.injEq, lliOf_eq_true_iff hj]

end Sys2Proof.Machine

/-! SUPPORT and the statements of 46_observation_msm.md: the arrays of an observation block (O43). -/

namespace Sys2Proof.Machine

/-! ## Sums of satellite-level fields that are all available (R240, R247) -/

/-- The field of satellite `i` in a block is there and is not its sentinel. -/
def HasValue (i : Nat) (x : BlockData) : Prop := ∃ f, x.vals[i]? = some f ∧ f.val ≠ .na

/-- The sum of satellite `i`'s values, as the statements write it. -/
def satTotal (i : Nat) (l : List BlockData) : Rat := (l.filterMap fun x => (x.vals[i]?).bind fun g => numOf g.val).sum

theorem numOf_eq_some {x : Value} (h : x ≠ .na) : numOf x = some ((numOf x).getD 0) := by
  cases hx : numOf x with
  | none => exact absurd (numOf_eq_none_iff.mp hx) h
  | some q => rfl

theorem partOf_eq_num {f : RawField} (h : f.val ≠ .na) : partOf f = .num ((numOf f.val).getD 0) := by
  rw [partOf, numOf_eq_some h]
  rfl

section
variable {i : Nat} {l : List BlockData}

theorem satPart_eq_num {x : BlockData} (h : HasValue i x) : satPart i x = .num (satTotal i [x]) := by
  obtain ⟨f, hf, hval⟩ := h
  simp only [satPart, satTotal, hf, Option.elim_some, partOf_eq_num hval, List.filterMap_cons, Option.bind_some]
  rw [numOf_eq_some hval]
  simp

theorem satTotal_cons (x : BlockData) (l : List BlockData) : satTotal i (x :: l) = satTotal i [x] + satTotal i l := by
  simp only [satTotal, List.filterMap_cons, List.filterMap_nil]
  split <;> simp

theorem foldl_addSatPart_num (h : ∀ x ∈ l, HasValue i x) (r : Rat) :
    l.foldl (addSatPart i) (.num r) = .num (r + satTotal i l) := by
  induction l generalizing r with
  | nil => simp [satTotal]
  | cons x l ih =>
    rw [List.foldl_cons, addSatPart, satPart_eq_num (h x (by simp)), Part.add, ih fun y hy => h y (by simp [hy]),
      satTotal_cons x l, add_assoc]

theorem foldl_addSatPart_absent (h : ∀ x ∈ l, HasValue i x) (hl : l ≠ []) :
    l.foldl (addSatPart i) .absent = .num (satTotal i l) := by
  cases l with
  | nil => exact absurd rfl hl
  | cons x l =>
    rw [List.foldl_cons, addSatPart, satPart_eq_num (h x (by simp)), Part.add,
      foldl_addSatPart_num fun y hy => h y (by simp [hy]), satTotal_cons x l]

end

section
variable {data : List BlockData} {b : MsmBlock} {i : Nat}

theorem satSum_absent (h : fieldsOfBlock data b = []) : satSum data b i = .absent := by rw [satSum_eq, h]; rfl

theorem satSum_num (h : ∀ x ∈ fieldsOfBlock data b, HasValue i x) (hl : fieldsOfBlock data b ≠ []) :
    satSum data b i = .num (satTotal i (fieldsOfBlock data b)) := by
  rw [satSum_eq, foldl_addSatPart_absent h hl]

/-- Fields that are all available add up with a further one, and none of them adds nothing (R247). -/
theorem satSum_add_num (h : ∀ x ∈ fieldsOfBlock data b, HasValue i x) (q : Rat) :
    (satSum data b i).add (.num q) = .num (satTotal i (fieldsOfBlock data b) + q) := by
  by_cases hl : fieldsOfBlock data b = []
  · rw [satSum_absent hl, hl]
    simp [Part.add, satTotal]
  · rw [satSum_num h hl, Part.add]

end

/-! ## The field of a cell (R238, R241) -/

section
variable {d : MsmData} {b : MsmBlock} {i j q : Nat}

theorem cellField_of_not_present (h : i * d.sigs.length + j ∉ d.cells) : cellField d b i j = none := by
  rw [cellField, cellPlace, List.idxOf?_eq_none_iff.mpr h, Option.bind_none]

theorem idxOf?_of_getElem? {l : List Nat} {x : Nat} (hx : l[q]? = some x) (hnd : l.Nodup) : l.idxOf? x = some q := by
  obtain ⟨hq, rfl⟩ := List.getElem?_eq_some_iff.mp hx
  rw [List.idxOf?_eq_some_iff]
  refine ⟨hq, rfl, fun k hk heq => ?_⟩
  have := (List.Nodup.getElem_inj_iff hnd).mp heq
  omega

/-- A present cell takes the value at its place among the present cells (R238). -/
theorem cellField_of_place (hq : d.cells[q]? = some (i * d.sigs.length + j)) (hnd : d.cells.Nodup) (b : MsmBlock) :
    cellField d b i j = (blockVals d.sigData b)[q]? := by
  rw [cellField, cellPlace, idxOf?_of_getElem? hq hnd, Option.bind_some]

theorem cellField_of_no_block (h : ∀ x ∈ d.sigData, x.block ≠ b) : cellField d b i j = none := by
  have hfind : d.sigData.find? (fun x => decide (x.block = b)) = none :=
    List.find?_eq_none.mpr fun x hx => by simpa using h x hx
  rw [cellField, blockVals, hfind]
  simp

/-! ## Ranges, phases and Doppler values of a cell (R242 to R247) -/

theorem roughPlusFine_of_field_none (h : cellField d b i j = none) : roughPlusFine d b i j = none := by
  rw [roughPlusFine, h]
  cases roughOf d i <;> rfl

theorem roughPlusFine_of_field_na {f : RawField} (h : cellField d b i j = some f) (hf : f.val = .na) :
    roughPlusFine d b i j = none := by
  rw [roughPlusFine, h, Option.bind_some, numOf_eq_none_iff.mpr hf]
  cases roughOf d i <;> rfl

theorem roughPlusFine_of_no_rough (h : fieldsOfBlock d.satData .roughRange = []) : roughPlusFine d b i j = none := by
  rw [roughPlusFine, roughOf, satSum_absent h]

theorem roughPlusFine_of_not_available (h : available d i = false) : roughPlusFine d b i j = none := by
  rw [available, decide_eq_false_iff_not, not_not] at h
  rw [roughPlusFine, h]

theorem roughPlusFine_num (h : ∀ x ∈ fieldsOfBlock d.satData .roughRange, HasValue i x)
    (hl : fieldsOfBlock d.satData .roughRange ≠ []) {f : RawField} (hcell : cellField d b i j = some f) (hf : f.val ≠ .na) :
    roughPlusFine d b i j = some (satTotal i (fieldsOfBlock d.satData .roughRange) + (numOf f.val).getD 0) := by
  rw [roughPlusFine, roughOf, satSum_num h hl, hcell, Option.bind_some, numOf_eq_some hf]
  rfl

theorem available_of_hasValue (h : ∀ x ∈ fieldsOfBlock d.satData .roughRange, HasValue i x) : available d i = true := by
  rw [← Bool.not_eq_false, available_eq_false_iff]
  rintro ⟨x, hx, f, hf, hna⟩
  obtain ⟨f', hf', hval⟩ := h x hx
  rw [hf, Option.some.injEq] at hf'
  exact hval (hf' ▸ hna)

theorem dopplerOf_of_field_none (h : cellField d .doppler i j = none) : dopplerOf d i j = none := by
  rw [dopplerOf, h]

theorem dopplerOf_na {f : RawField} (h : cellField d .doppler i j = some f)
    (hna : f.val = .na ∨ ∃ x ∈ fieldsOfBlock d.satData .doppler, ∃ r, x.vals[i]? = some r ∧ r.val = .na) :
    dopplerOf d i j = none := by
  have hsum : (satSum d.satData .doppler i).add (partOf f) = .na :=
    Part.add_eq_na_iff.mpr (hna.symm.imp satSum_eq_na_iff.mpr partOf_eq_na_iff.mpr)
  simp only [dopplerOf, h, hsum]

theorem dopplerOf_num {f : RawField} (h : cellField d .doppler i j = some f) (hf : f.val ≠ .na)
    (hrate : ∀ x ∈ fieldsOfBlock d.satData .doppler, HasValue i x) :
    dopplerOf d i j = some (satTotal i (fieldsOfBlock d.satData .doppler) + (numOf f.val).getD 0) := by
  simp only [dopplerOf, h, partOf_eq_num hf, satSum_add_num hrate]

theorem channelOf_eq (c : Constellation) (lay : MsmLayout) (d : MsmData) (i : Nat) :
    channelOf c lay d i =
      if c = .glonass then
        ((blockVals d.satData .extInfo)[i]?).bind fun e => if e.val = .na then none else lay.channelOf.lookup e.raw
      else none := by
  rw [channelOf]
  cases (blockVals d.satData .extInfo)[i]? <;> rfl

theorem cyclesOf_range_none (cfg : Cfg) (c : Constellation) (g : SignalCode) (fcn : Option Int) :
    cyclesOf cfg c g fcn none = none := rfl

theorem cyclesOf_no_frequency {cfg : Cfg} {c : Constellation} {g : SignalCode} {fcn : Option Int}
    (h : cfg.freq.lookup (c, g, fcn) = none) (range : Option Rat) : cyclesOf cfg c g fcn range = none := by
  simp only [cyclesOf, h]

theorem cyclesOf_num {cfg : Cfg} {c : Constellation} {g : SignalCode} {fcn : Option Int} {fr : Rat}
    (h : cfg.freq.lookup (c, g, fcn) = some fr) (hc : cfg.c ≠ 0) (r : Rat) :
    cyclesOf cfg c g fcn (some r) = some (r * fr / cfg.c) := by
  simp only [cyclesOf, h, if_neg hc]

end

/-! ## The arrays of a block (R249) -/

theorem cellArray_shape {α : Type} (d : MsmData) (f : Nat → Nat → α) :
    (cellArray d f).map List.length = List.replicate d.sats.length d.sigs.length := by
  simp [cellArray, Function.comp_def]

theorem numAt_cellArray (d : MsmData) (f : Nat → Nat → Option Rat) {i j : Nat} (hi : i < d.sats.length)
    (hj : j < d.sigs.length) : numAt (cellArray d f) i j = f i j := by
  rw [numAt, cellOf_cellArray d f hi hj]
  rfl

theorem lliOf_of_lockOf_none {cfg : Cfg} {lk : LockCache} {d : MsmData} {i j : Nat} (h : lockOf d i j = none) :
    lliOf cfg lk d i j = false := by
  rw [lliOf_eq, cellLock, h]
  rfl

theorem obsBlock_no_epoch (s : State) (c : Constellation) (v : MsmVariant) (lay : MsmLayout) (d : MsmData)
    (h : rawOf .epoch d.hdr = none ∨ s.refTime = none) : (obsBlock s c v lay d).epoch = none := by
  rcases h with h | h
  · simp only [obsBlock, h]
  · simp only [obsBlock, h]
    cases rawOf .epoch d.hdr <;> rfl

theorem obsBlock_epoch (s : State) (c : Constellation) (v : MsmVariant) (lay : MsmLayout) (d : MsmData) {raw : Int} {ref : Time}
    (hraw : rawOf .epoch d.hdr = some raw) (href : s.refTime = some ref) :
    (obsBlock s c v lay d).epoch = some (epochOf s.cfg (.msm c v) raw ref) := by
  simp only [obsBlock, hraw, href]

section
variable (s : State) (c : Constellation) (v : MsmVariant) (lay : MsmLayout) {d : MsmData} {i j : Nat} (hi : i < d.sats.length)
  (hj : j < d.sigs.length)
include hi hj

theorem obsBlock_prange : numAt (obsBlock s c v lay d).prange i j = roughPlusFine d .fineRange i j := numAt_cellArray d _ hi hj

theorem obsBlock_phase {g : SignalCode} (hg : d.sigs[j]? = some g) :
    numAt (obsBlock s c v lay d).phase i j = cyclesOf s.cfg c g (channelOf c lay d i) (roughPlusFine d .phase i j) := by
  refine (numAt_cellArray d _ hi hj).trans ?_
  simp only [hg]

theorem obsBlock_phase_none (h : roughPlusFine d .phase i j = none) : numAt (obsBlock s c v lay d).phase i j = none := by
  rw [obsBlock_phase s c v lay hi hj (List.getElem?_eq_getElem hj), h, cyclesOf_range_none]

theorem obsBlock_cnr : numAt (obsBlock s c v lay d).cnr i j =
    if available d i then (cellField d .cnr i j).bind (fun f => numOf f.val) else none := numAt_cellArray d _ hi hj

theorem obsBlock_doppler : numAt (obsBlock s c v lay d).doppler i j = if available d i then dopplerOf d i j else none :=
  numAt_cellArray d _ hi hj

theorem obsBlock_half : cellOf (obsBlock s c v lay d).half i j =
    some (if available d i then ((cellField d .halfCycle i j).map (·.bits)).getD 0 else 0) := cellOf_cellArray d _ hi hj

theorem obsBlock_lli : cellOf (obsBlock s c v lay d).lli i j = some (lliOf s.cfg s.lk d i j) := cellOf_cellArray d _ hi hj

/-- A cell holds no value, half-cycle 0 and no loss of lock, if it is not there or its satellite is not available (R243, R249). -/
theorem obsBlock_empty (h : available d i = false ∨ ∀ b, cellField d b i j = none) :
    numAt (obsBlock s c v lay d).prange i j = none ∧ numAt (obsBlock s c v lay d).phase i j = none ∧
      numAt (obsBlock s c v lay d).cnr i j = none ∧ numAt (obsBlock s c v lay d).doppler i j = none ∧
      cellOf (obsBlock s c v lay d).half i j = some 0 ∧ cellOf (obsBlock s c v lay d).lli i j = some false := by
  have hrange (b : MsmBlock) : roughPlusFine d b i j = none :=
    h.elim roughPlusFine_of_not_available fun h => roughPlusFine_of_field_none (h b)
  have hlock : lockOf d i j = none := by
    rcases h with h | h <;> simp [lockOf, h]
  refine ⟨?_, obsBlock_phase_none s c v lay hi hj (hrange _), ?_⟩
  · rw [obsBlock_prange s c v lay hi hj, hrange]
  · rw [obsBlock_cnr s c v lay hi hj, obsBlock_doppler s c v lay hi hj, obsBlock_half s c v lay hi hj,
      obsBlock_lli s c v lay hi hj, lliOf_of_lockOf_none hlock]
    rcases h with h | h
    · simp [h]
    · simp [h, dopplerOf_of_field_none]

end

/-- Settles O43: each array of the block is one function of the cell, and each case of the statement is one rule for it. -/
theorem observationArrays : Obligations.ObservationArrays := by
  unfold Obligations.ObservationArrays
  intro s c v lay d b
  refine ⟨⟨rfl, rfl, rfl, obsBlock_no_epoch s c v lay d, fun raw ref => obsBlock_epoch s c v lay d⟩, ?_⟩
  intro i j hi hj rough rate sumOf empty
  have hprange := obsBlock_prange s c v lay hi hj
  have hphase {g : SignalCode} := obsBlock_phase s c v lay hi hj (g := g)
  have hnophase := obsBlock_phase_none s c v lay hi hj
  have hcnr := obsBlock_cnr s c v lay hi hj
  have hdoppler := obsBlock_doppler s c v lay hi hj
  have hhalf := obsBlock_half s c v lay hi hj
  have hlli := obsBlock_lli s c v lay hi hj
  refine ⟨⟨rfl, rfl, cellArray_shape d _, cellArray_shape d _, cellArray_shape d _, cellArray_shape d _, cellArray_shape d _,
      cellArray_shape d _⟩,
    fun hcell => obsBlock_empty s c v lay hi hj (.inr fun _ => cellField_of_not_present hcell),
    fun hna => obsBlock_empty s c v lay hi hj (.inl (available_eq_false_iff.mpr hna)),
    fun hrough => ⟨hprange.trans (roughPlusFine_of_no_rough hrough), hnophase (roughPlusFine_of_no_rough hrough)⟩,
    fun h => hprange.trans (roughPlusFine_of_field_none (cellField_of_no_block h)),
    fun h => hnophase (roughPlusFine_of_field_none (cellField_of_no_block h)),
    fun h => ?_, fun h => ?_, fun h => ?_, fun h => ?_, ?_⟩
  · rw [hcnr, cellField_of_no_block h, Option.bind_none, ite_self]
  · rw [hdoppler, dopplerOf_of_field_none (cellField_of_no_block h), ite_self]
  · rw [hhalf, cellField_of_no_block h, Option.map_none, Option.getD_none, ite_self]
  · rw [hlli, lliOf_of_lockOf_none (by rw [lockOf, cellField_of_no_block h, Option.map_none, ite_self])]
  · intro q f hq hnd hvals
    have hplace (b : MsmBlock) : cellField d b i j = (blockVals d.sigData b)[q]? := cellField_of_place hq hnd b
    have havail : available d i = true := available_of_hasValue hvals
    simp only [havail, if_true] at hcnr hdoppler hhalf
    refine ⟨fun hf => ⟨fun hna => ?_, fun hrough hval => ?_⟩, fun hf hna => ?_, fun hrough hf hval g hg => ?_,
      fun hf => ⟨fun hna => ?_, fun hval hrate => ?_⟩, fun hf => ?_, fun hf => ?_⟩
    · exact hprange.trans (roughPlusFine_of_field_na ((hplace _).trans hf) hna)
    · exact hprange.trans (roughPlusFine_num hvals hrough ((hplace _).trans hf) hval)
    · exact hnophase (roughPlusFine_of_field_na ((hplace _).trans hf) hna)
    · rw [hphase hg, roughPlusFine_num hvals hrough ((hplace _).trans hf) hval, channelOf_eq]
      exact ⟨fun hfreq => cyclesOf_no_frequency hfreq _, fun fr hfreq hc => cyclesOf_num hfreq hc _⟩
    · exact hdoppler.trans (dopplerOf_na ((hplace _).trans hf) hna)
    · exact hdoppler.trans (dopplerOf_num ((hplace _).trans hf) hval hrate)
    · rw [hcnr, hplace, hf, Option.bind_some]
    · rw [hhalf, hplace, hf, Option.map_some, Option.getD_some]

end Sys2Proof.Machine

/-! SUPPORT and the statements of 46_observation_msm.md: an observation handler against its events (O42). -/

namespace Sys2Proof.Machine

/-! ## A reading that does what some events say (R123, R347, R356) -/

/-- From bit `off` on, `m` ends in the first condition of the events; where there is none, it ends behind their bits, with a value
that has `P`. -/
structure Follows {α : Type} (s : State) (off : Nat) (es : List Event) (P : α → Prop) (m : Rd α) : Prop where
  stop : ∀ x, firstStop s.cur.bitlen off es = some x → m off = .stop x.1 x.2
  ok : firstStop s.cur.bitlen off es = none → ∃ a, P a ∧ m off = .ok a (off + eventBits es)

@[simp] theorem eventBits_append (es fs : List Event) : eventBits (es ++ fs) = eventBits es + eventBits fs := by
  simp [eventBits]

@[simp] theorem eventBits_mustHave {α : Type} (o : Option α) : eventBits [mustHave o] = 0 := rfl

@[simp] theorem eventBits_reads (ws : List Nat) : eventBits (ws.map .read) = ws.sum := by
  simp [eventBits, Function.comp_def]

@[simp] theorem eventBits_conversions {α β : Type} (f : α → Except Cond β) (as : List α) :
    eventBits (as.map fun a => mustBe (f a)) = 0 := by
  simp [eventBits, mustBe, Function.comp_def]

@[simp] theorem eventBits_maskEvents (w : Nat) : eventBits (maskEvents w) = w := by
  rw [maskEvents, eventBits_reads, maskChunks_sum]

/-- Events whose needs are met and whose bits lie in the span have no condition. -/
theorem firstStop_eq_none {len off : Nat} {es : List Event} (hmet : ∀ c, .need (.error c) ∉ es)
    (hfit : off + eventBits es ≤ len) : firstStop len off es = none := by
  induction es generalizing off with
  | nil => rfl
  | cons e es ih =>
    have hmets : ∀ c, .need (.error c) ∉ es := fun c hc => hmet c (by simp [hc])
    match e with
    | .read w =>
      have hbits : eventBits (.read w :: es) = w + eventBits es := rfl
      rw [hbits] at hfit
      rw [firstStop_read, if_neg (by omega)]
      exact ih hmets (by omega)
    | .need (.error c) => exact absurd (by simp) (hmet c)
    | .need (.ok ()) => exact ih hmets (by simpa [eventBits] using hfit)

/-- Reads without a condition lie in the span; of no reads that is not known. -/
theorem reads_fit {len off : Nat} {ws : List Nat} (hne : ws ≠ []) (h : firstStop len off (ws.map .read) = none) :
    off + ws.sum ≤ len := by
  induction ws generalizing off with
  | nil => exact absurd rfl hne
  | cons w ws ih =>
    rw [List.map_cons, firstStop_read] at h
    rw [List.sum_cons]
    split at h
    · cases h
    · next hfit =>
      by_cases hws : ws = []
      · simpa [hws] using hfit
      · have := ih hws h
        omega

section
variable {α β : Type} {s : State} {off : Nat} {es fs : List Event} {P : α → Prop} {Q : β → Prop}

theorem Follows.pure {a : α} (h : P a) : Follows s off [] P (Rd.pure a) where
  stop x hx := by cases hx
  ok _ := ⟨a, h, rfl⟩

theorem Follows.bind {m : Rd α} {k : α → Rd β} {off' : Nat} (hm : Follows s off es P m) (hoff : off + eventBits es = off')
    (hk : ∀ a, P a → Follows s off' fs Q (k a)) : Follows s off (es ++ fs) Q (m.bind k) := by
  subst hoff
  cases hes : firstStop s.cur.bitlen off es with
  | some y =>
    have hall : firstStop s.cur.bitlen off (es ++ fs) = some y := by rw [firstStop_append, hes, Option.some_or]
    refine ⟨fun x hx => ?_, fun hnone => ?_⟩
    · cases hall.symm.trans hx
      exact Rd.bind_stop (hm.stop _ hes) k
    · cases hall.symm.trans hnone
  | none =>
    obtain ⟨a, ha, hread⟩ := hm.ok hes
    have hall : firstStop s.cur.bitlen off (es ++ fs) = firstStop s.cur.bitlen (off + eventBits es) fs := by
      rw [firstStop_append, hes, Option.none_or]
    have hbind : m.bind k off = k a (off + eventBits es) := Rd.bind_ok hread k
    refine ⟨fun x hx => hbind.trans ((hk a ha).stop x (hall.symm.trans hx)), fun hnone => ?_⟩
    obtain ⟨b, hb, hrest⟩ := (hk a ha).ok (hall.symm.trans hnone)
    exact ⟨b, hb, by rw [hbind, hrest, eventBits_append, Nat.add_assoc]⟩

theorem Follows.map {m : Rd α} {f : α → β} (hm : Follows s off es P m) (hf : ∀ a, P a → Q (f a)) :
    Follows s off es Q (m.map f) := by
  have h := hm.bind (fs := []) rfl fun a ha => Follows.pure (s := s) (off := off + eventBits es) (hf a ha)
  rwa [List.append_nil] at h

theorem follows_entry (o : Option α) : Follows s off [mustHave o] (fun a => o = some a) (Rd.entry o) := by
  cases o with
  | none =>
    refine ⟨fun x hx => ?_, fun h => ?_⟩
    · cases hx
      rfl
    · cases h
  | some a => exact ⟨fun x hx => (by cases hx), fun _ => ⟨a, rfl, rfl⟩⟩

theorem follows_lift (r : Except Cond α) : Follows s off [mustBe r] (fun a => r = .ok a) (Rd.lift r) := by
  cases r with
  | error c =>
    refine ⟨fun x hx => ?_, fun h => ?_⟩
    · cases hx
      rfl
    · cases h
  | ok a => exact ⟨fun x hx => (by cases hx), fun _ => ⟨a, rfl, rfl⟩⟩

theorem lift_convertAll_cons (f : α → Except Cond β) (a : α) (as : List α) :
    Rd.lift (convertAll f (a :: as)) = (Rd.lift (f a)).bind fun b => (Rd.lift (convertAll f as)).map (b :: ·) := by
  rw [convertAll]
  cases f a with
  | error c => rfl
  | ok b => cases convertAll f as <;> rfl

/-- The conversions of a list are needs, one after another. -/
theorem follows_convertAll (f : α → Except Cond β) (as : List α) :
    Follows s off (as.map fun a => mustBe (f a)) (fun bs => convertAll f as = .ok bs) (Rd.lift (convertAll f as)) := by
  induction as with
  | nil => exact Follows.pure rfl
  | cons a as ih =>
    rw [lift_convertAll_cons]
    exact (follows_lift (f a)).bind rfl fun b hb => ih.map fun bs hbs => by simp only [convertAll, hb, hbs]

theorem length_convertAll {f : α → Except Cond β} {as : List α} {bs : List β} (h : convertAll f as = .ok bs) :
    bs.length = as.length := by
  induction as generalizing bs with
  | nil => cases h; rfl
  | cons a as ih =>
    rw [convertAll] at h
    split at h
    · cases h
    · split at h
      · cases h
      · next hbs => cases h; simp [ih hbs]

end

/-! ## The parts of an observation message (R235 to R241) -/

section
variable {s : State} {off : Nat}

theorem follows_field {d : FieldDesc} (hd : widthOk d.width = true) :
    Follows s off [.read d.width] (· = fieldAt s off d) (readRawField s d) := by
  refine ⟨fun x hx => ?_, fun h => ⟨_, rfl, ?_⟩⟩
  · rw [firstStop_read] at hx
    split at hx
    · next htrunc => cases hx; exact readRawField_stop hd htrunc
    · cases hx
  · rw [firstStop_read] at h
    split at h
    · cases h
    · next hfit => exact readRawField_ok hd (Nat.le_of_not_lt hfit)

theorem follows_fields {ds : List FieldDesc} (hds : ∀ d ∈ ds, widthOk d.width = true) :
    Follows s off (fieldEvents ds) (· = fieldsAt s off ds) (readFields s ds) where
  stop x hx := readFields_stop (fun d hd => widthOk_iff.mp (hds d hd)) hx
  ok h := ⟨_, rfl, by rw [eventBits_fieldEvents, readFields_of_firstStop_none hds h]⟩

theorem maskChunks_ne_nil {w : Nat} (hw : 1 ≤ w) : maskChunks w ≠ [] := by
  intro h
  have hsum := maskChunks_sum w
  rw [h, List.sum_nil] at hsum
  omega

theorem follows_mask (f : MaskId) {m : MaskDesc} (hw : 1 ≤ m.width) :
    Follows s off (maskEvents m.width) (· = maskAt s f m off) (readMaskField s f m) where
  stop x hx := readMaskField_stop f hw hx
  ok h := by
    have hfit := reads_fit (maskChunks_ne_nil hw) h
    rw [maskChunks_sum] at hfit
    exact ⟨_, rfl, by rw [eventBits_maskEvents, readMaskField_ok f hw hfit]⟩

/-- `n` values of one field, one after another (R240, R241). -/
theorem follows_repeated {d : FieldDesc} (hd : widthOk d.width = true) (n : Nat) :
    Follows s off (List.replicate n (.read d.width)) (· = (List.range n).map fun i => fieldAt s (off + i * d.width) d)
      (Rd.times (readRawField s d) n) := by
  induction n generalizing off with
  | zero => exact Follows.pure rfl
  | succ n ih =>
    refine (follows_field hd).bind (off' := off + d.width) rfl ?_
    rintro _ rfl
    refine ih.map ?_
    rintro _ rfl
    have hstep (i : Nat) : off + d.width + i * d.width = off + (i + 1) * d.width := by rw [Nat.succ_mul]; omega
    simp [List.range_succ_eq_map, hstep, Function.comp_def]

/-- The reads of a block list: field-major, `n` values each (R240, R241). -/
def blockEvents (n : Nat) (fs : List (MsmBlock × FieldDesc)) : List Event :=
  fs.flatMap fun x => List.replicate n (.read x.2.width)

theorem eventBits_blockEvents (n : Nat) (fs : List (MsmBlock × FieldDesc)) :
    eventBits (blockEvents n fs) = n * widthOf (fs.map Prod.snd) := by
  induction fs with
  | nil => rfl
  | cons x fs ih =>
    have hhead : eventBits (blockEvents n (x :: fs)) = n * x.2.width + eventBits (blockEvents n fs) := by
      simp [blockEvents]
    rw [hhead, ih, ← Nat.mul_add]
    rfl

/-- One field of a block with its `n` values. -/
theorem follows_block (n : Nat) (x : MsmBlock × FieldDesc) (hx : widthOk x.2.width = true) :
    Follows s off (List.replicate n (.read x.2.width))
      (· = BlockData.mk x.1 ((List.range n).map fun i => fieldAt s (off + i * x.2.width) x.2))
      ((Rd.times (readRawField s x.2) n).map (BlockData.mk x.1)) :=
  (follows_repeated hx n).map fun _ h => congrArg (BlockData.mk x.1) h

theorem follows_blocks (n : Nat) {fs : List (MsmBlock × FieldDesc)} (hfs : ∀ x ∈ fs, widthOk x.2.width = true) :
    Follows s off (blockEvents n fs) (· = blocksAt s n off fs) (readBlocks s n fs) := by
  induction fs generalizing off with
  | nil => exact Follows.pure rfl
  | cons x fs ih =>
    refine (follows_block n x (hfs x (by simp))).bind (off' := off + n * x.2.width) (by rw [eventBits_replicate]) ?_
    rintro _ rfl
    refine (ih fun y hy => hfs y (by simp [hy])).map ?_
    rintro _ rfl
    rfl

end

/-! ## An observation message at the cursor (R235 to R241) -/

/-- The fields of the blocks present (R239) have the widths the configuration's checks ask for (R215). -/
theorem presentFields_widths {fs : List (MsmBlock × FieldDesc)} (hfs : ∀ x ∈ fs, x.2.ok = true) (present : List MsmBlock) :
    ∀ x ∈ presentFields present fs, widthOk x.2.width = true := fun x hx =>
  (FieldDesc.ok_iff.mp (hfs x (List.mem_of_mem_filter hx))).1

section
variable (s : State) (c : Constellation) (v : MsmVariant) (lay : MsmLayout)

/-- The satellite ids of the mask behind the header (R236). -/
def msmSvids : List Nat := maskAt s (.msm c v .sat) lay.satMask (s.cur.off + widthOf lay.header)

/-- The signal slots of the mask behind that one (R237). -/
def msmSlots : List Nat := maskAt s (.msm c v .sig) lay.sigMask (s.cur.off + widthOf lay.header + lay.satMask.width)

/-- Where the cell mask begins (R238). -/
def msmCellsOff : Nat := s.cur.off + widthOf lay.header + lay.satMask.width + lay.sigMask.width

/-- The present cells of `n`; without cells there is no cell mask (R238). -/
def msmCellsAt (n : Nat) : List Nat := if n = 0 then [] else maskAt s (.msm c v .cell) ⟨n, 0⟩ (msmCellsOff s lay)

/-- The fields of the satellite-level block (R240) and of the signal-level block (R241) from bit `off` on; neither without cells. -/
def msmBlocksAt (present : List MsmBlock) (nsat n ncell off : Nat) : List BlockData × List BlockData :=
  let sf := presentFields present lay.satFields
  (if n = 0 then [] else blocksAt s nsat off sf,
    if n = 0 then [] else blocksAt s ncell (off + nsat * widthOf (sf.map Prod.snd)) (presentFields present lay.sigFields))

/-- What a message of these satellites and signals holds. -/
def msmDataAt (present : List MsmBlock) (sats : List SatIndex) (sigs : List SignalCode) : MsmData :=
  let n := sats.length * sigs.length
  let cells := msmCellsAt s c v lay n
  let blocks := msmBlocksAt s lay present sats.length n cells.length (msmCellsOff s lay + n)
  ⟨fieldsAt s s.cur.off lay.header, sats, sigs, cells, blocks.1, blocks.2⟩

/-- The bits of a message of `nsat` satellites, `n` cells and `ncell` present cells. -/
def msmBits (present : List MsmBlock) (nsat n ncell : Nat) : Nat :=
  widthOf lay.header + lay.satMask.width + lay.sigMask.width +
    if n = 0 then 0
    else
      n + nsat * widthOf ((presentFields present lay.satFields).map Prod.snd) +
        ncell * widthOf ((presentFields present lay.sigFields).map Prod.snd)

/-- The blocks that the variant's presence row lists, where it is there (R239). -/
def presentRow : List MsmBlock := (s.cfg.msmPresent.lookup v).getD []

/-- The reads of the cell mask (R238). -/
def cellEvents (n : Nat) : List Event := if n = 0 then [] else maskEvents n

/-- The presence row, then the reads of both blocks (R239 to R241). -/
def msmBlockEvents (nsat n ncell : Nat) : List Event :=
  if n = 0 then []
  else
    [mustHave (s.cfg.msmPresent.lookup v)] ++
      (blockEvents nsat (presentFields (presentRow s v) lay.satFields) ++
        blockEvents ncell (presentFields (presentRow s v) lay.sigFields))

/-- The ids and the slots of the statement's events are coerced to integers as a list. -/
theorem map_coerced (f : Int → Event) (l : List Nat) : List.map f (l : List Int) = l.map fun a : Nat => f a := by
  induction l with
  | nil => rfl
  | cons a l ih => exact congrArg (f a :: ·) ih

/-- The events of a message, part by part. -/
theorem msmEvents_eq :
    msmEvents s c v lay =
      fieldEvents lay.header ++ (maskEvents lay.satMask.width ++ (maskEvents lay.sigMask.width ++
        ((msmSvids s c v lay).map (fun svid : Nat => mustBe (satOfSvid s.cfg .msm c svid)) ++
          ((msmSlots s c v lay).map (fun slot : Nat => mustBe (signalOf s.cfg .msmSig c slot)) ++
            (cellEvents ((msmSvids s c v lay).length * (msmSlots s c v lay).length) ++
              msmBlockEvents s v lay (msmSvids s c v lay).length ((msmSvids s c v lay).length * (msmSlots s c v lay).length)
                (msmCellsAt s c v lay ((msmSvids s c v lay).length * (msmSlots s c v lay).length)).length))))) := by
  by_cases hn : (msmSvids s c v lay).length * (msmSlots s c v lay).length = 0
  · have hcount := hn
    rw [msmSvids, msmSlots] at hcount
    simp only [msmEvents, hcount, cellEvents, msmBlockEvents, hn, if_true, List.append_assoc, map_coerced]
    rfl
  · have hcount := hn
    rw [msmSvids, msmSlots] at hcount
    simp only [msmEvents, hcount, cellEvents, msmBlockEvents, msmCellsAt, hn, if_false, List.append_assoc, map_coerced]
    rfl

theorem eventBits_cellEvents (n : Nat) : eventBits (cellEvents n) = n := by
  rw [cellEvents]
  split
  · next hn => exact hn.symm
  · exact eventBits_maskEvents n

theorem eventBits_msmBlockEvents (nsat n ncell : Nat) :
    eventBits (msmBlockEvents s v lay nsat n ncell) =
      if n = 0 then 0
      else
        nsat * widthOf ((presentFields (presentRow s v) lay.satFields).map Prod.snd) +
          ncell * widthOf ((presentFields (presentRow s v) lay.sigFields).map Prod.snd) := by
  rw [msmBlockEvents]
  split
  · rfl
  · rw [eventBits_append, eventBits_append, eventBits_mustHave, eventBits_blockEvents, eventBits_blockEvents, Nat.zero_add]

theorem eventBits_msmEvents :
    eventBits (msmEvents s c v lay) =
      msmBits lay (presentRow s v) (msmSvids s c v lay).length ((msmSvids s c v lay).length * (msmSlots s c v lay).length)
        (msmCellsAt s c v lay ((msmSvids s c v lay).length * (msmSlots s c v lay).length)).length := by
  rw [msmEvents_eq]
  simp only [eventBits_append, eventBits_fieldEvents, eventBits_maskEvents, eventBits_conversions, eventBits_cellEvents,
    eventBits_msmBlockEvents, msmBits]
  split <;> omega

end

section
variable {s : State} {c : Constellation} {v : MsmVariant} {lay : MsmLayout}

theorem follows_cells (n : Nat) :
    Follows s (msmCellsOff s lay) (cellEvents n) (· = msmCellsAt s c v lay n) (readCells s c v n) := by
  rw [cellEvents, readCells, msmCellsAt]
  split
  · exact Follows.pure rfl
  · next hn => exact follows_mask _ (m := ⟨n, 0⟩) (Nat.one_le_iff_ne_zero.mpr hn)

theorem follows_msmBlocks (hok : msmLayoutOk lay = true) (nsat n ncell : Nat) {off : Nat} :
    Follows s off (msmBlockEvents s v lay nsat n ncell) (· = msmBlocksAt s lay (presentRow s v) nsat n ncell off)
      (readMsmBlocks s v lay nsat n ncell) := by
  simp only [msmLayoutOk, Bool.and_eq_true, List.all_eq_true] at hok
  obtain ⟨⟨_, hsat⟩, hsig⟩ := hok
  rw [msmBlockEvents, readMsmBlocks]
  split
  · next hn => exact Follows.pure (by simp [msmBlocksAt, hn])
  · next hn =>
    refine (follows_entry _).bind (off' := off) rfl fun present hp => ?_
    have hrow : presentRow s v = present := by rw [presentRow, hp, Option.getD_some]
    rw [hrow]
    refine (follows_blocks nsat (presentFields_widths hsat present)).bind (by rw [eventBits_blockEvents]) ?_
    rintro _ rfl
    refine (follows_blocks ncell (presentFields_widths hsig present)).map ?_
    rintro _ rfl
    simp [msmBlocksAt, hn]

/-- The reading of a message is its events, and where it completes it answers what stands at the bit positions. -/
theorem follows_msmData (hok : msmLayoutOk lay = true) :
    Follows s s.cur.off (msmEvents s c v lay)
      (fun d => ∃ sats sigs,
        convertAll (fun svid : Nat => satOfSvid s.cfg .msm c svid) (msmSvids s c v lay) = .ok sats ∧
        convertAll (fun slot : Nat => signalOf s.cfg .msmSig c slot) (msmSlots s c v lay) = .ok sigs ∧
        d = msmDataAt s c v lay (presentRow s v) sats sigs)
      (readMsmData s c v lay) := by
  obtain ⟨hhdr, hsat, hsig⟩ := msmLayoutOk_widths hok
  rw [msmEvents_eq, readMsmData]
  refine (follows_fields hhdr).bind (by rw [eventBits_fieldEvents]) ?_
  rintro _ rfl
  refine (follows_mask _ hsat).bind (by rw [eventBits_maskEvents]) ?_
  rintro _ rfl
  refine (follows_mask _ hsig).bind (off' := msmCellsOff s lay) (by rw [eventBits_maskEvents]; rfl) ?_
  rintro _ rfl
  refine (follows_convertAll _ _).bind (by rw [eventBits_conversions, Nat.add_zero]) fun sats hsats => ?_
  refine (follows_convertAll _ _).bind (by rw [eventBits_conversions, Nat.add_zero]) fun sigs hsigs => ?_
  have hnsat : sats.length = (msmSvids s c v lay).length := length_convertAll hsats
  have hnsig : sigs.length = (msmSlots s c v lay).length := length_convertAll hsigs
  rw [← hnsat, ← hnsig]
  refine (follows_cells _).bind (by rw [eventBits_cellEvents]) ?_
  rintro _ rfl
  refine (follows_msmBlocks hok _ _ _).map ?_
  rintro _ rfl
  exact ⟨sats, sigs, hsats, hsigs, rfl⟩

/-- The conversions that succeed are met needs. -/
theorem mustBe_ne_error {α : Type} {r : Except Cond α} {a : α} (h : r = .ok a) (e : Cond) : mustBe r ≠ .need (.error e) := by
  rw [h]
  simp [mustBe, Except.map]

theorem convertAll_mem {α β : Type} {f : α → Except Cond β} {as : List α} {bs : List β} (h : convertAll f as = .ok bs) {a : α}
    (ha : a ∈ as) : ∃ b, f a = .ok b := by
  induction as generalizing bs with
  | nil => cases ha
  | cons a' as ih =>
    rw [convertAll] at h
    split at h
    · cases h
    · next b hb =>
      split at h
      · cases h
      · next hbs => exact (List.mem_cons.mp ha).elim (fun heq => ⟨b, heq ▸ hb⟩) (ih hbs)

/-- Where the conversions succeed and the presence row is there, every need of the message is met. -/
theorem msmEvents_met {sats : List SatIndex} {sigs : List SignalCode} {present : List MsmBlock}
    (hsats : convertAll (fun svid : Nat => satOfSvid s.cfg .msm c svid) (msmSvids s c v lay) = .ok sats)
    (hsigs : convertAll (fun slot : Nat => signalOf s.cfg .msmSig c slot) (msmSlots s c v lay) = .ok sigs)
    (hp : sats.length * sigs.length = 0 ∨ s.cfg.msmPresent.lookup v = some present) (e : Cond) :
    .need (.error e) ∉ msmEvents s c v lay := by
  rw [length_convertAll hsats, length_convertAll hsigs] at hp
  have hreads (ws : List Nat) : Event.need (.error e) ∉ ws.map Event.read := by simp
  have hblocks (n : Nat) (fs : List (MsmBlock × FieldDesc)) : Event.need (.error e) ∉ blockEvents n fs := by
    simp [blockEvents]
  rw [msmEvents_eq]
  simp only [List.mem_append, not_or]
  refine ⟨by simp [fieldEvents], hreads _, hreads _, fun h => ?_, fun h => ?_, ?_, ?_⟩
  · obtain ⟨svid, hmem, heq⟩ := List.mem_map.mp h
    obtain ⟨sat, hsat⟩ := convertAll_mem hsats hmem
    exact mustBe_ne_error hsat e heq
  · obtain ⟨slot, hmem, heq⟩ := List.mem_map.mp h
    obtain ⟨g, hg⟩ := convertAll_mem hsigs hmem
    exact mustBe_ne_error hg e heq
  · rw [cellEvents]
    split
    · simp
    · exact hreads _
  · rw [msmBlockEvents]
    split
    · simp
    · next hn => simp [hp.resolve_left hn, mustHave, hblocks]

/-- Only a message with cells looks at the presence row (R239). -/
theorem msmDataAt_presentRow {sats : List SatIndex} {sigs : List SignalCode} {present : List MsmBlock}
    (hp : sats.length * sigs.length = 0 ∨ s.cfg.msmPresent.lookup v = some present) :
    msmDataAt s c v lay (presentRow s v) sats sigs = msmDataAt s c v lay present sats sigs := by
  rcases hp with hn | hp
  · simp [msmDataAt, msmBlocksAt, hn]
  · rw [presentRow, hp, Option.getD_some]

theorem msmBits_presentRow {nsat n ncell : Nat} {present : List MsmBlock}
    (hp : n = 0 ∨ s.cfg.msmPresent.lookup v = some present) :
    msmBits lay (presentRow s v) nsat n ncell = msmBits lay present nsat n ncell := by
  rcases hp with hn | hp
  · simp [msmBits, hn]
  · rw [presentRow, hp, Option.getD_some]

/-- A message that converts and lies in the span is read to its end (R235 to R241). -/
theorem readMsmData_ok (hok : msmLayoutOk lay = true) {sats : List SatIndex} {sigs : List SignalCode} {present : List MsmBlock}
    (hsats : convertAll (fun svid : Nat => satOfSvid s.cfg .msm c svid) (msmSvids s c v lay) = .ok sats)
    (hsigs : convertAll (fun slot : Nat => signalOf s.cfg .msmSig c slot) (msmSlots s c v lay) = .ok sigs)
    (hp : sats.length * sigs.length = 0 ∨ s.cfg.msmPresent.lookup v = some present) {total : Nat}
    (htotal : total = msmBits lay present sats.length (sats.length * sigs.length)
      (msmCellsAt s c v lay (sats.length * sigs.length)).length) (hfit : Fits s total) :
    readMsmData s c v lay s.cur.off = .ok (msmDataAt s c v lay present sats sigs) (s.cur.off + total) := by
  have hbits : eventBits (msmEvents s c v lay) = total := by
    rw [eventBits_msmEvents, ← length_convertAll hsats, ← length_convertAll hsigs, msmBits_presentRow hp, htotal]
  have hnone := firstStop_eq_none (msmEvents_met hsats hsigs hp) (len := s.cur.bitlen) (off := s.cur.off) (by rwa [hbits])
  obtain ⟨d, ⟨sats', sigs', hsats', hsigs', rfl⟩, hread⟩ := (follows_msmData hok).ok hnone
  cases hsats.symm.trans hsats'
  cases hsigs.symm.trans hsigs'
  rw [hread, hbits, msmDataAt_presentRow hp]

end

theorem readChunks_window (s : State) (ws : List Nat) (acc : Nat) :
    readChunks { s with window := false } ws acc = readChunks s ws acc := by
  induction ws generalizing acc with
  | nil => rfl
  | cons w ws ih =>
    rw [readChunks, readChunks]
    exact congrArg (Rd.bind _) (funext fun v => ih _)

theorem readMaskField_window (s : State) (f : MaskId) (m : MaskDesc) :
    readMaskField { s with window := false } f m = readMaskField s f m := by
  rw [readMaskField, readMaskField, readMaskBits, readMaskBits, readChunks_window]

/-- The handler does not look at the configuration window. -/
theorem readMsm_window (s : State) (c : Constellation) (v : MsmVariant) :
    readMsm { s with window := false } c v = readMsm s c v := by
  simp only [readMsm, readMsmData, readCells, readMaskField_window]
  rfl

/-- A handler with its layout reads the message, then builds the block and stages the lock times (R249, R252). -/
theorem readMsm_eq {s : State} {c : Constellation} {v : MsmVariant} {lay : MsmLayout}
    (hl : s.cfg.msmLayout.lookup (c, v) = some lay) (off : Nat) :
    readMsm s c v off =
      (readMsmData s c v lay).map (fun d => ⟨.observation (obsBlock s c v lay d), lockWrites d s.lk, s.cs, s.is⟩) off := by
  rw [readMsm, Rd.entry_some_bind hl]

/-- Settles O42: the reading follows the events of a message; where none of them is a condition, it is what stands at the bit
positions. -/
theorem msmReadsItsBitPositions : Obligations.MsmReadsItsBitPositions := by
  unfold Obligations.MsmReadsItsBitPositions
  intro s c v lay hc hacc hl o1 o2 o3
  have hok := cfgAccepted_msmLayoutOk hacc hl
  have hread := (congrFun (readMsm_window s c v) s.cur.off).trans (readMsm_eq hl _)
  constructor
  · intro present sats sigs hsats hsigs n hp cells sf gf satBits bits total hfit d
    have hdata := readMsmData_ok hok (convertAll_ok hsats) (convertAll_ok (hsigs.imp fun _ _ h => signalOf_ok h)) hp
      (total := total) rfl hfit
    exact exec_message_ok (messageReader_ofMsm c v) hc (hread.trans (Rd.map_ok hdata _))
  · intro x hx
    exact exec_message_stopsAt (messageReader_ofMsm c v) hc
      (hread.trans (Rd.map_stop ((follows_msmData hok).stop x hx) _))

end Sys2Proof.Machine

/-! STATEMENTS of 70_reset_and_hazards.md and of R310: the reset state, the unconfigured block, the configuration window, and what an
operation that ends in a condition leaves of the caches. -/

namespace Sys2Proof.Machine

/-! ## The reset state (R55, R380) -/

/-- The values of R55; the state right after reset is what RESET leaves of itself, without a returned value. -/
theorem resetValues_afterReset (s : State) (r : RetVal) : ResetValues (s.afterReset.done r) where
  scan := rfl
  valid := rfl
  cur_len := rfl
  cur_off := rfl
  result := rfl
  out := rfl
  obuf := ⟨rfl, rfl⟩
  configured := rfl
  policies := ⟨rfl, rfl, rfl⟩
  refTime := rfl
  caches := ⟨rfl, rfl, rfl⟩

theorem exec_reset (s : State) : exec .reset s = .next (s.afterReset.done .done) := rfl

/-- Settles O1: the reset state field by field, and what RESET takes over from the state before. -/
theorem resetLeavesTheResetValues : Obligations.ResetLeavesTheResetValues := by
  unfold Obligations.ResetLeavesTheResetValues
  exact ⟨resetValues_afterReset State.reset .none, fun s => ⟨_, exec_reset s, resetValues_afterReset s .done, rfl, rfl, rfl⟩⟩

theorem cachesOk_nil : CachesOk [] [] [] := ⟨.nil, .nil, by simp, .nil, by simp⟩

/-- Settles O59: empty memories and caches, and neither a frame nor a configuration to speak of. -/
theorem invariantHoldsAtReset : Obligations.InvariantHoldsAtReset where
  stream_ok := Memory.write_nil_ok []
  obuf_ok := Memory.write_nil_ok []
  scan_le := le_rfl
  cur_le := le_rfl
  frame_ok hvalid := by cases hvalid
  frame_window hvalid := by cases hvalid
  config_ok hconf := by cases hconf
  caches_ok := cachesOk_nil

/-! ## How an operation of a unit leaves the window and the caches (R310, R355, R388) -/

/-- `t` has the configuration window and the caches of `s`. -/
structure Untouched (s t : State) : Prop where
  window : t.window = s.window
  lk : t.lk = s.lk
  cs : t.cs = s.cs
  is : t.is = s.is

/-- An operation begun in `s` ends in `t` with the window of `s`, and if it ends in a condition, with the caches of `s`. -/
structure EndsFrom (s t : State) : Prop where
  window : t.window = s.window
  caches : t.result.code ≠ .ok → t.lk = s.lk ∧ t.cs = s.cs ∧ t.is = s.is

/-- The next state of an outcome, if it has one, is such an end. -/
def OutFrom (s : State) (o : Out) : Prop := ∀ t, o = .next t → EndsFrom s t

section
variable {s t u : State}

theorem Untouched.trans (h : Untouched s t) (h' : Untouched t u) : Untouched s u :=
  ⟨h'.window.trans h.window, h'.lk.trans h.lk, h'.cs.trans h.cs, h'.is.trans h.is⟩

/-- An operation that completes may have written the caches. -/
theorem EndsFrom.completed (hwindow : t.window = s.window) (hok : t.result.code = .ok) : EndsFrom s t :=
  ⟨hwindow, fun hcode => absurd hok hcode⟩

/-- An operation that ends where nothing but other registers has changed. -/
theorem Untouched.ends (h : Untouched s t) (hsame : Untouched t u) : EndsFrom s u :=
  ⟨(h.trans hsame).window, fun _ => ⟨(h.trans hsame).lk, (h.trans hsame).cs, (h.trans hsame).is⟩⟩

theorem Untouched.raise (h : Untouched s t) {c : Cond} : EndsFrom s (t.raise c) := h.ends ⟨rfl, rfl, rfl, rfl⟩

theorem Untouched.done (h : Untouched s t) {r : RetVal} : EndsFrom s (t.done r) := h.ends ⟨rfl, rfl, rfl, rfl⟩

theorem EndsFrom.outFrom (h : EndsFrom s t) : OutFrom s (.next t) := by
  rintro _ ⟨⟩
  exact h

theorem unitOp_outFrom (h : Untouched s { t with window := false }) {body : State → Out}
    (hbody : ∀ t', Untouched s t' → OutFrom s (body t')) : OutFrom s (unitOp t body) := by
  intro u hu
  obtain ⟨u', rfl, ⟨-, rfl⟩ | ⟨-, hu'⟩⟩ := unitOp_next hu
  · exact ⟨h.window, fun _ => ⟨h.lk, h.cs, h.is⟩⟩
  · obtain ⟨hwindow, hcaches⟩ := hbody _ h u' hu'
    exact ⟨hwindow, hcaches⟩

theorem withCrc_outFrom {body : State → Out} (h : OutFrom s (body t)) : OutFrom s (withCrc t body) := by
  intro u hu
  rw [withCrc] at hu
  split at hu
  · cases hu
  · exact h u hu

theorem finishPure_outFrom {α : Type} (h : Untouched s t) (r : Except Cond α) (ret : α → RetVal) :
    OutFrom s (finishPure t r ret) := by
  cases r with
  | ok a => exact h.done.outFrom
  | error c => exact h.raise.outFrom

theorem finishRd_outFrom {α : Type} (h : Untouched s t) (m : Rd α) (ret : α → RetVal) :
    OutFrom s (finishRd t m fun a s => s.done (ret a)) := by
  intro u hu
  obtain ⟨a, off, -, rfl⟩ | ⟨c, off, -, rfl⟩ := finishRd_next hu
  all_goals exact h.ends ⟨rfl, rfl, rfl, rfl⟩

theorem writeOp_outFrom (h : Untouched s t) (w : Memory → Cursor → WrRes) : OutFrom s (writeOp t w) := by
  intro u hu
  obtain ⟨c, -, rfl⟩ | ⟨m, -, rfl⟩ | ⟨m, off, -, -, rfl⟩ := writeOp_next hu
  all_goals exact h.ends ⟨rfl, rfl, rfl, rfl⟩

/-! ### Runs of a message: the caches are written only where it completes (R310) -/

/-- A run keeps the window; one that ends in a condition keeps the caches. -/
def Run.From (s : State) : Run → Prop
  | .ok _ t => t.window = s.window
  | .cond _ t => Untouched s t

theorem runMessage_from (h : Untouched s t) {m : Rd Handled} : (runMessage t m).From s := by
  cases hr : runMessage t m with
  | ok msg u =>
    obtain ⟨r, off, -, -, rfl⟩ := runMessage_ok hr
    exact h.window
  | cond c u =>
    obtain ⟨off, -, rfl⟩ := runMessage_cond hr
    exact h.trans ⟨rfl, rfl, rfl, rfl⟩

theorem dispatchRun_from (h : Untouched s t) : (dispatchRun t).From s := by
  rw [dispatchRun]
  split
  · exact h
  · refine runMessage_from ?_
    exact h.trans ⟨rfl, rfl, rfl, rfl⟩

theorem finishRun_outFrom {r : Run} (h : r.From s) : OutFrom s (finishRun r) := by
  cases r with
  | ok m u => exact EndsFrom.outFrom (.completed h rfl)
  | cond c u => exact (Untouched.raise h).outFrom

theorem finishDecode_outFrom {r : Run} (h : r.From s) (consumed : Nat) : OutFrom s (finishDecode consumed r) := by
  cases r with
  | ok m u => exact EndsFrom.outFrom (.completed h rfl)
  | cond c u => exact (Untouched.raise h).outFrom

theorem decodeFrom_outFrom (h : Untouched s t) : OutFrom s (decodeFrom t) := by
  rw [decodeFrom]
  split
  · exact EndsFrom.outFrom (h.ends ⟨rfl, rfl, rfl, rfl⟩)
  · exact EndsFrom.outFrom (h.ends ⟨rfl, rfl, rfl, rfl⟩)
  · refine finishDecode_outFrom (dispatchRun_from ?_) _
    exact h.trans ⟨rfl, rfl, rfl, rfl⟩

/-! ### The reverse path, and the other endings of their own -/

theorem found_endsFrom (h : Untouched s t) {r : FrameRes} : EndsFrom s (t.found r) := by
  cases r <;> exact h.ends ⟨rfl, rfl, rfl, rfl⟩

theorem emitFrame_endsFrom (h : Untouched s t) {payload : List Byte} : EndsFrom s (emitFrame t payload) := by
  rw [emitFrame]
  split <;> exact h.ends ⟨rfl, rfl, rfl, rfl⟩

theorem encodeItems_endsFrom (h : Untouched s t) (msg : Message) (items : List WItem) : EndsFrom s (encodeItems t msg items) := by
  have hwritten : Untouched s (writtenState t items) := h.trans ⟨rfl, rfl, rfl, rfl⟩
  rw [encodeItems]
  split
  · exact hwritten.raise
  · exact emitFrame_endsFrom hwritten

theorem encodeMessage_endsFrom (h : Untouched s t) (msg : Message) : EndsFrom s (encodeMessage t msg) := by
  have hempty : Untouched s { t with obuf := [], olen := 0 } := h.trans ⟨rfl, rfl, rfl, rfl⟩
  unfold encodeMessage
  split
  · exact emitFrame_endsFrom hempty
  · split
    · exact hempty.raise
    · exact encodeItems_endsFrom hempty _ _

end

/-! ### Every operation of a unit -/

section
variable {s : State} {i : Instr}

theorem untouched_closed (s : State) : Untouched { s with window := false } { s with window := false } := ⟨rfl, rfl, rfl, rfl⟩

theorem execCurInit_outFrom (space : Space) (base n : Nat) : OutFrom { s with window := false } (execCurInit space base n s) := by
  refine unitOp_outFrom (untouched_closed s) fun t h => ?_
  cases space with
  | stream =>
    dsimp only
    split
    · exact h.raise.outFrom
    · exact EndsFrom.outFrom (h.ends ⟨rfl, rfl, rfl, rfl⟩)
  | obuf => exact EndsFrom.outFrom (h.ends ⟨rfl, rfl, rfl, rfl⟩)

theorem exec_message_outFrom {r : State → Rd Handled} (hi : messageReader i.wireClass = some r) :
    OutFrom { s with window := false } (exec i s) := by
  rw [exec_of_messageReader hi]
  exact unitOp_outFrom (untouched_closed s) fun t h => finishRun_outFrom (runMessage_from h)

/-- An operation other than a host operation closes the window, and keeps the caches if it ends in a condition. -/
theorem exec_unit_outFrom (hi : needsNoConfig i = false) : OutFrom { s with window := false } (exec i s) := by
  have closed := untouched_closed s
  have emptied : Untouched { s with window := false } { s with out := none, window := false } := ⟨rfl, rfl, rfl, rfl⟩
  cases hreader : messageReader i.wireClass with
  | some r => exact exec_message_outFrom hreader
  | none =>
    unfold exec
    cases i
    case frame => exact unitOp_outFrom emptied fun _ h => withCrc_outFrom (decodeFrom_outFrom (h.trans ⟨rfl, rfl, rfl, rfl⟩))
    case decodeOne => exact unitOp_outFrom emptied fun _ h => withCrc_outFrom (decodeFrom_outFrom h)
    case dispatch => exact unitOp_outFrom closed fun _ h => finishRun_outFrom (dispatchRun_from h)
    case curInit space base n => exact execCurInit_outFrom space base n
    case encodeOne msg => exact unitOp_outFrom closed fun _ h => withCrc_outFrom (encodeMessage_endsFrom h msg).outFrom
    case findFrame => exact unitOp_outFrom closed fun _ h => withCrc_outFrom (found_endsFrom h).outFrom
    case crc24 => exact unitOp_outFrom closed fun _ h => withCrc_outFrom h.done.outFrom
    case frameEmit => exact unitOp_outFrom closed fun _ h => withCrc_outFrom (emitFrame_endsFrom h).outFrom
    case lockCheck | cacheUpdate | isUpdate =>
      exact unitOp_outFrom closed fun _ h => EndsFrom.outFrom (.completed h.window rfl)
    case writeU | writeS | writeBytes => exact unitOp_outFrom closed fun _ h => writeOp_outFrom h _
    case readU | readS | readBytes | readField | readMask | readHeader =>
      exact unitOp_outFrom closed fun _ h => finishRd_outFrom h _ _
    case syncScan | decodeMask | decodeUra => exact unitOp_outFrom closed fun _ h => h.done.outFrom
    case lenRead | boundCheck | toIndex | fromIndex | svidOffset | svidToSat | satToSvid | sigOf | encodeMask | adjustWeek |
        quantize | iodCheck | lookup => exact unitOp_outFrom closed fun _ h => finishPure_outFrom h _ _
    case reset | hostConfig | hostLoad | hostSetRefTime | hostEvict | hostEvictProvider | hostRead => cases hi
    all_goals cases hreader

end

/-! ## The host operations (R214 to R216, R317, R318, R380, R388) -/

/-- A host operation other than RESET keeps the window, and keeps the caches if it ends in a condition. -/
theorem exec_host_outFrom {i : Instr} (hi : needsNoConfig i = true) (hreset : i ≠ .reset) (s : State) : OutFrom s (exec i s) := by
  have start : Untouched s s := ⟨rfl, rfl, rfl, rfl⟩
  unfold exec
  cases i
  case reset => exact absurd rfl hreset
  case hostConfig cfg =>
    simp only [execHostConfig]
    split <;> exact EndsFrom.outFrom (start.ends ⟨rfl, rfl, rfl, rfl⟩)
  case hostLoad bytes scan =>
    simp only [execHostLoad]
    split <;> exact EndsFrom.outFrom (start.ends ⟨rfl, rfl, rfl, rfl⟩)
  case hostSetRefTime | hostRead => exact EndsFrom.outFrom (start.ends ⟨rfl, rfl, rfl, rfl⟩)
  case hostEvict | hostEvictProvider => exact EndsFrom.outFrom (.completed rfl rfl)
  all_goals cases hi

/-- Settles O57: neither a unit's operation nor a host operation that raises has written a cache, and RESET does not raise. -/
theorem conditionsLeaveTheCaches : Obligations.ConditionsLeaveTheCaches := by
  unfold Obligations.ConditionsLeaveTheCaches
  intro i s t hexec hcode
  by_cases hreset : i = .reset
  · subst hreset
    cases hexec
    exact absurd rfl hcode
  · cases hi : needsNoConfig i with
    | true => exact (exec_host_outFrom hi hreset s t hexec).caches hcode
    | false => exact (exec_unit_outFrom hi t hexec).caches hcode

/-- Settles O8: a unit's operation closes the window, a host operation but RESET keeps it, and HOST_CONFIG asks for it. -/
theorem configurationWindowRule : Obligations.ConfigurationWindowRule := by
  unfold Obligations.ConfigurationWindowRule
  refine ⟨fun i s t hexec => ?_, fun cfg s hclosed => (hostConfigInstallsOrRefuses s cfg).2 (.inl hclosed),
    fun s => ⟨_, exec_reset s, rfl, rfl, rfl, rfl⟩⟩
  by_cases hreset : i = .reset
  · subst hreset
    cases hexec
    exact ⟨fun _ => .inl rfl, fun _ => rfl⟩
  · cases hi : needsNoConfig i with
    | true => simp [(exec_host_outFrom hi hreset s t hexec).window, hreset]
    | false => simp [(exec_unit_outFrom hi t hexec).window, hreset]

/-! ## The unconfigured block (R382) -/

/-- An operation of a unit, begun in a state with another value in OUT perhaps, raises UsageError with a free argument (log 10). -/
theorem unitOp_unconfigured_stops {s : State} (hc : s.configured = false) (body : State → Out) (o : Option Message) :
    unitOp { s with out := o } body =
      .next { s.stops .usageError (.arg (.int (Config.freeInfo s.free))) with out := o } := by
  rw [unitOp_unconfigured (s := { s with out := o }) body hc]
  rfl

/-- The meaning of every operation but the host's is one of a unit, which DECODE_ONE and FRAME begin without a value in OUT. -/
theorem exec_eq_unitOp {i : Instr} (hi : needsNoConfig i = false) (s : State) :
    ∃ o body, (o = s.out ∨ o = none) ∧ exec i s = unitOp { s with out := o } body := by
  cases hreader : messageReader i.wireClass with
  | some r => exact ⟨s.out, _, .inl rfl, exec_of_messageReader hreader s⟩
  | none =>
    unfold exec
    cases i
    case frame | decodeOne => exact ⟨none, _, .inr rfl, rfl⟩
    case dispatch | curInit | encodeOne | findFrame | crc24 | frameEmit | lockCheck | cacheUpdate | isUpdate | writeU | writeS |
        writeBytes | readU | readS | readBytes | readField | readMask | readHeader | syncScan | decodeMask | decodeUra | lenRead |
        boundCheck | toIndex | fromIndex | svidOffset | svidToSat | satToSvid | sigOf | encodeMask | adjustWeek | quantize |
        iodCheck | lookup => exact ⟨s.out, _, .inl rfl, rfl⟩
    case reset | hostConfig | hostLoad | hostSetRefTime | hostEvict | hostEvictProvider | hostRead => cases hi
    all_goals cases hreader

/-- Settles O7: an empty port leaves the state as it is, and a unit asks for a configuration before it does anything. -/
theorem unconfiguredRaisesUsageError : Obligations.UnconfiguredRaisesUsageError := by
  unfold Obligations.UnconfiguredRaisesUsageError
  refine ⟨fun s hport => by simp only [step, hport], fun i s hc hi => ?_⟩
  obtain ⟨o, body, ho, hexec⟩ := exec_eq_unitOp hi s
  exact ⟨_, o, ho, hexec.trans (unitOp_unconfigured_stops hc body o)⟩

end Sys2Proof.Machine

/-! SUPPORT and the statements of 47_correction_ssr.md, 48_state_cache.md and 49_integrity.md about the tables and the caches: quality
values and lookups (O32), the issue-of-data check (O35), CACHE_UPDATE (O36, O37) and IS_UPDATE (O38). -/

namespace Sys2Proof.Machine

/-! ## The age of a message (R36, R302) -/

section
variable {cfg : Cfg} {e : Entry} {t t1 t2 : Time}

theorem before_eq_true_iff : before cfg t1 t2 = true ↔ Earlier cfg t1 t2 := decide_eq_true_iff

theorem before_eq_false_iff : before cfg t1 t2 = false ↔ ¬Earlier cfg t1 t2 := decide_eq_false_iff_not

theorem ageOf_newer (h : Earlier cfg t1 t2) : ageOf cfg (some t1) t2 = .newer := by
  simp only [ageOf, before_eq_true_iff.mpr h, if_true]

theorem ageOf_older (h : Earlier cfg t2 t1) (hnot : ¬Earlier cfg t1 t2) : ageOf cfg (some t1) t2 = .older := by
  simp only [ageOf, before_eq_false_iff.mpr hnot, before_eq_true_iff.mpr h, Bool.false_eq_true, if_false, if_true]

theorem ageOf_same_iff : ageOf cfg (some t1) t2 = .same ↔ SameTime cfg t1 t2 := by
  rw [SameTime, ← before_eq_false_iff, ← before_eq_false_iff]
  cases h1 : before cfg t1 t2 <;> cases h2 : before cfg t2 t1 <;> simp [ageOf, h1, h2]

/-- An Empty entry has no epoch a message could be older than (R302). -/
theorem entryAge_empty (h : e.st = .empty) : entryAge cfg e t = .newer := if_pos h

theorem entryAge_of_epoch (hne : e.st ≠ .empty) (hepoch : e.epoch = some t1) : entryAge cfg e t = ageOf cfg (some t1) t := by
  rw [entryAge, if_neg hne, hepoch]

/-- A message joins a set exactly if the set has an epoch, and neither epoch is before the other (R302). -/
theorem entryAge_same_iff : entryAge cfg e t = .same ↔ e.st ≠ .empty ∧ ∃ t1, e.epoch = some t1 ∧ SameTime cfg t1 t := by
  by_cases hst : e.st = .empty
  · simp [entryAge_empty hst, hst]
  · cases hepoch : e.epoch with
    | none => simp [entryAge, hst, hepoch, ageOf]
    | some t1 => simp [entryAge_of_epoch hst hepoch, ageOf_same_iff, hst]

end

/-! ## The issue-of-data check (R283) -/

/-- The machine's test and the statement's are the same. -/
theorem iodDiffers_eq_true_iff {s : State} {n : NetworkId} {t : Time} {iod : Option HdrCode} {k : CacheKind} :
    iodDiffers s.cfg s.cs n t iod k = true ↔ Inconsistent s n t iod k := by
  cases hm : s.cs.lookup n with
  | none => simp [iodDiffers, Inconsistent, hm]
  | some m =>
    simp only [iodDiffers, hm, Bool.and_eq_true, decide_eq_true_eq, entryAge_same_iff, Inconsistent, Option.some.injEq]
    constructor
    · rintro ⟨⟨hst, e, hepoch, hsame⟩, hiod⟩
      exact ⟨m, e, rfl, hst, hepoch, hsame, hiod⟩
    · rintro ⟨_, e, rfl, hst, hepoch, hsame, hiod⟩
      exact ⟨⟨hst, e, hepoch, hsame⟩, hiod⟩

section
variable {s : State} {n : NetworkId} {kinds pre post : List CacheKind} {k : CacheKind} {t : Time} {iod : Option HdrCode}

theorem iodCheckOf_consistent (h : ∀ k ∈ kinds, ¬Inconsistent s n t iod k) :
    iodCheckOf s.cfg s.cs n kinds t iod = .ok false := by
  have hfind : kinds.find? (iodDiffers s.cfg s.cs n t iod) = none :=
    List.find?_eq_none.mpr fun k hk => iodDiffers_eq_true_iff.not.mpr (h k hk)
  simp only [iodCheckOf, hfind]

theorem iodCheckOf_lenient (h : ∃ k ∈ kinds, Inconsistent s n t iod k) (hpolicy : s.cfg.iodPolicy = .lenient) :
    iodCheckOf s.cfg s.cs n kinds t iod = .ok true := by
  obtain ⟨k, hk, hinc⟩ := h
  have hsome : (kinds.find? (iodDiffers s.cfg s.cs n t iod)).isSome = true :=
    List.find?_isSome.mpr ⟨k, hk, iodDiffers_eq_true_iff.mpr hinc⟩
  obtain ⟨k', hfind⟩ := Option.isSome_iff_exists.mp hsome
  simp only [iodCheckOf, hfind, hpolicy]

theorem iodCheckOf_strict (hkinds : kinds = pre ++ k :: post) (hpre : ∀ k' ∈ pre, ¬Inconsistent s n t iod k')
    (hinc : Inconsistent s n t iod k) (hpolicy : s.cfg.iodPolicy = .strict) :
    iodCheckOf s.cfg s.cs n kinds t iod = .error (.inconsistentIod n k) := by
  have hbefore : pre.find? (iodDiffers s.cfg s.cs n t iod) = none :=
    List.find?_eq_none.mpr fun k' hk' => iodDiffers_eq_true_iff.not.mpr (hpre k' hk')
  have hfind : kinds.find? (iodDiffers s.cfg s.cs n t iod) = some k := by
    rw [hkinds, List.find?_append, hbefore, Option.none_or, List.find?_cons_of_pos (iodDiffers_eq_true_iff.mpr hinc)]
  simp only [iodCheckOf, hfind, hpolicy]

end

/-- Settles O35: the first kind that differs decides, under the policy. -/
theorem iodCheckFollowsThePolicy : Obligations.IodCheckFollowsThePolicy := by
  unfold Obligations.IodCheckFollowsThePolicy
  intro s n kinds t iod hc
  have answers {b : Bool} (h : iodCheckOf s.cfg s.cs n kinds t iod = .ok b) :
      exec (.iodCheck n kinds t iod) s = .next (s.answers (.flag b)) :=
    pureUnit_answers hc (f := fun cfg => iodCheckOf cfg s.cs n kinds t iod) h .flag
  refine ⟨fun h => answers (iodCheckOf_consistent h), fun h hpolicy => answers (iodCheckOf_lenient h hpolicy),
    fun pre k post hkinds hpre hinc hpolicy => ?_⟩
  exact pureUnit_stops hc (f := fun cfg => iodCheckOf cfg s.cs n kinds t iod) (iodCheckOf_strict hkinds hpre hinc hpolicy) _

/-! ## CACHE_UPDATE (R303 to R311) -/

/-- After a merge a key has the message's last record for it, else what it had (R305, R311). -/
theorem lookup_mergeRecords (ent recs : List (EntryKey × Record)) (key : EntryKey) :
    (mergeRecords ent recs).lookup key = (lastRecord recs key).or (ent.lookup key) := by
  induction recs generalizing ent with
  | nil => rfl
  | cons r recs ih =>
    obtain ⟨k, v⟩ := r
    have hlast : lastRecord ((k, v) :: recs) key = (lastRecord recs key).or ([(k, v)].lookup key) := by
      rw [lastRecord, List.reverse_cons, List.lookup_append]
      rfl
    have hfirst : (insertKey entryLt k v ent).lookup key = ([(k, v)].lookup key).or (ent.lookup key) := by
      by_cases hkey : key = k
      · subst hkey
        simp [lookup_insertKey_same]
      · simp [lookup_insertKey_ne _ _ _ _ _ hkey, List.lookup_cons, beq_eq_false_iff_ne.mpr hkey]
    rw [hlast, Option.or_assoc, ← hfirst]
    exact ih _

section
variable {cfg : Cfg} {e : Entry} {t e0 : Time} {hdr : CorrHdr} {recs : List (EntryKey × Record)}

theorem updateEntry_newer (h : entryAge cfg e t = .newer) : updateEntry cfg e t hdr recs = (applyUpdate [] t hdr recs, false) := by
  simp only [updateEntry, h]

/-- A message of the same epoch joins the set, whose epoch stays (R304). -/
theorem updateEntry_same (hne : e.st ≠ .empty) (hepoch : e.epoch = some e0) (hsame : SameTime cfg e0 t) :
    updateEntry cfg e t hdr recs = (applyUpdate e.ent e0 hdr recs, false) := by
  simp only [updateEntry, entryAge_same_iff.mpr ⟨hne, e0, hepoch, hsame⟩, hepoch, Option.getD_some]

theorem updateEntry_dropped (hne : e.st ≠ .empty) (hepoch : e.epoch = some e0) (holder : Earlier cfg t e0)
    (hnot : ¬Earlier cfg e0 t) (hpolicy : cfg.oldEpochPolicy = .drop) : updateEntry cfg e t hdr recs = (e, true) := by
  simp only [updateEntry, entryAge_of_epoch hne hepoch, ageOf_older holder hnot, hpolicy]

/-- An Empty entry, an older one, and under the policy replace a newer one give way to the message (R303, R307). -/
theorem updateEntry_replaced
    (h : e.st = .empty ∨ ∃ e0, e.epoch = some e0 ∧ (Earlier cfg e0 t ∨ (Earlier cfg t e0 ∧ cfg.oldEpochPolicy = .replace))) :
    updateEntry cfg e t hdr recs = (applyUpdate [] t hdr recs, false) := by
  by_cases hst : e.st = .empty
  · exact updateEntry_newer (entryAge_empty hst)
  · obtain ⟨e0, hepoch, hage⟩ := h.resolve_left hst
    by_cases hnewer : Earlier cfg e0 t
    · exact updateEntry_newer ((entryAge_of_epoch hst hepoch).trans (ageOf_newer hnewer))
    · obtain ⟨holder, hpolicy⟩ := hage.resolve_left hnewer
      simp only [updateEntry, entryAge_of_epoch hst hepoch, ageOf_older holder hnewer, hpolicy]

end

theorem networkOf_insertKey (cs : CorrState) (n : NetworkId) (m : NetState) : networkOf (insertKey intLt n m cs) n = m := by
  rw [networkOf, lookup_insertKey_same, Option.getD_some]

/-- Storing one entry changes that entry only (R301, R309). -/
theorem onlyEntry_insertKey (cs : CorrState) (n : NetworkId) (k : CacheKind) (e : Entry) :
    OnlyEntry cs (insertKey intLt n ((networkOf cs n).set e k) cs) n k e where
  entry := by rw [networkOf_insertKey, NetState.get_set_same]
  present := by rw [lookup_insertKey_same]; rfl
  kinds k' hk := by rw [networkOf_insertKey, NetState.get_set_ne _ _ _ _ hk]
  networks n' hn := lookup_insertKey_ne _ _ _ _ _ hn

section
variable {s : State} {n : NetworkId} {k : CacheKind} {t : Time} {hdr : CorrHdr} {recs : List (EntryKey × Record)} {e : Entry}

theorem exec_cacheUpdate (hc : s.configured = true) :
    exec (.cacheUpdate n k t hdr recs) s =
      .next { s.answers (.report (cacheUpdate s.cfg s.cs n k t hdr recs).2) with cs := (cacheUpdate s.cfg s.cs n k t hdr recs).1 } := by
  change execCacheUpdate n k t hdr recs s = _
  rw [execCacheUpdate, unitOp_configured _ hc]
  rfl

/-- CACHE_UPDATE stores the updated entry and nothing else, and reports it. -/
theorem exec_cacheUpdate_entry (hc : s.configured = true) {stale : Bool}
    (h : updateEntry s.cfg ((networkOf s.cs n).get k) t hdr recs = (e, stale)) :
    ∃ cs', exec (.cacheUpdate n k t hdr recs) s = .next { s.answers (.report ⟨k, e.st, stale⟩) with cs := cs' } ∧
      OnlyEntry s.cs cs' n k e := by
  refine ⟨_, ?_, onlyEntry_insertKey s.cs n k e⟩
  simp only [exec_cacheUpdate hc, cacheUpdate, h]

theorem entry_of_exec_cacheUpdate (hc : s.configured = true) {s' : State} (h : exec (.cacheUpdate n k t hdr recs) s = .next s') :
    (networkOf s'.cs n).get k = (updateEntry s.cfg ((networkOf s.cs n).get k) t hdr recs).1 ∧ s'.cfg = s.cfg ∧
      s'.configured = s.configured := by
  rw [exec_cacheUpdate hc] at h
  cases h
  exact ⟨(onlyEntry_insertKey s.cs n k _).entry, rfl, rfl⟩

end

/-- Settles O36: a row of the transition table for each age of the message; what is stored is `applyUpdate`'s entry. -/
theorem cacheUpdateTransitions : Obligations.CacheUpdateTransitions := by
  unfold Obligations.CacheUpdateTransitions
  intro s n k t hdr recs hc e st
  refine ⟨fun h => ?_, fun e0 hne hepoch hsame => ?_, fun e0 hne hepoch holder hnot hpolicy => ?_⟩
  · obtain ⟨cs', hexec, honly⟩ := exec_cacheUpdate_entry hc (updateEntry_replaced (hdr := hdr) (recs := recs) h)
    exact ⟨cs', _, hexec, honly, fun key => (lookup_mergeRecords [] recs key).trans (Option.or_none)⟩
  · obtain ⟨cs', hexec, honly⟩ := exec_cacheUpdate_entry hc (updateEntry_same (hdr := hdr) (recs := recs) hne hepoch hsame)
    exact ⟨cs', _, hexec, honly, lookup_mergeRecords _ recs⟩
  · exact exec_cacheUpdate_entry hc (updateEntry_dropped hne hepoch holder hnot hpolicy)

/-- Settles O37: the first message sets the entry up; the second finds it not Empty and replaces it or joins it. -/
theorem twoMessagesReplaceOrAccumulate : Obligations.TwoMessagesReplaceOrAccumulate := by
  unfold Obligations.TwoMessagesReplaceOrAccumulate
  intro s s1 s2 n k t1 t2 hdr1 hdr2 recs1 recs2 hc hempty hexec1 hexec2 hnot e1 e2
  obtain ⟨he1, hcfg, hconf⟩ := entry_of_exec_cacheUpdate hc hexec1
  obtain ⟨he2, -, -⟩ := entry_of_exec_cacheUpdate (hconf.trans hc) hexec2
  rw [updateEntry_replaced (.inl hempty)] at he1
  have hne : (applyUpdate [] t1 hdr1 recs1).st ≠ .empty := kindStateOf_ne_empty hdr1.mm
  rw [he1, hcfg] at he2
  by_cases hnewer : Earlier s.cfg t1 t2
  · rw [updateEntry_replaced (.inr ⟨t1, rfl, .inl hnewer⟩)] at he2
    refine ⟨congrArg Entry.st he1, congrArg Entry.st he2, fun _ => ⟨congrArg Entry.epoch he2, fun key => ?_⟩,
      fun hsame => absurd hnewer hsame.1⟩
    exact (congrArg (·.ent.lookup key) he2).trans ((lookup_mergeRecords [] recs2 key).trans Option.or_none)
  · rw [updateEntry_same hne rfl ⟨hnewer, hnot⟩] at he2
    refine ⟨congrArg Entry.st he1, congrArg Entry.st he2, fun h => absurd h hnewer,
      fun _ => ⟨congrArg Entry.epoch he2, fun key => ?_⟩⟩
    have hlookup : e2.ent.lookup key = (lastRecord recs2 key).or ((lastRecord recs1 key).or none) :=
      (congrArg (·.ent.lookup key) he2).trans
        ((lookup_mergeRecords _ recs2 key).trans (congrArg _ (lookup_mergeRecords [] recs1 key)))
    rw [hlookup, Option.or_none, Option.isSome_or, Bool.or_eq_true, or_comm]

/-! ## IS_UPDATE (R336) -/

section
variable {s : State} {p : ProviderId} {t : Time} {key : IntegKey} {part : IntegPart}

theorem exec_isUpdate (hc : s.configured = true) :
    exec (.isUpdate p t key part) s =
      .next { s.answers (.flag (integUpdate s.cfg s.is p t key part).2) with is := (integUpdate s.cfg s.is p t key part).1 } := by
  change execIsUpdate p t key part s = _
  rw [execIsUpdate, unitOp_configured _ hc]
  rfl

section
variable {cfg : Cfg} {e : IEntry} {e0 : Time}

/-- An entry without an epoch, an older one, and under the policy replace a newer one give way to the part (R336). -/
theorem updateProvider_replaced (h : e.epoch = none ∨
      ∃ e0, e.epoch = some e0 ∧ (Earlier cfg e0 t ∨ (Earlier cfg t e0 ∧ cfg.oldEpochPolicy = .replace))) :
    updateProvider cfg e t key part = (⟨some t, [(key, part)]⟩, false) := by
  obtain hepoch | ⟨e0, hepoch, hage⟩ := h
  · simp only [updateProvider, hepoch, ageOf, insertKey]
  · by_cases hnewer : Earlier cfg e0 t
    · simp only [updateProvider, hepoch, ageOf_newer hnewer, insertKey]
    · obtain ⟨holder, hpolicy⟩ := hage.resolve_left hnewer
      simp only [updateProvider, hepoch, ageOf_older holder hnewer, hpolicy, insertKey]

theorem updateProvider_same (hepoch : e.epoch = some e0) (hsame : SameTime cfg e0 t) :
    updateProvider cfg e t key part = (⟨some e0, insertKey integLt key part e.parts⟩, false) := by
  simp only [updateProvider, hepoch, ageOf_same_iff.mpr hsame]

theorem updateProvider_dropped (hepoch : e.epoch = some e0) (holder : Earlier cfg t e0) (hnot : ¬Earlier cfg e0 t)
    (hpolicy : cfg.oldEpochPolicy = .drop) : updateProvider cfg e t key part = (e, true) := by
  simp only [updateProvider, hepoch, ageOf_older holder hnot, hpolicy]

end

end

/-- Settles O38: the provider's entry, or one without an epoch where it is absent, under the age of the message. -/
theorem isUpdateTransitions : Obligations.IsUpdateTransitions := by
  unfold Obligations.IsUpdateTransitions
  intro s p t key part hc
  refine ⟨_, _, _, exec_isUpdate hc, lookup_insertKey_same _ _ _ _, fun p' hp => lookup_insertKey_ne _ _ _ _ _ hp, fun h => ?_,
    fun e e0 he hepoch hsame => ?_, fun e e0 he hepoch holder hnot hpolicy => ?_⟩
  · have hreplaced : updateProvider s.cfg ((s.is.lookup p).getD ⟨none, []⟩) t key part = (⟨some t, [(key, part)]⟩, false) := by
      refine updateProvider_replaced ?_
      cases he : s.is.lookup p with
      | none => exact .inl rfl
      | some e => exact h e he
    simp only [integUpdate, hreplaced, and_self]
  · simp only [integUpdate, he, Option.getD_some, updateProvider_same hepoch hsame]
    exact ⟨trivial, lookup_insertKey_same _ _ _ _, trivial, fun m hm => lookup_insertKey_ne _ _ _ _ _ hm⟩
  · simp only [integUpdate, he, Option.getD_some, updateProvider_dropped hepoch holder hnot hpolicy, and_self]

/-! ## The nearest quality value (R282, R284) -/

theorem distance_eq_abs (a b : Rat) : distance a b = |a - b| := by
  rw [distance]
  split
  · next h => rw [abs_of_nonpos (by linarith)]; ring
  · next h => rw [abs_of_nonneg (by linarith)]

/-- An entry is not preferred exactly if it is no nearer, and of equally near ones has no larger class, and of one class no larger
value (R284). -/
theorem uraBetter_eq_false_iff {q : Rat} {a b : (Int × Int) × Rat} :
    uraBetter q a b = false ↔ |b.2 - q| ≤ |a.2 - q| ∧
      (|b.2 - q| = |a.2 - q| → a.1.1 < b.1.1 ∨ (a.1.1 = b.1.1 ∧ a.1.2 ≤ b.1.2)) := by
  simp only [uraBetter, distance_eq_abs, Bool.or_eq_false_iff, Bool.and_eq_false_iff, decide_eq_false_iff_not, not_lt]
  refine and_congr_right fun _ => ⟨fun h heq => ?_, fun h => ?_⟩
  · have := h.resolve_left (not_not.mpr heq.symm)
    omega
  · by_cases heq : |b.2 - q| = |a.2 - q|
    · have := h heq
      exact .inr (by omega)
    · exact .inl (Ne.symm heq)

theorem uraBetter_asymm {q : Rat} {a b : (Int × Int) × Rat} (h : uraBetter q a b = true) : uraBetter q b a = false := by
  by_contra hba
  rw [Bool.not_eq_false] at hba
  simp only [uraBetter, Bool.or_eq_true, Bool.and_eq_true, decide_eq_true_eq] at h hba
  obtain hlt | ⟨heq, hkey⟩ := h <;> obtain hlt' | ⟨heq', hkey'⟩ := hba
  · exact lt_asymm hlt hlt'
  · exact hlt.ne' heq'
  · exact hlt'.ne' heq
  · omega

theorem uraBetter_false_trans {q : Rat} {a b c : (Int × Int) × Rat} (hab : uraBetter q a b = false)
    (hbc : uraBetter q b c = false) : uraBetter q a c = false := by
  rw [uraBetter_eq_false_iff] at hab hbc ⊢
  obtain ⟨hab, hkab⟩ := hab
  obtain ⟨hbc, hkbc⟩ := hbc
  refine ⟨hbc.trans hab, fun heq => ?_⟩
  have h1 := hkab (le_antisymm hab (heq ▸ hbc))
  have h2 := hkbc (le_antisymm hbc (heq ▸ hab))
  omega

/-- No entry is preferred to the one that is taken. -/
theorem uraBetter_uraNearest {q : Rat} {rows : List ((Int × Int) × Rat)} {b : (Int × Int) × Rat} (hb : uraNearest q rows = some b) :
    ∀ r ∈ rows, uraBetter q r b = false := by
  have hself (a : (Int × Int) × Rat) : uraBetter q a a = false := by simp [uraBetter]
  induction rows generalizing b with
  | nil => cases hb
  | cons r₀ rs ih =>
    rw [List.forall_mem_cons]
    cases hrs : uraNearest q rs with
    | none =>
      simp only [uraNearest, hrs, Option.some.injEq] at hb
      subst hb
      refine ⟨hself _, fun r hr => ?_⟩
      obtain ⟨b, hb, -⟩ := uraNearest_le (q := q) hr
      cases hrs.symm.trans hb
    | some b' =>
      cases hbetter : uraBetter q r₀ b' with
      | true =>
        simp only [uraNearest, hrs, hbetter, if_true, Option.some.injEq] at hb
        subst hb
        exact ⟨hself _, fun r hr => uraBetter_false_trans (ih hrs r hr) (uraBetter_asymm hbetter)⟩
      | false =>
        simp only [uraNearest, hrs, hbetter, Bool.false_eq_true, if_false, Option.some.injEq] at hb
        subst hb
        exact ⟨hbetter, ih hrs⟩

section
variable {cfg : Cfg} {q : Rat}

theorem mem_effectiveRows {tbl : List ((Int × Int) × Rat)} {r : (Int × Int) × Rat} :
    r ∈ effectiveRows tbl ↔ tbl.lookup r.1 = some r.2 := by
  rw [effectiveRows, List.mem_filter, decide_eq_true_iff]
  exact ⟨And.right, fun h => ⟨mem_of_lookup_pair h, h⟩⟩

/-- QUANTIZE of a table that is not empty answers a defined entry to which none is preferred (R284). -/
theorem quantizeUra_nonempty (hne : cfg.uraTable ≠ []) :
    ∃ r, quantizeUra cfg q = .ok r.1 ∧ cfg.uraTable.lookup r.1 = some r.2 ∧
      ∀ x m, cfg.uraTable.lookup x = some m → uraBetter q (x, m) r = false := by
  obtain ⟨⟨x₀, m₀⟩, rs, htbl⟩ := List.exists_cons_of_ne_nil hne
  have hfirst : (x₀, m₀) ∈ effectiveRows cfg.uraTable := by
    rw [mem_effectiveRows, htbl, List.lookup_cons_self]
  obtain ⟨r, hr, -⟩ := uraNearest_le (q := q) hfirst
  refine ⟨r, by simp only [quantizeUra, hr], mem_effectiveRows.mp (uraNearest_mem hr), fun x m hx => ?_⟩
  exact uraBetter_uraNearest hr (x, m) (mem_effectiveRows.mpr hx)

/-- QUANTIZE inverts DECODE_URA where no other entry has the value (R284). -/
theorem quantizeUra_of_unshared {x : Int × Int} (hx : cfg.uraTable.lookup x = some q)
    (hunique : ∀ y, cfg.uraTable.lookup y = some q → y = x) : quantizeUra cfg q = .ok x := by
  have hne : cfg.uraTable ≠ [] := by
    intro hnil
    rw [hnil] at hx
    cases hx
  obtain ⟨r, hquant, hr, hnearest⟩ := quantizeUra_nonempty (q := q) hne
  have hdist : |r.2 - q| ≤ |q - q| := (uraBetter_eq_false_iff.mp (hnearest x q hx)).1
  rw [sub_self, abs_zero, abs_nonpos_iff, sub_eq_zero] at hdist
  rw [hquant, hunique r.1 (hdist ▸ hr)]

/-! ## Lookups (R331, R332) -/

variable {d : FieldDesc} {idx : Nat}

theorem lookupIndex_sentinel (h : (idx : Int) = integSentinel d) : lookupIndex cfg d idx = .ok .notProvided := if_pos h

theorem lookupIndex_provided (hs : (idx : Int) ≠ integSentinel d) {tbl : List (Option Rat)}
    (htbl : cfg.integTable.lookup d.name = some tbl) (hq : tbl[idx]? = some (some q)) :
    lookupIndex cfg d idx = .ok (.provided q) := by
  simp only [lookupIndex, if_neg hs, htbl, Option.bind_some, hq, Option.join_some]

/-- A record field of an accepted configuration has a value for every index in range, or its sentinel (R215, R331). -/
theorem lookupIndex_of_accepted (hacc : cfgAccepted cfg = true) {x : IntegKey × IntegLayout} (hx : x ∈ cfg.integLayout)
    (hd : d ∈ x.2.records) (hidx : idx < 2 ^ d.width) : ∃ v, lookupIndex cfg d idx = .ok v := by
  by_cases hs : (idx : Int) = integSentinel d
  · exact ⟨_, lookupIndex_sentinel hs⟩
  · have hfield := (integLayout_checks ((layoutChecks_of_accepted hacc).integ x hx)).2 d hd
    obtain ⟨tbl, q, htbl, hq⟩ := covered_index hfield hidx hs
    exact ⟨_, lookupIndex_provided hs htbl hq⟩

end

/-- Settles O32: the table as it is, its nearest entry, and the lookup table of a field but for the sentinel. -/
theorem qualityAndIntegrityTables : Obligations.QualityAndIntegrityTables := by
  unfold Obligations.QualityAndIntegrityTables
  intro s hc
  have quantized {q : Rat} {cls v : Int} (h : quantizeUra s.cfg q = .ok (cls, v)) :
      exec (.quantize q) s = .next (s.answers (.quality cls v)) :=
    pureUnit_answers hc (f := fun cfg => quantizeUra cfg q) h fun x => .quality x.1 x.2
  have looked {d : FieldDesc} {idx : Nat} {v : IntegVal} (h : lookupIndex s.cfg d idx = .ok v) :
      exec (.lookup d idx) s = .next (s.answers (.lookup v)) :=
    pureUnit_answers hc (f := fun cfg => lookupIndex cfg d idx) h .lookup
  refine ⟨fun cls v => ?_, fun q hne => ?_, fun cls v m hm hunique => ?_, fun d idx => ⟨fun h => ?_, fun tbl q hs htbl hq => ?_,
    fun x hacc hx hd hidx => ?_⟩⟩
  · change execDecodeUra cls v s = _
    rw [execDecodeUra, unitOp_configured _ hc]
    rfl
  · obtain ⟨⟨⟨cls, v⟩, m⟩, hquant, hm, hnearest⟩ := quantizeUra_nonempty (q := q) hne
    refine ⟨cls, v, m, quantized hquant, hm, fun cls' v' m' hm' => ?_⟩
    have hbest := uraBetter_eq_false_iff.mp (hnearest (cls', v') m' hm')
    exact hbest
  · exact quantized (quantizeUra_of_unshared hm fun y hy => hunique y.1 y.2 hy)
  · exact looked (lookupIndex_sentinel h)
  · exact looked (lookupIndex_provided hs htbl hq)
  · obtain ⟨v, hv⟩ := lookupIndex_of_accepted hacc hx hd hidx
    exact ⟨v, looked hv⟩

end Sys2Proof.Machine

/-! SUPPORT of 47_correction_ssr.md: a reading that does what some events say and answers what a description of the payload says, and
the header of a correction message (R266, R267). -/

namespace Sys2Proof.Machine

/-! ## Readings one after another -/

theorem Rd.bind_assoc {α β γ : Type} (m : Rd α) (k : α → Rd β) (l : β → Rd γ) :
    (m.bind k).bind l = m.bind fun a => (k a).bind l := by
  funext off
  simp only [Rd.bind]
  cases m off <;> rfl

theorem Rd.map_bind {α β γ : Type} (m : Rd α) (f : α → β) (k : β → Rd γ) : (m.map f).bind k = m.bind fun a => k (f a) :=
  Rd.bind_assoc m _ k

theorem Rd.entryFor_bind_some {α β : Type} {x : UsageArg} {o : Option α} {a : α} (h : o = some a) (k : α → Rd β) :
    (Rd.entryFor x o).bind k = k a := by
  subst h
  rfl

/-! ## A reading with its events and its value (R123, R347, R356) -/

/-- From bit `off` on, `m` ends in the first condition of the events, and otherwise behind their bits. `V a n` says that the payload
holds `a` in `n` bits: then every need of the events is met and they take `n` bits, and where no event is a condition, the one `a` it
holds is what `m` answers. -/
structure Reads {α : Type} (s : State) (off : Nat) (es : List Event) (V : α → Nat → Prop) (m : Rd α) : Prop where
  follows : Follows s off es (fun a => V a (eventBits es)) m
  met : ∀ a n, V a n → (∀ c, .need (.error c) ∉ es) ∧ n = eventBits es
  unique : ∀ a b n n', V a n → V b n' → a = b

section
variable {α β : Type} {s : State} {off : Nat} {es fs : List Event} {V : α → Nat → Prop} {W : α → β → Nat → Prop}
  {U : β → Nat → Prop} {m : Rd α} {k : α → Rd β}

theorem Reads.stop (h : Reads s off es V m) {x : Cond × Nat} (hx : firstStop s.cur.bitlen off es = some x) :
    m off = .stop x.1 x.2 := h.follows.stop x hx

/-- What the payload holds in the span is what the reading answers. -/
theorem Reads.ok (h : Reads s off es V m) {a : α} {n : Nat} (ha : V a n) (hfit : off + n ≤ s.cur.bitlen) :
    m off = .ok a (off + n) := by
  obtain ⟨hmet, rfl⟩ := h.met a n ha
  obtain ⟨b, hb, hread⟩ := h.follows.ok (firstStop_eq_none hmet hfit)
  rwa [h.unique a b _ _ ha hb]

theorem Reads.congr {V' : α → Nat → Prop} (h : Reads s off es V m) (hV : ∀ a n, V' a n ↔ V a n) : Reads s off es V' m := by
  obtain rfl : V' = V := funext fun a => funext fun n => propext (hV a n)
  exact h

theorem Reads.pure (a : α) : Reads s off [] (fun b n => b = a ∧ n = 0) (Rd.pure a) where
  follows := .pure ⟨rfl, rfl⟩
  met := by
    rintro b n ⟨-, rfl⟩
    exact ⟨by simp, rfl⟩
  unique := by
    rintro b b' n n' ⟨rfl, -⟩ ⟨rfl, -⟩
    rfl

theorem Reads.bind (hm : Reads s off es V m)
    (hk : ∀ a, V a (eventBits es) → Reads s (off + eventBits es) fs (W a) (k a)) :
    Reads s off (es ++ fs) (fun b n => ∃ a n1 n2, V a n1 ∧ W a b n2 ∧ n = n1 + n2) (m.bind k) where
  follows := hm.follows.bind rfl fun a ha =>
    ⟨(hk a ha).follows.stop, fun hnone => by
      obtain ⟨b, hb, hread⟩ := (hk a ha).follows.ok hnone
      exact ⟨b, ⟨a, _, _, ha, hb, eventBits_append es fs⟩, hread⟩⟩
  met := by
    rintro b n ⟨a, n1, n2, ha, hb, rfl⟩
    obtain ⟨hmet, rfl⟩ := hm.met a n1 ha
    obtain ⟨hmet', rfl⟩ := (hk a ha).met b n2 hb
    refine ⟨fun c hc => ?_, (eventBits_append es fs).symm⟩
    exact (List.mem_append.mp hc).elim (hmet c) (hmet' c)
  unique := by
    rintro b b' n n' ⟨a, n1, n2, ha, hb, -⟩ ⟨a', n1', n2', ha', hb', -⟩
    obtain rfl := hm.unique a a' n1 n1' ha ha'
    obtain ⟨-, rfl⟩ := hm.met a n1 ha
    exact (hk a ha).unique b b' n2 n2' hb hb'

theorem Reads.map {f : α → β} (hm : Reads s off es V m) : Reads s off es (fun b n => ∃ a, V a n ∧ b = f a) (m.map f) := by
  have h := hm.bind (k := fun a => Rd.pure (f a)) fun a _ => Reads.pure (f a)
  rw [List.append_nil] at h
  refine h.congr fun b n => ⟨?_, ?_⟩
  · rintro ⟨a, ha, rfl⟩
    exact ⟨a, n, 0, ha, ⟨rfl, rfl⟩, rfl⟩
  · rintro ⟨a, n1, n2, ha, ⟨rfl, rfl⟩, rfl⟩
    exact ⟨a, ha, rfl⟩

/-- What is read at one place of the payload and has one value there. -/
theorem Reads.of_follows {a : α} (h : Follows s off es (· = a) m) (hmet : ∀ c, .need (.error c) ∉ es) :
    Reads s off es (fun b n => b = a ∧ n = eventBits es) m where
  follows := ⟨h.stop, fun hnone => by
    obtain ⟨b, hb, hread⟩ := h.ok hnone
    exact ⟨b, ⟨hb, rfl⟩, hread⟩⟩
  met := fun b n hb => ⟨hmet, hb.2⟩
  unique := fun b b' _ _ hb hb' => hb.1.trans hb'.1.symm

theorem reads_field {d : FieldDesc} (hd : widthOk d.width = true) :
    Reads s off [.read d.width] (fun f n => f = fieldAt s off d ∧ n = d.width) (readRawField s d) :=
  .of_follows (follows_field hd) (by simp)

theorem reads_fields {ds : List FieldDesc} (hds : ∀ d ∈ ds, widthOk d.width = true) :
    Reads s off (fieldEvents ds) (fun fs n => fs = fieldsAt s off ds ∧ n = widthOf ds) (readFields s ds) := by
  have h := Reads.of_follows (follows_fields (s := s) (off := off) hds) (by simp [fieldEvents])
  rwa [eventBits_fieldEvents] at h

theorem reads_lift (r : Except Cond α) : Reads s off [mustBe r] (fun a n => r = .ok a ∧ n = 0) (Rd.lift r) where
  follows := ⟨(follows_lift r).stop, fun hnone => by
    obtain ⟨a, ha, hread⟩ := (follows_lift r).ok hnone
    exact ⟨a, ⟨ha, rfl⟩, hread⟩⟩
  met := by
    rintro a n ⟨ha, rfl⟩
    exact ⟨fun c hc => mustBe_ne_error ha c (List.mem_singleton.mp hc).symm, rfl⟩
  unique := by
    rintro a b n n' ⟨rfl, -⟩ ⟨hb, -⟩
    cases hb
    rfl

theorem reads_entry (o : Option α) : Reads s off [mustHave o] (fun a n => o = some a ∧ n = 0) (Rd.entry o) := by
  cases o with
  | none => exact (reads_lift (.error (.usage none))).congr (by simp)
  | some a => exact (reads_lift (.ok a)).congr (by simp)

theorem reads_entryFor (x : UsageArg) (o : Option α) :
    Reads s off [mustHaveFor x o] (fun a n => o = some a ∧ n = 0) (Rd.entryFor x o) := by
  cases o with
  | none => exact (reads_lift (.error (.usage (some x)))).congr (by simp)
  | some a => exact (reads_lift (.ok a)).congr (by simp)

/-! ### The same, read before the rest -/

variable {W' : β → Nat → Prop}

theorem Reads.field_bind {d : FieldDesc} {k : RawField → Rd β} (hd : widthOk d.width = true)
    (hk : Reads s (off + d.width) fs W' (k (fieldAt s off d))) :
    Reads s off (.read d.width :: fs) (fun b n => ∃ n', W' b n' ∧ n = d.width + n') ((readRawField s d).bind k) := by
  refine ((reads_field hd).bind (W := fun _ => W') (by rintro _ ⟨rfl, -⟩; exact hk)).congr fun b n => ⟨?_, ?_⟩
  · rintro ⟨n', hb, rfl⟩
    exact ⟨_, _, n', ⟨rfl, rfl⟩, hb, rfl⟩
  · rintro ⟨_, _, n', ⟨rfl, rfl⟩, hb, rfl⟩
    exact ⟨n', hb, rfl⟩

theorem Reads.fields_bind {ds : List FieldDesc} {k : List RawField → Rd β} (hds : ∀ d ∈ ds, widthOk d.width = true)
    (hk : Reads s (off + widthOf ds) fs W' (k (fieldsAt s off ds))) :
    Reads s off (fieldEvents ds ++ fs) (fun b n => ∃ n', W' b n' ∧ n = widthOf ds + n') ((readFields s ds).bind k) := by
  refine ((reads_fields hds).bind (W := fun _ => W') ?_).congr fun b n => ⟨?_, ?_⟩
  · rintro _ ⟨rfl, -⟩
    rwa [eventBits_fieldEvents]
  · rintro ⟨n', hb, rfl⟩
    exact ⟨_, _, n', ⟨rfl, rfl⟩, hb, rfl⟩
  · rintro ⟨_, _, n', ⟨rfl, rfl⟩, hb, rfl⟩
    exact ⟨n', hb, rfl⟩

/-- A need before the rest takes no bits. -/
theorem Reads.need_bind {e : Event} {N : α → Prop} (hm : Reads s off [e] (fun a n => N a ∧ n = 0) m) (he : eventBits [e] = 0)
    (hk : ∀ a, N a → Reads s off fs (W a) (k a)) : Reads s off (e :: fs) (fun b n => ∃ a, N a ∧ W a b n) (m.bind k) := by
  refine (hm.bind (W := W) fun a ha => by rw [he]; exact hk a ha.1).congr fun b n => ⟨?_, ?_⟩
  · rintro ⟨a, ha, hb⟩
    exact ⟨a, 0, n, ⟨ha, rfl⟩, hb, (Nat.zero_add n).symm⟩
  · rintro ⟨a, _, n2, ⟨ha, rfl⟩, hb, rfl⟩
    exact ⟨a, ha, by rwa [Nat.zero_add]⟩

theorem Reads.lift_bind {r : Except Cond α} (hk : ∀ a, r = .ok a → Reads s off fs (W a) (k a)) :
    Reads s off (mustBe r :: fs) (fun b n => ∃ a, r = .ok a ∧ W a b n) ((Rd.lift r).bind k) :=
  .need_bind (reads_lift r) rfl hk

theorem Reads.entry_bind {o : Option α} (hk : ∀ a, o = some a → Reads s off fs (W a) (k a)) :
    Reads s off (mustHave o :: fs) (fun b n => ∃ a, o = some a ∧ W a b n) ((Rd.entry o).bind k) :=
  .need_bind (reads_entry o) rfl hk

theorem Reads.entryFor_bind {x : UsageArg} {o : Option α} (hk : ∀ a, o = some a → Reads s off fs (W a) (k a)) :
    Reads s off (mustHaveFor x o :: fs) (fun b n => ∃ a, o = some a ∧ W a b n) ((Rd.entryFor x o).bind k) :=
  .need_bind (reads_entryFor x o) rfl hk

/-- Items read one after another, each from where the one before ended; `At off n as bits` says that the payload holds `n` of them. -/
theorem Reads.times {m : Rd α} {events : Nat → List Event} {One : Nat → α → Nat → Prop} {At : Nat → Nat → List α → Nat → Prop}
    {all : Nat → Nat → List Event} (hone : ∀ off, Reads s off (events off) (One off) m)
    (hzero : ∀ off as bits, At off 0 as bits ↔ as = [] ∧ bits = 0)
    (hsucc : ∀ off n as bits, At off (n + 1) as bits ↔
      ∃ a bits1 rest bits2, One off a bits1 ∧ At (off + bits1) n rest bits2 ∧ as = a :: rest ∧ bits = bits1 + bits2)
    (hall0 : ∀ off, all off 0 = []) (hallS : ∀ off n, all off (n + 1) = events off ++ all (off + eventBits (events off)) n)
    (off n : Nat) : Reads s off (all off n) (At off n) (Rd.times m n) := by
  induction n generalizing off with
  | zero =>
    rw [hall0]
    exact (Reads.pure []).congr fun as bits => hzero off as bits
  | succ n ih =>
    rw [hallS]
    refine ((hone off).bind fun a _ => (ih _).map (f := (a :: ·))).congr fun as bits => (hsucc off n as bits).trans ⟨?_, ?_⟩
    · rintro ⟨a, bits1, rest, bits2, ha, hrest, rfl, rfl⟩
      obtain ⟨-, rfl⟩ := (hone off).met a bits1 ha
      exact ⟨a, _, bits2, ha, ⟨rest, hrest, rfl⟩, rfl⟩
    · rintro ⟨a, bits1, bits2, ha, ⟨rest, hrest, rfl⟩, rfl⟩
      obtain ⟨-, rfl⟩ := (hone off).met a bits1 ha
      exact ⟨a, _, rest, bits2, ha, hrest, rfl, rfl⟩

end

/-! ## The header of a correction message (R266, R267) -/

theorem networkIdOf_eq_messageKey (h : CorrHandler) (fs : List RawField) : networkIdOf h fs = messageKey h fs := by
  cases h <;> simp [networkIdOf, messageKey]

section
variable {s : State} {h : CorrHandler} {ds : List FieldDesc} {off : Nat} {p : CorrPrep}

theorem reads_prep (hds : corrHeaderOf s.cfg h = some ds) (hok : ∀ d ∈ ds, widthOk d.width = true) :
    Reads s off (headerEvents s ds off) (fun p n => HeaderAt s h ds off p ∧ n = widthOf ds) (readPrep s h) := by
  have hheader : readHeader s h = readFields s ds := by simp only [readHeader, hds]
  rw [readPrep, hheader]
  refine (Reads.fields_bind hok (.entry_bind fun raw _ => .entry_bind fun mm _ => (reads_entry s.refTime).map)).congr
    fun p n => ⟨?_, ?_⟩
  · rintro ⟨⟨hfields, hnetwork, ⟨raw, ref, hraw, href, hepoch⟩, ⟨mm, hmm, hhdr⟩⟩, rfl⟩
    obtain ⟨fields, network, epoch, hdr⟩ := p
    dsimp only at hfields hnetwork hraw hepoch hmm hhdr
    subst hfields hnetwork hepoch hhdr
    exact ⟨0, ⟨raw, hraw, mm, hmm, ref, ⟨href, rfl⟩, by rw [networkIdOf_eq_messageKey]; rfl⟩, rfl⟩
  · rintro ⟨_, ⟨raw, hraw, mm, hmm, ref, ⟨href, rfl⟩, rfl⟩, rfl⟩
    exact ⟨⟨rfl, networkIdOf_eq_messageKey _ _, ⟨raw, ref, hraw, href, rfl⟩, ⟨mm, hmm, rfl⟩⟩, rfl⟩

/-- The check of the events is the one the handler makes (R283). -/
theorem iodEvent_eq (hp : HeaderAt s h ds off p) (kinds : List CacheKind) :
    iodEvent s h ds off kinds = mustBe (iodCheckOf s.cfg s.cs p.network kinds p.epoch p.hdr.iod) := by
  obtain ⟨hfields, hnetwork, ⟨raw, ref, hraw, href, hepoch⟩, ⟨mm, -, hhdr⟩⟩ := hp
  simp only [iodEvent]
  rw [hepoch, hhdr, hnetwork, ← hfields, hraw, href, Option.getD_some, Option.getD_some]

/-- What a correction handler answers and stages where the issue-of-data check lets the message pass (R265, R268). -/
def correctionHandled (s : State) (h : CorrHandler) (pre : Option (List RawField)) (p : CorrPrep) (kinds : List CacheKind)
    (recs : List (EntryKey × Record)) (flag : Bool) : Handled :=
  let r := updateKinds s.cfg p.network p.epoch p.hdr recs kinds s.cs
  ⟨.correction ⟨h, pre.map fieldsOf, p.network, fieldsOf p.fields, recs, r.2, flag⟩, s.lk, r.1, s.is⟩

theorem reads_finishCorr (hp : HeaderAt s h ds off p) (pre : Option (List RawField)) (kinds : List CacheKind)
    (recs : List (EntryKey × Record)) {off' : Nat} :
    Reads s off' [iodEvent s h ds off kinds]
      (fun x n => (∃ flag, iodCheckOf s.cfg s.cs p.network kinds p.epoch p.hdr.iod = .ok flag ∧
        x = correctionHandled s h pre p kinds recs flag) ∧ n = 0)
      (finishCorr s h pre p kinds recs) := by
  rw [iodEvent_eq hp]
  refine (reads_lift _).map.congr fun x n => ⟨?_, ?_⟩
  · rintro ⟨⟨flag, hflag, rfl⟩, rfl⟩
    exact ⟨flag, ⟨hflag, rfl⟩, rfl⟩
  · rintro ⟨flag, ⟨hflag, rfl⟩, rfl⟩
    exact ⟨⟨flag, hflag, rfl⟩, rfl⟩

/-- A correction handler is its header, its records and the check: what follows the header may depend on it. -/
theorem reads_correction {readRecs : CorrPrep → Rd (List (EntryKey × Record))} {es : List Event} {kinds : List CacheKind}
    {At : CorrPrep → List (EntryKey × Record) → Nat → Prop} (pre : Option (List RawField))
    (hds : corrHeaderOf s.cfg h = some ds) (hok : ∀ d ∈ ds, widthOk d.width = true)
    (hrecs : ∀ p, HeaderAt s h ds off p → Reads s (off + widthOf ds) es (At p) (readRecs p)) :
    Reads s off (headerEvents s ds off ++ (es ++ [iodEvent s h ds off kinds]))
      (fun x n => ∃ p recs n' flag, HeaderAt s h ds off p ∧ At p recs n' ∧ n = widthOf ds + n' ∧
        iodCheckOf s.cfg s.cs p.network kinds p.epoch p.hdr.iod = .ok flag ∧ x = correctionHandled s h pre p kinds recs flag)
      ((readPrep s h).bind fun p => (readRecs p).bind fun recs => finishCorr s h pre p kinds recs) := by
  have hrest (p : CorrPrep) (hp : HeaderAt s h ds off p ∧ eventBits (headerEvents s ds off) = widthOf ds) :
      Reads s (off + eventBits (headerEvents s ds off)) (es ++ [iodEvent s h ds off kinds])
        (fun x n => ∃ recs flag, At p recs n ∧ iodCheckOf s.cfg s.cs p.network kinds p.epoch p.hdr.iod = .ok flag ∧
          x = correctionHandled s h pre p kinds recs flag)
        ((readRecs p).bind fun recs => finishCorr s h pre p kinds recs) := by
    rw [hp.2]
    refine ((hrecs p hp.1).bind fun recs _ => reads_finishCorr hp.1 pre kinds recs).congr fun x n => ⟨?_, ?_⟩
    · rintro ⟨recs, flag, hat, hflag, rfl⟩
      exact ⟨recs, n, 0, hat, ⟨⟨flag, hflag, rfl⟩, rfl⟩, rfl⟩
    · rintro ⟨recs, n', _, hat, ⟨⟨flag, hflag, rfl⟩, rfl⟩, rfl⟩
      exact ⟨recs, flag, hat, hflag, rfl⟩
  refine ((reads_prep hds hok).bind hrest).congr fun x n => ⟨?_, ?_⟩
  · rintro ⟨p, recs, n', flag, hp, hat, rfl, hflag, rfl⟩
    exact ⟨p, _, n', ⟨hp, rfl⟩, ⟨recs, flag, hat, hflag, rfl⟩, rfl⟩
  · rintro ⟨p, _, n', ⟨hp, rfl⟩, ⟨recs, flag, hat, hflag, rfl⟩, rfl⟩
    exact ⟨p, recs, n', flag, hp, hat, rfl, hflag, rfl⟩

end

end Sys2Proof.Machine

/-! SUPPORT and the statement of 47_correction_ssr.md about the SSR kinds and the test range (O45). -/

namespace Sys2Proof.Machine

/-! ## Bias sub-records (R276, R277) -/

theorem mustHave_congr {α β : Type} {o : Option α} {o' : Option β} (h : o.isSome = o'.isSome) : mustHave o = mustHave o' := by
  cases o <;> cases o' <;> cases h <;> rfl

section
variable (s : State) (c : Constellation)

/-- The signal of the last slot field, `g` if there is none; nothing where a slot has no signal. -/
def lastSlot : Option SignalCode → List RawField → Option (Option SignalCode)
  | g, [] => some g
  | g, f :: fs =>
    if f.name = .slot then
      match signalOf s.cfg .ssrSig c f.raw with
      | .ok g' => lastSlot (some g') fs
      | .error _ => none
    else lastSlot g fs

/-- The events of the fields of a sub-record, without the need of a slot. -/
def slotEvents : Nat → List FieldDesc → List Event
  | _, [] => []
  | off, d :: ds =>
    .read d.width :: ((if d.name = .slot then [mustBe (signalOf s.cfg .ssrSig c (fieldAt s off d).raw)] else []) ++
      slotEvents (off + d.width) ds)

/-- What the slot fields of a sub-record convert to, as `subAt` lists it. -/
def slotSignals (fs : List RawField) : List (Option SignalCode) :=
  (fs.filter (fun f => decide (f.name = .slot))).map (fun f => (signalOf s.cfg .ssrSig c f.raw).toOption)

theorem lastSlot_eq_some_iff {g r : Option SignalCode} {fs : List RawField} :
    lastSlot s c g fs = some r ↔ (slotSignals s c fs).all Option.isSome = true ∧ r = ((slotSignals s c fs).getLast?).getD g := by
  induction fs generalizing g with
  | nil => simp [lastSlot, slotSignals, eq_comm]
  | cons f fs ih =>
    by_cases hslot : f.name = .slot
    · have hcons : slotSignals s c (f :: fs) = (signalOf s.cfg .ssrSig c f.raw).toOption :: slotSignals s c fs := by
        simp [slotSignals, hslot]
      rw [lastSlot, if_pos hslot, hcons]
      cases hsig : signalOf s.cfg .ssrSig c f.raw with
      | error e => simp [Except.toOption]
      | ok g' =>
        dsimp only
        rw [ih]
        cases hlast : slotSignals s c fs <;> simp [Except.toOption, List.getLast?_cons]
    · have hcons : slotSignals s c (f :: fs) = slotSignals s c fs := by simp [slotSignals, hslot]
      rw [lastSlot, if_neg hslot, hcons, ih]

theorem subEvents_eq (all ds : List FieldDesc) (off : Nat) :
    subEvents s c all off ds = slotEvents s c off ds ++ [mustHave (descOf .slot all)] := by
  induction ds generalizing off with
  | nil => rfl
  | cons d ds ih => rw [subEvents, slotEvents, ih]; simp

@[simp] theorem eventBits_slotEvents (ds : List FieldDesc) (off : Nat) : eventBits (slotEvents s c off ds) = widthOf ds := by
  induction ds generalizing off with
  | nil => rfl
  | cons d ds ih =>
    have hslot : eventBits (if d.name = .slot then [mustBe (signalOf s.cfg .ssrSig c (fieldAt s off d).raw)] else []) = 0 := by
      split <;> rfl
    rw [slotEvents, ← List.singleton_append, eventBits_append, eventBits_append, hslot, ih, eventBits_read, Nat.zero_add]
    rfl

@[simp] theorem eventBits_subEvents (ds : List FieldDesc) (off : Nat) : eventBits (subEvents s c ds off ds) = widthOf ds := by
  rw [subEvents_eq, eventBits_append, eventBits_slotEvents, eventBits_mustHave, Nat.add_zero]

theorem subAt_eq_some_iff {ds : List FieldDesc} {off : Nat} {x : SignalCode × Fields} :
    subAt s c ds off = some x ↔
      lastSlot s c none (fieldsAt s off ds) = some (some x.1) ∧ x.2 = fieldsOf (fieldsAt s off ds) := by
  have hsub : subAt s c ds off = match (slotSignals s c (fieldsAt s off ds)).getLast? with
      | some (some g) => if (slotSignals s c (fieldsAt s off ds)).all Option.isSome then some (g, fieldsOf (fieldsAt s off ds)) else none
      | _ => none := rfl
  obtain ⟨g, fs⟩ := x
  rw [hsub, lastSlot_eq_some_iff]
  split
  · next g' hlast =>
    rw [hlast]
    by_cases hall : (slotSignals s c (fieldsAt s off ds)).all Option.isSome = true <;> simp [hall, eq_comm]
  · next hnot =>
    refine iff_of_false (by simp) ?_
    rintro ⟨⟨-, hlast⟩, -⟩
    cases hget : (slotSignals s c (fieldsAt s off ds)).getLast? with
    | none => simp [hget] at hlast
    | some o =>
      rw [hget, Option.getD_some] at hlast
      exact hnot g (hlast ▸ hget)

/-- A sub-record converts some slot exactly if its layout has one. -/
theorem isSome_of_lastSlot {ds : List FieldDesc} {off : Nat} {r : Option SignalCode}
    (h : lastSlot s c none (fieldsAt s off ds) = some r) : r.isSome = (descOf .slot ds).isSome := by
  suffices hfold : ∀ (g : Option SignalCode) (ds : List FieldDesc) (off : Nat),
      lastSlot s c g (fieldsAt s off ds) = some r → r.isSome = (g.isSome || ds.any fun d => decide (d.name = .slot)) by
    rw [hfold none ds off h, descOf, Bool.eq_iff_iff, List.find?_isSome]
    simp
  intro g ds off h
  induction ds generalizing off g with
  | nil =>
    cases h
    simp
  | cons d ds ih =>
    have hname : (fieldAt s off d).name = d.name := rfl
    rw [fieldsAt, lastSlot, hname] at h
    by_cases hslot : d.name = .slot
    · rw [if_pos hslot] at h
      split at h
      · rw [ih _ _ h]; simp [hslot]
      · cases h
    · rw [if_neg hslot] at h
      rw [ih _ _ h]
      simp [hslot]

end

section
variable {s : State} {c : Constellation} {off : Nat}

theorem reads_subFields {ds : List FieldDesc} (hds : ∀ d ∈ ds, widthOk d.width = true) (g : Option SignalCode)
    (acc : List RawField) :
    Reads s off (slotEvents s c off ds)
      (fun r n => (lastSlot s c g (fieldsAt s off ds) = some r.1 ∧ r.2 = acc ++ fieldsAt s off ds) ∧ n = widthOf ds)
      (readSubFields s c ds g acc) := by
  induction ds generalizing off g acc with
  | nil =>
    refine (Reads.pure (g, acc)).congr fun r n => ?_
    obtain ⟨r1, r2⟩ := r
    simp [fieldsAt, lastSlot, widthOf, eq_comm]
  | cons d ds ih =>
    have hd := hds d (by simp)
    have ih' (g : Option SignalCode) (acc : List RawField) := ih (off := off + d.width) (fun d' hd' => hds d' (by simp [hd'])) g acc
    have hname : (fieldAt s off d).name = d.name := rfl
    have hwidth : widthOf (d :: ds) = d.width + widthOf ds := rfl
    rw [slotEvents, readSubFields]
    by_cases hslot : d.name = .slot
    · simp only [hslot, if_true]
      refine (Reads.field_bind hd (.lift_bind fun g' _ => ih' (some g') _)).congr fun r n => ?_
      simp only [fieldsAt, lastSlot, hname, hslot, if_true, hwidth, List.append_assoc, List.singleton_append]
      constructor
      · rintro ⟨⟨hlast, hfields⟩, rfl⟩
        split at hlast
        · next g' hg => exact ⟨_, ⟨g', hg, ⟨hlast, hfields⟩, rfl⟩, rfl⟩
        · cases hlast
      · rintro ⟨_, ⟨g', hg, ⟨hlast, hfields⟩, rfl⟩, rfl⟩
        rw [hg]
        exact ⟨⟨hlast, hfields⟩, rfl⟩
    · simp only [hslot, if_false, List.nil_append]
      refine (Reads.field_bind hd (ih' g _)).congr fun r n => ?_
      simp only [fieldsAt, lastSlot, hname, hslot, if_false, hwidth, List.append_assoc, List.singleton_append]
      constructor
      · rintro ⟨hlast, rfl⟩
        exact ⟨_, ⟨hlast, rfl⟩, rfl⟩
      · rintro ⟨_, ⟨hlast, rfl⟩, rfl⟩
        exact ⟨hlast, rfl⟩

theorem reads_sub {lay : SsrLayout} (hds : ∀ d ∈ lay.subrecord, widthOk d.width = true) :
    Reads s off (subEvents s c lay.subrecord off lay.subrecord)
      (fun x n => subAt s c lay.subrecord off = some x ∧ n = widthOf lay.subrecord) (readSub s c lay) := by
  rw [subEvents_eq, readSub]
  refine ((reads_subFields hds none []).bind (W := fun r x n => r.1 = some x.1 ∧ x.2 = fieldsOf r.2 ∧ n = 0)
    fun r hr => ?_).congr fun x n => ⟨?_, ?_⟩
  · rw [← mustHave_congr (isSome_of_lastSlot s c hr.1.1)]
    refine (reads_entry r.1).map.congr fun x n => ⟨?_, ?_⟩
    · rintro ⟨hg, hfields, rfl⟩
      exact ⟨x.1, ⟨hg, rfl⟩, Prod.ext rfl hfields⟩
    · rintro ⟨g, ⟨hg, rfl⟩, rfl⟩
      exact ⟨hg, rfl, rfl⟩
  · rintro ⟨hsub, rfl⟩
    obtain ⟨hlast, hfields⟩ := (subAt_eq_some_iff s c).mp hsub
    exact ⟨(some x.1, fieldsAt s off lay.subrecord), _, 0, ⟨⟨hlast, rfl⟩, rfl⟩, ⟨rfl, hfields, rfl⟩, rfl⟩
  · rintro ⟨⟨_, _⟩, _, _, ⟨⟨hlast, rfl⟩, rfl⟩, ⟨rfl, hfields, rfl⟩, rfl⟩
    exact ⟨(subAt_eq_some_iff s c).mpr ⟨hlast, hfields⟩, rfl⟩

end

/-! ## The records of a satellite message (R269 to R278) -/

/-- The fields of an SSR layout that HOST_CONFIG has checked have legal widths (R215). -/
theorem ssrLayout_widths {lay : SsrLayout} (hok : ssrLayoutOk lay = true) : ∀ d ∈ SsrLayout.descs lay, widthOk d.width = true :=
  fun d hd => (FieldDesc.ok_iff.mp (ssrLayout_descs_ok hok d hd)).1

section
variable {s : State} {c : Constellation} {lay : SsrLayout} {off : Nat}

theorem subsAt_succ {ds : List FieldDesc} {n : Nat} {l : List (SignalCode × Fields)} :
    subsAt s c ds off (n + 1) = some l ↔
      ∃ x rest, subAt s c ds off = some x ∧ subsAt s c ds (off + widthOf ds) n = some rest ∧ l = x :: rest := by
  rw [subsAt]
  cases subAt s c ds off <;> cases subsAt s c ds (off + widthOf ds) n <;> simp [eq_comm]

theorem reads_subList (hds : ∀ d ∈ lay.subrecord, widthOk d.width = true) (n : Nat) :
    Reads s off (subsEvents s c lay.subrecord off n)
      (fun l bits => subsAt s c lay.subrecord off n = some l ∧ bits = n * widthOf lay.subrecord) (Rd.times (readSub s c lay) n) := by
  refine Reads.times (One := fun off x bits => subAt s c lay.subrecord off = some x ∧ bits = widthOf lay.subrecord)
    (At := fun off n l bits => subsAt s c lay.subrecord off n = some l ∧ bits = n * widthOf lay.subrecord)
    (fun off => reads_sub hds) (fun off l bits => ?_) (fun off n l bits => ?_) (fun _ => rfl) (fun off n => ?_) off n
  · simp [subsAt, eq_comm]
  · rw [subsAt_succ]
    constructor
    · rintro ⟨⟨x, rest, hx, hrest, rfl⟩, rfl⟩
      exact ⟨x, _, rest, _, ⟨hx, rfl⟩, ⟨hrest, rfl⟩, rfl, by rw [Nat.succ_mul, Nat.add_comm]⟩
    · rintro ⟨x, _, rest, _, ⟨hx, rfl⟩, ⟨hrest, rfl⟩, rfl, rfl⟩
      exact ⟨⟨x, rest, hx, hrest, rfl⟩, by rw [Nat.succ_mul, Nat.add_comm]⟩
  · rw [subsEvents, eventBits_subEvents]

theorem reads_subs (hok : ssrLayoutOk lay = true) :
    Reads s off (countedSubsEvents s c lay off) (fun l n => countedSubsAt s c lay off = some (l, n)) (readSubs s c lay) := by
  have hw := ssrLayout_widths hok
  rw [countedSubsEvents, readSubs]
  cases hnsig : lay.nsig with
  | none =>
    refine (Reads.entry_bind (W := fun _ _ _ => False) (by simp)).congr fun l n => ?_
    simp [countedSubsAt, hnsig]
  | some d =>
    have hd : widthOk d.width = true := hw d (by simp [SsrLayout.descs, hnsig])
    have hds : ∀ d ∈ lay.subrecord, widthOk d.width = true := fun d hd => hw d (by simp [SsrLayout.descs, hd])
    refine (Reads.field_bind hd (reads_subList hds (fieldAt s off d).raw.toNat)).congr fun l n => ?_
    simp [countedSubsAt, hnsig, eq_comm]

/-- The record of a kind whose layout has one list of fields. -/
theorem reads_valsRecord (hok : ssrLayoutOk lay = true) :
    Reads s off (fieldEvents lay.record)
      (fun r n => some (Record.vals (withQuality s.cfg (fieldsAt s off lay.record)), widthOf lay.record) = some (r, n))
      ((readFields s lay.record).map fun fs => .vals (withQuality s.cfg fs)) := by
  have hrecord : ∀ d ∈ lay.record, widthOk d.width = true := fun d hd => ssrLayout_widths hok d (by simp [SsrLayout.descs, hd])
  refine (reads_fields hrecord).map.congr fun r n => ?_
  simp [and_comm, eq_comm]

/-- The record of a phase-bias message behind its yaw pair. -/
theorem reads_phaseRecord (hok : ssrLayoutOk lay = true) (yaw rate : Value) :
    Reads s off (countedSubsEvents s c lay off)
      (fun r n => ((countedSubsAt s c lay off).map fun l => (Record.phase yaw rate (phaseMap l.1), l.2)) = some (r, n))
      ((readSubs s c lay).map fun l => .phase yaw rate (phaseMap l)) := by
  refine (reads_subs hok).map.congr fun r n => ?_
  simp [and_comm, eq_comm]

theorem reads_record (hok : ssrLayoutOk lay = true) (yawFlag : Bool) (k : SsrKind) :
    Reads s off (recordEvents s c lay yawFlag off k) (fun r n => recordAt s c lay yawFlag off k = some (r, n))
      (readRecord s c lay yawFlag k) := by
  have hw := ssrLayout_widths hok
  cases k with
  | orbit => exact reads_valsRecord hok
  | clock => exact reads_valsRecord hok
  | hrclock => exact reads_valsRecord hok
  | ura => exact reads_valsRecord hok
  | combined =>
    have hrecord : ∀ d ∈ lay.record, widthOk d.width = true := fun d hd => hw d (by simp [SsrLayout.descs, hd])
    have hclock : ∀ d ∈ lay.clockRecord, widthOk d.width = true := fun d hd => hw d (by simp [SsrLayout.descs, hd])
    refine (Reads.fields_bind hrecord (reads_fields hclock).map).congr fun r n => ?_
    simp [recordAt, and_comm, eq_comm]
  | codebias =>
    refine (reads_subs hok).map.congr fun r n => ?_
    simp [recordAt, and_comm, eq_comm]
  | phasebias =>
    have hplain := reads_phaseRecord (s := s) (c := c) (off := off) hok .na .na
    cases yawFlag with
    | false => exact hplain
    | true =>
      cases hyaw : lay.yaw with
      | none =>
        simp only [recordEvents, readRecord, readYaw, recordAt, hyaw, if_true]
        exact hplain
      | some x =>
        obtain ⟨y, r⟩ := x
        have hy : widthOk y.width = true := hw y (by simp [SsrLayout.descs, hyaw])
        have hr : widthOk r.width = true := hw r (by simp [SsrLayout.descs, hyaw])
        simp only [recordEvents, readRecord, readYaw, recordAt, hyaw, if_true, Rd.bind_assoc, Rd.map_bind]
        rw [← Nat.add_assoc]
        refine (Reads.field_bind hy (Reads.field_bind hr (reads_phaseRecord hok _ _))).congr fun rec n => ?_
        simp only [Option.map_eq_some_iff, Prod.mk.injEq, Nat.add_assoc]
        constructor
        · rintro ⟨⟨l, n'⟩, hl, hrec, rfl⟩
          exact ⟨_, ⟨n', ⟨(l, n'), hl, hrec, rfl⟩, rfl⟩, rfl⟩
        · rintro ⟨_, ⟨n', ⟨⟨l, n''⟩, hl, hrec, rfl⟩, rfl⟩, rfl⟩
          exact ⟨(l, n''), hl, hrec, rfl⟩

end

/-! ## The satellites of a message (R265, R269) -/

section
variable {s : State} {fam : Family} {c : Constellation} {k : SsrKind} {lay : SsrLayout}

/-- One satellite of a message: its id, its conversion and its record. -/
def SatAt (s : State) (fam : Family) (c : Constellation) (k : SsrKind) (lay : SsrLayout) (yawFlag : Bool) (off : Nat)
    (x : EntryKey × Record) (bits : Nat) : Prop :=
  ∃ sat r n, satOfSvid s.cfg fam c (fieldAt s off lay.svid).raw = .ok sat ∧
    recordAt s c lay yawFlag (off + lay.svid.width) k = some (r, n) ∧ x = (.sat sat, r) ∧ bits = lay.svid.width + n

theorem reads_satRecord (hok : ssrLayoutOk lay = true) (yawFlag : Bool) (off : Nat) :
    Reads s off (.read lay.svid.width :: mustBe (satOfSvid s.cfg fam c (fieldAt s off lay.svid).raw) ::
        recordEvents s c lay yawFlag (off + lay.svid.width) k)
      (SatAt s fam c k lay yawFlag off) (readSatRecord s fam c k lay yawFlag) := by
  have hsvid : widthOk lay.svid.width = true := ssrLayout_widths hok _ (by simp [SsrLayout.descs])
  refine (Reads.field_bind hsvid (.lift_bind fun sat _ => (reads_record hok yawFlag k).map)).congr fun x bits => ⟨?_, ?_⟩
  · rintro ⟨sat, r, n, hsat, hrec, rfl, rfl⟩
    exact ⟨n, ⟨sat, hsat, r, hrec, rfl⟩, rfl⟩
  · rintro ⟨n, ⟨sat, hsat, r, hrec, rfl⟩, rfl⟩
    exact ⟨sat, r, n, hsat, hrec, rfl, rfl⟩

theorem satRecordsAt_succ {yawFlag : Bool} {off nsat bits : Nat} {recs : List (EntryKey × Record)} :
    satRecordsAt s fam c k lay yawFlag off (nsat + 1) = some (recs, bits) ↔
      ∃ x n1 rest n2, SatAt s fam c k lay yawFlag off x n1 ∧
        satRecordsAt s fam c k lay yawFlag (off + n1) nsat = some (rest, n2) ∧ recs = x :: rest ∧ bits = n1 + n2 := by
  rw [satRecordsAt]
  constructor
  · intro h
    split at h
    · next sat r n hsat hrec =>
      obtain ⟨⟨rest, n2⟩, hrest, hx⟩ := Option.map_eq_some_iff.mp h
      cases hx
      exact ⟨_, _, rest, n2, ⟨sat, r, n, hsat, hrec, rfl, rfl⟩, hrest, rfl, rfl⟩
    · cases h
  · rintro ⟨_, _, rest, n2, ⟨sat, r, n, hsat, hrec, rfl, rfl⟩, hrest, rfl, rfl⟩
    simp only [hsat, hrec, hrest, Option.map_some]

theorem reads_satRecords (hok : ssrLayoutOk lay = true) (yawFlag : Bool) (off nsat : Nat) :
    Reads s off (satEvents s fam c k lay yawFlag off nsat)
      (fun recs bits => satRecordsAt s fam c k lay yawFlag off nsat = some (recs, bits))
      (Rd.times (readSatRecord s fam c k lay yawFlag) nsat) :=
  Reads.times (At := fun off nsat recs bits => satRecordsAt s fam c k lay yawFlag off nsat = some (recs, bits))
    (reads_satRecord hok yawFlag) (by simp [satRecordsAt, eq_comm]) (fun _ _ _ _ => satRecordsAt_succ) (fun _ => rfl)
    (fun _ _ => rfl) off nsat

/-! ## A satellite message (R265) -/

theorem mustHave_countOf (x : FieldName) (fs : List RawField) : mustHave (countOf x fs) = mustHave (rawOf x fs) :=
  mustHave_congr (by simp [countOf])

/-- The records of a satellite message, behind its header. -/
theorem reads_corrRecords (hok : ssrLayoutOk lay = true) {off : Nat} {p : CorrPrep}
    (hp : p.fields = fieldsAt s off lay.header) :
    Reads s (off + widthOf lay.header)
      (mustHave (rawOf .nsat (fieldsAt s off lay.header)) ::
        satEvents s fam c k lay (decide (rawOf .yawFlag (fieldsAt s off lay.header) = some 1)) (off + widthOf lay.header)
          ((countOf .nsat (fieldsAt s off lay.header)).getD 0))
      (fun recs n => ∃ nsat, countOf .nsat p.fields = some nsat ∧
        satRecordsAt s fam c k lay (decide (rawOf .yawFlag p.fields = some 1)) (off + widthOf lay.header) nsat = some (recs, n))
      ((Rd.entry (countOf .nsat p.fields)).bind fun nsat =>
        Rd.times (readSatRecord s fam c k lay (decide (rawOf .yawFlag p.fields = some 1))) nsat) := by
  rw [← hp, ← mustHave_countOf]
  refine Reads.entry_bind fun nsat hn => ?_
  rw [hn]
  exact reads_satRecords hok _ _ nsat

theorem correctionEvents_eq (s : State) (h : CorrHandler) (fam : Family) (c : Constellation) (k : SsrKind) (lay : SsrLayout)
    (off : Nat) :
    correctionEvents s h fam c k lay off = headerEvents s lay.header off ++
      ((mustHave (rawOf .nsat (fieldsAt s off lay.header)) ::
        satEvents s fam c k lay (decide (rawOf .yawFlag (fieldsAt s off lay.header) = some 1)) (off + widthOf lay.header)
          ((countOf .nsat (fieldsAt s off lay.header)).getD 0)) ++ [iodEvent s h lay.header off (cacheKindsOf k)]) := by
  simp [correctionEvents]

/-- The generic procedure of a satellite message reads what its description says (R265). -/
theorem reads_corr {h : CorrHandler} (pre : Option (List RawField)) (hds : corrHeaderOf s.cfg h = some lay.header)
    (hok : ssrLayoutOk lay = true) {off : Nat} :
    Reads s off (correctionEvents s h fam c k lay off)
      (fun x n => ∃ p recs flag, CorrectionAt s h fam c k lay off p recs n ∧
        iodCheckOf s.cfg s.cs p.network (cacheKindsOf k) p.epoch p.hdr.iod = .ok flag ∧
        x = correctionHandled s h pre p (cacheKindsOf k) recs flag)
      (readCorr s h pre fam c k lay) := by
  have hheader : ∀ d ∈ lay.header, widthOk d.width = true := fun d hd => ssrLayout_widths hok d (by simp [SsrLayout.descs, hd])
  have hreader : readCorr s h pre fam c k lay = (readPrep s h).bind fun p =>
      ((Rd.entry (countOf .nsat p.fields)).bind fun nsat =>
        Rd.times (readSatRecord s fam c k lay (decide (rawOf .yawFlag p.fields = some 1))) nsat).bind fun recs =>
      finishCorr s h pre p (cacheKindsOf k) recs := by
    simp only [readCorr, Rd.bind_assoc]
  rw [hreader, correctionEvents_eq]
  refine (reads_correction pre hds hheader fun p hp => reads_corrRecords hok hp.fields).congr fun x n => ⟨?_, ?_⟩
  · rintro ⟨p, recs, flag, ⟨hp, nsat, n', hn, hrecs, rfl⟩, hflag, rfl⟩
    exact ⟨p, recs, n', flag, hp, ⟨nsat, hn, hrecs⟩, rfl, hflag, rfl⟩
  · rintro ⟨p, recs, n', flag, hp, ⟨nsat, hn, hrecs⟩, rfl, hflag, rfl⟩
    exact ⟨p, recs, flag, ⟨hp, nsat, n', hn, hrecs, rfl⟩, hflag, rfl⟩

/-! ## What a satellite message puts into the caches (R265, R273, R304, R312) -/

/-- What every record of a kind is, the records of a message of that kind are. -/
theorem forall_satRecordsAt {P : Record → Prop} {yawFlag : Bool}
    (hP : ∀ off r n, recordAt s c lay yawFlag off k = some (r, n) → P r) {off nsat bits : Nat} {recs : List (EntryKey × Record)}
    (h : satRecordsAt s fam c k lay yawFlag off nsat = some (recs, bits)) : ∀ x ∈ recs, P x.2 := by
  induction nsat generalizing off recs bits with
  | zero =>
    cases h
    simp
  | succ nsat ih =>
    obtain ⟨_, _, rest, _, ⟨sat, r, n, -, hrec, rfl, rfl⟩, hrest, rfl, rfl⟩ := satRecordsAt_succ.mp h
    exact List.forall_mem_cons.mpr ⟨hP _ r n hrec, ih hrest⟩

theorem recordAt_phasebias {yawFlag : Bool} {off n : Nat} {r : Record}
    (h : recordAt s c lay yawFlag off .phasebias = some (r, n)) : ∃ yaw rate ph, r = .phase yaw rate ph := by
  have mapped {yaw rate : Value} {bits : Nat} {o : Option (List (SignalCode × Fields) × Nat)}
      (h : (o.map fun l => (Record.phase yaw rate (phaseMap l.1), bits + l.2)) = some (r, n)) :
      ∃ yaw rate ph, r = .phase yaw rate ph := by
    obtain ⟨l, -, hx⟩ := Option.map_eq_some_iff.mp h
    cases hx
    exact ⟨_, _, _, rfl⟩
  cases yawFlag with
  | false => exact mapped (bits := 0) (by simpa only [Nat.zero_add, recordAt] using h)
  | true =>
    cases hyaw : lay.yaw with
    | none => exact mapped (bits := 0) (by simpa only [Nat.zero_add, recordAt, hyaw] using h)
    | some x => exact mapped (by simpa only [recordAt, hyaw] using h)

/-- A record of a kind other than COMBINED has one part, itself. -/
theorem recordPart_recordAt (hk : k ≠ .combined) {yawFlag : Bool} {off n : Nat} {r : Record}
    (h : recordAt s c lay yawFlag off k = some (r, n)) (ck : CacheKind) : recordPart ck r = r := by
  cases k with
  | combined => exact absurd rfl hk
  | orbit | clock | hrclock | ura =>
    cases h
    rfl
  | codebias =>
    obtain ⟨_, -, hx⟩ := Option.map_eq_some_iff.mp h
    cases hx
    rfl
  | phasebias =>
    obtain ⟨yaw, rate, ph, rfl⟩ := recordAt_phasebias h
    rfl

theorem recordAt_combined {yawFlag : Bool} {off n : Nat} {r : Record}
    (h : recordAt s c lay yawFlag off .combined = some (r, n)) : ∃ o clk, r = .combined o clk := by
  cases h
  exact ⟨_, _, rfl⟩

end

theorem exists_combined_list {recs : List (EntryKey × Record)} (h : ∀ x ∈ recs, ∃ o clk, x.2 = .combined o clk) :
    ∃ l : List (EntryKey × Fields × Fields), recs = l.map fun x => (x.1, .combined x.2.1 x.2.2) := by
  induction recs with
  | nil => exact ⟨[], rfl⟩
  | cons x recs ih =>
    obtain ⟨⟨o, clk, hx⟩, hrecs⟩ := List.forall_mem_cons.mp h
    obtain ⟨l, rfl⟩ := ih hrecs
    exact ⟨(x.1, o, clk) :: l, by rw [List.map_cons, ← hx]⟩

section
variable {s : State} {n : NetworkId} {t : Time} {hdr : CorrHdr}

theorem map_recordPart {ck : CacheKind} {recs : List (EntryKey × Record)} (h : ∀ x ∈ recs, recordPart ck x.2 = x.2) :
    recs.map (fun x => (x.1, recordPart ck x.2)) = recs :=
  (List.map_congr_left fun x hx => by rw [h x hx, id]).trans (List.map_id recs)

/-- One kind of records that are each their own part is updated as CACHE_UPDATE does it. -/
theorem updateKinds_singleton (hc : s.configured = true) {ck : CacheKind} {recs : List (EntryKey × Record)}
    (h : ∀ x ∈ recs, recordPart ck x.2 = x.2) :
    ∃ s1, exec (.cacheUpdate n ck t hdr recs) s = .next s1 ∧ (updateKinds s.cfg n t hdr recs [ck] s.cs).1 = s1.cs := by
  refine ⟨_, exec_cacheUpdate hc, ?_⟩
  simp only [updateKinds, map_recordPart h]

/-- COMBINED updates ORBIT and then CLOCK, each as CACHE_UPDATE does it (R273, R312). -/
theorem updateKinds_combined (hc : s.configured = true) (l : List (EntryKey × Fields × Fields)) :
    ∃ s1 s2, exec (.cacheUpdate n .orbit t hdr (l.map fun x => (x.1, .vals x.2.1))) s = .next s1 ∧
      exec (.cacheUpdate n .clock t hdr (l.map fun x => (x.1, .vals x.2.2))) s1 = .next s2 ∧
      (updateKinds s.cfg n t hdr (l.map fun x => (x.1, .combined x.2.1 x.2.2)) [.orbit, .clock] s.cs).1 = s2.cs := by
  refine ⟨_, _, exec_cacheUpdate hc, exec_cacheUpdate hc, ?_⟩
  simp only [updateKinds, List.map_map, Function.comp_def, recordPart]
  rfl

/-- The caches after a satellite message, kind by kind. -/
theorem correction_caches (hc : s.configured = true) {h : CorrHandler} {fam : Family} {c : Constellation} {k : SsrKind}
    {lay : SsrLayout} {off bits : Nat} {p : CorrPrep} {recs : List (EntryKey × Record)}
    (hat : CorrectionAt s h fam c k lay off p recs bits) :
    let cs := (updateKinds s.cfg p.network p.epoch p.hdr recs (cacheKindsOf k) s.cs).1
    (∀ ck, cacheKindsOf k = [ck] → ∃ s1, exec (.cacheUpdate p.network ck p.epoch p.hdr recs) s = .next s1 ∧ cs = s1.cs) ∧
    (k = .combined → ∃ (l : List (EntryKey × Fields × Fields)) (s1 s2 : State),
      recs = l.map (fun x => (x.1, .combined x.2.1 x.2.2)) ∧
      exec (.cacheUpdate p.network .orbit p.epoch p.hdr (l.map fun x => (x.1, .vals x.2.1))) s = .next s1 ∧
      exec (.cacheUpdate p.network .clock p.epoch p.hdr (l.map fun x => (x.1, .vals x.2.2))) s1 = .next s2 ∧ cs = s2.cs) := by
  obtain ⟨nsat, m, -, hrecs, -⟩ := hat.records
  refine ⟨fun ck hck => ?_, ?_⟩
  · have hk : k ≠ .combined := by
      rintro rfl
      cases hck
    rw [hck]
    exact updateKinds_singleton hc (forall_satRecordsAt (fun _ _ _ hrec => recordPart_recordAt hk hrec ck) hrecs)
  · rintro rfl
    obtain ⟨l, rfl⟩ := exists_combined_list (forall_satRecordsAt (fun _ _ _ hrec => recordAt_combined hrec) hrecs)
    obtain ⟨s1, s2, h1, h2, hcs⟩ := updateKinds_combined (t := p.epoch) (n := p.network) (hdr := p.hdr) hc l
    exact ⟨l, s1, s2, rfl, h1, h2, hcs⟩

end

/-! ## The rows of the SSR kinds and of the test range (R271 to R278, R286) -/

theorem readSubFields_window (s : State) (c : Constellation) (ds : List FieldDesc) (g : Option SignalCode) (acc : List RawField) :
    readSubFields { s with window := false } c ds g acc = readSubFields s c ds g acc := by
  induction ds generalizing g acc with
  | nil => rfl
  | cons d ds ih =>
    simp only [readSubFields, ih]
    rfl

/-- The handler does not look at the configuration window. -/
theorem readCorr_window (s : State) (h : CorrHandler) (pre : Option (List RawField)) (fam : Family) (c : Constellation)
    (k : SsrKind) (lay : SsrLayout) :
    readCorr { s with window := false } h pre fam c k lay = readCorr s h pre fam c k lay := by
  have hsub : readSub { s with window := false } c lay = readSub s c lay := by
    simp only [readSub, readSubFields_window]
  have hrecord (yawFlag : Bool) : readRecord { s with window := false } c lay yawFlag k = readRecord s c lay yawFlag k := by
    cases k <;> simp only [readRecord, readSubs, hsub] <;> rfl
  simp only [readCorr, readSatRecord, hrecord]
  rfl

section
variable {s : State} {c : Constellation} {k : SsrKind} {lay : SsrLayout} {i : Instr}

/-- A message row whose reader is the satellite message's of its handler and layout. -/
theorem readSsr_eq (hl : s.cfg.ssrLayout.lookup (c, k) = some lay) :
    readSsr { s with window := false } c k = readCorr s (.ssr c k) none .ssr c k lay := by
  rw [← readCorr_window]
  exact Rd.entryFor_bind_some hl _

theorem ssr_row_reader (hl : s.cfg.ssrLayout.lookup (c, k) = some lay)
    (hi : i = Instr.ofSsr c k ∨ ∃ o, i = Instr.ofSsrTest o c ∧ s.cfg.testKindOfOffset.lookup o = some k) :
    ∃ r, messageReader i.wireClass = some r ∧ r { s with window := false } = readCorr s (.ssr c k) none .ssr c k lay := by
  obtain rfl | ⟨o, rfl, ho⟩ := hi
  · exact ⟨_, messageReader_ofSsr c k, readSsr_eq hl⟩
  · refine ⟨_, messageReader_ofSsrTest o c, ?_⟩
    rw [← readSsr_eq hl]
    exact Rd.entryFor_bind_some ho _

/-- Settles O45: the row's reader is the satellite message's, and its cache updates are CACHE_UPDATE's. -/
theorem ssrReadsItsBitPositions : Obligations.SsrReadsItsBitPositions := by
  unfold Obligations.SsrReadsItsBitPositions
  intro s c k lay i hc hacc hl hi
  obtain ⟨r, hr, hreader⟩ := ssr_row_reader hl hi
  have hok : ssrLayoutOk lay = true := (layoutChecks_of_accepted hacc).ssr _ (mem_of_lookup_pair hl)
  have hds : corrHeaderOf s.cfg (.ssr c k) = some lay.header := by rw [corrHeaderOf, hl, Option.map_some]
  have hreads := reads_corr (fam := .ssr) (c := c) (k := k) (off := s.cur.off) none hds hok
  refine ⟨fun p recs bits flag hat hfit hflag => ⟨?_, correction_caches hc hat⟩, fun x hx => ?_⟩
  · exact exec_message_ok hr hc ((congrFun hreader _).trans (hreads.ok ⟨p, recs, flag, hat, hflag, rfl⟩ hfit))
  · exact exec_message_stopsAt hr hc ((congrFun hreader _).trans (hreads.stop hx))

end

end Sys2Proof.Machine

/-! SUPPORT and the statement of 47_correction_ssr.md about the grid messages (O47). -/

namespace Sys2Proof.Machine

/-! ## The residual block (R281) -/

section
variable {s : State} {lay : GridLayout} {n : NetworkId} {hdr : List RawField} {off : Nat}

/-- The residuals themselves: of width 0 there is nothing to read. -/
theorem reads_residuals (rl : ResidLayout) {w : Nat} (hw : w ≤ 64) (sf : Rat) (npoints : Nat) :
    Reads s off (if w = 0 then [] else List.replicate npoints (.read w))
      (fun l bits => l = (List.range npoints).map (fun i =>
        if w = 0 then Value.na else (fieldAt s (off + i * w) (residDesc rl w sf)).val) ∧ bits = npoints * w)
      (if w = 0 then Rd.pure (List.replicate npoints .na)
        else (Rd.times (readRawField s (residDesc rl w sf)) npoints).map fun l => l.map (·.val)) := by
  by_cases h0 : w = 0
  · simp only [h0, if_true, Nat.mul_zero, List.map_const', List.length_range]
    exact Reads.pure _
  · have hwidth : widthOk (residDesc rl w sf).width = true := widthOk_iff.mpr ⟨Nat.one_le_iff_ne_zero.mpr h0, hw⟩
    have hread := Reads.of_follows (follows_repeated (s := s) (off := off) hwidth npoints) (by simp)
    simp only [h0, if_false]
    refine hread.map.congr fun l bits => ?_
    have hbits : eventBits (List.replicate npoints (.read (residDesc rl w sf).width)) = npoints * w := eventBits_replicate npoints w
    rw [hbits]
    constructor
    · rintro ⟨rfl, rfl⟩
      exact ⟨_, ⟨rfl, rfl⟩, by rw [List.map_map]; rfl⟩
    · rintro ⟨_, ⟨rfl, rfl⟩, rfl⟩
      exact ⟨by rw [List.map_map]; rfl, rfl⟩

/-- A residual block that is present: its width, its scale, its points. -/
def BlockAt (s : State) (lay : GridLayout) (n : NetworkId) (hdr : List RawField) (rl : ResidLayout) (o1 : Nat) (l : List Value)
    (bits : Nat) : Prop :=
  let o2 := o1 + rl.widthCode.width
  ∃ w sf npoints, rl.width.lookup (fieldAt s o1 rl.widthCode).raw = some w ∧
    rl.scale.lookup (fieldAt s o2 rl.scaleCode).raw = some sf ∧ npointsOf lay n hdr = some npoints ∧
    l = (List.range npoints).map (fun i =>
      if w = 0 then .na else (fieldAt s (o2 + rl.scaleCode.width + i * w) (residDesc rl w sf)).val) ∧
    bits = rl.widthCode.width + (rl.scaleCode.width + npoints * w)

theorem residAt_some_iff {rl : ResidLayout} (hr : lay.resid = some rl) {l : List Value} {bits : Nat} :
    residAt s lay n hdr off = some (l, bits) ↔
      if (fieldAt s off rl.present).raw = 0 then l = [] ∧ bits = rl.present.width
      else ∃ b, BlockAt s lay n hdr rl (off + rl.present.width) l b ∧ bits = rl.present.width + b := by
  simp only [residAt, hr]
  split
  · simp [eq_comm]
  · constructor
    · intro h
      split at h
      · next w sf npoints hw hsf hn =>
        cases h
        exact ⟨_, ⟨w, sf, npoints, hw, hsf, hn, rfl, rfl⟩, by omega⟩
      · cases h
    · rintro ⟨_, ⟨w, sf, npoints, hw, hsf, hn, rfl, rfl⟩, rfl⟩
      simp only [hw, hsf, hn]
      simp only [Nat.add_assoc]

/-- What the checks of the configuration say of the widths of a residual block (R215, R281). -/
theorem gridLayout_resid_widths (hok : gridLayoutOk lay = true) {rl : ResidLayout} (hr : lay.resid = some rl) :
    (widthOk rl.present.width = true ∧ widthOk rl.widthCode.width = true ∧ widthOk rl.scaleCode.width = true) ∧
      ∀ raw w, rl.width.lookup raw = some w → w ≤ 64 := by
  have hdesc (d : FieldDesc) (hd : d ∈ [rl.present, rl.widthCode, rl.scaleCode]) : widthOk d.width = true :=
    (FieldDesc.ok_iff.mp (gridLayout_descs_ok hok d (by simp only [GridLayout.descs, hr]; exact List.mem_append_right _ hd))).1
  have hresid : residLayoutOk rl = true := by
    simp only [gridLayoutOk, Bool.and_eq_true, Option.all_eq_true] at hok
    exact hok.2 rl hr
  exact ⟨⟨hdesc _ (by simp), hdesc _ (by simp), hdesc _ (by simp)⟩,
    fun raw w hw => (residLayout_checks hresid (mem_of_lookup_pair hw)).1⟩

/-- The reading of a residual block behind its presence field. -/
def readBlock (s : State) (lay : GridLayout) (n : NetworkId) (hdr : List RawField) (rl : ResidLayout) : Rd (List Value) :=
  (readRawField s rl.widthCode).bind fun wc =>
  (Rd.entry (rl.width.lookup wc.raw)).bind fun w =>
  (readRawField s rl.scaleCode).bind fun sc =>
  (Rd.entry (rl.scale.lookup sc.raw)).bind fun sf =>
  (Rd.entry (npointsOf lay n hdr)).bind fun npoints =>
    if w = 0 then Rd.pure (List.replicate npoints .na)
    else (Rd.times (readRawField s (residDesc rl w sf)) npoints).map fun l => l.map (·.val)

theorem readResid_some {rl : ResidLayout} (hr : lay.resid = some rl) :
    readResid s lay n hdr = (readRawField s rl.present).bind fun present =>
      if present.raw = 0 then Rd.pure [] else readBlock s lay n hdr rl := by
  simp only [readResid, hr]
  rfl

theorem reads_block {rl : ResidLayout} (hwidth : widthOk rl.widthCode.width = true) (hscale : widthOk rl.scaleCode.width = true)
    (hle : ∀ raw w, rl.width.lookup raw = some w → w ≤ 64) :
    let width := rl.width.lookup (fieldAt s off rl.widthCode).raw
    let scale := rl.scale.lookup (fieldAt s (off + rl.widthCode.width) rl.scaleCode).raw
    Reads s off
      ([.read rl.widthCode.width, mustHave width, .read rl.scaleCode.width, mustHave scale, mustHave (npointsOf lay n hdr)] ++
        if width = some 0 then [] else List.replicate ((npointsOf lay n hdr).getD 0) (.read (width.getD 0)))
      (BlockAt s lay n hdr rl off) (readBlock s lay n hdr rl) := by
  intro width scale
  refine (Reads.field_bind hwidth (.entry_bind fun w hw => .field_bind hscale (.entry_bind fun sf hsf =>
    .entry_bind fun npoints hn => ?_))).congr (V := fun l bits => ∃ n', (∃ w, width = some w ∧ ∃ n'',
      (∃ sf, scale = some sf ∧ ∃ npoints, npointsOf lay n hdr = some npoints ∧
        l = (List.range npoints).map (fun i => if w = 0 then Value.na else
          (fieldAt s (off + rl.widthCode.width + rl.scaleCode.width + i * w) (residDesc rl w sf)).val) ∧
        n'' = npoints * w) ∧ n' = rl.scaleCode.width + n'') ∧ bits = rl.widthCode.width + n') fun l bits => ⟨?_, ?_⟩
  · rw [hn]
    have hw' : width = some w := hw
    simp only [hw', Option.some.injEq, Option.getD_some]
    exact reads_residuals rl (hle _ w hw) sf npoints
  · rintro ⟨w, sf, npoints, hw, hsf, hn, rfl, rfl⟩
    exact ⟨_, ⟨w, hw, _, ⟨sf, hsf, npoints, hn, rfl, rfl⟩, rfl⟩, rfl⟩
  · rintro ⟨_, ⟨w, hw, _, ⟨sf, hsf, npoints, hn, rfl, rfl⟩, rfl⟩, rfl⟩
    exact ⟨w, sf, npoints, hw, hsf, hn, rfl, rfl⟩

theorem reads_resid (hok : gridLayoutOk lay = true) :
    Reads s off (residEvents s lay n hdr off) (fun l bits => residAt s lay n hdr off = some (l, bits))
      (readResid s lay n hdr) := by
  cases hr : lay.resid with
  | none =>
    simp only [residEvents, readResid, residAt, hr]
    exact (Reads.pure []).congr (by simp [eq_comm])
  | some rl =>
    obtain ⟨⟨hpresent, hwidth, hscale⟩, hle⟩ := gridLayout_resid_widths hok hr
    simp only [residEvents, readResid_some hr, hr, residAt_some_iff hr]
    by_cases h0 : (fieldAt s off rl.present).raw = 0
    · simp only [h0, if_true]
      refine (Reads.field_bind hpresent (W' := fun l b => l = [] ∧ b = 0) ?_).congr fun l bits => ?_
      · simp only [h0, if_true]
        exact Reads.pure []
      · simp
    · simp only [h0, if_false]
      refine Reads.congr (Reads.field_bind hpresent ?_) fun l bits => Iff.rfl
      simp only [h0, if_false]
      exact reads_block hwidth hscale hle

end

/-! ## The records of a grid message (R279, R280) -/

theorem pointRecords_eq (k : Nat) (l : List Value) :
    pointRecords k l = (l.zipIdx k).map fun x => (.point x.2, .resid x.1) := by
  induction l generalizing k with
  | nil => rfl
  | cons v l ih => rw [pointRecords, ih, List.zipIdx_cons, List.map_cons]

section
variable {s : State} {lay : GridLayout} {p : CorrPrep} {off : Nat}

theorem gridLayout_widths (hok : gridLayoutOk lay = true) : ∀ d ∈ GridLayout.descs lay, widthOk d.width = true :=
  fun d hd => (FieldDesc.ok_iff.mp (gridLayout_descs_ok hok d hd)).1

theorem gridLayout_record_widths (hok : gridLayoutOk lay = true) : ∀ d ∈ lay.record, widthOk d.width = true :=
  fun d hd => gridLayout_widths hok d (by simp [GridLayout.descs, hd])

theorem reads_gridModel (hok : gridLayoutOk lay = true) :
    Reads s off (fieldEvents lay.record ++ residEvents s lay p.network p.fields (off + widthOf lay.record))
      (fun recs bits => (residAt s lay p.network p.fields (off + widthOf lay.record)).map (fun r =>
        ((.model, .vals (withQuality s.cfg (fieldsAt s off lay.record))) ::
          r.1.zipIdx.map (fun x => (.point x.2, .resid x.1)), widthOf lay.record + r.2)) = some (recs, bits))
      (readGridModel s lay p) := by
  refine (Reads.fields_bind (gridLayout_record_widths hok) (reads_resid hok).map).congr fun recs bits => ?_
  simp only [pointRecords_eq, Option.map_eq_some_iff, Prod.mk.injEq]
  constructor
  · rintro ⟨⟨l, b⟩, hl, rfl, rfl⟩
    exact ⟨b, ⟨l, hl, rfl⟩, rfl⟩
  · rintro ⟨b, ⟨l, hl, rfl⟩, rfl⟩
    exact ⟨(l, b), hl, rfl, rfl⟩

/-- One satellite of a grid message: its id, its conversion, its record and its residual block. -/
def GridSatAt (s : State) (lay : GridLayout) (g : GridSat) (n : NetworkId) (hdr : List RawField) (off : Nat)
    (x : EntryKey × Record) (bits : Nat) : Prop :=
  ∃ sat l b, satOfSvid s.cfg .grid g.cons (fieldAt s off g.svid).raw = .ok sat ∧
    residAt s lay n hdr (off + g.svid.width + widthOf lay.record) = some (l, b) ∧
    x = (.sat sat, .gridSat (withQuality s.cfg (fieldsAt s (off + g.svid.width) lay.record)) l) ∧
    bits = g.svid.width + widthOf lay.record + b

theorem reads_gridSat (hok : gridLayoutOk lay = true) {g : GridSat} (hg : widthOk g.svid.width = true) (off : Nat) :
    Reads s off (.read g.svid.width :: mustBe (satOfSvid s.cfg .grid g.cons (fieldAt s off g.svid).raw) ::
        fieldEvents lay.record ++ residEvents s lay p.network p.fields (off + (g.svid.width + widthOf lay.record)))
      (GridSatAt s lay g p.network p.fields off) (readGridSat s lay g p) := by
  rw [← Nat.add_assoc]
  refine (Reads.field_bind hg (.lift_bind fun sat _ =>
    .fields_bind (gridLayout_record_widths hok) (reads_resid hok).map)).congr fun x bits => ⟨?_, ?_⟩
  · rintro ⟨sat, l, b, hsat, hl, rfl, rfl⟩
    exact ⟨_, ⟨sat, hsat, b, ⟨l, hl, rfl⟩, rfl⟩, Nat.add_assoc _ _ _⟩
  · rintro ⟨_, ⟨sat, hsat, b, ⟨l, hl, rfl⟩, rfl⟩, rfl⟩
    exact ⟨sat, l, b, hsat, hl, rfl, (Nat.add_assoc _ _ _).symm⟩

theorem gridSatsAt_succ {g : GridSat} {n : NetworkId} {hdr : List RawField} {nsat bits : Nat} {recs : List (EntryKey × Record)} :
    gridSatsAt s lay g n hdr off (nsat + 1) = some (recs, bits) ↔
      ∃ x n1 rest n2, GridSatAt s lay g n hdr off x n1 ∧ gridSatsAt s lay g n hdr (off + n1) nsat = some (rest, n2) ∧
        recs = x :: rest ∧ bits = n1 + n2 := by
  rw [gridSatsAt]
  constructor
  · intro h
    split at h
    · next sat l b hsat hl =>
      obtain ⟨⟨rest, n2⟩, hrest, hx⟩ := Option.map_eq_some_iff.mp h
      cases hx
      exact ⟨_, _, rest, n2, ⟨sat, l, b, hsat, hl, rfl, rfl⟩, hrest, rfl, rfl⟩
    · cases h
  · rintro ⟨_, _, rest, n2, ⟨sat, l, b, hsat, hl, rfl, rfl⟩, hrest, rfl, rfl⟩
    simp only [hsat, hl, hrest, Option.map_some]

theorem reads_gridSats (hok : gridLayoutOk lay = true) {g : GridSat} (hg : widthOk g.svid.width = true) (off nsat : Nat) :
    Reads s off (gridSatEvents s lay g p.network p.fields off nsat)
      (fun recs bits => gridSatsAt s lay g p.network p.fields off nsat = some (recs, bits))
      (Rd.times (readGridSat s lay g p) nsat) :=
  Reads.times (At := fun off nsat recs bits => gridSatsAt s lay g p.network p.fields off nsat = some (recs, bits))
    (reads_gridSat hok hg) (by simp [gridSatsAt, eq_comm]) (fun _ _ _ _ => gridSatsAt_succ) (fun _ => rfl)
    (fun _ _ => rfl) off nsat

/-- The events of a grid message behind its header. -/
def gridRecordEvents (s : State) (lay : GridLayout) (n : NetworkId) (hdr : List RawField) (off : Nat) : List Event :=
  match lay.perSat with
  | none => fieldEvents lay.record ++ residEvents s lay n hdr (off + widthOf lay.record)
  | some g => mustHave (rawOf .nsat hdr) :: gridSatEvents s lay g n hdr off ((countOf .nsat hdr).getD 0)

theorem gridEvents_eq (s : State) (h : CorrHandler) (k : CacheKind) (lay : GridLayout) (off : Nat) :
    gridEvents s h k lay off = headerEvents s lay.header off ++
      (gridRecordEvents s lay (messageKey h (fieldsAt s off lay.header)) (fieldsAt s off lay.header) (off + widthOf lay.header) ++
        [iodEvent s h lay.header off [k]]) :=
  List.append_assoc _ _ _

/-- The reading of a grid message behind its header. -/
def readGridRecords (s : State) (lay : GridLayout) (p : CorrPrep) : Rd (List (EntryKey × Record)) :=
  match lay.perSat with
  | none => readGridModel s lay p
  | some g => (Rd.entry (countOf .nsat p.fields)).bind fun nsat => Rd.times (readGridSat s lay g p) nsat

theorem readGrid_eq (s : State) (h : CorrHandler) (pre : Option (List RawField)) (k : CacheKind) (lay : GridLayout) :
    readGrid s h pre k lay =
      (readPrep s h).bind fun p => (readGridRecords s lay p).bind fun recs => finishCorr s h pre p [k] recs := by
  rw [readGrid]
  refine congrArg _ (funext fun p => ?_)
  rw [readGridRecords]
  cases lay.perSat with
  | none => rfl
  | some g => exact (Rd.bind_assoc _ _ _).symm

theorem reads_gridRecords (hok : gridLayoutOk lay = true) :
    Reads s off (gridRecordEvents s lay p.network p.fields off)
      (fun recs bits => gridAt s lay p.network p.fields off = some (recs, bits)) (readGridRecords s lay p) := by
  rw [gridRecordEvents, readGridRecords]
  cases hg : lay.perSat with
  | none =>
    simp only [gridAt, hg]
    exact reads_gridModel hok
  | some g =>
    have hsvid : widthOk g.svid.width = true := gridLayout_widths hok _ (by simp [GridLayout.descs, hg])
    simp only [gridAt, hg, ← mustHave_countOf, Option.bind_eq_some_iff]
    refine Reads.entry_bind fun nsat hn => ?_
    rw [hn]
    exact reads_gridSats hok hsvid off nsat

/-- A grid message reads what its description says (R279, R280). -/
theorem reads_grid {h : CorrHandler} (pre : Option (List RawField)) (k : CacheKind) (hds : corrHeaderOf s.cfg h = some lay.header)
    (hok : gridLayoutOk lay = true) :
    Reads s off (gridEvents s h k lay off)
      (fun x bits => ∃ p recs b flag, HeaderAt s h lay.header off p ∧
        gridAt s lay p.network p.fields (off + widthOf lay.header) = some (recs, b) ∧ bits = widthOf lay.header + b ∧
        iodCheckOf s.cfg s.cs p.network [k] p.epoch p.hdr.iod = .ok flag ∧ x = correctionHandled s h pre p [k] recs flag)
      (readGrid s h pre k lay) := by
  have hheader : ∀ d ∈ lay.header, widthOk d.width = true := fun d hd => gridLayout_widths hok d (by simp [GridLayout.descs, hd])
  rw [gridEvents_eq, readGrid_eq]
  refine reads_correction pre hds hheader fun p hp => ?_
  rw [← hp.fields, ← hp.network]
  exact reads_gridRecords hok

/-! ## What a grid message puts into the caches -/

theorem recordPart_gridSatsAt {g : GridSat} {n : NetworkId} {hdr : List RawField} {nsat bits : Nat}
    {recs : List (EntryKey × Record)} (h : gridSatsAt s lay g n hdr off nsat = some (recs, bits)) (ck : CacheKind) :
    ∀ x ∈ recs, recordPart ck x.2 = x.2 := by
  induction nsat generalizing off recs bits with
  | zero =>
    cases h
    simp
  | succ nsat ih =>
    obtain ⟨_, _, rest, _, ⟨sat, l, b, -, -, rfl, -⟩, hrest, rfl, -⟩ := gridSatsAt_succ.mp h
    exact List.forall_mem_cons.mpr ⟨rfl, ih hrest⟩

/-- The records of a grid message have one part, themselves. -/
theorem recordPart_gridAt {n : NetworkId} {hdr : List RawField} {bits : Nat} {recs : List (EntryKey × Record)}
    (h : gridAt s lay n hdr off = some (recs, bits)) (ck : CacheKind) : ∀ x ∈ recs, recordPart ck x.2 = x.2 := by
  rw [gridAt] at h
  split at h
  · obtain ⟨nsat, -, hsats⟩ := Option.bind_eq_some_iff.mp h
    exact recordPart_gridSatsAt hsats ck
  · obtain ⟨r, -, hx⟩ := Option.map_eq_some_iff.mp h
    cases hx
    refine List.forall_mem_cons.mpr ⟨rfl, fun x hx => ?_⟩
    obtain ⟨y, -, rfl⟩ := List.mem_map.mp hx
    rfl

end

/-! ## The grid rows -/

/-- The layout a grid message is read by: GRID_TROPO takes its model once, whatever its layout says of satellites (log 28). -/
def GridRow (cfg : Cfg) (h : CorrHandler) (k : CacheKind) (lay : GridLayout) : Prop :=
  (h = .gridTropo ∧ k = .tropo ∧ cfg.tropoLayout.map (fun l => { l with perSat := none }) = some lay) ∨
    (h = .gridIono ∧ k = .iono ∧ cfg.ionoLayout = some lay)

section
variable {s : State} {h : CorrHandler} {k : CacheKind} {lay : GridLayout}

theorem gridRow_checks (hrow : GridRow s.cfg h k lay) (hacc : cfgAccepted s.cfg = true) :
    gridLayoutOk lay = true ∧ corrHeaderOf s.cfg h = some lay.header := by
  have hchecks := layoutChecks_of_accepted hacc
  obtain ⟨rfl, rfl, hl⟩ | ⟨rfl, rfl, hl⟩ := hrow
  · obtain ⟨l, htropo, rfl⟩ := Option.map_eq_some_iff.mp hl
    have hok := hchecks.tropo l htropo
    refine ⟨?_, by rw [corrHeaderOf, htropo, Option.map_some]⟩
    simp only [gridLayoutOk, Bool.and_eq_true, Option.all_none] at hok ⊢
    obtain ⟨⟨⟨hheader, -⟩, hrecord⟩, hresid⟩ := hok
    exact ⟨⟨⟨hheader, trivial⟩, hrecord⟩, hresid⟩
  · exact ⟨hchecks.iono lay hl, by rw [corrHeaderOf, hl, Option.map_some]⟩

theorem readGridTropo_eq {pre : Option (List RawField)} (hl : s.cfg.tropoLayout.map (fun l => { l with perSat := none }) = some lay) :
    readGridTropo s pre = readGrid s .gridTropo pre .tropo lay := by
  obtain ⟨l, htropo, rfl⟩ := Option.map_eq_some_iff.mp hl
  exact Rd.entryFor_bind_some htropo _

theorem readGridIono_eq {pre : Option (List RawField)} (hl : s.cfg.ionoLayout = some lay) :
    readGridIono s pre = readGrid s .gridIono pre .iono lay :=
  Rd.entryFor_bind_some hl _

end

/-- Settles O47: a grid row's reader is the grid message's, and its cache update is CACHE_UPDATE's. -/
theorem gridReadsItsBitPositions : Obligations.GridReadsItsBitPositions := by
  unfold Obligations.GridReadsItsBitPositions
  intro s h k i lay hc hacc hrow
  obtain ⟨r, hr, hreader, hgrid⟩ : ∃ r, messageReader i.wireClass = some r ∧
      r { s with window := false } = readGrid s h none k lay ∧ GridRow s.cfg h k lay := by
    obtain ⟨rfl, rfl, rfl, hl⟩ | ⟨rfl, rfl, rfl, hl⟩ := hrow
    · exact ⟨_, rfl, readGridTropo_eq (s := { s with window := false }) hl, .inl ⟨rfl, rfl, hl⟩⟩
    · exact ⟨_, rfl, readGridIono_eq (s := { s with window := false }) hl, .inr ⟨rfl, rfl, hl⟩⟩
  obtain ⟨hok, hds⟩ := gridRow_checks hgrid hacc
  have hreads := reads_grid (off := s.cur.off) none k hds hok
  refine ⟨fun p recs bits flag hp hrecs hfit hflag => ⟨?_, updateKinds_singleton hc (recordPart_gridAt hrecs k)⟩, fun x hx => ?_⟩
  · exact exec_message_ok hr hc
      ((congrFun hreader _).trans (hreads.ok ⟨p, recs, bits, flag, hp, hrecs, rfl, hflag, rfl⟩ hfit))
  · exact exec_message_stopsAt hr hc ((congrFun hreader _).trans (hreads.stop hx))

end Sys2Proof.Machine

/-! The statement of 47_correction_ssr.md about IGS (O46): the leading fields and the subtype, then the handler the subtype selects. -/

namespace Sys2Proof.Machine

/-! ## What follows the leading fields and the subtype (R198, R200, R285) -/

/-- The events of what a subtype selects. -/
def targetEvents (s : State) (off : Nat) : Option SubTarget → List Event
  | none => []
  | some (.ssr c k) =>
    match s.cfg.igsLayout.lookup (c, k) with
    | none => [mustHaveFor (.handler (.igs c k)) (s.cfg.igsLayout.lookup (c, k))]
    | some lay => correctionEvents s (.igs c k) .igs c k lay off
  | some .gridTropo =>
    match s.cfg.tropoLayout with
    | none => [mustHaveFor (.handler .gridTropo) s.cfg.tropoLayout]
    | some lay => gridEvents s .gridTropo .tropo { lay with perSat := none } off
  | some .gridIono =>
    match s.cfg.ionoLayout with
    | none => [mustHaveFor (.handler .gridIono) s.cfg.ionoLayout]
    | some lay => gridEvents s .gridIono .iono lay off

/-- The reading of what a subtype selects. -/
def readTarget (s : State) (pre : List RawField) : Option SubTarget → Rd Handled
  | none => readRaw s s.frameType
  | some x => readSubtype s pre x

/-- What the subtype of a message behind the leading fields selects (R198). -/
def igsTarget (s : State) (px : IgsPrefix) : Option SubTarget :=
  s.cfg.igsSubtypeTable.lookup (fieldAt s (s.cur.off + widthOf px.pre) px.subtype).raw

section
variable {s : State} {px : IgsPrefix} {pre : List RawField} {off : Nat}

theorem igsEvents_eq (s : State) (px : IgsPrefix) :
    igsEvents s px = fieldEvents px.pre ++
      .read px.subtype.width :: targetEvents s (s.cur.off + widthOf px.pre + px.subtype.width) (igsTarget s px) := by
  simp only [igsEvents, igsTarget]
  cases s.cfg.igsSubtypeTable.lookup (fieldAt s (s.cur.off + widthOf px.pre) px.subtype).raw with
  | none => rfl
  | some x => cases x <;> rfl

theorem readIgs_eq (hpx : s.cfg.igsPrefix = some px) :
    readIgs s = (readFields s px.pre).bind fun pre => (readRawField s px.subtype).bind fun sub =>
      readTarget s pre (s.cfg.igsSubtypeTable.lookup sub.raw) := by
  rw [readIgs, hpx]
  change (readFields s px.pre).bind _ = _
  refine congrArg (Rd.bind _) (funext fun pre => congrArg (Rd.bind _) (funext fun sub => ?_))
  cases s.cfg.igsSubtypeTable.lookup sub.raw <;> rfl

/-- The reading of an IGS message, given that of what its subtype selects. -/
theorem reads_igs (hacc : cfgAccepted s.cfg = true) (hpx : s.cfg.igsPrefix = some px) {V : Handled → Nat → Prop}
    (hrest : Reads s (s.cur.off + (widthOf px.pre + px.subtype.width))
      (targetEvents s (s.cur.off + (widthOf px.pre + px.subtype.width)) (igsTarget s px)) V
      (readTarget s (fieldsAt s s.cur.off px.pre) (igsTarget s px))) :
    Reads s s.cur.off (igsEvents s px) (fun x n => ∃ n', V x n' ∧ n = widthOf px.pre + px.subtype.width + n') (readIgs s) := by
  have hdescs (d : FieldDesc) (hd : d ∈ px.subtype :: px.pre) : widthOk d.width = true :=
    (FieldDesc.ok_iff.mp (prefix_descs_ok ((layoutChecks_of_accepted hacc).igsPrefix px hpx) d hd)).1
  rw [← Nat.add_assoc] at hrest
  rw [igsEvents_eq, readIgs_eq hpx]
  refine (Reads.fields_bind (fun d hd => hdescs d (by simp [hd]))
    (.field_bind (hdescs px.subtype (by simp)) hrest)).congr fun x n => ⟨?_, ?_⟩
  · rintro ⟨n', hx, rfl⟩
    exact ⟨_, ⟨n', hx, rfl⟩, Nat.add_assoc _ _ _⟩
  · rintro ⟨_, ⟨n', hx, rfl⟩, rfl⟩
    exact ⟨n', hx, (Nat.add_assoc _ _ _).symm⟩

/-! ### Each of them -/

section
variable {c : Constellation} {k : SsrKind} {lay : SsrLayout}

theorem reads_target_ssr (hacc : cfgAccepted s.cfg = true) (hl : s.cfg.igsLayout.lookup (c, k) = some lay) :
    Reads s off (targetEvents s off (some (.ssr c k)))
      (fun x n => ∃ p recs flag, CorrectionAt s (.igs c k) .igs c k lay off p recs n ∧
        iodCheckOf s.cfg s.cs p.network (cacheKindsOf k) p.epoch p.hdr.iod = .ok flag ∧
        x = correctionHandled s (.igs c k) (some pre) p (cacheKindsOf k) recs flag)
      (readTarget s pre (some (.ssr c k))) := by
  have hok : ssrLayoutOk lay = true := (layoutChecks_of_accepted hacc).igs _ (mem_of_lookup_pair hl)
  have hevents : targetEvents s off (some (.ssr c k)) = correctionEvents s (.igs c k) .igs c k lay off := by
    simp only [targetEvents, hl]
  have hreader : readTarget s pre (some (.ssr c k)) = readCorr s (.igs c k) (some pre) .igs c k lay :=
    Rd.entryFor_bind_some hl _
  rw [hevents, hreader]
  exact reads_corr (some pre) (by rw [corrHeaderOf, hl, Option.map_some]) hok

end

section
variable {h : CorrHandler} {k : CacheKind} {lay : GridLayout} {x : SubTarget}

/-- The subtype that selects a grid message. -/
def GridTarget (cfg : Cfg) (x : SubTarget) (h : CorrHandler) (k : CacheKind) (lay : GridLayout) : Prop :=
  (x = .gridTropo ∧ h = .gridTropo ∧ k = .tropo ∧ cfg.tropoLayout.map (fun l => { l with perSat := none }) = some lay) ∨
    (x = .gridIono ∧ h = .gridIono ∧ k = .iono ∧ cfg.ionoLayout = some lay)

theorem reads_target_grid (hacc : cfgAccepted s.cfg = true) (hx : GridTarget s.cfg x h k lay) :
    Reads s off (targetEvents s off (some x))
      (fun y bits => ∃ p recs b flag, HeaderAt s h lay.header off p ∧
        gridAt s lay p.network p.fields (off + widthOf lay.header) = some (recs, b) ∧ bits = widthOf lay.header + b ∧
        iodCheckOf s.cfg s.cs p.network [k] p.epoch p.hdr.iod = .ok flag ∧
        y = correctionHandled s h (some pre) p [k] recs flag)
      (readTarget s pre (some x)) := by
  obtain ⟨hevents, hreader, hrow⟩ : targetEvents s off (some x) = gridEvents s h k lay off ∧
      readTarget s pre (some x) = readGrid s h (some pre) k lay ∧ GridRow s.cfg h k lay := by
    obtain ⟨rfl, rfl, rfl, hl⟩ | ⟨rfl, rfl, rfl, hl⟩ := hx
    · obtain ⟨l, htropo, rfl⟩ := Option.map_eq_some_iff.mp hl
      exact ⟨by simp only [targetEvents, htropo], readGridTropo_eq hl, .inl ⟨rfl, rfl, hl⟩⟩
    · exact ⟨by simp only [targetEvents, hl], readGridIono_eq hl, .inr ⟨rfl, rfl, hl⟩⟩
  obtain ⟨hok, hds⟩ := gridRow_checks hrow hacc
  rw [hevents, hreader]
  exact reads_grid (some pre) k hds hok

end

/-- A missing layout is the one condition of what needs it. -/
theorem reads_missing {α β : Type} {x : UsageArg} {o : Option α} (ho : o = none) (k : α → Rd β) :
    Reads s off [mustHaveFor x o] (fun _ _ => False) ((Rd.entryFor x o).bind k) := by
  refine (Reads.entryFor_bind (W := fun _ _ _ => False) fun a ha => ?_).congr (by simp)
  cases ho.symm.trans ha

/-- Whatever the subtype selects follows its events. -/
theorem exists_reads_target (hacc : cfgAccepted s.cfg = true) (o : Option SubTarget) :
    ∃ V, Reads s off (targetEvents s off o) V (readTarget s pre o) := by
  match o with
  | none => exact ⟨_, Reads.pure _⟩
  | some (.ssr c k) =>
    cases hl : s.cfg.igsLayout.lookup (c, k) with
    | some lay => exact ⟨_, reads_target_ssr hacc hl⟩
    | none => exact ⟨_, by simp only [targetEvents, readTarget, readSubtype, hl]; exact reads_missing rfl _⟩
  | some .gridTropo =>
    cases hl : s.cfg.tropoLayout with
    | some lay => exact ⟨_, reads_target_grid hacc (.inl ⟨rfl, rfl, rfl, by rw [hl, Option.map_some]⟩)⟩
    | none => exact ⟨_, by simp only [targetEvents, readTarget, readSubtype, readGridTropo, hl]; exact reads_missing rfl _⟩
  | some .gridIono =>
    cases hl : s.cfg.ionoLayout with
    | some lay => exact ⟨_, reads_target_grid hacc (.inr ⟨rfl, rfl, rfl, hl⟩)⟩
    | none => exact ⟨_, by simp only [targetEvents, readTarget, readSubtype, readGridIono, hl]; exact reads_missing rfl _⟩

end

/-! ## The row -/

/-- The handler does not look at the configuration window. -/
theorem readIgs_window (s : State) : readIgs { s with window := false } = readIgs s := by
  have htarget (pre : List RawField) (x : SubTarget) : readSubtype { s with window := false } pre x = readSubtype s pre x := by
    cases x with
    | ssr c k =>
      simp only [readSubtype, readCorr_window]
    | gridTropo => rfl
    | gridIono => rfl
  simp only [readIgs, htarget]
  rfl

/-- Settles O46: the reading of what the subtype selects, behind the leading fields and the subtype. -/
theorem igsDispatchesOnTheSubtype : Obligations.IgsDispatchesOnTheSubtype := by
  unfold Obligations.IgsDispatchesOnTheSubtype
  intro s px hc hacc hpx o1 o2 pre target
  have hi : messageReader Instr.igs.wireClass = some readIgs := rfl
  have answers {x : Handled} {n : Nat} {V : Handled → Nat → Prop} (htarget : Reads s (s.cur.off + o2)
      (targetEvents s (s.cur.off + o2) target) V (readTarget s (fieldsAt s s.cur.off px.pre) target))
      (hx : V x n) (hfit : Fits s (o2 + n)) :
      exec .igs s = .next { s.answers (.message x.msg) with
        cur := { s.cur with off := s.cur.off + (o2 + n) }, lk := x.lk, cs := x.cs, is := x.is } :=
    exec_message_ok hi hc ((congrFun (readIgs_window s) _).trans ((reads_igs hacc hpx htarget).ok ⟨n, hx, rfl⟩ hfit))
  refine ⟨fun c k lay p recs bits flag htarget hl hat hfit hflag => ?_,
    fun h ck lay p recs bits flag hsel hp hrecs hfit hflag => ?_, fun htarget hfit => ?_, fun x hx => ?_⟩
  · rw [htarget] at answers
    exact ⟨answers (reads_target_ssr hacc hl) ⟨p, recs, flag, hat, hflag, rfl⟩ hfit, correction_caches hc hat⟩
  · obtain ⟨x, htarget, hx⟩ : ∃ x, target = some x ∧ GridTarget s.cfg x h ck lay :=
      hsel.elim (fun ⟨ht, hh, hk, hl⟩ => ⟨_, ht, .inl ⟨rfl, hh, hk, hl⟩⟩) (fun ⟨ht, hh, hk, hl⟩ => ⟨_, ht, .inr ⟨rfl, hh, hk, hl⟩⟩)
    rw [htarget] at answers
    rw [Nat.add_assoc] at hfit ⊢
    exact ⟨answers (reads_target_grid hacc hx) ⟨p, recs, bits, flag, hp, hrecs, rfl, hflag, rfl⟩ hfit,
      updateKinds_singleton hc (recordPart_gridAt hrecs ck)⟩
  · rw [htarget] at answers
    exact ⟨s.frameType, s.payload, answers (Reads.pure _) ⟨rfl, rfl⟩ hfit, fun hv => ⟨if_pos hv, rfl⟩⟩
  · obtain ⟨V, hV⟩ := exists_reads_target (s := s) (pre := fieldsAt s s.cur.off px.pre) (off := s.cur.off + o2) hacc target
    exact exec_message_stopsAt hi hc ((congrFun (readIgs_window s) _).trans ((reads_igs hacc hpx hV).stop hx))

end Sys2Proof.Machine

/-! SUPPORT and the statement of 49_integrity.md about the integrity messages (O48). -/

namespace Sys2Proof.Machine

/-! ## Values that an integrity message looks up (R331) -/

section
variable {s : State} {off : Nat}

theorem follows_entryFor {α : Type} (x : UsageArg) (o : Option α) :
    Follows s off [mustHaveFor x o] (fun a => o = some a) (Rd.entryFor x o) := by
  refine ⟨(reads_entryFor x o).follows.stop, fun hnone => ?_⟩
  obtain ⟨a, ha, hread⟩ := (reads_entryFor x o).follows.ok hnone
  exact ⟨a, ha.1, hread⟩

/-- A missing entry is a condition. -/
theorem follows_missing {α β : Type} {P : β → Prop} {o : Option α} (ho : o = none) (k : α → Rd β) :
    Follows s off [mustHave o] P ((Rd.entry o).bind k) := by
  subst ho
  refine ⟨fun x hx => ?_, fun h => ?_⟩
  · cases hx
    rfl
  · cases h

theorem follows_bitsU {w : Nat} (hw : widthOk w = true) : Follows s off [.read w] (· = bitsAt s off w) (readBitsU s w) := by
  obtain ⟨h1, h64⟩ := widthOk_iff.mp hw
  refine ⟨fun x hx => ?_, fun h => ⟨_, rfl, ?_⟩⟩
  · rw [firstStop_read] at hx
    split at hx
    · next htrunc => cases hx; exact readBitsU_truncated h1 h64 htrunc
    · cases hx
  · rw [firstStop_read] at h
    split at h
    · cases h
    · next hfit => rw [bitsAt_eq]; exact readBitsU_ok h1 h64 (Nat.le_of_not_lt hfit)

theorem follows_values {ds : List FieldDesc} (hds : ∀ d ∈ ds, widthOk d.width = true) :
    Follows s off (lookupEvents s off ds) (· = valuesAt s off ds)
      (Rd.forEach (fun d => (readBitsU s d.width).bind fun idx =>
        (Rd.lift (lookupIndex s.cfg d idx)).map fun v => (d.name, v)) ds) := by
  induction ds generalizing off with
  | nil => exact Follows.pure rfl
  | cons d ds ih =>
    have hvalue : Follows s off ([.read d.width] ++ [mustBe (lookupIndex s.cfg d (bitsAt s off d.width))])
        (· = (d.name, (lookupIndex s.cfg d (bitsAt s off d.width)).toOption.getD .notProvided))
        ((readBitsU s d.width).bind fun idx => (Rd.lift (lookupIndex s.cfg d idx)).map fun v => (d.name, v)) := by
      refine (follows_bitsU (hds d (by simp))).bind rfl ?_
      rintro _ rfl
      exact (follows_lift _).map fun v hv => by rw [hv]; rfl
    refine hvalue.bind (off' := off + d.width) rfl ?_
    rintro _ rfl
    have hrest := (ih (off := off + d.width) fun d' hd' => hds d' (by simp [hd'])).bind (fs := []) rfl
      (k := fun bs => Rd.pure ((d.name, (lookupIndex s.cfg d (bitsAt s off d.width)).toOption.getD .notProvided) :: bs))
      (Q := (· = valuesAt s off (d :: ds))) (by rintro _ rfl; exact Follows.pure rfl)
    rwa [List.append_nil] at hrest

/-! ## The header (R330, R331) -/

/-- The events of one header field. -/
def integFieldEvents (s : State) (off : Nat) (d : FieldDesc) : List Event :=
  .read d.width :: (match headerTable s.cfg d.name with
    | none => []
    | some _ => [mustBe (lookupIndex s.cfg d (bitsAt s off d.width))])

/-- The value of one header field. -/
def integFieldAt (s : State) (off : Nat) (d : FieldDesc) : IntegHdrVal :=
  match headerTable s.cfg d.name with
  | none => .plain (fieldAt s off d).val
  | some _ => .looked ((lookupIndex s.cfg d (bitsAt s off d.width)).toOption.getD .notProvided)

@[simp] theorem eventBits_integFieldEvents (s : State) (off : Nat) (d : FieldDesc) :
    eventBits (integFieldEvents s off d) = d.width := by
  rw [integFieldEvents]
  split <;> rfl

theorem integHeaderEvents_cons (s : State) (off : Nat) (d : FieldDesc) (ds : List FieldDesc) :
    integHeaderEvents s off (d :: ds) = integFieldEvents s off d ++ integHeaderEvents s (off + d.width) ds := rfl

theorem integHeaderAt_cons (s : State) (off : Nat) (d : FieldDesc) (ds : List FieldDesc) :
    integHeaderAt s off (d :: ds) = (d.name, integFieldAt s off d) :: integHeaderAt s (off + d.width) ds := rfl

@[simp] theorem eventBits_integHeaderEvents (s : State) (off : Nat) (ds : List FieldDesc) :
    eventBits (integHeaderEvents s off ds) = widthOf ds := by
  induction ds generalizing off with
  | nil => rfl
  | cons d ds ih =>
    rw [integHeaderEvents_cons, eventBits_append, eventBits_integFieldEvents, ih]
    rfl

theorem follows_integField {d : FieldDesc} (hd : widthOk d.width = true) :
    Follows s off (integFieldEvents s off d) (· = (fieldAt s off d, integFieldAt s off d)) (readIntegHeaderField s d) := by
  rw [integFieldEvents, ← List.singleton_append]
  refine (follows_field hd).bind (off' := off + d.width) rfl ?_
  rintro _ rfl
  rw [integFieldAt]
  cases headerTable s.cfg d.name with
  | none => exact Follows.pure rfl
  | some tbl => exact (follows_lift _).map fun v hv => by rw [show lookupIndex s.cfg d (bitsAt s off d.width) = .ok v from hv]; rfl

theorem follows_integHeader {ds : List FieldDesc} (hds : ∀ d ∈ ds, widthOk d.width = true) :
    Follows s off (integHeaderEvents s off ds)
      (fun hdr => hdr.map Prod.fst = fieldsAt s off ds ∧ hdr.map (fun x => (x.1.name, x.2)) = integHeaderAt s off ds)
      (Rd.forEach (readIntegHeaderField s) ds) := by
  induction ds generalizing off with
  | nil => exact Follows.pure ⟨rfl, rfl⟩
  | cons d ds ih =>
    rw [integHeaderEvents_cons, integHeaderAt_cons]
    refine (follows_integField (hds d (by simp))).bind (off' := off + d.width) (by rw [eventBits_integFieldEvents]) ?_
    rintro _ rfl
    refine (ih fun d' hd' => hds d' (by simp [hd'])).map ?_
    rintro hdr ⟨hfields, hvals⟩
    rw [List.map_cons, List.map_cons, hfields, hvals]
    exact ⟨rfl, rfl⟩

end

/-! ## A walk and the reading it describes (R330) -/

/-- From where the walk `w` has come to, `m` does what the events say that `w'` has more than `w`, and reads the part of `w'`. -/
def Goes (s : State) (w : Walk) (m : Rd IntegPart) (w' : Walk) : Prop :=
  ∃ es, w'.events = w.events ++ es ∧ w'.off = w.off + eventBits es ∧ Follows s w.off es (· = w'.part) m

section
variable {s : State} {w w' : Walk} {m : Rd IntegPart} {k : IntegPart → Rd IntegPart} {es : List Event} {part : IntegPart}

theorem Goes.stay (s : State) (w : Walk) : Goes s w (Rd.pure w.part) w :=
  ⟨[], (List.append_nil _).symm, rfl, Follows.pure rfl⟩

theorem Goes.go (h : Follows s w.off es (· = part) m) : Goes s w m (w.go es part) :=
  ⟨es, rfl, rfl, h⟩

theorem Goes.bind {w1 w2 : Walk} (hm : Goes s w m w1) (hk : Goes s w1 (k w1.part) w2) : Goes s w (m.bind k) w2 := by
  obtain ⟨es, hevents, hoff, hfollows⟩ := hm
  obtain ⟨fs, hevents', hoff', hfollows'⟩ := hk
  refine ⟨es ++ fs, by rw [hevents', hevents, List.append_assoc], by rw [hoff', hoff, eventBits_append, Nat.add_assoc], ?_⟩
  refine hfollows.bind hoff.symm ?_
  rintro _ rfl
  exact hfollows'

/-- Steps that each go along their walk go along the walk of all of them. -/
theorem Goes.foldSteps {β : Type} {f : IntegPart → β → Rd IntegPart} {g : Walk → β → Walk} {bs : List β}
    (h : ∀ b ∈ bs, ∀ w, Goes s w (f w.part b) (g w b)) (w : Walk) : Goes s w (Rd.foldSteps f bs w.part) (bs.foldl g w) := by
  induction bs generalizing w with
  | nil => exact .stay s w
  | cons b bs ih => exact (h b (by simp) w).bind (ih (fun b' hb' => h b' (by simp [hb'])) (g w b))

theorem convertAll_eq_filterMap {α β : Type} {f : α → Except Cond β} {as : List α} {bs : List β} (h : convertAll f as = .ok bs) :
    bs = (as.map f).filterMap (·.toOption) := by
  induction as generalizing bs with
  | nil => cases h; rfl
  | cons a as ih =>
    rw [convertAll] at h
    split at h
    · cases h
    · next b hb =>
      split at h
      · cases h
      · next bs' hbs =>
        cases h
        rw [List.map_cons, hb, ih hbs]
        rfl

theorem follows_entries {α : Type} (look : Nat → Option α) (ks : List Nat) {off : Nat} :
    Follows s off (ks.map fun k : Nat => mustHaveFor (.int k) (look k)) (· = ks.filterMap look)
      (Rd.forEach (fun k : Nat => Rd.entryFor (.int k) (look k)) ks) := by
  induction ks with
  | nil => exact Follows.pure rfl
  | cons k ks ih =>
    refine (follows_entryFor (.int k) (look k)).bind (off' := off) rfl fun a ha => ih.map ?_
    rintro _ rfl
    rw [List.filterMap_cons, ha]

/-- A mask whose indices are each converted (R330, R333). -/
theorem follows_convertedMask {α : Type} (f : MaskId) {m : MaskDesc} (hw : 1 ≤ m.width) (conv : Nat → Except Cond α)
    {put : List α → IntegPart} {off : Nat} :
    Follows s off (maskEvents m.width ++ ((maskAt s f m off).map conv).map mustBe)
      (· = put (((maskAt s f m off).map conv).filterMap (·.toOption)))
      ((readMaskField s f m).bind fun ks => (Rd.lift (convertAll conv ks)).map put) := by
  refine (follows_mask f hw).bind rfl ?_
  rintro _ rfl
  rw [List.map_map]
  exact (follows_convertAll conv _).map fun l hl => by rw [convertAll_eq_filterMap hl]

end

/-! ## The steps of a layout (R330, R333, R334) -/

section
variable {s : State} {ds : List FieldDesc}

theorem goes_elem (hds : ∀ d ∈ ds, widthOk d.width = true) (e : IntegElem) (w : Walk) :
    Goes s w (readElem s ds w.part e) (elemWalk s ds w e) :=
  .go <| (follows_values hds).map <| by
    rintro _ rfl
    rfl

theorem goes_inner {x : IntegInner} (hx : ∀ d ∈ x.descs, widthOk d.width = true) (own : IntegElem) (pairs : List IntegElem)
    (w : Walk) : Goes s w (readInner s own pairs w.part x) (innerWalk s own pairs w x) := by
  cases x with
  | record ds => exact goes_elem hx own w
  | each ds => exact Goes.foldSteps (fun e _ w => goes_elem hx e w) w

variable {key : IntegKey} {lay : IntegLayout}

theorem integLayout_masks (hok : integLayoutOk s.cfg lay = true) (c : Constellation) :
    1 ≤ lay.consMask.width ∧ (∀ m, lay.satMask.get c = some m → 1 ≤ m.width) ∧
      ∀ m, lay.freqMask.get c = some m → 1 ≤ m.mask.width := by
  simp only [integLayoutOk, maskOk, Bool.and_eq_true, List.all_eq_true, Option.all_eq_true, decide_eq_true_eq] at hok
  obtain ⟨⟨⟨⟨⟨⟨-, hcons⟩, -⟩, hmasks⟩, -⟩, -⟩, -⟩ := hok
  exact ⟨hcons, hmasks c (mem_allConstellations c)⟩

/-- The indices of a mask as the integers a conversion takes. -/
theorem natCast_indices (ks : List Nat) : (do let k ← ks; pure (k : Int)) = ks.map Nat.cast := by
  rw [List.map_eq_flatMap]
  rfl

theorem goes_consStep (hok : integLayoutOk s.cfg lay = true) (c : Constellation) {x : IntegConsStep}
    (hx : ∀ d ∈ x.descs, widthOk d.width = true) (w : Walk) :
    Goes s w (readConsStep s key lay c w.part x) (consWalk s key lay c w x) := by
  obtain ⟨-, hsat, hfreq⟩ := integLayout_masks hok c
  have inner {steps : List IntegInner} (hsteps : ∀ d ∈ steps.flatMap IntegInner.descs, widthOk d.width = true) (own : IntegElem)
      (pairs : List IntegElem) (w : Walk) :
      Goes s w (Rd.foldSteps (readInner s own pairs) steps w.part) (steps.foldl (innerWalk s own pairs) w) :=
    .foldSteps (fun x hx w => goes_inner (fun d hd => hsteps d (List.mem_flatMap.mpr ⟨x, hx, hd⟩)) own pairs w) w
  cases x with
  | satMask =>
    rw [readConsStep, consWalk]
    cases hm : lay.satMask.get c with
    | none => exact .go (follows_missing rfl _)
    | some m =>
      simp only [natCast_indices, List.map_map (g := fun v => satOfSvid s.cfg .integ c v)]
      exact .go (follows_convertedMask _ (hsat m hm) (fun v : Nat => satOfSvid s.cfg .integ c v)
        (put := fun l => { w.part with sats := w.part.sats ++ [(c, l)] }))
  | freqMask =>
    rw [readConsStep, consWalk]
    cases hm : lay.freqMask.get c with
    | none => exact .stay s w
    | some m =>
      exact .go (follows_convertedMask _ (hfreq m hm) (freqItem s.cfg c m.table)
        (put := fun l => { w.part with freqs := w.part.freqs ++ [(c, l)] }))
  | record ds => exact goes_elem hx _ w
  | eachSat steps => exact .foldSteps (fun i _ w => inner hx _ _ w) w
  | eachFreq steps => exact .foldSteps (fun f _ w => inner hx _ _ w) w

theorem goes_step (hok : integLayoutOk s.cfg lay = true) {x : IntegStep} (hx : ∀ d ∈ x.descs, widthOk d.width = true) (w : Walk) :
    Goes s w (readIntegStep s key lay w.part x) (stepWalk s key lay w x) := by
  cases x with
  | consMask =>
    refine .go ((follows_mask _ (integLayout_masks hok .gps).1).bind rfl ?_)
    rintro _ rfl
    refine (follows_entries (fun k => lay.consOf.lookup k) _).map ?_
    rintro _ rfl
    rfl
  | record ds => exact goes_elem hx _ w
  | eachCons steps =>
    exact .foldSteps (fun c _ w => .foldSteps (fun x hmem w =>
      goes_consStep hok c (fun d hd => hx d (List.mem_flatMap.mpr ⟨x, hmem, hd⟩)) w) w) w

end

/-! ## A message under its layout (R330, R336) -/

section
variable {s : State} {key : IntegKey} {lay : IntegLayout}

/-- What the handler answers and stages (R330, R336). -/
def integHandled (s : State) (key : IntegKey) (pre : List RawField) (p raw : Int) (ref : Time) (part : IntegPart) : Handled :=
  ⟨.integrity ⟨key, fieldsOf pre, p, part⟩, s.lk, s.cs, (integUpdate s.cfg s.is p (epochOf s.cfg .integ raw ref) key part).1⟩

/-- The walk behind the header and what is looked up of it. -/
def integStart (s : State) (key : IntegKey) (lay : IntegLayout) (off : Nat) : Walk :=
  ⟨⟨lastOf (integHeaderAt s off lay.header), [], [], [], []⟩, off + widthOf lay.header,
    integHeaderEvents s off lay.header ++
      [mustHaveFor (.int key.type) (rawOf .provider (fieldsAt s off lay.header)),
        mustHaveFor (.int key.type) (rawOf .epoch (fieldsAt s off lay.header)), mustHave s.refTime]⟩

theorem integStart_events (s : State) (key : IntegKey) (lay : IntegLayout) (off : Nat) (es : List Event) :
    (integStart s key lay off).events ++ es = integHeaderEvents s off lay.header ++
      ([mustHaveFor (.int key.type) (rawOf .provider (fieldsAt s off lay.header))] ++
        ([mustHaveFor (.int key.type) (rawOf .epoch (fieldsAt s off lay.header))] ++ ([mustHave s.refTime] ++ es))) :=
  List.append_assoc _ _ _

/-- The steps of a layout go along the message's walk. -/
theorem goes_body (hok : integLayoutOk s.cfg lay = true) (off : Nat) :
    Goes s (integStart s key lay off)
      (Rd.foldSteps (readIntegStep s key lay) lay.body (integStart s key lay off).part) (integWalk s key lay off) := by
  refine Goes.foldSteps (fun x hx w => goes_step hok (fun d hd => ?_) w) (integStart s key lay off)
  have hmem : d ∈ lay.header ++ lay.records := List.mem_append_right _ (List.mem_flatMap.mpr ⟨x, hx, hd⟩)
  exact (FieldDesc.ok_iff.mp ((integLayout_checks hok).1 d hmem)).1

/-- The reading of a message follows the events of its walk (R330). -/
theorem follows_integBody (hok : integLayoutOk s.cfg lay = true) (pre : List RawField) (off : Nat) :
    Follows s off (integWalk s key lay off).events
      (fun x => ∃ p raw ref, rawOf .provider (fieldsAt s off lay.header) = some p ∧
        rawOf .epoch (fieldsAt s off lay.header) = some raw ∧ s.refTime = some ref ∧
        x = integHandled s key pre p raw ref (integWalk s key lay off).part)
      (readIntegBody s key.type (key, pre) lay) := by
  have hheader : ∀ d ∈ lay.header, widthOk d.width = true := fun d hd =>
    (FieldDesc.ok_iff.mp ((integLayout_checks hok).1 d (by simp [hd]))).1
  obtain ⟨es, hevents, -, hbody⟩ := goes_body (key := key) hok off
  rw [hevents, integStart_events, readIntegBody]
  refine (follows_integHeader hheader).bind (off' := off + widthOf lay.header) (by rw [eventBits_integHeaderEvents]) ?_
  rintro hdr ⟨hfields, hvals⟩
  rw [hfields, hvals]
  refine (follows_entryFor _ _).bind (off' := off + widthOf lay.header) rfl fun p hp => ?_
  refine (follows_entryFor _ _).bind (off' := off + widthOf lay.header) rfl fun raw hraw => ?_
  refine (follows_entry s.refTime).bind (off' := off + widthOf lay.header) rfl fun ref href => ?_
  refine hbody.map ?_
  rintro _ rfl
  exact ⟨p, raw, ref, hp, hraw, href, rfl⟩

end

/-! ## The row (R330) -/

/-- The handler does not look at the configuration window. -/
theorem readInteg_window (s : State) (t : BitVec 12) : readInteg { s with window := false } t = readInteg s t := by
  have hcons (key : IntegKey) (lay : IntegLayout) :
      readConsStep { s with window := false } key lay = readConsStep s key lay := by
    funext c p x
    cases x <;> simp only [readConsStep, readMaskField_window] <;> rfl
  have hstep (key : IntegKey) (lay : IntegLayout) :
      readIntegStep { s with window := false } key lay = readIntegStep s key lay := by
    funext p x
    cases x with
    | consMask => simp only [readIntegStep, readMaskField_window]
    | record ds => rfl
    | eachCons steps => simp only [readIntegStep, hcons]
  simp only [readInteg, readIntegBody, hstep]
  rfl

section
variable {s : State} {t : BitVec 12}

/-- A type without subtypes has its own key, and nothing is read for it. -/
theorem readIntegKey_plain {n : Nat} (hpx : s.cfg.integPrefix.lookup n = none) (off : Nat) :
    readIntegKey s n off = .ok (⟨n, none⟩, []) off := by
  simp only [readIntegKey, hpx]
  rfl

theorem integPrefix_widths (hacc : cfgAccepted s.cfg = true) {n : Nat} {px : IgsPrefix}
    (hpx : s.cfg.integPrefix.lookup n = some px) : ∀ d ∈ px.subtype :: px.pre, widthOk d.width = true := fun d hd =>
  (FieldDesc.ok_iff.mp (prefix_descs_ok ((layoutChecks_of_accepted hacc).integPrefix _ (mem_of_lookup_pair hpx)) d hd)).1

/-- A subtype takes bits. -/
theorem integKey_bits_ne_zero (hacc : cfgAccepted s.cfg = true) {n : Nat} {px : IgsPrefix}
    (hpx : s.cfg.integPrefix.lookup n = some px) : widthOf px.pre + px.subtype.width ≠ 0 := by
  have := (widthOk_iff.mp (integPrefix_widths hacc hpx px.subtype (by simp))).1
  omega

/-- The leading fields and the subtype of a type that has subtypes (R330). -/
theorem reads_integKey (hacc : cfgAccepted s.cfg = true) {n : Nat} {px : IgsPrefix} (hpx : s.cfg.integPrefix.lookup n = some px)
    (off : Nat) :
    Reads s off (fieldEvents px.pre ++ [.read px.subtype.width])
      (fun x bits => x = (⟨n, some (fieldAt s (off + widthOf px.pre) px.subtype).raw⟩, fieldsAt s off px.pre) ∧
        bits = widthOf px.pre + px.subtype.width)
      (readIntegKey s n) := by
  have hdescs := integPrefix_widths hacc hpx
  simp only [readIntegKey, hpx]
  refine (Reads.fields_bind (fun d hd => hdescs d (by simp [hd]))
    (reads_field (hdescs px.subtype (by simp))).map).congr fun x bits => ⟨?_, ?_⟩
  · rintro ⟨rfl, rfl⟩
    exact ⟨_, ⟨_, ⟨rfl, rfl⟩, rfl⟩, rfl⟩
  · rintro ⟨_, ⟨_, ⟨rfl, rfl⟩, rfl⟩, rfl⟩
    exact ⟨rfl, rfl⟩

/-- A handler behind its leading fields is the reading under the layout the key selects. -/
theorem readInteg_layout {key : IntegKey} {pre : List RawField} {off off' : Nat} {lay : IntegLayout}
    (hkey : readIntegKey s t.toNat off = .ok (key, pre) off') (hl : s.cfg.integLayout.lookup key = some lay) :
    readInteg s t off = readIntegBody s t.toNat (key, pre) lay off' := by
  rw [readInteg, Rd.bind_ok hkey]
  simp only [hl]

/-- A subtype without a layout is an unknown type (D17, R360). -/
theorem readInteg_unknown {key : IntegKey} {pre : List RawField} {off off' : Nat} {v : Int}
    (hkey : readIntegKey s t.toNat off = .ok (key, pre) off') (hl : s.cfg.integLayout.lookup key = none)
    (hsub : key.sub = some v) : readInteg s t off = readRaw s t off' := by
  rw [readInteg, Rd.bind_ok hkey]
  simp only [hl, hsub]

end

/-- Settles O48: the key selects the layout, and the reading under it follows the walk. -/
theorem integrityUpdatesOneProvider : Obligations.IntegrityUpdatesOneProvider := by
  unfold Obligations.IntegrityUpdatesOneProvider
  intro s t hc hacc
  have hi : messageReader (Instr.integ t).wireClass = some fun s => readInteg s t := rfl
  have hwindow : readInteg { s with window := false } t s.cur.off = readInteg s t s.cur.off := congrFun (readInteg_window s t) _
  refine ⟨fun px x hpx hx => ?_, fun px hpx hfit hnone => ⟨s.payload, ?_, fun _ => rfl⟩, fun key pre lay bits0 hkey hfit hl => ?_⟩
  · exact exec_message_stopsAt hi hc (hwindow.trans (Rd.bind_stop ((reads_integKey hacc hpx _).stop hx) _))
  · have hread := (reads_integKey hacc hpx s.cur.off).ok ⟨rfl, rfl⟩ hfit
    exact exec_message_plain hi hc (hwindow.trans (readInteg_unknown hread hnone rfl))
  · have hok := (layoutChecks_of_accepted hacc).integ _ (mem_of_lookup_pair hl)
    obtain ⟨hread, htype⟩ : readIntegKey s t.toNat s.cur.off = .ok (key, pre) (s.cur.off + bits0) ∧ key.type = t.toNat := by
      cases hpx : s.cfg.integPrefix.lookup t.toNat with
      | none =>
        simp only [hpx] at hkey
        obtain ⟨rfl, rfl, rfl⟩ := hkey
        exact ⟨readIntegKey_plain hpx _, rfl⟩
      | some px =>
        simp only [hpx] at hkey
        obtain ⟨rfl, rfl, rfl⟩ := hkey
        exact ⟨(reads_integKey hacc hpx s.cur.off).ok ⟨rfl, rfl⟩ (hfit.resolve_left (integKey_bits_ne_zero hacc hpx)), rfl⟩
    have hreader := hwindow.trans (readInteg_layout hread hl)
    have hbody := follows_integBody (key := key) hok pre (s.cur.off + bits0)
    rw [htype] at hbody
    refine ⟨fun p raw ref hnone hp hraw href => ?_, fun x hx => exec_message_stopsAt hi hc (hreader.trans (hbody.stop x hx))⟩
    obtain ⟨_, ⟨p', raw', ref', hp', hraw', href', rfl⟩, hdone⟩ := hbody.ok hnone
    cases hp.symm.trans hp'
    cases hraw.symm.trans hraw'
    cases href.symm.trans href'
    rw [Nat.add_assoc] at hdone
    exact exec_message_ok hi hc (hreader.trans hdone)

end Sys2Proof.Machine
